-- ==== Sys2Proof/Word.lean ====
section
/-! DEFINITION. The word types of the KW1 and the sparse tables in which the model holds what has many cells. -/

namespace Sys2Proof

/-- A 32-bit register, scalar or instruction word (R32, R49). -/
abbrev Word := BitVec 32

/-- A 64-bit register pair, literal or virtual address (R37, R39). -/
abbrev DWord := BitVec 64

/-- One byte of memory (R2). -/
abbrev Byte := BitVec 8

/-- A data label: 0 OPEN, 1 TENANT, 2 METERED, 3 SEALED (R238, R348). -/
abbrev Label := BitVec 2

/-- One bit for each of a yarn's 64 lanes (R118). -/
abbrev Mask := BitVec 64

/-- A sparse table: cells in strictly rising key order, no cell equal to what an unlisted key reads as. -/
abbrev Store (α : Type) := List (Nat × α)

end Sys2Proof
end

