-- ==== Sys2Proof/Config.lean ====
section
/-! DEFINITION. What an implementation fixes and the spec leaves open: free values, with no body. -/

namespace Sys2Proof

/-- Which of several enabled steps comes next, for the step counted by the argument (R29, R133; log 2). -/
opaque Config.freeChoice : Nat → Nat

/-- How often a candidate may be passed over (R131; log 2). -/
opaque Config.patience : Nat

/-- Cycles that pass, beyond one, during the step counted by the argument (R173, R373; log 3). -/
opaque Config.freeElapsed : Nat → Nat

/-- XARG of a trap for which R113 names no value, by step count (log 15). -/
opaque Config.freeXarg : Nat → DWord

/-- Whether fexp2 takes the upper of the two neighbours of its exact value (R207; log 10). -/
opaque Config.fexp2Up : Word → Bool

/-- Whether flog2 takes the upper of the two neighbours of its exact value (R207; log 10). -/
opaque Config.flog2Up : Word → Bool

/-- Which of the floats within 1 ulp of its exact value frsq takes (R207; log 10). -/
opaque Config.frsqStep : Word → Nat

/-- The float fsin offers, before it is held to within 2^-22 of the sine (R207; log 10). -/
opaque Config.fsinFree : Word → Word

/-- The float fcos offers, before it is held to within 2^-22 of the cosine (R207; log 10). -/
opaque Config.fcosFree : Word → Word

/-- Which of the floats within 2 ulp GELU takes (R219; log 10). -/
opaque Config.geluFree : Word → Word

/-- Bytes a function's snapshot pool holds, by step count (R231; log 17). -/
opaque Config.snapshotRoom : Nat → Nat

/-- What the read of an atomic gives whose write was lost with its holder, by step count (R263; log 32). -/
opaque Config.lostValue : Nat → BitVec 64

/-- The load field of an answer, by step count (R324; log 18). -/
opaque Config.loadField : Nat → BitVec 3

/-- SHA-384 of a byte string (R355, R358, R359, R361; log 11). -/
opaque Config.sha384 : List Byte → BitVec 384

/-- ECDSA P-384 signature under the device identity key (R359, R361; log 11). -/
opaque Config.ecdsaSign : List Byte → List Byte

/-- LMS signature (R359, R361; log 11). -/
opaque Config.lmsSign : List Byte → List Byte

/-- Whether a firmware image's two signatures verify (R365, R371; log 11). -/
opaque Config.signaturesVerify : List Byte → Bool

/-- AES-256-XTS decryption of one 32-byte unit: key, tweak, ciphertext (R358; log 11). -/
opaque Config.xtsDecrypt : BitVec 256 → Nat → List Byte → List Byte

/-- The identifier of the tenant a function's memory key was drawn for, by draw number (R358; log 11). -/
opaque Config.tenant : Nat → BitVec 256

/-- The public half of a tenant's sealing key pair on this chip (R358; log 11). -/
opaque Config.sealingPublic : BitVec 256 → List Byte

/-- The content key a wrapped key unwraps to under a tenant's sealing key pair on this chip, or none (R358; log 11). -/
opaque Config.unwrapKey : BitVec 256 → List Byte → Option (BitVec 256)

/-- AES-256-GCM encryption under key and nonce (R321, R363; log 11). -/
opaque Config.gcmSeal : BitVec 256 → BitVec 96 → List Byte → List Byte

/-- AES-256-GCM decryption under key and nonce (R321, R363; log 11). -/
opaque Config.gcmOpen : BitVec 256 → BitVec 96 → List Byte → List Byte

/-- AES-256-GCM tag: key, nonce, additional data, ciphertext (R321, R363; log 11). -/
opaque Config.gcmTag : BitVec 256 → BitVec 96 → List Byte → List Byte → BitVec 128

/-- CRC-32 over a flit's bytes 0 to 251 (R321; log 11). -/
opaque Config.crc32 : List Byte → Word

/-- HKDF-SHA-384 of a link key: the next epoch's key (R372; log 11). -/
opaque Config.nextKey : BitVec 256 → BitVec 256

/-- The kind of the access-log entry for a bounce channel opened anew (R363; log 25). -/
opaque Config.resyncKind : Byte

/-- The key that the exchange of both ends yields as a link trains again after standby, by port and step count (R367, R372; log 11). -/
opaque Config.exchangedKey : Nat → Nat → BitVec 256

/-- The port of the far end of a link, by this end's port (R321; log 23). -/
opaque Config.farPort : Nat → BitVec 5

/-- Whether the link between two other packages of the pod is up, by step count (R320; log 23). -/
opaque Config.podLink : Nat → BitVec 12 → BitVec 12 → Bool

/-- Payload units in use of the data flit that carries a message, by the message's number (R321; log 23). -/
opaque Config.flitUnits : Nat → BitVec 3

/-- Payload bytes of the data flit that carries a message, by the message's number (R321; log 23). -/
opaque Config.flitBody : Nat → BitVec 1792

/-- A key drawn from the trusted firmware's random source, by draw number (R362; log 11). -/
opaque Config.freshKey : Nat → BitVec 256

end Sys2Proof
end

