-- ==== Sys2Proof/Args.lean ====
section
/-! DEFINITION. The parts of an encoded instruction: operand, type, rounding, policy, guard (R32 to R44). -/

namespace Sys2Proof

/-- Types of both classes of R41; `none` for an instruction without a type. -/
inductive Ty where
  | none
  | s32 | n32 | b32 | s64 | n64 | b64 | s16 | n16 | s8 | n8 | s4 | n4
  | f32 | f16 | bf16 | f64 | t16e1 | t8e0 | t8e1 | t6e0 | t6e1
  deriving DecidableEq, Repr, Inhabited

/-- The special registers of R58, in the order of their codes 0xE0 to 0xF2. -/
inductive SReg where
  | lane | fibreX | fibreY | fibreZ | yarnX | yarnY | yarnZ | strandX | strandY | strandZ
  | coilX | coilY | coilZ | stage | launchid | fray | cycles | peer | label
  deriving DecidableEq, Repr, Inhabited

/-- An operand (R38, R40); `none` where the instruction reads no such operand. -/
inductive Operand where
  | none
  | v (n : BitVec 7)
  | s (n : BitVec 6)
  | int (k : BitVec 5)      -- inline, two's complement -16 to 15
  | pred (n : BitVec 3)
  | special (r : SReg)
  | lit (w : DWord)
  deriving DecidableEq, Repr, Inhabited

/-- A destination (R34); `none` for an instruction without one. -/
inductive Dest where
  | none
  | v (n : BitVec 7)
  | s (n : BitVec 6)
  | p (n : BitVec 3)
  deriving DecidableEq, Repr, Inhabited

/-- Rounding modes (R43). -/
inductive Rnd where
  | rne | rtz | rdn | rup
  deriving DecidableEq, Repr, Inhabited

/-- Cache policies (R43, R255). -/
inductive Policy where
  | normal | stream | keep | nocache
  deriving DecidableEq, Repr, Inhabited

/-- An instruction guard: the predicate, or its complement (R28, R34). -/
structure Guard where
  p : BitVec 3
  neg : Bool
  deriving DecidableEq, Repr, Inhabited

/-- Everything an encoded instruction holds beside its opcode. `sub` is the sub-opcode where the mnemonic
covers several (a condition, a shuffle or an atomic operation) and 0 elsewhere; `src` is the source type of
cvt and fcvt; `mods` are the modifier bits [31:29]. The last-read bits of a and b stand in the clause header. -/
structure Args where
  guard : Guard := ⟨7, false⟩
  dst : Dest := .none
  a : Operand := .none
  b : Operand := .none
  c : Operand := .none
  ty : Ty := .none
  src : Ty := .none
  sub : BitVec 4 := 0
  rnd : Rnd := .rne
  sat : Bool := false
  mods : BitVec 3 := 0
  swz : BitVec 3 := 0
  off : BitVec 24 := 0
  pol : Policy := .normal
  lrC : Bool := false
  deriving DecidableEq, Repr, Inhabited

/-- The encoded mnemonics of the opcode table, in its order. -/
inductive Op where
  | add | sub | mulLo | mulHi | mad | madWide | minI | maxI | absI | negI | andB | orB | xorB | andn | notB 
  | shl | shr | sar | rot | shf | popc | clz | ctz | brev | bext | bins | cmp | sel | mov | movi | lea | dp4 
  | cvt | perm | lut16 | lprev | shfl | vote | bcast | scan | redux | matchL | fadd | fsub | fmul | ffma | fmin 
  | fmax | fcmp | fsel | frcp | frsq | fsqrt | fexp2 | flog2 | fsin | fcos | fscale | ffrac | fround | fcvt 
  | qnt | dqnt | bmax | pack | unpack | mma | accLd | accSt | accZero | mmchk | bra | braConditional | brx 
  | call | ret | exitF | nop | yieldI | trapI | tret | brk | pand | por | pxor | pnot | pmov | frayq | lds | sts 
  | ldw | stw | atoms | rinit | arrive | rwait | arwait | ringPutAcq | ringPutRel | ringTakeAcq | ringTakeRel 
  | spawn | endF | monw | mwait | ld | st | atom | red | ldAcq | stRel | fenceAcq | fenceRel | fenceAr 
  | prefetch | cwb | cinv | shape | tbinit | tbarrive | tbexpect | tbwait | tlwait | tlread | annc | wdrw | prom 
  | rtq | rtsync | knotInit | knotPut | knotTake | knotQuery | csrr | csrw | lblset | lbldn
  deriving DecidableEq, Repr, Inhabited

end Sys2Proof
end

