-- ==== Sys2Proof/Events.lean ====
section
/-! DEFINITION. What the package exchanges with the world outside it: requests, answers, messages, flits, passes. -/

namespace Sys2Proof

/-- A peer number of the domain (R8). -/
abbrev Peer := BitVec 12

/-- A fabric physical address: peer in [56:45], offset in [44:0] (R8). -/
abbrev Fab := BitVec 57

/-- What a request asks of its holder (R245, R250, R264, R307, R339). -/
inductive ReqKind where
  | load | store | atom | red | knot
  deriving DecidableEq, Repr, Inhabited

/-- What a request asks: the access, taken in and performed at once; the checks of steps 6 and 7 of R244 alone, for an access
that comes once every lane and part has passed them (R104, R249); that access; or that it will not come. -/
inductive ReqStage where
  | whole | ask | go | drop
  deriving DecidableEq, Repr, Inhabited

/-- One lane's or one engine sector's request to the holder of an address. The spec gives requests no wire
format: these are the facts its rules use. -/
structure Request where
  id : Nat := 0                -- the requester's number for it
  src : Peer := 0
  srcInc : BitVec 16 := 0      -- R263
  dstInc : BitVec 16 := 0      -- R263
  kind : ReqKind := .load
  addr : Fab := 0
  pfx : Fab := 0               -- the prefix whose holder was chosen (R307)
  len : Nat := 0               -- its length
  width : Nat := 0             -- bytes read or written
  data : List Byte := []       -- bytes written; operand b of an atomic; a knot's operands
  data2 : List Byte := []      -- operand c of a compare-and-swap
  op : BitVec 4 := 0           -- atomic operation (R139) or knot sub-opcode (R341)
  ty : Ty := .none
  label : Label := 0           -- label of the requester's page (R248, R304)
  strong : Bool := false       -- from a STRONG page (R304)
  whole : Bool := false        -- it completes a whole line that one copy or epilogue store writes (R325)
  owned : Bool := false        -- from an OWNED page: ownership is asked for (R264)
  stage : ReqStage := .whole
  deriving DecidableEq, Repr, Inhabited

/-- A holder's answer: accepted with the bytes read, or refused with a cause (R244 step 7, R245); and who sends it, with the
incarnations it names (R263). -/
structure Answer where
  src : Peer := 0
  srcInc : BitVec 16 := 0
  dstInc : BitVec 16 := 0
  ok : Bool := true
  cause : Byte := 0
  data : List Byte := []
  label : Label := 0           -- of a knot's published value (R345)
  load : BitVec 3 := 0         -- the load field L (R324)
  deriving DecidableEq, Repr, Inhabited

/-- Whom a packet of the line protocol comes from, and the incarnations it names (R263, R264). -/
structure Packet where
  src : Peer := 0
  ack : Option Nat := none     -- the sender's number for it, where it awaits an acknowledgement
  srcInc : BitVec 16 := 0
  dstInc : BitVec 16 := 0
  deriving DecidableEq, Repr, Inhabited

/-- An acknowledgement: the number its receiver gave what is acknowledged, and who sends it, with the incarnations it names (R254,
R263). -/
structure Ack where
  id : Nat
  src : Peer := 0
  srcInc : BitVec 16 := 0
  dstInc : BitVec 16 := 0
  deriving DecidableEq, Repr, Inhabited

/-- A line's bytes on their way: granted, with the label of their frame; written back, with the label of the last write to the line
where it was (R248, R264). -/
structure LineBytes where
  line : Fab
  data : List Byte
  lab : Option Label := none
  deriving DecidableEq, Repr, Inhabited

/-- A 256-byte flit, its parts named (R321). -/
structure Flit where
  sequence : Word := 0
  acknowledged : Word := 0
  kind : Byte := 0
  units : Byte := 0
  epoch : BitVec 16 := 0
  body : BitVec 1792 := 0      -- bytes 12 to 235
  tag : BitVec 128 := 0
  crc : Word := 0
  deriving DecidableEq, Repr, Inhabited

/-- A member's mark in a ring pass (R332, R333). -/
structure PassMark where
  member : Nat
  round : BitVec 16
  added : Bool
  late : Bool
  deriving DecidableEq, Repr, Inhabited

/-- A chunk of a ring pass (R332, R335). Its descriptor, members, knot and round name its binding; `launch` numbers the
binding's launch where the pass stands. The spec gives passes no wire format: these are the facts its rules use. -/
structure Pass where
  launch : Nat := 0
  fn : Nat := 0                -- the function of the launch it started for
  knot : Option Fab := none
  round : BitVec 16 := 0
  desc : BitVec 512 := 0
  members : List Peer := []
  chunk : Nat := 0
  hop : Nat := 0               -- members visited so far
  phase : Nat := 1             -- 0 scale agreement, 1 the combine, 2 the broadcast path
  turn : Nat := 0              -- passes of the round before this one
  back : Bool := false         -- a partial returned to its starting member (R333)
  elems : List DWord := []     -- the partial: FP32 words, integers, or exact sums in units of 2^(S - 167)
  units : List Byte := []      -- S of each block, for the partial as it stands
  scales : List Byte := []     -- S of each block, as agreed so far
  present : Mask := 0
  marks : List PassMark := []
  label : Label := 0
  bytes : List Byte := []      -- on the broadcast path, the combined chunk
  sent : Bool := false         -- on the broadcast path, whether it has gone on from here
  done : Nat := 0              -- and how many of its bytes are written here
  deriving DecidableEq, Repr, Inhabited

/-- The pass of a chunk asked for: by the member a start message comes from, or by this package (R333). `of_` is a pass of the
round, where no launch here is bound to it. -/
structure PassWish where
  chunk : Nat
  ask : Option Nat := none
  of_ : Option Pass := none
  deriving DecidableEq, Repr, Inhabited

/-- What leaves the package. -/
inductive Msg where
  | route (dst : Peer) (m : BitVec 256)                       -- R301
  | request (dst : Peer) (r : Request)                        -- R245
  | answer (dst : Peer) (id : Nat) (a : Answer)               -- R245
  | acked (dst : Peer) (a : Ack)                              -- R254
  | recall (dst : Peer) (p : Packet) (line : Fab)                          -- R264
  | grant (dst : Peer) (p : Packet) (d : LineBytes)                        -- R264
  | writeBack (dst : Peer) (p : Packet) (d : LineBytes) (release : Bool)   -- R264: whether ownership is given up
  | signal (dst : Peer) (inc : BitVec 16) (ctx : Word) (offset : Nat)  -- R172, R277
  | pass (dst : Peer) (p : Pass)                              -- R332
  | marks (home : Fab) (p : Pass)                            -- R333, to the knot's home
  | verdict (dst : Peer) (p : Pass) (close : Bool) (lag : List Byte)       -- R333
  | published (dst : Peer) (p : Pass)                         -- R333, the broadcast path
  | startPass (dst : Peer) (p : Pass)      -- R333
  | flit (port : Nat) (f : Flit)                             -- R321
  | mailbox (fn : Nat) (data : List Byte)                    -- R360, R361, a response of the firmware
  | windowData (fn : Nat) (ok : Bool) (data : List Byte)     -- R350, the completion of a host read
  | bounceOut (fn chan : Nat) (data : List Byte) (tag : BitVec 128)      -- R363
  deriving DecidableEq, Repr, Inhabited

/-- A grant slot's contents (R355). -/
structure Grant where
  base : DWord
  length : Nat
  hash : BitVec 384
  budget : Nat
  used : Nat := 0
  deriving DecidableEq, Repr, Inhabited

/-- A seal window's contents (R358). -/
structure SealWindow where
  pfx : Fab
  len : Nat
  fn : Nat
  wrapped : List Byte
  hash : BitVec 384
  deriving DecidableEq, Repr, Inhabited

/-- A breakpoint: a clause header's address and an instruction's index there, kept to a launch, a coil, a strand of the coil
or a yarn of the strand where one is named, by its number (R11, R117, R236). -/
structure Break where
  pc : BitVec 57
  idx : Nat
  launch : Option Nat := none
  coil : Option Nat := none
  strand : Option Nat := none
  yarn : Option Nat := none
  deriving DecidableEq, Repr, Inhabited

/-- What an attached fid session asks to be stopped at (R11, R117, R185). -/
structure Session where
  breaks : List Break := []
  catchFray : Bool := false
  catchWatchdog : Bool := false
  catchEvict : Bool := false
  ksteps : List (Nat × Nat) := []       -- launches, each with a K-step of its operation
  deriving DecidableEq, Repr, Inhabited

/-- What the host asks for on a function: a read or a write through its memory window, or a read of its fid through it (R236, R350);
and what fid's `win`, `tb` and `tl` show of a stopped yarn's lane or of a stopped strand, by their numbers (R266). -/
inductive HostAccess where
  | read | write | fid
  | win (y lane : Nat) | tb (x : Nat) | tl (x : Nat)
  deriving DecidableEq, Repr, Inhabited

/-- What bring-up measures and loads: the boot ROM, the two firmware images and the fuses (R361, R365, R371). -/
structure Images where
  rom : List Byte
  trusted : List Byte
  service : List Byte
  fuses : List Byte
  deriving DecidableEq, Repr, Inhabited

end Sys2Proof
end

