-- ==== Sys2Proof/Syntax.lean ====
section
/-! DEFINITION. The steps of the KW1: one constructor for each row of the opcode table. -/

namespace Sys2Proof

/-- The steps of the machine, one constructor per row of spec/opcode_table.json. The encoded instructions carry
`Args`; the events carry what names their object in the state (`y` a yarn, `g` a group, `x` a strand's context id,
`l` a launch) or what reaches the package from outside. -/
inductive Instr where
  | add (x : Args)  -- R70
  | sub (x : Args)  -- R70
  | mulLo (x : Args)  -- R70
  | mulHi (x : Args)  -- R70
  | mad (x : Args)  -- R70
  | madWide (x : Args)  -- R71
  | minI (x : Args)  -- R70
  | maxI (x : Args)  -- R70
  | absI (x : Args)  -- R70
  | negI (x : Args)  -- R70
  | andB (x : Args)  -- R72
  | orB (x : Args)  -- R72
  | xorB (x : Args)  -- R72
  | andn (x : Args)  -- R72
  | notB (x : Args)  -- R72
  | shl (x : Args)  -- R73
  | shr (x : Args)  -- R73
  | sar (x : Args)  -- R73
  | rot (x : Args)  -- R73
  | shf (x : Args)  -- R74
  | popc (x : Args)  -- R75
  | clz (x : Args)  -- R75
  | ctz (x : Args)  -- R75
  | brev (x : Args)  -- R75
  | bext (x : Args)  -- R76
  | bins (x : Args)  -- R76
  | cmp (x : Args)  -- R77
  | sel (x : Args)  -- R78
  | mov (x : Args)  -- R79
  | movi (x : Args)  -- R79
  | lea (x : Args)  -- R80
  | dp4 (x : Args)  -- R81
  | cvt (x : Args)  -- R82
  | perm (x : Args)  -- R84
  | lut16 (x : Args)  -- R85
  | lprev (x : Args)  -- R86
  | shfl (x : Args)  -- R87
  | vote (x : Args)  -- R88
  | bcast (x : Args)  -- R89
  | scan (x : Args)  -- R90
  | redux (x : Args)  -- R90
  | matchL (x : Args)  -- R91
  | fadd (x : Args)  -- R205
  | fsub (x : Args)  -- R205
  | fmul (x : Args)  -- R205
  | ffma (x : Args)  -- R205
  | fmin (x : Args)  -- R206
  | fmax (x : Args)  -- R206
  | fcmp (x : Args)  -- R206
  | fsel (x : Args)  -- R206
  | frcp (x : Args)  -- R207
  | frsq (x : Args)  -- R207
  | fsqrt (x : Args)  -- R207
  | fexp2 (x : Args)  -- R207
  | flog2 (x : Args)  -- R207
  | fsin (x : Args)  -- R207
  | fcos (x : Args)  -- R207
  | fscale (x : Args)  -- R205
  | ffrac (x : Args)  -- R207
  | fround (x : Args)  -- R207
  | fcvt (x : Args)  -- R208
  | qnt (x : Args)  -- R210
  | dqnt (x : Args)  -- R211
  | bmax (x : Args)  -- R212
  | pack (x : Args)  -- R213
  | unpack (x : Args)  -- R213
  | mma (x : Args)  -- R216
  | accLd (x : Args)  -- R224
  | accSt (x : Args)  -- R224
  | accZero (x : Args)  -- R225
  | mmchk (x : Args)  -- R226
  | bra (x : Args)  -- R94
  | braConditional (x : Args)  -- R94
  | brx (x : Args)  -- R94
  | call (x : Args)  -- R95
  | ret (x : Args)  -- R96
  | exitF (x : Args)  -- R97
  | nop (x : Args)  -- R98
  | yieldI (x : Args)  -- R98
  | trapI (x : Args)  -- R115
  | tret (x : Args)  -- R116
  | brk (x : Args)  -- R115
  | pand (x : Args)  -- R99
  | por (x : Args)  -- R99
  | pxor (x : Args)  -- R99
  | pnot (x : Args)  -- R99
  | pmov (x : Args)  -- R99
  | frayq (x : Args)  -- R100
  | lds (x : Args)  -- R137
  | sts (x : Args)  -- R137
  | ldw (x : Args)  -- R137
  | stw (x : Args)  -- R137
  | atoms (x : Args)  -- R139
  | rinit (x : Args)  -- R141
  | arrive (x : Args)  -- R142
  | rwait (x : Args)  -- R142
  | arwait (x : Args)  -- R142
  | ringPutAcq (x : Args)  -- R150
  | ringPutRel (x : Args)  -- R150
  | ringTakeAcq (x : Args)  -- R150
  | ringTakeRel (x : Args)  -- R150
  | spawn (x : Args)  -- R151
  | endF (x : Args)  -- R130
  | monw (x : Args)  -- R152
  | mwait (x : Args)  -- R153
  | ld (x : Args)  -- R247
  | st (x : Args)  -- R248
  | atom (x : Args)  -- R250
  | red (x : Args)  -- R251
  | ldAcq (x : Args)  -- R247
  | stRel (x : Args)  -- R248
  | fenceAcq (x : Args)  -- R253
  | fenceRel (x : Args)  -- R253
  | fenceAr (x : Args)  -- R253
  | prefetch (x : Args)  -- R256
  | cwb (x : Args)  -- R256
  | cinv (x : Args)  -- R256
  | shape (x : Args)  -- R283
  | tbinit (x : Args)  -- R289
  | tbarrive (x : Args)  -- R289
  | tbexpect (x : Args)  -- R289
  | tbwait (x : Args)  -- R289
  | tlwait (x : Args)  -- R292
  | tlread (x : Args)  -- R292
  | annc (x : Args)  -- R314
  | wdrw (x : Args)  -- R315
  | prom (x : Args)  -- R316
  | rtq (x : Args)  -- R317
  | rtsync (x : Args)  -- R318
  | knotInit (x : Args)  -- R343
  | knotPut (x : Args)  -- R344
  | knotTake (x : Args)  -- R345
  | knotQuery (x : Args)  -- R346
  | csrr (x : Args)  -- R352
  | csrw (x : Args)  -- R352
  | lblset (x : Args)  -- R353
  | lbldn (x : Args)  -- R354
  -- events
  | clauseStart (y g : Nat)  -- R27
  | rejoinWaitEnd (y g : Nat)  -- R103
  | longLatencyComplete (y k : Nat)  -- R26
  | requestAccepted (r : Nat) (ans : Answer)  -- R245
  | holderRequest (r : Request)  -- R307
  | writeAcknowledged (a : Ack)  -- R254
  | ownershipRequest (r : Request)  -- R264
  | recall (p : Packet) (line : Fab)  -- R264
  | writeBack (p : Packet) (d : LineBytes) (release : Bool)  -- R264
  | ownershipGrant (p : Packet) (d : LineBytes)  -- R264
  | qnotifyWrite (fn q : Nat) (w : Word)  -- R156
  | qctlWrite (fn q : Nat) (w : Word)  -- R156
  | launchPacket (fn q : Nat)  -- R159
  | barrierAndPacket (fn q : Nat)  -- R163
  | barrierAndComplete (fn q : Nat)  -- R163
  | signalPacket (fn q : Nat)  -- R163
  | coilPlace (l : Nat)  -- R165
  | evictCoil (l coil : Nat)  -- R169
  | restoreCoil (l coil : Nat)  -- R171
  | strandEnd (x : Nat)  -- R130
  | launchComplete (l : Nat)  -- R164
  | watchdog (x pt : Nat)  -- R145
  | spawnBinTimer (bin : Nat)  -- R126
  | binYarnStart (bin : Nat)  -- R127
  | spawnRecordPlaced (y g : Nat)  -- R129
  | spillReadback (x : Nat)  -- R128
  | monitorWake (y lane : Nat)  -- R153
  | mwaitLimit (y lane : Nat)  -- R153
  | copySector (x ch : Nat)  -- R284
  | copyDone (x ch : Nat)  -- R294
  | remoteCompletionSignal (inc : BitVec 16) (x offset : Nat)  -- R172
  | mmaKstep (x : Nat)  -- R217
  | mmaEpilogue (x : Nat)  -- R219
  | epilogueStore (x : Nat)  -- R228
  | uncorrectable (l core : Nat) (loc : BitVec 4) (addr : DWord)  -- R233
  | faultReplyRepaired (fn : Nat) (w : Word)  -- R109
  | faultReplyKill (fn : Nat) (w : Word)  -- R108
  | copyReplyRepaired (fn : Nat) (w : DWord)  -- R284
  | copyReplyKill (fn : Nat) (w : DWord)  -- R284
  | faultRecordWrite (fn : Nat)  -- R370
  | xlinv (fn : Nat) (w : DWord)  -- R239
  | xlinvComplete (fn : Nat)  -- R239
  | fenceRegisterWrite (die : Nat) (w : DWord)  -- R235
  | announce (m : BitVec 256)  -- R302
  | withdraw (m : BitVec 256)  -- R303
  | ack (m : BitVec 256)  -- R310
  | portUp (port : Nat) (far : Peer) (trunk : Bool)  -- R371
  | trunkPortDown (port : Nat)  -- R320
  | podPortDown (port : Nat)  -- R320
  | dataFlit (port : Nat) (f : Flit)  -- R322
  | idleFlit (port : Nat) (f : Flit)  -- R321
  | retryRequest (port : Nat) (f : Flit)  -- R322
  | rekeyFlit (port : Nat) (f : Flit)  -- R322
  | linkRetrain (port : Nat)  -- R322
  | sequenceExhaustion (port : Nat)  -- R322
  | linkTraining (port : Nat) (key : BitVec 256)  -- R372
  | loadFieldDecay (p : Peer)  -- R324
  | extentRevoke (p : Peer) (pfx : Fab) (len : Nat)  -- R326
  | revocationComplete (p : Peer) (pfx : Fab) (len : Nat)  -- R326
  | chunkFire (l chunk : Nat)  -- R331
  | passArrival (p : Pass)  -- R332
  | verdict (home : Fab) (p : Pass)  -- R333
  | verdictAnswer (p : Pass) (close : Bool) (lag : List Byte)  -- R333
  | broadcastHop (p : Pass)  -- R337
  | passStart (l : Nat) (w : PassWish)  -- R333
  | knotRequest (r : Request)  -- R339
  | meterRefill (fn : Nat)  -- R357
  | scrubStep (i : Nat)  -- R364
  | securityModeChange (fn : Nat) (mode : BitVec 2) (ranges : List (Fab × Nat))  -- R348
  | grantInstall (fn slot : Nat) (g : Option Grant)  -- R355
  | sealWindowInstall (k : Nat) (win : SealWindow)  -- R358
  | sealWindowRemove (k : Nat)  -- R358
  | logAcknowledge (seq : Nat)  -- R360
  | logSignRequest  -- R359
  | getMeasurements (nonce : List Byte)  -- R361
  | bounceRecord (fn chan at_ : Nat) (data : List Byte) (tag : BitVec 128)  -- R363
  | bounceResync (fn chan : Nat) (key : BitVec 256) (pfx : Fab) (len host : Nat)  -- R363
  | hostWindowAccess (fn : Nat) (kind : HostAccess) (va : DWord) (data : List Byte)  -- R350, R236
  | vendorDebugEntry (ranges : List (Fab × Nat))  -- R366
  | debugAttach (fn core : Nat) (c : Session)  -- R115
  | powerActive (die core : Nat)  -- R367
  | corePowerGated (die core : Nat)  -- R367
  | dieRetention (die : Nat)  -- R367
  | packageStandby  -- R367
  | coreClockGated (core : Nat)  -- R367
  | powerCapStep (up : Bool)  -- R368
  | thermalTrip (celsius : Nat)  -- R368
  | powerOnReset (im : Images)  -- R371
  | registerWrite (fn offset width : Nat) (w : DWord)  -- R369
  | debugContinue (fn : Nat) (x : Option Nat)  -- R115
  | debugDetach (fn core : Nat)  -- R359
  | rangeRelease (fn : Nat) (pfx : Fab) (len : Nat)  -- R364
  | egressMeterWrite (fn reg : Nat) (w : DWord)  -- R356
  | wakeThatNamesNoWrite (y lane : Nat)  -- R153
  | injectionRegulatorAdmit (r : Nat)  -- R324
  | errorFoundByScrubbing (addr : Fab)  -- R233
  deriving DecidableEq, Repr, Inhabited

end Sys2Proof
end

