-- ==== Sys2Proof/WellFormed.lean ====
section
/-! DEFINITION. What makes an instruction well-formed: the operand kinds, types, settings and destinations the
reference entry of its mnemonic allows (R34 to R48 and the encoding tables R68, R92, R135, R202, R242, R281, R312, R341,
R351), stated once, by mnemonic. The decoder checks with the same tables. -/

namespace Sys2Proof

/-- Operand kinds of the encoding tables' column key (R68): r any, u all but a vector register, p a predicate, g a
register pair that is an address base, v a vector register, imm inline or literal, count inline 0 to 13, s a scalar up
to a number. -/
inductive Kind where
  | none | r | u | p | g | v | imm | count
  | s (last : Nat)
  deriving DecidableEq, Repr

/-- The 64-bit types: their operands are pairs (R39). -/
def Ty.wide : Ty → Bool
  | .s64 | .n64 | .b64 | .f64 => true
  | _ => false

/-- The major opcode (R45). -/
def Op.major : Op → BitVec 7
  | .add => 0x00
  | .sub => 0x01
  | .mulLo => 0x02
  | .mulHi => 0x02
  | .mad => 0x03
  | .madWide => 0x04
  | .minI => 0x05
  | .maxI => 0x06
  | .absI => 0x07
  | .negI => 0x08
  | .andB => 0x09
  | .orB => 0x0A
  | .xorB => 0x0B
  | .andn => 0x0C
  | .notB => 0x0D
  | .shl => 0x0E
  | .shr => 0x0F
  | .sar => 0x10
  | .rot => 0x11
  | .shf => 0x12
  | .popc => 0x13
  | .clz => 0x14
  | .ctz => 0x15
  | .brev => 0x16
  | .bext => 0x17
  | .bins => 0x18
  | .cmp => 0x19
  | .sel => 0x1A
  | .mov => 0x1B
  | .movi => 0x1C
  | .lea => 0x1D
  | .dp4 => 0x1E
  | .cvt => 0x1F
  | .perm => 0x20
  | .lut16 => 0x21
  | .lprev => 0x22
  | .shfl => 0x23
  | .vote => 0x24
  | .bcast => 0x25
  | .scan => 0x26
  | .redux => 0x27
  | .matchL => 0x28
  | .fadd => 0x30
  | .fsub => 0x31
  | .fmul => 0x32
  | .ffma => 0x33
  | .fmin => 0x34
  | .fmax => 0x35
  | .fcmp => 0x36
  | .fsel => 0x37
  | .frcp => 0x38
  | .frsq => 0x39
  | .fsqrt => 0x3A
  | .fexp2 => 0x3B
  | .flog2 => 0x3B
  | .fsin => 0x3C
  | .fcos => 0x3C
  | .fscale => 0x3D
  | .ffrac => 0x3E
  | .fround => 0x3E
  | .fcvt => 0x3F
  | .qnt => 0x40
  | .dqnt => 0x41
  | .bmax => 0x42
  | .pack => 0x43
  | .unpack => 0x44
  | .mma => 0x48
  | .accLd => 0x49
  | .accSt => 0x4A
  | .accZero => 0x4B
  | .mmchk => 0x4C
  | .bra => 0x50
  | .braConditional => 0x51
  | .brx => 0x52
  | .call => 0x53
  | .ret => 0x54
  | .exitF => 0x55
  | .nop => 0x56
  | .yieldI => 0x57
  | .trapI => 0x58
  | .tret => 0x59
  | .brk => 0x5A
  | .pand => 0x5B
  | .por => 0x5B
  | .pxor => 0x5B
  | .pnot => 0x5B
  | .pmov => 0x5B
  | .frayq => 0x5C
  | .lds => 0x60
  | .sts => 0x61
  | .ldw => 0x62
  | .stw => 0x63
  | .atoms => 0x64
  | .rinit => 0x65
  | .arrive => 0x66
  | .rwait => 0x67
  | .arwait => 0x68
  | .ringPutAcq => 0x69
  | .ringPutRel => 0x69
  | .ringTakeAcq => 0x6A
  | .ringTakeRel => 0x6A
  | .spawn => 0x6B
  | .endF => 0x6C
  | .monw => 0x6D
  | .mwait => 0x6E
  | .ld => 0x70
  | .st => 0x71
  | .atom => 0x72
  | .red => 0x73
  | .ldAcq => 0x74
  | .stRel => 0x75
  | .fenceAcq => 0x76
  | .fenceRel => 0x76
  | .fenceAr => 0x76
  | .prefetch => 0x77
  | .cwb => 0x77
  | .cinv => 0x77
  | .shape => 0x78
  | .tbinit => 0x79
  | .tbarrive => 0x79
  | .tbexpect => 0x79
  | .tbwait => 0x79
  | .tlwait => 0x7A
  | .tlread => 0x7A
  | .annc => 0x7C
  | .wdrw => 0x7C
  | .prom => 0x7C
  | .rtq => 0x7C
  | .rtsync => 0x7C
  | .knotInit => 0x7D
  | .knotPut => 0x7D
  | .knotTake => 0x7D
  | .knotQuery => 0x7D
  | .csrr => 0x7E
  | .csrw => 0x7E
  | .lblset => 0x7E
  | .lbldn => 0x7E

/-- The sub-opcode by which a mnemonic is told from others of its major opcode (R45). -/
def Op.code : Op → BitVec 4
  | .mulHi | .flog2 | .fcos | .fround | .por | .fenceRel | .cwb | .tbarrive | .tlread | .wdrw | .knotPut | .csrw => 1
  | .pxor | .fenceAr | .cinv | .tbexpect | .prom | .knotTake | .lblset => 2
  | .pnot | .tbwait | .rtq | .knotQuery | .lbldn => 3
  | .pmov | .rtsync => 4
  | _ => 0

/-- How many sub-opcodes a mnemonic covers, counted from 0, where it covers several (R45); cvt and fcvt hold their
source type there. -/
def Op.subCount : Op → Nat
  | .atoms | .atom | .fcmp => 8
  | .cmp | .scan | .redux | .red => 6
  | .shfl => 4
  | .vote => 3
  | .cvt | .fcvt => 16
  | _ => 1

/-- Whether the sub-opcode field holds the source type. -/
def Op.hasSrc : Op → Bool
  | .cvt | .fcvt => true
  | _ => false

/-- Whether modifier [29] tells the mnemonic from its other form (R135): set for a rel. -/
def Op.relBit : Op → Option Bool
  | .ringPutAcq | .ringTakeAcq => some false
  | .ringPutRel | .ringTakeRel => some true
  | _ => none

/-- Whether an instruction word's sub-opcode and modifiers select this mnemonic, its major opcode being right. -/
def Op.selected (o : Op) (sub : BitVec 4) (mods : BitVec 3) : Bool :=
  decide (o.code.toNat ≤ sub.toNat ∧ sub.toNat < o.code.toNat + o.subCount)
    && (match o.relBit with | none => true | some r => mods.getLsbD 0 == r)

/-- Every mnemonic, in the table's order. -/
def Op.all : List Op :=
  List.flatten [
    [.add, .sub, .mulLo, .mulHi, .mad, .madWide, .minI, .maxI, .absI, .negI, .andB, .orB],
    [.xorB, .andn, .notB, .shl, .shr, .sar, .rot, .shf, .popc, .clz, .ctz, .brev],
    [.bext, .bins, .cmp, .sel, .mov, .movi, .lea, .dp4, .cvt, .perm, .lut16, .lprev],
    [.shfl, .vote, .bcast, .scan, .redux, .matchL, .fadd, .fsub, .fmul, .ffma, .fmin, .fmax],
    [.fcmp, .fsel, .frcp, .frsq, .fsqrt, .fexp2, .flog2, .fsin, .fcos, .fscale, .ffrac, .fround],
    [.fcvt, .qnt, .dqnt, .bmax, .pack, .unpack, .mma, .accLd, .accSt, .accZero, .mmchk, .bra],
    [.braConditional, .brx, .call, .ret, .exitF, .nop, .yieldI, .trapI, .tret, .brk, .pand, .por],
    [.pxor, .pnot, .pmov, .frayq, .lds, .sts, .ldw, .stw, .atoms, .rinit, .arrive, .rwait],
    [.arwait, .ringPutAcq, .ringPutRel, .ringTakeAcq, .ringTakeRel, .spawn, .endF, .monw, .mwait, .ld, .st, .atom],
    [.red, .ldAcq, .stRel, .fenceAcq, .fenceRel, .fenceAr, .prefetch, .cwb, .cinv, .shape, .tbinit, .tbarrive],
    [.tbexpect, .tbwait, .tlwait, .tlread, .annc, .wdrw, .prom, .rtq, .rtsync, .knotInit, .knotPut, .knotTake],
    [.knotQuery, .csrr, .csrw, .lblset, .lbldn]]

/-- Long-latency instructions (R26, R45). -/
def Op.long : Op → Bool
  | .accLd | .accSt | .mmchk | .lds | .sts | .ldw | .stw | .atoms | .ringPutAcq | .ringPutRel | .ringTakeAcq
  | .ringTakeRel | .spawn | .monw | .ld | .st | .atom | .red | .ldAcq | .stRel | .prefetch | .cwb | .cinv
  | .annc | .wdrw | .prom | .rtq | .knotInit | .knotPut | .knotTake | .knotQuery => true
  | _ => false

/-- Control transfers (R46). -/
def Op.transfer : Op → Bool
  | .bra | .braConditional | .brx | .call | .ret | .exitF | .tret => true
  | _ => false

/-- Float class (R41): major opcodes 0x30 to 0x4F. -/
def Op.float (o : Op) : Bool := decide (0x30 ≤ o.major.toNat ∧ o.major.toNat ≤ 0x4F)

/-- The types a reference entry allows, by sub-opcode; none for an instruction without a type. -/
def Op.types (o : Op) (sub : BitVec 4) : List Ty :=
  match o with
  | .add | .sub | .minI | .maxI => [.s32, .n32, .s64, .n64, .s16, .n16, .s8, .n8]
  | .mulLo | .mulHi | .mad => [.s32, .n32, .s64, .n64]
  | .madWide => [.s32, .n32]
  | .absI | .negI => [.s32, .s64, .s16, .s8]
  | .andB | .orB | .xorB | .andn | .notB | .shl | .rot | .popc | .clz | .ctz | .brev | .bins | .sel | .mov | .movi
  | .lprev | .shfl | .bcast | .matchL | .monw => [.b32, .b64]
  | .shr => [.n32, .n64]
  | .sar => [.s32, .s64]
  | .shf | .perm | .lut16 => [.b32]
  | .bext => [.n32, .s32, .n64, .s64]
  | .cmp => if sub.toNat < 2 then [.s32, .n32, .b32, .s64, .n64, .b64] else [.s32, .n32, .s64, .n64]
  | .lea => [.n64, .s64, .b64]
  | .dp4 => [.s8, .n8, .s4, .n4]
  | .cvt => [.s4, .s8, .s16, .s32, .s64, .n4, .n8, .n16, .n32, .n64]
  | .scan | .redux =>
    if sub.toNat < 3 then [.s32, .n32, .s64, .n64] else [.s32, .n32, .b32, .s64, .n64, .b64]
  | .fadd | .fsub | .fmul | .ffma | .fmin | .fmax | .fcmp => [.f32, .f16, .bf16, .f64]
  | .fsel | .fsqrt | .fscale | .ffrac | .fround => [.f32, .f64]
  | .frcp | .frsq | .fexp2 | .flog2 | .fsin | .fcos | .accLd | .accSt | .mmchk => [.f32]
  | .fcvt => [.f32, .f16, .bf16, .f64, .t16e1, .s32, .n32, .s64]
  | .qnt | .dqnt | .bmax | .pack | .unpack => [.t8e0, .t8e1, .t6e0, .t6e1, .s8, .n8, .s4, .n4]
  | .lds | .sts | .ldw | .stw => [.s8, .n8, .s16, .n16, .b32, .b64]
  | .atoms | .atom | .red =>
    if sub.toNat < 3 then [.s32, .n32, .s64, .n64]
    else if sub.toNat < 6 then [.s32, .n32, .b32, .s64, .n64, .b64] else [.b32, .b64]
  | .ld | .st | .ldAcq | .stRel => [.s8, .n8, .s16, .n16, .s32, .n32, .b32, .s64, .n64, .b64]
  | _ => []

/-- The type of a word without extended words (R36, R45). -/
def Op.defaultTy : Op → Ty
  | .add | .sub | .mulLo | .mulHi | .mad | .madWide | .minI | .maxI | .absI | .negI | .sar | .cmp | .cvt | .scan
  | .redux | .atoms | .atom | .red => .s32
  | .andB | .orB | .xorB | .andn | .notB | .shl | .rot | .shf | .popc | .clz | .ctz | .brev | .bins | .sel | .mov
  | .movi | .perm | .lut16 | .lprev | .shfl | .bcast | .matchL | .lds | .sts | .ldw | .stw | .monw => .b32
  | .shr | .bext | .ld | .st | .ldAcq | .stRel => .n32
  | .lea => .n64
  | .dp4 => .s8
  | .fadd | .fsub | .fmul | .ffma | .fmin | .fmax | .fcmp | .fsel | .frcp | .frsq | .fsqrt | .fexp2 | .flog2
  | .fsin | .fcos | .fscale | .ffrac | .fround | .fcvt | .accLd | .accSt | .mmchk => .f32
  | .qnt | .dqnt | .bmax | .pack | .unpack => .t8e1
  | _ => .none

/-- Modifier [29], which several entries use to choose a form. -/
def flag29 (mods : BitVec 3) : Bool := mods.getLsbD 0

/-- The kind of operand a. -/
def Op.aKind (o : Op) (mods : BitVec 3) : Kind :=
  match o with
  | .movi => .imm
  | .vote | .braConditional | .pand | .por | .pxor | .pnot | .pmov => .p
  | .call => if flag29 mods then .u else .none
  | .bra | .exitF | .nop | .yieldI | .tret | .brk | .endF | .rtsync => .none
  | .mma | .accLd | .accSt | .accZero | .mmchk | .trapI | .frayq | .rinit | .arrive | .rwait | .arwait | .ringPutAcq
  | .ringPutRel | .ringTakeAcq | .ringTakeRel | .spawn | .mwait | .tlwait | .csrr | .csrw | .lblset => .u
  | .tlread => if mods.extractLsb' 0 2 = 2 then .none else .u
  | .ld | .st | .atom | .red | .ldAcq | .stRel | .fenceAcq | .fenceRel | .fenceAr | .prefetch | .cwb | .cinv | .rtq
  | .knotInit | .knotPut | .knotTake | .knotQuery => .g
  | _ => .r

/-- The kind of operand b. -/
def Op.bKind (o : Op) (mods : BitVec 3) : Kind :=
  match o with
  | .add | .sub | .mulLo | .mulHi | .mad | .madWide | .minI | .maxI | .andB | .orB | .xorB | .andn | .shl | .shr
  | .sar | .rot | .shf | .bext | .bins | .cmp | .sel | .lea | .dp4 | .perm | .shfl => .r
  | .lut16 => .s 60
  | .lprev | .bcast => .u
  | .fadd | .fsub | .fmul | .ffma | .fmin | .fmax | .fcmp | .fsel | .fscale => .r
  | .qnt | .dqnt => if flag29 mods then .u else .none
  | .mma | .spawn => .v
  | .accLd | .accSt => if flag29 mods then .u else .r
  | .mmchk => .u
  | .ret => if flag29 mods then .u else .none
  | .pand | .por | .pxor => .p
  | .sts | .stw | .atoms | .rwait => .r
  | .rinit | .ringPutRel | .ringTakeRel => .u
  | .st | .atom | .red | .stRel => .r
  | .shape => .s 48
  | .tbinit | .tbexpect => .u
  | .tbwait | .tlwait | .annc => .r
  | .knotInit | .knotTake | .knotQuery => .u
  | .knotPut | .csrw => .r
  | _ => .none

/-- The kind of operand c. -/
def Op.cKind (o : Op) (sub : BitVec 4) (mods : BitVec 3) : Kind :=
  match o with
  | .mad | .madWide | .shf | .bins | .dp4 | .perm | .ffma => .r
  | .sel | .fsel => .p
  | .accSt => if flag29 mods then .none else .r
  | .atoms | .atom => if sub = 7 then .r else .none
  | .spawn => .count
  | .knotPut => .u
  | _ => .none

/-- Whether operand a stands in a 64-bit position (R39, R64). -/
def Op.aWide (o : Op) (ty src : Ty) (mods : BitVec 3) : Bool :=
  match o with
  | .lea | .brx | .ret | .spawn | .shape | .annc | .wdrw | .prom | .ld | .st | .atom | .red | .ldAcq | .stRel
  | .fenceAcq | .fenceRel | .fenceAr | .prefetch | .cwb | .cinv | .rtq | .knotInit | .knotPut | .knotTake
  | .knotQuery => true
  | .monw => !flag29 mods
  | .cvt | .fcvt => src.wide
  | .lds | .sts | .ldw | .stw | .atoms | .vote | .madWide => false
  | _ => ty.wide

/-- Whether operand b stands in a 64-bit position. -/
def Op.bWide (o : Op) (ty : Ty) : Bool :=
  match o with
  | .shl | .shr | .sar | .rot | .bext | .bins | .shfl | .bcast | .fscale | .madWide => false
  | .lea => ty == .b64
  | .tlwait | .annc | .knotInit => true
  | _ => ty.wide

/-- Whether operand c stands in a 64-bit position. -/
def Op.cWide (o : Op) (ty : Ty) : Bool :=
  match o with
  | .madWide => true
  | .bins | .mad | .ffma | .atoms | .atom => ty.wide
  | _ => false

/-- Which destination selects are allowed: V, S, P. -/
def Op.dests (o : Op) (sub : BitVec 4) (mods : BitVec 3) : Bool × Bool × Bool :=
  match o with
  | .cmp | .fcmp => (true, true, true)
  | .vote => (true, true, sub.toNat < 2)
  | .lprev | .shfl | .scan | .matchL | .qnt | .dqnt | .pack | .unpack | .mmchk => (true, false, false)
  | .accLd => (!flag29 mods, false, false)
  | .pand | .por | .pxor | .pnot | .pmov => (false, false, true)
  | .arrive | .mwait | .tbarrive => (flag29 mods, flag29 mods, false)
  | .accSt | .accZero | .bra | .braConditional | .brx | .ret | .exitF | .nop | .yieldI | .trapI | .tret | .brk
  | .sts | .stw | .rinit | .rwait | .arwait | .ringPutRel | .ringTakeRel | .spawn | .endF | .st | .red | .stRel
  | .fenceAcq | .fenceRel | .fenceAr | .prefetch | .cwb | .cinv | .shape | .tbinit | .tbexpect | .tbwait | .tlwait
  | .annc | .wdrw | .prom | .rtsync | .knotInit | .csrw | .lblset => (false, false, false)
  | _ => (true, true, false)

/-- Whether the instruction takes no destination. -/
def Op.noDest (o : Op) (sub : BitVec 4) (mods : BitVec 3) : Bool := o.dests sub mods == (false, false, false)

/-- Whether the destination is a pair. DESIGN CHOICE (log 53): R75's 32 bits under b64 are taken to be popc's too. -/
def Op.dWide (o : Op) (ty : Ty) (sub : BitVec 4) (mods : BitVec 3) : Bool :=
  match o with
  | .madWide | .lea | .matchL | .mma | .call | .frayq | .knotQuery => true
  | .vote => sub == 2
  | .tlread => mods.extractLsb' 0 2 != 2
  | .cmp | .fcmp | .popc | .clz | .ctz => false
  | _ => ty.wide

/-- The rounding setting: none, any mode, or rne only (R202). -/
inductive RndUse where
  | none | any | rneOnly
  deriving DecidableEq, Repr

/-- The rounding setting of a mnemonic. -/
def Op.rndUse : Op → RndUse
  | .fadd | .fsub | .fmul | .ffma | .frcp | .fsqrt | .fscale | .fround | .fcvt | .qnt | .dqnt => .any
  | .frsq | .fexp2 | .flog2 | .fsin | .fcos => .rneOnly
  | _ => .none

/-- Whether the entry gives a saturate setting. -/
def Op.satUse (o : Op) (sub : BitVec 4) : Bool :=
  match o with
  | .add | .sub | .absI | .negI | .dp4 | .cvt | .fadd | .fsub | .fmul | .ffma | .frcp | .fsqrt | .fscale | .fcvt
  | .dqnt => true
  | .scan | .redux => sub == 0
  | _ => false

/-- The modifier bits an entry uses. -/
def Op.modMask : Op → BitVec 3
  | .lea | .shfl | .annc => 7
  | .scan | .qnt | .dqnt | .accLd | .accSt | .braConditional | .call | .ret | .frayq | .arrive | .ringPutAcq
  | .ringPutRel | .ringTakeAcq | .ringTakeRel | .monw | .mwait | .tbarrive | .tbexpect | .rtq => 1
  | .ld | .st => 4
  | .atom | .red | .tlread => 3
  | _ => 0

/-- Used modifier values that an entry lists as ILLEGAL_OP (R48). -/
def Op.modBad (o : Op) (mods : BitVec 3) : Bool :=
  match o with
  | .shfl => decide (6 ≤ mods.toNat)
  | .red => mods.getLsbD 0
  | .tlread => mods.extractLsb' 0 2 == 3
  | .annc => mods.extractLsb' 0 2 == 3 || (mods.getLsbD 2 && mods.extractLsb' 0 2 != 0)
  | _ => false

/-- Whether the offset field is used. -/
def Op.offUse (o : Op) (mods : BitVec 3) : Bool :=
  match o with
  | .lea | .mma | .bra | .braConditional | .call | .lds | .sts | .ldw | .stw | .atoms | .spawn | .monw | .ld | .st
  | .atom | .red | .ldAcq | .stRel | .fenceAcq | .fenceRel | .fenceAr | .prefetch | .cwb | .cinv | .shape | .tbinit
  | .tbarrive | .tbexpect | .tbwait | .rtq | .knotInit | .knotPut | .knotTake | .knotQuery => true
  | .accLd | .accSt => flag29 mods
  | _ => false

/-- Whether the swizzle field is used. -/
def Op.swzUse (o : Op) (mods : BitVec 3) : Bool :=
  match o with
  | .lds | .sts | .atoms => true
  | .monw => flag29 mods
  | _ => false

/-- Whether the cache policy field is used. -/
def Op.polUse (o : Op) (mods : BitVec 3) : Bool :=
  match o with
  | .ld | .st | .ldAcq | .stRel | .prefetch => true
  | .monw => !flag29 mods
  | _ => false

/-- The types that are IEEE formats. -/
def Ty.ieee : Ty → Bool
  | .f32 | .f16 | .bf16 | .f64 => true
  | _ => false

/-- An operand of the kind its position allows, a register pair where the position is 64 bits wide (R38 to R40, R48).
DEDUCED (log 47): where an entry says that an operand must be a pair (R80 under .b64), a position of kind r still takes an
inline integer, a literal or a special register, read as R64 says. -/
def Operand.fits (k : Kind) (wide : Bool) (x : Operand) : Bool :=
  match k, x with
  | .none, .none => true
  | .p, .pred _ => true
  | .r, .v n => !(wide && n.getLsbD 0)
  | .v, .v n => !(wide && n.getLsbD 0)
  | .g, .v n => !n.getLsbD 0
  | .r, .s n => !(wide && n.getLsbD 0)
  | .u, .s n => !(wide && n.getLsbD 0)
  | .g, .s n => !n.getLsbD 0
  | .s last, .s n => decide (n.toNat ≤ last)
  | .r, .int _ => true
  | .u, .int _ => true
  | .imm, .int _ => true
  | .count, .int k => decide (k.toNat ≤ 13)
  | .r, .special _ => true
  | .u, .special _ => true
  | .r, .lit _ => true
  | .u, .lit _ => true
  | .imm, .lit _ => true
  | _, _ => false

/-- A destination an entry allows. -/
def Dest.fits (ds : Bool × Bool × Bool) (wide : Bool) (d : Dest) : Bool :=
  match d with
  | .none => ds == (false, false, false)
  | .v n => ds.1 && !(wide && n.getLsbD 0)
  | .s n => ds.2.1 && !(wide && n.getLsbD 0)
  | .p _ => ds.2.2

/-- A source type an entry allows: for fcvt it differs from the destination, and saturate needs an IEEE destination. -/
def Op.srcOk (o : Op) (x : Args) : Bool :=
  if o.hasSrc then
    (o.types 0).contains x.src
      && (o != .fcvt || (x.src != x.ty && (!x.sat || x.ty.ieee)))
  else x.src == .none

/-- The literal an instruction carries, if an operand reads it. -/
def Args.lit (x : Args) : Option DWord :=
  match x.a, x.b, x.c with
  | .lit w, _, _ => some w
  | _, .lit w, _ => some w
  | _, _, .lit w => some w
  | _, _, _ => none

/-- An operand that names the literal `w`, or none. -/
def Operand.litIs (w : Option DWord) : Operand → Bool
  | .lit l => decide (w = some l)
  | _ => true

/-- The sub-opcode of an instruction whose mnemonic covers several; 0 elsewhere. -/
def Op.subOk (o : Op) (sub : BitVec 4) : Bool :=
  if o.hasSrc then decide (sub = 0) else decide (sub.toNat < o.subCount)

/-- Modifiers an entry allows. -/
def Op.modsOk (o : Op) (mods : BitVec 3) : Bool :=
  decide (mods &&& ~~~ o.modMask = 0) && !o.modBad mods
    && (match o.relBit with | none => true | some r => decide (flag29 mods = r))

/-- A type the entry allows, or none where it takes none. -/
def Op.tyOk (o : Op) (sub : BitVec 4) (ty : Ty) : Bool :=
  if o.types sub = [] then decide (ty = .none) else (o.types sub).contains ty

/-- Settings an entry gives, or their defaults. -/
def Args.settingsOk (o : Op) (x : Args) : Bool :=
  (decide (o.rndUse = .any) || decide (x.rnd = .rne)) && (o.satUse x.sub || !x.sat)
    && (o.offUse x.mods || decide (x.off = 0)) && (o.swzUse x.mods || decide (x.swz = 0))
    && (o.polUse x.mods || decide (x.pol = .normal))

/-- A vector register operand, which alone carries a last-read bit (R47). -/
def Operand.isVec : Operand → Bool
  | .v _ => true
  | _ => false

/-- The operands an entry allows. -/
def Args.operandsOk (o : Op) (x : Args) : Bool :=
  x.a.fits (o.aKind x.mods) (o.aWide x.ty x.src x.mods) && x.b.fits (o.bKind x.mods) (o.bWide x.ty)
    && x.c.fits (o.cKind x.sub x.mods) (o.cWide x.ty)
    && x.dst.fits (o.dests x.sub x.mods) (o.dWide x.ty x.sub x.mods)

/-- One literal serves every operand that reads it (R37). -/
def Args.litsOk (x : Args) : Bool := x.a.litIs x.lit && x.b.litIs x.lit && x.c.litIs x.lit

/-- Operands, types and settings are those the mnemonic's entry allows, and unused parts are at their defaults. -/
def Args.wf (o : Op) (x : Args) : Bool :=
  [o.subOk x.sub, o.modsOk x.mods, o.tyOk x.sub x.ty, o.srcOk x, x.settingsOk o, x.operandsOk o, x.litsOk,
    !x.lrC || x.c.isVec].all id

/-- The instruction of a mnemonic. -/
def Op.mk (o : Op) (x : Args) : Instr :=
  match o with
  | .add => .add x
  | .sub => .sub x
  | .mulLo => .mulLo x
  | .mulHi => .mulHi x
  | .mad => .mad x
  | .madWide => .madWide x
  | .minI => .minI x
  | .maxI => .maxI x
  | .absI => .absI x
  | .negI => .negI x
  | .andB => .andB x
  | .orB => .orB x
  | .xorB => .xorB x
  | .andn => .andn x
  | .notB => .notB x
  | .shl => .shl x
  | .shr => .shr x
  | .sar => .sar x
  | .rot => .rot x
  | .shf => .shf x
  | .popc => .popc x
  | .clz => .clz x
  | .ctz => .ctz x
  | .brev => .brev x
  | .bext => .bext x
  | .bins => .bins x
  | .cmp => .cmp x
  | .sel => .sel x
  | .mov => .mov x
  | .movi => .movi x
  | .lea => .lea x
  | .dp4 => .dp4 x
  | .cvt => .cvt x
  | .perm => .perm x
  | .lut16 => .lut16 x
  | .lprev => .lprev x
  | .shfl => .shfl x
  | .vote => .vote x
  | .bcast => .bcast x
  | .scan => .scan x
  | .redux => .redux x
  | .matchL => .matchL x
  | .fadd => .fadd x
  | .fsub => .fsub x
  | .fmul => .fmul x
  | .ffma => .ffma x
  | .fmin => .fmin x
  | .fmax => .fmax x
  | .fcmp => .fcmp x
  | .fsel => .fsel x
  | .frcp => .frcp x
  | .frsq => .frsq x
  | .fsqrt => .fsqrt x
  | .fexp2 => .fexp2 x
  | .flog2 => .flog2 x
  | .fsin => .fsin x
  | .fcos => .fcos x
  | .fscale => .fscale x
  | .ffrac => .ffrac x
  | .fround => .fround x
  | .fcvt => .fcvt x
  | .qnt => .qnt x
  | .dqnt => .dqnt x
  | .bmax => .bmax x
  | .pack => .pack x
  | .unpack => .unpack x
  | .mma => .mma x
  | .accLd => .accLd x
  | .accSt => .accSt x
  | .accZero => .accZero x
  | .mmchk => .mmchk x
  | .bra => .bra x
  | .braConditional => .braConditional x
  | .brx => .brx x
  | .call => .call x
  | .ret => .ret x
  | .exitF => .exitF x
  | .nop => .nop x
  | .yieldI => .yieldI x
  | .trapI => .trapI x
  | .tret => .tret x
  | .brk => .brk x
  | .pand => .pand x
  | .por => .por x
  | .pxor => .pxor x
  | .pnot => .pnot x
  | .pmov => .pmov x
  | .frayq => .frayq x
  | .lds => .lds x
  | .sts => .sts x
  | .ldw => .ldw x
  | .stw => .stw x
  | .atoms => .atoms x
  | .rinit => .rinit x
  | .arrive => .arrive x
  | .rwait => .rwait x
  | .arwait => .arwait x
  | .ringPutAcq => .ringPutAcq x
  | .ringPutRel => .ringPutRel x
  | .ringTakeAcq => .ringTakeAcq x
  | .ringTakeRel => .ringTakeRel x
  | .spawn => .spawn x
  | .endF => .endF x
  | .monw => .monw x
  | .mwait => .mwait x
  | .ld => .ld x
  | .st => .st x
  | .atom => .atom x
  | .red => .red x
  | .ldAcq => .ldAcq x
  | .stRel => .stRel x
  | .fenceAcq => .fenceAcq x
  | .fenceRel => .fenceRel x
  | .fenceAr => .fenceAr x
  | .prefetch => .prefetch x
  | .cwb => .cwb x
  | .cinv => .cinv x
  | .shape => .shape x
  | .tbinit => .tbinit x
  | .tbarrive => .tbarrive x
  | .tbexpect => .tbexpect x
  | .tbwait => .tbwait x
  | .tlwait => .tlwait x
  | .tlread => .tlread x
  | .annc => .annc x
  | .wdrw => .wdrw x
  | .prom => .prom x
  | .rtq => .rtq x
  | .rtsync => .rtsync x
  | .knotInit => .knotInit x
  | .knotPut => .knotPut x
  | .knotTake => .knotTake x
  | .knotQuery => .knotQuery x
  | .csrr => .csrr x
  | .csrw => .csrw x
  | .lblset => .lblset x
  | .lbldn => .lbldn x

/-- The mnemonic and arguments of an encoded instruction; none for an event. -/
def Instr.op? : Instr → Option (Op × Args)
  | .add x => some (.add, x)
  | .sub x => some (.sub, x)
  | .mulLo x => some (.mulLo, x)
  | .mulHi x => some (.mulHi, x)
  | .mad x => some (.mad, x)
  | .madWide x => some (.madWide, x)
  | .minI x => some (.minI, x)
  | .maxI x => some (.maxI, x)
  | .absI x => some (.absI, x)
  | .negI x => some (.negI, x)
  | .andB x => some (.andB, x)
  | .orB x => some (.orB, x)
  | .xorB x => some (.xorB, x)
  | .andn x => some (.andn, x)
  | .notB x => some (.notB, x)
  | .shl x => some (.shl, x)
  | .shr x => some (.shr, x)
  | .sar x => some (.sar, x)
  | .rot x => some (.rot, x)
  | .shf x => some (.shf, x)
  | .popc x => some (.popc, x)
  | .clz x => some (.clz, x)
  | .ctz x => some (.ctz, x)
  | .brev x => some (.brev, x)
  | .bext x => some (.bext, x)
  | .bins x => some (.bins, x)
  | .cmp x => some (.cmp, x)
  | .sel x => some (.sel, x)
  | .mov x => some (.mov, x)
  | .movi x => some (.movi, x)
  | .lea x => some (.lea, x)
  | .dp4 x => some (.dp4, x)
  | .cvt x => some (.cvt, x)
  | .perm x => some (.perm, x)
  | .lut16 x => some (.lut16, x)
  | .lprev x => some (.lprev, x)
  | .shfl x => some (.shfl, x)
  | .vote x => some (.vote, x)
  | .bcast x => some (.bcast, x)
  | .scan x => some (.scan, x)
  | .redux x => some (.redux, x)
  | .matchL x => some (.matchL, x)
  | .fadd x => some (.fadd, x)
  | .fsub x => some (.fsub, x)
  | .fmul x => some (.fmul, x)
  | .ffma x => some (.ffma, x)
  | .fmin x => some (.fmin, x)
  | .fmax x => some (.fmax, x)
  | .fcmp x => some (.fcmp, x)
  | .fsel x => some (.fsel, x)
  | .frcp x => some (.frcp, x)
  | .frsq x => some (.frsq, x)
  | .fsqrt x => some (.fsqrt, x)
  | .fexp2 x => some (.fexp2, x)
  | .flog2 x => some (.flog2, x)
  | .fsin x => some (.fsin, x)
  | .fcos x => some (.fcos, x)
  | .fscale x => some (.fscale, x)
  | .ffrac x => some (.ffrac, x)
  | .fround x => some (.fround, x)
  | .fcvt x => some (.fcvt, x)
  | .qnt x => some (.qnt, x)
  | .dqnt x => some (.dqnt, x)
  | .bmax x => some (.bmax, x)
  | .pack x => some (.pack, x)
  | .unpack x => some (.unpack, x)
  | .mma x => some (.mma, x)
  | .accLd x => some (.accLd, x)
  | .accSt x => some (.accSt, x)
  | .accZero x => some (.accZero, x)
  | .mmchk x => some (.mmchk, x)
  | .bra x => some (.bra, x)
  | .braConditional x => some (.braConditional, x)
  | .brx x => some (.brx, x)
  | .call x => some (.call, x)
  | .ret x => some (.ret, x)
  | .exitF x => some (.exitF, x)
  | .nop x => some (.nop, x)
  | .yieldI x => some (.yieldI, x)
  | .trapI x => some (.trapI, x)
  | .tret x => some (.tret, x)
  | .brk x => some (.brk, x)
  | .pand x => some (.pand, x)
  | .por x => some (.por, x)
  | .pxor x => some (.pxor, x)
  | .pnot x => some (.pnot, x)
  | .pmov x => some (.pmov, x)
  | .frayq x => some (.frayq, x)
  | .lds x => some (.lds, x)
  | .sts x => some (.sts, x)
  | .ldw x => some (.ldw, x)
  | .stw x => some (.stw, x)
  | .atoms x => some (.atoms, x)
  | .rinit x => some (.rinit, x)
  | .arrive x => some (.arrive, x)
  | .rwait x => some (.rwait, x)
  | .arwait x => some (.arwait, x)
  | .ringPutAcq x => some (.ringPutAcq, x)
  | .ringPutRel x => some (.ringPutRel, x)
  | .ringTakeAcq x => some (.ringTakeAcq, x)
  | .ringTakeRel x => some (.ringTakeRel, x)
  | .spawn x => some (.spawn, x)
  | .endF x => some (.endF, x)
  | .monw x => some (.monw, x)
  | .mwait x => some (.mwait, x)
  | .ld x => some (.ld, x)
  | .st x => some (.st, x)
  | .atom x => some (.atom, x)
  | .red x => some (.red, x)
  | .ldAcq x => some (.ldAcq, x)
  | .stRel x => some (.stRel, x)
  | .fenceAcq x => some (.fenceAcq, x)
  | .fenceRel x => some (.fenceRel, x)
  | .fenceAr x => some (.fenceAr, x)
  | .prefetch x => some (.prefetch, x)
  | .cwb x => some (.cwb, x)
  | .cinv x => some (.cinv, x)
  | .shape x => some (.shape, x)
  | .tbinit x => some (.tbinit, x)
  | .tbarrive x => some (.tbarrive, x)
  | .tbexpect x => some (.tbexpect, x)
  | .tbwait x => some (.tbwait, x)
  | .tlwait x => some (.tlwait, x)
  | .tlread x => some (.tlread, x)
  | .annc x => some (.annc, x)
  | .wdrw x => some (.wdrw, x)
  | .prom x => some (.prom, x)
  | .rtq x => some (.rtq, x)
  | .rtsync x => some (.rtsync, x)
  | .knotInit x => some (.knotInit, x)
  | .knotPut x => some (.knotPut, x)
  | .knotTake x => some (.knotTake, x)
  | .knotQuery x => some (.knotQuery, x)
  | .csrr x => some (.csrr, x)
  | .csrw x => some (.csrw, x)
  | .lblset x => some (.lblset, x)
  | .lbldn x => some (.lbldn, x)
  | .clauseStart _ _ => none
  | .rejoinWaitEnd _ _ => none
  | .longLatencyComplete _ _ => none
  | .requestAccepted _ _ => none
  | .holderRequest _ => none
  | .writeAcknowledged _ => none
  | .ownershipRequest _ => none
  | .recall _ _ => none
  | .writeBack _ _ _ => none
  | .ownershipGrant _ _ => none
  | .qnotifyWrite _ _ _ => none
  | .qctlWrite _ _ _ => none
  | .launchPacket _ _ => none
  | .barrierAndPacket _ _ => none
  | .barrierAndComplete _ _ => none
  | .signalPacket _ _ => none
  | .coilPlace _ => none
  | .evictCoil _ _ => none
  | .restoreCoil _ _ => none
  | .strandEnd _ => none
  | .launchComplete _ => none
  | .watchdog _ _ => none
  | .spawnBinTimer _ => none
  | .binYarnStart _ => none
  | .spawnRecordPlaced _ _ => none
  | .spillReadback _ => none
  | .monitorWake _ _ => none
  | .mwaitLimit _ _ => none
  | .copySector _ _ => none
  | .copyDone _ _ => none
  | .remoteCompletionSignal _ _ _ => none
  | .mmaKstep _ => none
  | .mmaEpilogue _ => none
  | .epilogueStore _ => none
  | .uncorrectable _ _ _ _ => none
  | .faultReplyRepaired _ _ => none
  | .faultReplyKill _ _ => none
  | .copyReplyRepaired _ _ => none
  | .copyReplyKill _ _ => none
  | .faultRecordWrite _ => none
  | .xlinv _ _ => none
  | .xlinvComplete _ => none
  | .fenceRegisterWrite _ _ => none
  | .announce _ => none
  | .withdraw _ => none
  | .ack _ => none
  | .portUp _ _ _ => none
  | .trunkPortDown _ => none
  | .podPortDown _ => none
  | .dataFlit _ _ => none
  | .idleFlit _ _ => none
  | .retryRequest _ _ => none
  | .rekeyFlit _ _ => none
  | .linkRetrain _ => none
  | .sequenceExhaustion _ => none
  | .linkTraining _ _ => none
  | .loadFieldDecay _ => none
  | .extentRevoke _ _ _ => none
  | .revocationComplete _ _ _ => none
  | .chunkFire _ _ => none
  | .passArrival _ => none
  | .verdict _ _ => none
  | .verdictAnswer _ _ _ => none
  | .broadcastHop _ => none
  | .passStart _ _ => none
  | .knotRequest _ => none
  | .meterRefill _ => none
  | .scrubStep _ => none
  | .securityModeChange _ _ _ => none
  | .grantInstall _ _ _ => none
  | .sealWindowInstall _ _ => none
  | .sealWindowRemove _ => none
  | .logAcknowledge _ => none
  | .logSignRequest => none
  | .getMeasurements _ => none
  | .bounceRecord _ _ _ _ _ => none
  | .bounceResync _ _ _ _ _ _ => none
  | .hostWindowAccess _ _ _ _ => none
  | .vendorDebugEntry _ => none
  | .debugAttach _ _ _ => none
  | .powerActive _ _ => none
  | .corePowerGated _ _ => none
  | .dieRetention _ => none
  | .packageStandby => none
  | .coreClockGated _ => none
  | .powerCapStep _ => none
  | .thermalTrip _ => none
  | .powerOnReset _ => none
  | .registerWrite _ _ _ _ => none
  | .debugContinue _ _ => none
  | .debugDetach _ _ => none
  | .rangeRelease _ _ _ => none
  | .egressMeterWrite _ _ _ => none
  | .wakeThatNamesNoWrite _ _ => none
  | .injectionRegulatorAdmit _ => none
  | .errorFoundByScrubbing _ => none

/-- Well-formed: an encoded instruction its entry allows. Events have no encoding and are well-formed as they are. -/
def Instr.wf (i : Instr) : Bool :=
  match i.op? with
  | some (o, x) => x.wf o
  | none => true

end Sys2Proof
end

