-- ==== Sys2Proof/Decode.lean ====
section
/-! DEFINITION. From instruction words to instructions and back (R32 to R48), and the checks of a whole clause (R23 to
R30, R46, R48). -/

namespace Sys2Proof

/-- Why words are not an instruction or a clause. -/
inductive Reject where
  | illegalOp | reservedField
  | short                      -- fewer words than the length field asks for
  deriving DecidableEq, Repr

/-- The fields of an instruction's words (R32 to R37), with the values R36 gives absent ones. -/
structure Fields where
  ext : Bool := false
  b : BitVec 8 := 0
  a : BitVec 8 := 0
  dst : BitVec 7 := 0
  major : BitVec 7 := 0
  mods : BitVec 3 := 0
  sel : BitVec 2 := 0
  sat : BitVec 1 := 0
  rnd : BitVec 2 := 0
  ty : BitVec 4 := 0
  sub : BitVec 4 := 0
  swz : BitVec 3 := 0
  lrC : BitVec 1 := 0
  neg : BitVec 1 := 0
  guard : BitVec 3 := 7
  c : BitVec 8 := 0
  zero : BitVec 6 := 0
  pol : BitVec 2 := 0
  off : BitVec 24 := 0
  lit : Option DWord := none
  deriving DecidableEq, Repr

/-- Fields of a base word (R32). -/
def Fields.ofBase (w : Word) : Fields where
  b := w.extractLsb' 24 8
  a := w.extractLsb' 16 8
  dst := w.extractLsb' 9 7
  major := w.extractLsb' 2 7

/-- With extended words 1 and 2 (R34, R35). -/
def Fields.extend (f : Fields) (e1 e2 : Word) : Fields :=
  { f with
    ext := true
    mods := e1.extractLsb' 29 3
    sel := e1.extractLsb' 27 2
    sat := e1.extractLsb' 26 1
    rnd := e1.extractLsb' 24 2
    ty := e1.extractLsb' 20 4
    sub := e1.extractLsb' 16 4
    swz := e1.extractLsb' 13 3
    lrC := e1.extractLsb' 12 1
    neg := e1.extractLsb' 11 1
    guard := e1.extractLsb' 8 3
    c := e1.extractLsb' 0 8
    zero := e2.extractLsb' 26 6
    pol := e2.extractLsb' 24 2
    off := e2.extractLsb' 0 24 }

/-- The words an instruction takes, by its base word's length field (R33). -/
def wordCount (w : Word) : Nat :=
  1 + (if w.getLsbD 0 then 2 else 0) + (if w.getLsbD 1 then 2 else 0)

/-- The fields of the instruction at the head of a list of words, and the words after it. -/
def Fields.read : List Word → Option (Fields × List Word)
  | [] => none
  | w :: t =>
    let f := Fields.ofBase w
    match w.getLsbD 0, w.getLsbD 1, t with
    | false, false, t => some (f, t)
    | true, false, e1 :: e2 :: t => some (f.extend e1 e2, t)
    | false, true, lo :: hi :: t => some ({ f with lit := some (hi ++ lo) }, t)
    | true, true, e1 :: e2 :: lo :: hi :: t => some ({ f.extend e1 e2 with lit := some (hi ++ lo) }, t)
    | _, _, _ => none

/-- The words of an instruction's fields. -/
def Fields.words (f : Fields) : List Word :=
  let l : BitVec 2 := (if f.lit.isSome then 1#1 else 0#1) ++ (if f.ext then 1#1 else 0#1)
  let base : Word := f.b ++ f.a ++ f.dst ++ f.major ++ l
  let e1 : Word := f.mods ++ f.sel ++ f.sat ++ f.rnd ++ f.ty ++ f.sub ++ f.swz ++ f.lrC ++ f.neg ++ f.guard ++ f.c
  let e2 : Word := f.zero ++ f.pol ++ f.off
  base :: ((if f.ext then [e1, e2] else [])
    ++ (match f.lit with | some w => [w.extractLsb' 0 32, w.extractLsb' 32 32] | none => []))

/-! ### Codes -/

/-- The type of a code in the integer or the float column of R41. -/
def Ty.ofCode (float : Bool) (c : BitVec 4) : Option Ty :=
  if float then
    [Ty.f32, .f16, .bf16, .f64, .t16e1, .t8e0, .t8e1, .t6e0, .t6e1, .s8, .n8, .s4, .n4, .s32, .n32, .s64][c.toNat]?
  else
    [Ty.s32, .n32, .b32, .s64, .n64, .b64, .s16, .n16, .s8, .n8, .s4, .n4][c.toNat]?

/-- A type's code in the integer or the float column of R41. -/
def Ty.code (float : Bool) (t : Ty) : BitVec 4 :=
  if float then
    match t with
    | .f32 => 0 | .f16 => 1 | .bf16 => 2 | .f64 => 3 | .t16e1 => 4 | .t8e0 => 5 | .t8e1 => 6 | .t6e0 => 7
    | .t6e1 => 8 | .s8 => 9 | .n8 => 10 | .s4 => 11 | .n4 => 12 | .s32 => 13 | .n32 => 14 | .s64 => 15
    | _ => 0
  else
    match t with
    | .s32 => 0 | .n32 => 1 | .b32 => 2 | .s64 => 3 | .n64 => 4 | .b64 => 5 | .s16 => 6 | .n16 => 7 | .s8 => 8
    | .n8 => 9 | .s4 => 10 | .n4 => 11
    | _ => 0

/-- The special registers in the order of their codes (R38). -/
def SReg.all : List SReg :=
  [.lane, .fibreX, .fibreY, .fibreZ, .yarnX, .yarnY, .yarnZ, .strandX, .strandY, .strandZ, .coilX, .coilY, .coilZ,
    .stage, .launchid, .fray, .cycles, .peer, .label]

/-- A special register's place after code 0xE0. -/
def SReg.num : SReg → BitVec 8
  | .lane => 0 | .fibreX => 1 | .fibreY => 2 | .fibreZ => 3 | .yarnX => 4 | .yarnY => 5 | .yarnZ => 6
  | .strandX => 7 | .strandY => 8 | .strandZ => 9 | .coilX => 10 | .coilY => 11 | .coilZ => 12 | .stage => 13
  | .launchid => 14 | .fray => 15 | .cycles => 16 | .peer => 17 | .label => 18

/-- An operand's code (R38, R40). -/
def Operand.code : Operand → BitVec 8
  | .none => 0
  | .v n => n.setWidth 8
  | .s n => 0x80 + n.setWidth 8
  | .int k => 0xC0 + k.setWidth 8
  | .pred n => 0xC0 + n.setWidth 8
  | .special r => 0xE0 + r.num
  | .lit _ => 0xFF

/-- The operand of a code in a position of a kind; none where the code is ILLEGAL_OP (R38, R40, R48). DESIGN CHOICE (log
47): in a field the instruction does not use, a reserved code 0xF3 to 0xFE is no operand: it is a nonzero unused field,
RESERVED_FIELD by R47. -/
def Operand.ofCode (k : Kind) (c : BitVec 8) (lit : Option DWord) : Option Operand :=
  match k with
  | .none => some .none
  | .p => if 0xC0 ≤ c.toNat ∧ c.toNat ≤ 0xC7 then some (.pred (c.setWidth 3)) else none
  | _ =>
    if c.toNat < 0x80 then some (.v (c.setWidth 7))
    else if c.toNat < 0xC0 then some (.s (c.setWidth 6))
    else if c.toNat < 0xE0 then some (.int (c.setWidth 5))
    else if c = 0xFF then lit.map .lit
    else SReg.all[c.toNat - 0xE0]?.map .special

/-- A destination's select and number (R34). -/
def Dest.bits : Dest → BitVec 2 × BitVec 7
  | .none => (0, 0)
  | .v n => (0, n)
  | .s n => (1, n.setWidth 7)
  | .p n => (2, n.setWidth 7)

/-- The destination of a select and number; none where they are ILLEGAL_OP (R34). -/
def Dest.ofBits (sel : BitVec 2) (n : BitVec 7) : Option Dest :=
  if sel = 0 then some (.v n)
  else if sel = 1 then (if n.toNat < 64 then some (.s (n.setWidth 6)) else none)
  else if sel = 2 then (if n.toNat < 8 then some (.p (n.setWidth 3)) else none)
  else none

/-- A rounding mode's code (R43). -/
def Rnd.code : Rnd → BitVec 2
  | .rne => 0 | .rtz => 1 | .rdn => 2 | .rup => 3

/-- The rounding mode of a code. -/
def Rnd.ofCode (c : BitVec 2) : Rnd :=
  if c = 0 then .rne else if c = 1 then .rtz else if c = 2 then .rdn else .rup

/-- A cache policy's code (R43). -/
def Policy.code : Policy → BitVec 2
  | .normal => 0 | .stream => 1 | .keep => 2 | .nocache => 3

/-- The cache policy of a code. -/
def Policy.ofCode (c : BitVec 2) : Policy :=
  if c = 0 then .normal else if c = 1 then .stream else if c = 2 then .keep else .nocache

/-! ### Decoding -/

/-- Modifier bits the entry uses. -/
def Fields.modsUsed (f : Fields) (o : Op) : BitVec 3 := f.mods &&& o.modMask

/-- Whether an unused field is nonzero (R47). -/
def Fields.unusedSet (f : Fields) (o : Op) : Bool :=
  let m := f.modsUsed o
  [ decide (f.zero ≠ 0),
    decide (f.mods ≠ m),
    decide (o.aKind m = .none) && decide (f.a ≠ 0),
    decide (o.bKind m = .none) && decide (f.b ≠ 0),
    decide (o.cKind f.sub m = .none) && decide (f.c ≠ 0),
    decide (f.lrC = 1) && !(decide (o.cKind f.sub m ≠ .none) && decide (f.c.toNat < 0x80)),
    o.noDest f.sub m && (decide (f.dst ≠ 0) || decide (f.sel ≠ 0)),
    decide (o.types f.sub = []) && f.ext && decide (f.ty ≠ 0),
    decide (o.rndUse = .none) && decide (f.rnd ≠ 0),
    !o.satUse f.sub && decide (f.sat ≠ 0),
    !o.swzUse m && decide (f.swz ≠ 0),
    !o.polUse m && decide (f.pol ≠ 0),
    !o.offUse m && decide (f.off ≠ 0) ].any id

/-- The sub-opcode an instruction keeps: where the mnemonic covers several and the field is no source type. -/
def Op.keptSub (o : Op) (sub : BitVec 4) : BitVec 4 :=
  if o.hasSrc || o.subCount == 1 then 0 else sub

/-- What the fields hold under a mnemonic, unused ones left out; none where a code is ILLEGAL_OP. DESIGN CHOICE (log 47):
without a destination, select 0b11 is ILLEGAL_OP, and a number out of range under select 0b01 or 0b10 is a nonzero unused
field, RESERVED_FIELD. -/
def Fields.args (f : Fields) (o : Op) : Option Args := do
  let m := f.modsUsed o
  let sub := o.keptSub f.sub
  let a ← Operand.ofCode (o.aKind m) f.a f.lit
  let b ← Operand.ofCode (o.bKind m) f.b f.lit
  let c ← Operand.ofCode (o.cKind sub m) f.c f.lit
  let ty ← if o.types sub = [] then some Ty.none
    else if f.ext then Ty.ofCode o.float f.ty else some o.defaultTy
  let src ← if o.hasSrc then Ty.ofCode o.float f.sub else some Ty.none
  let dst ← if o.noDest sub m then (if f.sel = 3 then none else some Dest.none) else Dest.ofBits f.sel f.dst
  pure { guard := ⟨f.guard, decide (f.neg = 1)⟩, dst := dst, a := a, b := b, c := c, ty := ty, src := src, sub := sub,
         rnd := if o.rndUse = .none then .rne else Rnd.ofCode f.rnd,
         sat := o.satUse sub && decide (f.sat = 1), mods := m,
         swz := if o.swzUse m then f.swz else 0,
         off := if o.offUse m then f.off else 0,
         pol := if o.polUse m then Policy.ofCode f.pol else .normal,
         lrC := decide (f.lrC = 1) && c.isVec }

/-- Whether the literal and the fields that read it agree (R37). -/
def Fields.litOk (f : Fields) : Bool :=
  (decide (f.a = 0xFF) || decide (f.b = 0xFF) || (f.ext && decide (f.c = 0xFF))) == f.lit.isSome

/-- The mnemonic the fields select (R45, R46). -/
def Fields.op (f : Fields) : Option Op :=
  Op.all.find? (fun o => decide (o.major = f.major) && o.selected f.sub f.mods)

/-- The instruction the fields hold, or the check that fails; ILLEGAL_OP comes before RESERVED_FIELD (R30). -/
def Fields.instr (f : Fields) : Except Reject (Op × Args) :=
  match f.op with
  | none => .error .illegalOp
  | some o =>
    match f.args o with
    | none => .error .illegalOp
    | some x =>
      if !(x.wf o && f.litOk) || (!f.ext && decide (o.cKind x.sub x.mods ≠ .none)) then .error .illegalOp
      else if f.unusedSet o then .error .reservedField
      else .ok (o, x)

/-- The instruction at the head of a list of words, and the words after it. -/
def decodeWords (ws : List Word) : Except Reject (Instr × List Word) :=
  match Fields.read ws with
  | none => .error .short
  | some (f, t) =>
    match f.instr with
    | .error r => .error r
    | .ok (o, x) => .ok (o.mk x, t)

/-- The little-endian words of a list of bytes (R2); bytes that do not fill a word are left out. -/
def wordsOfBytes : List Byte → List Word
  | b0 :: b1 :: b2 :: b3 :: t => (b3 ++ b2 ++ b1 ++ b0) :: wordsOfBytes t
  | _ => []

/-- The instruction at the head of a list of bytes, or the check that fails. -/
def decode (bs : List Byte) : Except Reject Instr :=
  (decodeWords (wordsOfBytes bs)).map Prod.fst

/-- The five words of an instruction whose bits, numbered as the opcode table numbers them, are the low `nbits` of w. -/
def tableWords (nbits w : Nat) : List Word :=
  let v := w % 2 ^ nbits
  [BitVec.ofNat 32 v, BitVec.ofNat 32 (v / 2 ^ 32), BitVec.ofNat 32 (v / 2 ^ 64), BitVec.ofNat 32 (v / 2 ^ 96),
    BitVec.ofNat 32 (v / 2 ^ 128)]

/-- The instruction read from those words. -/
def decodeTableWord (nbits w : Nat) : Option Instr :=
  match decodeWords (tableWords nbits w) with
  | .ok (i, _) => some i
  | .error _ => none

/-! ### Encoding -/

/-- The fields of an instruction; extended words stand only where a field differs from what R36 gives without them. -/
def Args.fields (o : Op) (x : Args) : Fields :=
  let sub := if o.hasSrc then x.src.code o.float else if o.subCount == 1 then o.code else x.sub
  let f : Fields :=
    { ext := true, b := x.b.code, a := x.a.code, dst := x.dst.bits.2, major := o.major, mods := x.mods,
      sel := x.dst.bits.1, sat := if x.sat then 1 else 0, rnd := x.rnd.code, ty := x.ty.code o.float, sub := sub,
      swz := x.swz, lrC := if x.lrC then 1 else 0, neg := if x.guard.neg then 1 else 0, guard := x.guard.p,
      c := x.c.code, pol := x.pol.code, off := x.off, lit := x.lit }
  let plain := decide (x.ty = o.defaultTy) && decide (o.cKind x.sub x.mods = .none)
    && decide (f = { f with mods := 0, sel := 0, sat := 0, rnd := 0, sub := 0, swz := 0, lrC := 0, neg := 0, guard := 7,
                            pol := 0, off := 0 })
  if plain then { f with ext := false, ty := 0 } else f

/-- The words of a well-formed encoded instruction; an event has none. -/
def encode (i : Instr) : List Word :=
  match i.op? with
  | some (o, x) => (x.fields o).words
  | none => []

/-! ### Clauses -/

/-- The header's signature (R24). -/
def headerSigned (w0 : Word) : Bool := decide (w0.extractLsb' 0 4 = 8)

/-- Instructions in the clause (R24). -/
def headerCount (w0 : Word) : Nat := (w0.extractLsb' 26 3).toNat + 1

/-- The flags the clause's header names as valid: X and Y (R24). -/
def headerX (w0 : Word) : Option Nat := if w0.getLsbD 20 then some (w0.extractLsb' 16 4).toNat else none
def headerY (w0 : Word) : Option Nat := if w0.getLsbD 25 then some (w0.extractLsb' 21 4).toNat else none

/-- The rejoin bit (R24). -/
def headerRejoin (w0 : Word) : Bool := w0.getLsbD 29

/-- The yield hint (R24, R29). -/
def headerYield (w0 : Word) : Bool := w0.getLsbD 30

/-- The wait mask: bit i names flag fi (R24). -/
def headerWait (w0 : Word) : BitVec 12 := w0.extractLsb' 4 12

/-- The clause guard (R25). -/
def headerGuard (w1 : Word) : Guard := ⟨w1.extractLsb' 16 3, w1.getLsbD 19⟩

/-- The last-read bits of operands a and b of instruction i (R25). -/
def headerLr (w1 : Word) (i : Nat) : Bool × Bool := (w1.getLsbD (2 * i), w1.getLsbD (2 * i + 1))

/-- Whether words select a control transfer (R46), whatever else their fields hold. -/
def transferWords (ws : List Word) : Bool :=
  match Fields.read ws with
  | none => false
  | some (f, _) => f.op.any Op.transfer

/-- The instruction of one index, with the checks that involve its clause: a control transfer's place (R46), which comes
before an unused field (R30), and the last-read bits of a and b (R47). DESIGN CHOICE (log 53): one of these bits, which stand in
header word 1, is reported at the index of its instruction; one at or beyond the count at 8, the header's. -/
def decodeAt (w1 : Word) (count i : Nat) (ws : List Word) : Except Reject Instr :=
  match decodeWords ws with
  | .error .reservedField => .error (if transferWords ws && decide (i + 1 ≠ count) then .illegalOp else .reservedField)
  | .error _ => .error .illegalOp
  | .ok (ins, _) =>
    match ins.op? with
    | none => .error .illegalOp
    | some (o, x) =>
      if o.transfer && decide (i + 1 ≠ count) then .error .illegalOp
      else if ((headerLr w1 i).1 && !x.a.isVec) || ((headerLr w1 i).2 && !x.b.isVec) then .error .reservedField
      else .ok ins

/-- Whether an instruction is long-latency. -/
def Instr.long (i : Instr) : Bool :=
  match i.op? with
  | some (o, _) => o.long
  | none => false

/-- The first failing check among instructions from index i on: its index and trap. -/
def firstBad (w1 : Word) (count : Nat) : Nat → List (List Word) → Option (Nat × Reject)
  | _, [] => none
  | i, ws :: t =>
    match decodeAt w1 count i ws with
    | .error r => some (i, r)
    | .ok _ => firstBad w1 count (i + 1) t

/-- How many of a clause's instructions are long-latency. -/
def longCount (code : List (List Word)) : Nat :=
  (code.filter (fun ws => match decodeWords ws with | .ok (i, _) => i.long | .error _ => false)).length

/-- The ILLEGAL_OP checks of the header (R26, R48). -/
def headerIllegal (w0 : Word) (longs : Nat) : Bool :=
  [ decide ((headerX w0).getD 0 ≥ 12), decide ((headerY w0).getD 0 ≥ 12),
    (headerX w0).isSome && decide (headerX w0 = headerY w0),
    decide ((headerX w0).isSome ≠ decide (1 ≤ longs)), decide ((headerY w0).isSome ≠ decide (2 ≤ longs)) ].any id

/-- The RESERVED_FIELD checks of the header and of the padding word (R24, R25, R47, R48). -/
def headerReserved (w0 w1 : Word) (pad : Word) : Bool :=
  [ w0.getLsbD 31, decide (w1.extractLsb' 20 12 ≠ 0), decide (pad ≠ 0),
    !w0.getLsbD 20 && decide (w0.extractLsb' 16 4 ≠ 0), !w0.getLsbD 25 && decide (w0.extractLsb' 21 4 ≠ 0),
    decide ((w1.extractLsb' 0 16).toNat ≥ 2 ^ (2 * headerCount w0)) ].any id

/-- The check of a whole clause: the lowest failing index, 8 for the header or the padding, ILLEGAL_OP first (R30). -/
def clauseCheck (w0 w1 : Word) (code : List (List Word)) (pad : Word) : Option (Nat × Reject) :=
  match firstBad w1 (headerCount w0) 0 code with
  | some r => some r
  | none =>
    if headerIllegal w0 (longCount code) then some (8, .illegalOp)
    else if headerReserved w0 w1 pad then some (8, .reservedField)
    else none

end Sys2Proof
end

