-- ==== Sys2Proof/Machine/Store.lean ====
section
/-! DEFINITION. Operations on sparse tables, each keeping the keys rising and, for tables of values with a default,
listing no default. -/

namespace Sys2Proof

/-- The cell under a key. -/
def Store.find {α : Type} (k : Nat) : Store α → Option α
  | [] => none
  | (j, v) :: t => if j = k then some v else Store.find k t

/-- The table without a key. -/
def Store.drop {α : Type} (k : Nat) : Store α → Store α
  | [] => []
  | (j, v) :: t => if j = k then Store.drop k t else (j, v) :: Store.drop k t

/-- The table with a cell put before the first greater key. -/
def Store.insert {α : Type} (k : Nat) (v : α) : Store α → Store α
  | [] => [(k, v)]
  | (j, u) :: t => if k < j then (k, v) :: (j, u) :: t else (j, u) :: Store.insert k v t

/-- The table with a key set. -/
def Store.put {α : Type} (k : Nat) (v : α) (t : Store α) : Store α :=
  Store.insert k v (Store.drop k t)

/-- What a table of values reads under a key; an unlisted key reads the default. -/
def Store.get {α : Type} (d : α) (k : Nat) (t : Store α) : α :=
  (Store.find k t).getD d

/-- A table of values with a key set; the default is not listed. -/
def Store.set {α : Type} [DecidableEq α] (d : α) (k : Nat) (v : α) (t : Store α) : Store α :=
  if v = d then Store.drop k t else Store.put k v t

/-- The table with one cell changed, if it is there. -/
def Store.modify {α : Type} (k : Nat) (f : α → α) (t : Store α) : Store α :=
  match Store.find k t with
  | some v => Store.put k (f v) t
  | none => t

/-- Every key after the first is greater than the one before it. -/
def Store.rising {α : Type} : Store α → Bool
  | [] => true
  | [_] => true
  | (j, _) :: (k, v) :: t => decide (j < k) && Store.rising ((k, v) :: t)

/-- The canonical form of a table of values: keys rising, no default listed. -/
def Store.wf {α : Type} [DecidableEq α] (d : α) (t : Store α) : Bool :=
  Store.rising t && t.all (fun c => decide (c.2 ≠ d))

/-- The cells of a table, without their keys. -/
def Store.vals {α : Type} (t : Store α) : List α := t.map Prod.snd

/-- The keys of a table. -/
def Store.keys {α : Type} (t : Store α) : List Nat := t.map Prod.fst

/-- The least natural number below `n` that is not a key. -/
def Store.fresh {α : Type} (t : Store α) : Nat → Nat → Option Nat
  | 0, _ => none
  | n + 1, k => match Store.find k t with
    | none => some k
    | some _ => Store.fresh t n (k + 1)

end Sys2Proof
end

