-- ==== Sys2Proof/Machine/State.lean ====
section
/-! DEFINITION. The state of one KW1 package, the reasons a step can stop, and the state after reset.
The rule that names each piece of state stands in INVENTORY.md under '## State'. -/

namespace Sys2Proof.Machine

/-- A register's contents: its value and its label (R49). -/
structure RegVal where
  val : Word := 0
  lab : Label := 0
  deriving DecidableEq, Repr, Inhabited

/-- Why a step stops with a fault. -/
inductive Fault where
  /-- Raised by every encoded instruction when no group is issuing (`cur` names none): there is no fibre for it to act
  on, so the rules give it no effect. Safe: the step of the machine never issues without a group. -/
  | noIssuer
  deriving DecidableEq, Repr, Inhabited

/-- Why a step is refused. -/
inductive Refusal where
  /-- The instruction has no meaning in this model. -/
  | notModelled (mnemonic : String)
  /-- Raised by an event whose condition does not hold in the state: the event does not occur there. Safe: nothing
  is claimed of it. -/
  | notEnabled
  deriving DecidableEq, Repr, Inhabited

/-! ### Fibres, groups and yarns -/

/-- A fibre's monitor (R152, R153). `seen` is the number of writes its block had taken when it was armed, `since` the
local cycle at which mwait began to wait. -/
structure Monitor where
  glob : Bool
  addr : DWord
  place : Nat := 0        -- fabric physical address, or the strand of a scratchpad address
  width : Nat
  value : DWord
  seen : Nat
  since : Option Nat := none
  limit : Nat := 0
  woken : Option Word := none
  reread : Bool := false  -- restored, and not yet read anew
  deriving DecidableEq, Repr, Inhabited

/-- A lane of a yarn: a fibre, or none (R49, R56, R57). `linear` is none for a spawned fibre. -/
structure Lane where
  preds : BitVec 7 := 0
  active : Bool := false
  exited : Bool := false
  parked : Bool := false
  wbase : BitVec 19 := 0
  regs : Store RegVal := []
  linear : Option Nat := none
  monitor : Option Monitor := none
  lastPc : BitVec 57 := 0
  lastIdx : BitVec 4 := 0
  deriving DecidableEq, Repr, Inhabited

/-- When a yarn, or a running fray, last issued (R132, R167), and when it yielded, until it starts its next clause (R98). -/
structure Turns where
  last : Nat := 0
  yielded : Option Nat := none
  deriving DecidableEq, Repr, Inhabited

/-- What a yarn owns once and a fray copies (R54, R55, R61, R62, R105, R113). -/
structure Bank where
  scalars : Store RegVal := []
  status : Word := 0
  ssw : Word := 0
  floor : Label := 0
  flags : BitVec 12 := 0
  xcause : Word := 0
  xindex : Word := 0
  xpc : DWord := 0
  xarg : DWord := 0
  xmask : DWord := 0
  deriving DecidableEq, Repr, Inhabited

/-- A clause as read (R23 to R25): header words, the words of each instruction, and the header that follows. -/
structure Clause where
  w0 : Word := 0
  w1 : Word := 0
  code : List (List Word) := []
  next : BitVec 57 := 0
  deriving DecidableEq, Repr, Inhabited

/-- Where a group stands in R27. -/
inductive Phase where
  | header                     -- before step 1
  | rejoin                     -- waiting at step 2
  | flags                      -- waiting at step 3
  | issue                      -- issuing instruction `idx`
  | resume (i : BitVec 4)      -- returning by tret to instruction i (R116)
  deriving DecidableEq, Repr, Inhabited

/-- Attributes of the page an access used (R238). -/
structure Page where
  fab : Fab := 0               -- fabric physical address of the byte accessed
  va : DWord := 0
  cls : BitVec 2 := 0
  scope : BitVec 2 := 0
  label : Label := 0
  write : Bool := false
  snap : Bool := false
  owned : Bool := false
  nocache : Bool := false
  base : Fab := 0              -- the page's first byte
  size : Nat := 4096
  deriving DecidableEq, Repr, Inhabited

/-- One part of a lane's access: the bytes of one aligned unit or page (R249). -/
structure Part where
  page : Page
  off : Nat := 0               -- its place in the lane's data
  len : Nat
  dst : Peer := 0              -- the peer whose memory serves it
  pfx : Fab := 0               -- the prefix it was routed by (R308)
  plen : Nat := 0
  req : Option Nat := none     -- the number of its request
  deriving DecidableEq, Repr, Inhabited

/-- How one part of a lane's access stands (R244, R245). -/
inductive PartState where
  | here (q : Fab)                              -- served by this package, from backing byte q
  | line                                        -- in a line of another origin that this package owns (R264)
  | host (a : Nat)                              -- bytes of host memory through a bounce channel
  | hostMeter (a : Nat)                         -- the same, not yet admitted by the egress meter (R357)
  | aper (chan : Nat)                           -- a copy channel's aperture (R241)
  | away (dst : Peer) (r : Request)             -- a request to form
  | sent                                        -- a request awaits its holder's answer, or is held here
  | passed (dst : Peer) (r : Request)           -- its holder outside answered that steps 6 and 7 of R244 pass
  | taken (data : List Byte) (lab : Label)      -- a STRONG write accepted and not acknowledged (R265)
  | got (data : List Byte) (lab : Label)        -- accepted by a holder outside
  | fault (cause : Byte) (addr : DWord)
  deriving DecidableEq, Repr, Inhabited

/-- One lane of an access: its parts, the bytes it writes and the label they carry. -/
structure LaneAcc where
  lane : Nat
  parts : List (Part × PartState)
  data : List Byte := []
  data2 : List Byte := []
  lab : Label := 0             -- label of the address operand, for a load's result
  wlab : Label := 0            -- the write label (R244 step 5)
  deriving DecidableEq, Repr, Inhabited

/-- What the instruction under acceptance does with its accesses. -/
inductive AccKind where
  | load | store | atom | red | mon | shape | knot | startRec | spill
  deriving DecidableEq, Repr, Inhabited

/-- An instruction whose lanes are being accepted (R245). -/
structure Access where
  kind : AccKind
  lanes : List LaneAcc
  width : Nat := 4
  deriving DecidableEq, Repr, Inhabited

/-- What a group waits for at its instruction. -/
inductive Wait where
  | rdv (x pt : Nat) (woken : Bool)                 -- R142: the point, and whether its phase has moved
  | ring (k : Nat) (r : Bool) (full : Bool)         -- R150: slot, round, and whether a full slot is wanted
  | mwait                                           -- R153
  | tb (x at_ : Nat) (woken : Bool)                 -- R289: the barrier, and whether its phase has moved
  | timeline (ctx : Nat) (n : DWord)                -- R292
  | knot (va : DWord) (round : BitVec 16) (num : Nat)   -- R345: the knot, the round and the instruction's number
  | rtsync (ids : List Nat)                         -- R318
  | accept (a : Access)                             -- R245: not a blocking point
  -- R129: the step at which it issued, the records not yet placed and the lanes whose record faulted; not a blocking point
  | spawn (since : Nat) (recs : List (Nat × BitVec 512)) (bad : List (Nat × Byte × DWord))
  deriving DecidableEq, Repr, Inhabited

/-- A PC group (R101), or a running fray. -/
structure Group where
  id : Nat
  lanes : Mask
  fray : Option Nat := none
  pc : BitVec 57
  arrival : Nat := 0
  rank : Nat := 64             -- its place among groups of one arrival: restored ones keep their order (R171)
  phase : Phase := .header
  clause : Clause := {}
  idx : Nat := 0
  gmask : Mask := 0            -- lanes whose clause guard was true
  wait : Option Wait := none
  drained : Option Nat := none -- writes counted before a held release (R254)
  brk : Bool := false          -- a breakpoint has stopped it at its instruction already (R11)
  deriving DecidableEq, Repr, Inhabited

/-- State of a fray (R100). -/
inductive FrayState where
  | parked | running | handler
  deriving DecidableEq, Repr, Inhabited

/-- A fragment-table entry in use (R105, R106). -/
structure Fray where
  lanes : Mask
  pc : BitVec 57
  index : BitVec 4
  cause : Byte
  addrs : List DWord
  rejoin : BitVec 57 := 0
  state : FrayState := .parked
  use : Byte
  bank : Bank
  clause : Clause
  gmask : Mask
  num : Nat := 0               -- which of its yarn's frays it is, of all it ever had
  turns : Turns := {}
  deriving DecidableEq, Repr, Inhabited

/-- What a long-latency instruction still has to do. -/
inductive PendAct where
  | none
  | accLd (slot : Nat) (dst : Nat) (els : List (Nat × Nat × Label)) (floor : Label)
  | accSt (slot : Nat) (els : List (Nat × RegVal))
  | accOut (slot x at_ : Nat)
  | accIn (slot x at_ : Nat) (floor : Label)
  | accZero (slot : Nat) (floor : Label)
  | mmchk (slot : Nat) (half : Nat) (dst : Nat) (lanes : Mask)
  deriving DecidableEq, Repr, Inhabited

/-- A long-latency instruction not yet complete (R26, R97, R223): its flag, whose copy of the flags it stands behind,
the register lanes it will write, the knot instruction number it completes, and its place in slot order. -/
structure Pend where
  flag : Option Nat
  fray : Option Nat := none
  writes : List (Nat × Nat × RegVal) := []     -- lane, register, value
  swrites : List (Nat × RegVal) := []
  knot : Option DWord := none
  act : PendAct := .none
  seq : Nat := 0
  deriving DecidableEq, Repr, Inhabited

/-- A write counted in an outstanding-acknowledgement counter (R254): its request number, whether it stands in the
ordered counter, whether this package performed it itself, its holder and its address; and, for fid, the virtual address and
the instruction's place. -/
structure Counted where
  id : Nat
  ordered : Bool
  here : Bool
  dst : Peer := 0
  addr : Fab := 0
  va : DWord := 0
  pc : BitVec 57 := 0          -- the instruction that wrote: its clause and its index (R236)
  idx : Nat := 0
  strand : Nat := 0            -- the strand that wrote (R183)
  deriving DecidableEq, Repr, Inhabited

/-- A yarn. -/
structure Yarn where
  strand : Nat
  num : Nat := 0
  spawned : Bool := false
  stage : Nat := 0
  slot : Option Nat := none
  retired : Bool := false
  lanes : Store Lane := []
  bank : Bank := {}
  groups : List Group := []
  nextGroup : Nat := 0
  frays : Store Fray := []
  nextFray : Nat := 0
  pend : List Pend := []
  counted : List Counted := []          -- writes awaiting acknowledgement (R254)
  acqEvent : Nat := 0                   -- route event number at its latest DOMAIN acquire (R305)
  wrote : List Peer := []               -- origins its writes were routed to (R305)
  changes : List Nat := []              -- its route changes (R318)
  stopped : Bool := false               -- stopped for fid (R115)
  turns : Turns := {}
  deriving DecidableEq, Repr, Inhabited

/-! ### Strands -/

/-- A rendezvous point (R140), with the watchdog's marks (R145, R148). -/
structure Point where
  armed : Bool := false
  exp : Nat := 0
  arr : Nat := 0
  phase : BitVec 16 := 0
  first : Nat := 0
  marks : List (Nat × Mask) := []       -- yarn number, lanes that arrived in this phase
  fired : Bool := false
  deriving DecidableEq, Repr, Inhabited

/-- How a transfer stands (R267, R284). -/
inductive RunState where
  | queued | running | faulted | done
  deriving DecidableEq, Repr, Inhabited

/-- A transfer by sectors: a copy, or the store of an mma. -/
structure Run where
  state : RunState := .queued
  off : Nat := 0
  cause : Byte := 0
  point : BitVec 2 := 0
  index : Word := 0
  addr : DWord := 0
  use : Byte := 0
  deriving DecidableEq, Repr, Inhabited

/-- A copy on a channel (R269, R270). -/
structure Copy where
  chan : Nat
  num : Nat
  record : BitVec 512
  start : DWord
  floor : Label
  yarn : Nat
  run : Run := {}
  idx : List Word := []                 -- indexes of a gather, as read
  lab : Label := 0                      -- highest label read so far, for a DECK
  deriving DecidableEq, Repr, Inhabited

/-- A stage of a matrix operation. -/
inductive OpStage where
  | steps | stored | done
  deriving DecidableEq, Repr, Inhabited

/-- A matrix operation (R216 to R221). -/
structure MOp where
  num : Nat
  seq : Nat := 0
  block : BitVec 1024
  fw : Word
  lab : Label                           -- of format word, parameter block and issuing floor
  yarn : Nat
  fray : Option Nat := none             -- the fray's own number in its yarn
  lane : Nat := 0
  tmpl : BitVec 512 := 0
  stmpl : BitVec 512 := 0
  progress : Nat := 0
  nv : Bool := false
  of : Bool := false
  qsat : Bool := false
  stage : OpStage := .steps
  out : Store Byte := []                -- the tile's bytes, row by row
  scales : Store Byte := []
  hold : Bool := false                  -- held by fid at a K-step boundary (R185)
  failed : Option (Nat × Bool) := none  -- first failing column, and whether the arithmetic check failed there
  run : Run := {}
  srun : Run := {}
  deriving DecidableEq, Repr, Inhabited

/-- A spawn bin (R126). -/
structure Bin where
  id : Nat
  stage : Nat
  entry : BitVec 57
  recs : List (BitVec 512)
  opened : Nat
  released : Bool := false
  releasedAt : Nat := 0                 -- the local cycle of its release
  deriving DecidableEq, Repr, Inhabited

/-- Where a strand stands. -/
structure Place where
  die : Nat
  core : Nat
  base : Nat                            -- of its scratchpad allocation
  deriving DecidableEq, Repr, Inhabited

/-- An accumulator slot with its checksum and magnitude vectors (R223 to R227). -/
structure Slot where
  acc : Store Word := []
  lab : Label := 0
  ck : Store Word := []
  mg : Store Word := []
  ckLive : Bool := false
  deriving DecidableEq, Repr, Inhabited

/-- What an image keeps of the matrix context (R170). -/
structure Image where
  slots : Store Slot
  slice : Store Byte
  lab : Label
  deriving DecidableEq, Repr, Inhabited

/-- A strand (R118). -/
structure Strand where
  launch : Nat
  coil : Nat := 0
  index : Nat := 0
  place : Option Place := none
  former : Option (Nat × Nat) := none   -- the die and core it held when evicted or replayed
  pad : Store Byte := []
  padLab : Store Label := []
  padStamp : Store Nat := []
  points : Store Point := []
  bins : List Bin := []
  issued : Store Nat := []              -- timelines 0 to 9 (R291)
  dones : Store Nat := []
  knotsOpen : List Nat := []            -- knot instructions issued and not done (R347)
  copies : List Copy := []
  ops : List MOp := []
  seq : Nat := 0                        -- slot order (R223)
  image : Option Image := none
  frozenAt : Nat := 0                   -- cycle at which it was evicted (R173)
  placedAt : Nat := 0                   -- step at which it was last placed (R169)
  ended : Bool := false                 -- it has ended (R130), and its copies or matrix operations go on (R270)
  deriving DecidableEq, Repr, Inhabited

/-- A core. -/
structure Core where
  resetAt : Nat := 0
  slots : Store Slot := []
  slice : Store Byte := []
  sliceLab : Label := 0
  uses : Store Byte := []               -- use count of each fragment-table entry (R106)
  gated : Bool := false
  clock : Bool := true
  cand : Bool := false
  quads : Store (Nat × Nat) := []       -- yarn and group whose clause each quadrant is inside (R102)
  deriving DecidableEq, Repr, Inhabited

/-! ### Launches and functions -/

/-- The collective binding of a launch (R327 to R337). -/
structure Coll where
  fn : Nat
  ceil : Nat
  desc : BitVec 512
  bind : BitVec 512
  members : List Peer
  me : Nat
  knot : Option Fab := none
  kdesc : BitVec 512 := 0               -- the knot's descriptor as read
  due : List Nat := []                  -- chunks whose strand has ended, not fired yet (R331)
  fired : List Nat := []
  wanted : List (Nat × Nat) := []       -- chunks whose next pass is to start here, and the member that asks for it (R333)
  running : List Nat := []              -- chunks whose pass started here is under way
  written : List Nat := []              -- chunks written to the result region, or given up
  deriving DecidableEq, Repr, Inhabited

/-- A fired chunk in staging (R331). -/
structure Staged where
  launch : Nat
  chunk : Nat
  knot : Option Fab
  round : BitVec 16
  weight : Nat := 0                     -- W of the knot
  desc : BitVec 512
  bytes : List Byte
  label : Label
  ready : Bool := false                 -- its launch has fired all its chunks (R332)
  deriving DecidableEq, Repr, Inhabited

/-- What a member adds to one pass, fixed as R332 says: its own launch if it is ready, and launches with late chunks. -/
structure Fixed where
  knot : Option Fab
  round : BitVec 16
  turn : Nat
  own : Option Nat
  late : List Nat
  seen : List Nat := []                 -- chunks whose pass has been here, or is known to be over
  deriving DecidableEq, Repr, Inhabited

/-- An answer of a knot's home to a pass of a round, and the chunks whose partial of that pass may still end here (R333). -/
structure Verdict where
  knot : Fab
  round : BitVec 16
  turn : Nat
  close : Bool
  left : List Nat
  deriving DecidableEq, Repr, Inhabited

/-- How a launch ends (R164). -/
structure Ending where
  status : Byte
  cause : Byte
  deriving DecidableEq, Repr, Inhabited

/-- An error of a launch: its location, the core or, in HBM or a die cache, the line, and the replays made before it
(R233, R235). -/
structure Found where
  loc : Nat
  at_ : Nat
  attempt : Nat
  deriving DecidableEq, Repr, Inhabited

/-- A launch (R156 to R164). -/
structure Launch where
  fn : Nat
  queue : Nat
  at_ : Nat := 0                        -- its slot number in the queue
  packet : BitVec 512
  args : BitVec 512 := 0
  argLab : Label := 0                   -- label of the page the block was read from (R10)
  argsRead : Bool := false              -- the argument block is read (R161)
  nextCoil : Nat := 0
  evicted : List Nat := []              -- evicted coils
  ended : Nat := 0                      -- strands ended
  killed : Nat := 0
  discarded : Nat := 0
  replays : Nat := 0
  replayable : Bool := false
  snap : Store Byte := []               -- saved bytes of snapshot pages
  snapLabs : Store Label := []          -- and their frames' labels
  snapPages : List (Nat × Nat) := []    -- first byte and size of each page saved
  granted : Option Nat := none
  lblcnt : Word := 0
  ending : Option Ending := none
  unacked : List Counted := []          -- counted writes of yarns that are gone (R163)
  spillAt : DWord := 0                  -- header of its spill queue (R128); 0 for none
  spillBase : DWord := 0
  spillCap : Nat := 0
  spillR : Nat := 0
  spillW : Nat := 0
  -- strand, stage and entry of each record in the queue, oldest first; DESIGN CHOICE (log 53): a record in memory names
  -- neither strand nor stage, and one read back belongs to those it was spawned for
  spilled : List (Nat × Nat × BitVec 57) := []
  logged : Bool := false                -- its lbldn entry is appended
  lastDiag : List Byte := []            -- the last watchdog record (R117)
  heldPolicy : Bool := false            -- a watchdog policy waits for fid (R117)
  cores : List (Nat × Nat × Nat) := []  -- coil, strand, the core each strand stood on last (R235)
  errors : List Found := []             -- errors of its attempts so far (R235)
  deriving DecidableEq, Repr, Inhabited

/-- A user queue (R155 to R157). -/
structure Queue where
  base : DWord := 0
  ctl : Word := 0
  read : Word := 0
  write : Word := 0
  held : Option (BitVec 512) := none    -- the barrier-and packet that holds it
  open_ : List (Nat × Option Nat) := [] -- packets taken and not complete: slot number, launch
  deriving DecidableEq, Repr, Inhabited

/-- A waiting record for a host fault queue, and what it releases once written (R370). -/
structure FaultRec where
  bytes : List Byte
  watchdog : Option Nat := none         -- the launch whose policy acts once it is written (R146)
  deriving DecidableEq, Repr, Inhabited

/-- A bounce channel (R363). -/
structure Bounce where
  pfx : Fab := 0
  len : Nat := 0
  host : Nat := 0
  outSeq : Nat := 0
  inSeq : Nat := 0
  resync : Bool := false
  key : BitVec 256 := 0
  part : List (Nat × List Byte) := []   -- the record under way to the host: host addresses and bytes, oldest first
  by_ : Option Nat := none              -- the launch whose engine writes it
  skew : Bool := false                  -- a record was aborted: the two ends' sequences are out of step
  deriving DecidableEq, Repr, Inhabited

/-- Counters a function reports to the host. -/
structure Telemetry where
  replies : Nat := 0
  lost : Nat := 0
  slotFaults : Nat := 0
  skipped : Nat := 0
  snapFull : Nat := 0
  corrected : Nat := 0                  -- corrected errors (R227); no step of the table finds one
  stalls : Nat := 0
  auth : Nat := 0                       -- authentication failures of links (R372)
  deriving DecidableEq, Repr, Inhabited

/-- A PCIe function's registers and firmware state. -/
structure Func where
  queues : Store Queue := []
  ptroot : DWord := 0
  xldone : Word := 0
  xlpend : List (DWord × Nat) := []     -- XLINV writes not done, each with the next request number at its write
  fqbase : DWord := 0
  fqctl : Word := 0
  fqwrite : Word := 0
  fqread : Word := 0
  waiting : List FaultRec := []
  policy : Word := 0
  annwin : DWord := 0
  backwin : DWord := 0
  injlim : Word := 0
  fstatus : Word := 0
  metbal : DWord := 0
  metfill : DWord := 0
  metcap : DWord := 0
  metreg : Store DWord := []
  metAt : Nat := 0                      -- cycle of the last refill
  metStalled : Bool := false
  secmode : BitVec 2 := 0
  tdispRun : Bool := false              -- its TDISP interface is in RUN (R348)
  grants : Store Grant := []
  bounce : Store Bounce := []
  low : Store Word := []
  tele : Telemetry := {}
  session : Option Session := none      -- the attached fid session (R115, R366)
  key : Option Nat := none              -- draw number of its memory key (R362)
  deriving DecidableEq, Repr, Inhabited

/-! ### Routing -/

/-- A holder of a prefix (R299). -/
structure Holder where
  peer : Peer
  kind : BitVec 2
  origin : Peer
  seq : Word
  issue : BitVec 16
  inc : BitVec 16
  path : List Peer
  ceiling : Label
  strong : Bool
  refresh : Nat := 0
  backing : Fab := 0
  deriving DecidableEq, Repr, Inhabited

/-- A route-table entry. -/
structure Entry where
  pfx : Fab
  len : Nat
  holders : List Holder
  deriving DecidableEq, Repr, Inhabited

/-- A forwarding stub (R309). -/
structure Stub where
  pfx : Fab
  len : Nat
  issue : BitVec 16
  acked : List Peer := []               -- peers that have acknowledged it
  deriving DecidableEq, Repr, Inhabited

/-- A route change not yet converged (R310). -/
structure Change where
  pfx : Fab
  len : Nat
  issue : BitVec 16
  kind : BitVec 2
  acked : List Peer := []               -- peers that have acknowledged it
  deriving DecidableEq, Repr, Inhabited

/-- An ACK held back until the requests it names are settled (R303). -/
structure HeldAck where
  dst : Peer
  msg : BitVec 256
  reqs : List Nat
  deriving DecidableEq, Repr, Inhabited

/-- Why a request of this package is not with its holder yet. -/
inductive Hold where
  | none | meter | injection | scrub | line | order
  deriving DecidableEq, Repr, Inhabited

/-- Who made a request: a lane of an instruction; a group reading instruction words; a launch's command-processor
reads; a queue's; a copy channel or the matrix store engine of a strand; a strand's spill queue; a chunk; a completion
signal; a restored monitor of a lane; another peer whose request is relayed or served. -/
inductive Who where
  | lane (y g l p : Nat) | fetch (y g : Nat) | cp (l : Nat) | queue (fn q : Nat) | engine (x ch : Nat) | spill (x : Nat)
  | chunk (l c : Nat) | signal (fn : Nat) | firmware | monitor (y l : Nat) | relay (src : Peer) (id : Nat)
  deriving DecidableEq, Repr, Inhabited

/-- A line of another origin that this package owns (R264): its bytes, its origin, the label of the page and the function of the
last write to it here, and the highest label of the bytes in it: of its frame as granted, and of the values stored here. -/
structure Owned where
  bytes : List Byte
  origin : Peer := 0
  lab : Option Label := none
  fn : Nat := 0
  carried : Label := 0
  deriving DecidableEq, Repr, Inhabited

/-- A request whose checks have passed and that awaits its word to be performed: the peer and number it came under, the
request, and the byte of backing that will serve it. -/
structure Taken where
  req : Request
  at_ : Nat
  deriving DecidableEq, Repr, Inhabited

/-- Bytes a step of the package reads from, or writes to, a holder outside, under the number of its request, and the answer once
it came. `va` is the virtual address written. -/
structure Buf where
  who : Who
  addr : Fab
  len : Nat
  req : Nat := 0
  va : DWord := 0
  write : Bool := false
  ans : Option Answer := none
  acked : Bool := false                 -- a write visible at its page's scope (R294)
  deriving DecidableEq, Repr, Inhabited

/-- A request of this package that no holder has answered. -/
structure OutReq where
  req : Request
  dst : Peer
  who : Who
  hold : Hold := .none
  fn : Nat := 0
  accepted : Bool := false              -- a write its holder has accepted and not acknowledged (R254, R265)
  passed : Bool := false                -- its checks have passed, and it has not been told to go on
  launch : Option Nat := none           -- the launch it is made for
  deriving DecidableEq, Repr, Inhabited

/-- What pays the egress meter unit by unit: the response to a request, a line written back, a read of a function's memory
window or by its fid, a pass sent on. -/
inductive Toll where
  | req (src : Peer) (id : Nat) | line (k : Nat) | window (fn : Nat)
  | pass (launch : Nat) (knot : Option Fab) (chunk turn phase hop : Nat)
  deriving DecidableEq, Repr, Inhabited

/-- A request of another peer this package holds back (R264 recall, R357 meter, R364 scrub). -/
structure InReq where
  req : Request
  hold : Hold
  deriving DecidableEq, Repr, Inhabited

/-- An extent revoked for a peer (R326). -/
structure Revoked where
  peer : Peer
  pfx : Fab
  len : Nat
  reported : Bool := false
  deriving DecidableEq, Repr, Inhabited

/-! ### Links -/

/-- One fabric port and its link (R320 to R322, R372). -/
structure Link where
  far : Peer := 0
  trunk : Bool := false
  up : Bool := false
  epoch : BitVec 16 := 0
  key : BitVec 256 := 0
  sendSeq : Word := 0                   -- next data sequence
  recvSeq : Word := 0                   -- next expected
  ctlOut : Word := 0
  ctlIn : Option Word := none
  stored : List Flit := []
  retries : Nat := 0                    -- CRC failures of the flit next in order
  crcErr : Word := 0
  retrains : Word := 0
  authErr : Word := 0
  authPeer : Peer := 0
  authEpoch : BitVec 16 := 0
  slept : Bool := false                 -- it was up as the package went into standby (R367)
  deriving DecidableEq, Repr, Inhabited

/-! ### Firmware -/

/-- An access-log entry (R359). -/
structure LogEntry where
  prev : BitVec 384
  seq : BitVec 64
  kind : Byte
  fn : Byte
  launch : Word
  detail : BitVec 512
  deriving DecidableEq, Repr, Inhabited

/-- An installed seal window (R358). -/
structure Sealed where
  win : SealWindow
  key : BitVec 256
  used : Nat := 0                       -- bytes decrypted since its last key-use entry
  deriving DecidableEq, Repr, Inhabited

/-- A range under scrub (R364). -/
structure Scrub where
  base : Nat
  len : Nat
  ptr : Nat := 0
  fn : Nat := 0
  deriving DecidableEq, Repr, Inhabited

/-- Power state of the package (R367). -/
inductive Power where
  | active | standby
  deriving DecidableEq, Repr, Inhabited

/-- How far bring-up has come (R371): the clocks stand, or only the recovery mailbox is exposed; the links train (step 4); the own
/12 is announced, in a change that is to converge (step 6); or it is done. -/
inductive Boot where
  | dark | links | announcing (change : Nat) | up
  deriving DecidableEq, Repr, Inhabited

/-- Who may debug the package's launches (R366). -/
inductive DebugMode where
  | off | user | vendor
  deriving DecidableEq, Repr, Inhabited

/-- What moves next: a group's instruction, an event of the package, or one of the pending inputs. -/
inductive Turn where
  | issue (y g : Nat)
  | event (i : Instr)
  | input (k : Nat)
  deriving DecidableEq, Repr, Inhabited

/-- Memory of the package's own peer, keyed by fabric physical address: bytes, frame labels, poison marks, and the
number of writes each 64-byte block has taken (for monitors). -/
structure Mem where
  bytes : Store Byte := []
  labels : Store Label := []
  poison : Store Bool := []
  stamps : Store Nat := []
  deriving DecidableEq, Repr, Inhabited

/-- One package of the domain. The last fields are the model's own: what moves next, the count of steps and of cycles,
pending inputs, messages sent, and the numbers next given. -/
structure State where
  peer : Peer := 0
  inc : BitVec 16 := 0
  booted : Bool := false                -- bring-up step 6 is done (R371)
  boot : Boot := .up
  images : Images := { rom := [], trusted := [], service := [], fuses := [] }   -- the firmware and fuses as last read at a reset
  mem : Mem := {}
  hostMem : Store Byte := []
  cores : Store Core := []
  launches : Store Launch := []
  strands : Store Strand := []
  yarns : Store Yarn := []
  funcs : Store Func := []
  table : List Entry := []
  maxSeq : List (Fab × Nat × Word) := []     -- highest origin sequence recorded for a prefix
  issues : List (Fab × Nat × BitVec 16) := []  -- announcements made for a prefix
  stubs : List Stub := []
  changes : Store Change := []
  heldAcks : List HeldAck := []
  noted : List (Fab × Nat × Peer × BitVec 16) := []  -- issues recorded of a prefix's holders (R302)
  routeEvent : Nat := 0
  incs : Store (BitVec 16) := []        -- highest incarnation recorded of each peer (R263)
  owners : Store (Peer × Fab) := []     -- owner of each line of this origin, and the line as it names it (R264)
  recalling : List Nat := []            -- lines whose recall is sent and not answered
  ownedHere : Store Owned := []         -- lines owned here
  checked : List Taken := []            -- requests of other packages that passed their checks
  reqs : Store OutReq := []
  bufs : List Buf := []
  held : List InReq := []
  tolls : List (Toll × Nat) := []       -- units a meter has admitted of what waits for more (R357)
  revoked : List Revoked := []
  links : Store Link := []
  loads : Store (BitVec 3) := []        -- load field of each far holder (R324)
  loadAt : Store Nat := []              -- cycle of its last response or decay
  sent : Store Nat := []                -- bytes admitted toward it in the running period
  sentPeriod : Nat := 0
  windows : Store Sealed := []
  log : List LogEntry := []
  logHead : BitVec 384 := 0
  logSeq : BitVec 64 := 0
  logAcked : BitVec 64 := 0
  logSigned : BitVec 64 := 0
  logSig : List Byte := []              -- the latest signed pair, with its two signatures (R359)
  stallsHeld : Nat := 0                 -- meter stalls counted while the log was full (R360)
  scrubs : List Scrub := []
  coreMap : Store (BitVec 48) := []     -- per die
  retained : BitVec 4 := 0              -- dies in retention (R367)
  fence : Store (BitVec 48) := []
  power : Power := .active
  pwrcap : DWord := 0
  powerCmd : Word := 0                  -- the power command last written (R369)
  clock : Nat := 0                      -- arithmetic clock in MHz
  measures : Store (BitVec 384) := []
  recovery : Bool := false              -- only the recovery mailbox is exposed (R371)
  debug : DebugMode := .user            -- R366
  ide : Bool := true                    -- IDE on the host link (R348, R369)
  pkgKey : Nat := 0
  keyDraws : Nat := 0
  colls : Store Coll := []              -- binding of each launch, by its number
  unbound : List Coll := []             -- rounds whose passes start here though no launch here is bound to them (R333)
  lastRound : List (Fab × BitVec 16) := [] -- of a knot, the last round of which a chunk was published here
  staged : List Staged := []            -- fired chunks in staging (R331)
  fixedAt : List Fixed := []
  verdicts : List Verdict := []
  passes : List Pass := []              -- passes that wait here
  lastTaken : Nat := 511                -- queue a packet was last taken from (R157)
  signalsDropped : Nat := 0             -- package telemetry (R172, R263, R302, R333)
  packetsDropped : Nat := 0
  rejected : Nat := 0
  ringWaits : Nat := 0
  scrubFound : Nat := 0
  -- the model's own
  tick : Nat := 0
  now : Nat := 0
  cur : Option (Nat × Nat) := none
  turn : Option Turn := none
  ages : List (Turn × Nat) := []        -- what could move and was passed over, with how often (R131)
  inputs : List Instr := []
  outbox : List Msg := []
  framed : Nat := 0                     -- messages of the outbox that a link's flits carry already
  nextCtx : Nat := 0
  nextYarn : Nat := 0
  nextReq : Nat := 0
  nextChange : Nat := 0
  nextLaunch : Nat := 0
  nextBin : Nat := 0
  deriving DecidableEq, Repr, Inhabited

/-- The /12 announcement of the package's own memory, recorded at bring-up (R299, R371 step 6). -/
def State.ownEntry (peer : Peer) (inc : BitVec 16) : Entry where
  pfx := peer ++ (0 : BitVec 45)
  len := 12
  holders := [{ peer := peer, kind := 0, origin := peer, seq := 1, issue := 1, inc := inc, path := [],
                ceiling := 0, strong := false, backing := peer ++ (0 : BitVec 45) }]

/-- The package right after a reset and its bring-up (R371): every register at the value its table gives, memory with
nothing listed, its own /12 in the route table, every core in its map. Values the spec does not give stand in the log
(entry 6). -/
def State.reset : State where
  peer := 0
  inc := 1
  booted := true
  table := [State.ownEntry 0 1]
  maxSeq := [(0, 12, 1)]
  issues := [(0, 12, 1)]
  coreMap := [(0, BitVec.allOnes 48), (1, BitVec.allOnes 48), (2, BitVec.allOnes 48), (3, BitVec.allOnes 48)]
  pwrcap := 2600
  clock := 2100

end Sys2Proof.Machine
end

