-- ==== Sys2Proof/Machine/Memory.lean ====
section
/-! DEFINITION. Bytes of memory, translation (R237 to R241), the choice of a holder (R304 to R306), and the reads the
package makes on its own account (R374, R161, R269). -/

namespace Sys2Proof.Machine

/-! ### Cause codes (R114) -/

def cNotResident : Byte := 0x01
def cPageProt : Byte := 0x02
def cMisalign : Byte := 0x03
def cLabelDown : Byte := 0x04
def cPoison : Byte := 0x05
def cUnreach : Byte := 0x06
def cRevoked : Byte := 0x07
def cRouteNone : Byte := 0x08
def cIllegalOp : Byte := 0x10
def cReservedField : Byte := 0x11
def cPriv : Byte := 0x12
def cTretOutside : Byte := 0x13
def cSswReserved : Byte := 0x14
def cBranchMidclause : Byte := 0x15
def cFormatDiverge : Byte := 0x20
def cExtentBounds : Byte := 0x21
def cShapeAlign : Byte := 0x22
def cCopyAlign : Byte := 0x23
def cRole : Byte := 0x24
def cWatchdog : Byte := 0x30
def cFrayFull : Byte := 0x31
def cShadow : Byte := 0x32
def cChecksum : Byte := 0x33
def cUncorrectable : Byte := 0x34
def cTrapInstr : Byte := 0x40
def cBreakpoint : Byte := 0x41
def cKnotLag : Byte := 0x50
def cReplicaStrong : Byte := 0x51

/-- The repairable causes (R108). -/
def repairable (c : Byte) : Bool := [cNotResident, cPageProt, cUnreach, cRevoked, cRouteNone].contains c

/-- Causes whose faulting address is the virtual one (R106). -/
def virtualCause (c : Byte) : Bool := [cNotResident, cPageProt, cMisalign, cLabelDown].contains c

/-! ### Bytes and numbers, little-endian (R2) -/

/-- The number a list of bytes holds. -/
def leNat : List Byte → Nat
  | [] => 0
  | b :: t => b.toNat + 256 * leNat t

/-- The n bytes of a number. -/
def leBytes : Nat → Nat → List Byte
  | 0, _ => []
  | n + 1, v => BitVec.ofNat 8 v :: leBytes n (v / 256)

/-- The larger of two labels. -/
def lmax (a b : Label) : Label := if a.toNat < b.toNat then b else a

/-- Bits [lo + n - 1 : lo] of a word as a number. -/
def bitsAt {w : Nat} (x : BitVec w) (lo n : Nat) : Nat := (x.extractLsb' lo n).toNat

/-! ### Memory -/

/-- What an unlisted byte of memory reads as (log entry 4). -/
def emptyByte : Byte := 0

/-- One byte of memory. -/
def Mem.byte (m : Mem) (a : Nat) : Byte := Store.get emptyByte a m.bytes

/-- n bytes of memory from an address on. -/
def Mem.read (m : Mem) (a n : Nat) : List Byte := (List.range n).map (fun i => m.byte (a + i))

/-- Memory with one byte written. -/
def Mem.setByte (m : Mem) (a : Nat) (b : Byte) : Mem := { m with bytes := Store.set emptyByte a b m.bytes }

/-- Memory with bytes written from an address on; nothing else of it changes. -/
def Mem.setBytes (m : Mem) (a : Nat) : List Byte → Mem
  | [] => m
  | b :: t => (m.setByte a b).setBytes (a + 1) t

/-- Memory with one write counted for each 64-byte block the bytes touch. -/
def Mem.stamp (m : Mem) (a n : Nat) : Mem :=
  let up := fun (m : Mem) (k : Nat) => { m with stamps := Store.set 0 k (Store.get 0 k m.stamps + 1) m.stamps }
  let m' := up m (a / 64)
  if (a + n - 1) / 64 = a / 64 then m' else up m' ((a + n - 1) / 64)

/-- Memory with the frame label of an address set (R248). -/
def Mem.setLabel (m : Mem) (a : Nat) (l : Label) : Mem := { m with labels := Store.set 0 (a / 4096) l m.labels }

/-- The frame label of an address (R248). -/
def Mem.label (m : Mem) (a : Nat) : Label := Store.get 0 (a / 4096) m.labels

/-- Whether a poison mark covers the line of an address (R325). -/
def Mem.poisoned (m : Mem) (a : Nat) : Bool := Store.get false (a / 64) m.poison

/-- Memory with the poison mark of an address's line set or cleared. -/
def Mem.setPoison (m : Mem) (a : Nat) (p : Bool) : Mem := { m with poison := Store.set false (a / 64) p m.poison }

/-- A write of bytes under a page label: the bytes, the frame's label, the count of writes (R248). -/
def Mem.write (m : Mem) (a : Nat) (bs : List Byte) (l : Label) : Mem :=
  if bs = [] then m else ((m.setBytes a bs).setLabel a l).stamp a bs.length

/-- The canonical form of memory: keys rising, no cell equal to what an unlisted one reads as. -/
def Mem.wf (m : Mem) : Bool :=
  Store.wf emptyByte m.bytes && Store.wf 0 m.labels && Store.wf false m.poison && Store.wf 0 m.stamps

/-! ### Addresses -/

/-- The peer a fabric physical address names (R8). -/
def peerOf (a : Fab) : Peer := a.extractLsb' 45 12

/-- Whether an address lies under a prefix (R8). -/
def under (a pfx : Fab) (len : Nat) : Bool := decide (a.toNat / 2 ^ (57 - len) = pfx.toNat / 2 ^ (57 - len))

/-- Whether an ANNWIN-shaped register is enabled and an address lies under its prefix (R311, R356). -/
def inWindow (w : DWord) (a : Fab) : Bool :=
  w.getLsbD 63 && under a (w.extractLsb' 0 57) (bitsAt w 57 6)

/-- Whether an address lies in an enabled metered region of a function; the regions are the package's own (R356). -/
def State.inMetreg (s : State) (f : Func) (a : Fab) : Bool := decide (peerOf a = s.peer) && f.metreg.any (fun w => inWindow w.2 a)

/-- A function's state. -/
def State.func (s : State) (fn : Nat) : Func := Store.get {} fn s.funcs

/-- Whether fid is attached to the cores of this package for a function (R115): a session is, and user debug is allowed
(R366), but not in standby (R367). -/
def State.attached (s : State) (fn : Nat) : Bool :=
  (s.func fn).session.isSome && decide (s.debug = .user) && decide (s.power ≠ .standby)

/-- With a function's state changed. -/
def State.setFunc (s : State) (fn : Nat) (f : Func) : State := { s with funcs := Store.set {} fn f s.funcs }

/-- Whether an address lies in an installed seal window (R358). -/
def State.inSeal (s : State) (a : Fab) : Bool :=
  s.windows.any (fun w => under a w.2.win.pfx w.2.win.len)

/-- Whether a scrub holds accesses to an address (R364). -/
def State.scrubHeld (s : State) (a : Fab) : Bool :=
  s.scrubs.any (fun r => decide (r.base + r.ptr ≤ a.toNat ∧ a.toNat < r.base + r.len))

/-! ### Translation (R237, R238, R241) -/

/-- The page a leaf maps, or none where it breaks the layout. `l` is its level. -/
def leafPage (e : DWord) (l : Nat) (va : DWord) : Option Page :=
  let size := 2 ^ (12 + 9 * (l - 1))
  let frame := bitsAt e 12 45 * 4096
  let cls := e.extractLsb' 3 2
  if 4 ≤ l ∨ bitsAt e 57 7 ≠ 0 ∨ frame % size ≠ 0 then none
  else if cls = 3 ∧ (l ≠ 1 ∨ bitsAt e 15 42 ≠ 0) then none
  else some { fab := BitVec.ofNat 57 (frame + va.toNat % size), va := va, cls := cls, scope := e.extractLsb' 5 2,
              label := e.extractLsb' 7 2, write := e.getLsbD 1, snap := e.getLsbD 9, owned := e.getLsbD 10,
              nocache := e.getLsbD 11, base := BitVec.ofNat 57 frame, size := size }

/-- The walk from a table of level l down: the page, or the cause at which it ends. -/
def State.walkFrom (s : State) (va : DWord) : Nat → Fab → Except Byte Page
  | 0, _ => .error cPageProt
  | l + 1, tab =>
    if peerOf tab ≠ s.peer then .error cPageProt
    else
      let i := bitsAt va (12 + 9 * l) 9
      let e := BitVec.ofNat 64 (leNat (s.mem.read (tab.toNat + 8 * i) 8))
      if !e.getLsbD 0 then .error cNotResident
      else if e.getLsbD 2 then
        match leafPage e (l + 1) va with
        | some p => .ok p
        | none => .error cPageProt
      else if bitsAt e 57 7 ≠ 0 ∨ bitsAt e 3 9 ≠ 0 ∨ e.getLsbD 1 then .error cPageProt
      else s.walkFrom va l (BitVec.ofNat 57 (bitsAt e 12 45 * 4096))

/-- Translation of a virtual address for a function: R244 steps 1 and 3, and the metered-region rule of R356. -/
def State.translate (s : State) (fn : Nat) (va : DWord) : Except Byte Page :=
  let f := s.func fn
  if bitsAt va 57 7 ≠ 0 then .error cPageProt
  else if !f.ptroot.getLsbD 0 then .error cNotResident
  else
    match s.walkFrom va 5 (BitVec.ofNat 57 (bitsAt f.ptroot 12 45 * 4096)) with
    | .error c => .error c
    | .ok p =>
      if p.label = 2 ∧ !s.inMetreg f p.fab then .error cPageProt else .ok p

/-! ### Routes (R299 to R308) -/

/-- What a load must know of its yarn for R305: the route event number of its latest DOMAIN acquire and the origins its
writes went to. -/
structure Elig where
  acq : Nat := 0
  wrote : List Peer := []
  trailing : Bool := true
  deriving DecidableEq, Repr

/-- The entries whose prefix an address lies under. -/
def State.matching (s : State) (a : Fab) : List Entry := s.table.filter (fun e => under a e.pfx e.len)

/-- Whether the prefix, or a longer matching one, carries the strong mark (R304). -/
def strongAt (es : List Entry) (len : Nat) : Bool :=
  es.any (fun e => decide (len ≤ e.len) && e.holders.any (fun h => decide (h.kind = 0) && h.strong))

/-- The nearer of two holders, ties to the lower peer. -/
def nearer (a b : Holder) : Holder :=
  if b.path.length < a.path.length ∨ (b.path.length = a.path.length ∧ b.peer.toNat < a.peer.toNat) then b else a

/-- The best holder of the longest prefix that has one passing a test. -/
def pickHolder (es : List Entry) (ok : Entry → Holder → Bool) : Option (Entry × Holder) :=
  es.foldl (fun best e =>
    match e.holders.filter (ok e) with
    | [] => best
    | h :: t =>
      match best with
      | some (b, _) => if b.len < e.len then some (e, t.foldl nearer h) else best
      | none => some (e, t.foldl nearer h)) none

/-- The origin of a holder's entry as the table has it: of the longest of some entries, of its length or shorter, that has
one (R305). -/
def originFor (es : List Entry) (len : Nat) : Option Peer :=
  (pickHolder (es.filter (fun e => decide (e.len ≤ len))) (fun _ h => decide (h.kind = 0))).map (fun c => c.2.peer)

/-- Whether a holder may serve a load (R304, R305). A TRAILING one may not once its yarn has written to the origin of its
entry: the origin the entry has now, or the one recorded with the holder. -/
def eligible (es : List Entry) (len : Nat) (label : Label) (el : Elig) (h : Holder) : Bool :=
  decide (h.ceiling.toNat ≤ label.toNat)
    && (decide (h.kind ≠ 2) || (el.trailing && decide (el.acq ≤ h.refresh) && !el.wrote.contains h.origin
      && !(originFor es len).any el.wrote.contains))
    && (decide (h.kind = 0) || !strongAt es len)

/-- The relay for a pod peer whose port is down: the lowest pod peer whose links to both ends are up (R320). Whether another
package's link is up is a free value (log entry 23). -/
def State.relayFor (s : State) (q : Peer) : Option Peer :=
  let ps := s.links.filterMap (fun l =>
    if l.2.up ∧ !l.2.trunk ∧ l.2.far ≠ q ∧ Config.podLink s.tick l.2.far q then some l.2.far else none)
  ps.foldl (fun b p => if b.all (fun c => decide (p.toNat < c.toNat)) then some p else b) none

/-- Whether a path's first hop is live: a port to it is up, or, for a pod port, another pod peer can relay (R320). -/
def State.liveHop (s : State) (p : Peer) : Bool :=
  s.links.any (fun l => l.2.up && decide (l.2.far = p))
    || (s.links.any (fun l => !l.2.trunk && decide (l.2.far = p)) && (s.relayFor p).isSome)

/-- The origin that a store to an address goes to, wherever it is (R306). -/
def State.originOf (s : State) (a : Fab) : Option (Entry × Holder) :=
  pickHolder (s.matching a) (fun _ h => decide (h.kind = 0))

/-- The origin a store goes to (R306), if a way to it is live. -/
def State.routeStore (s : State) (p : Page) : Except Byte (Entry × Holder) :=
  match s.originOf p.fab with
  | some (e, h) =>
    match h.path with
    | [] => .ok (e, h)
    | q :: _ => if s.liveHop q then .ok (e, h) else .error cUnreach
  | none => .error cRouteNone

/-- The holder a load goes to, with the prefix chosen; or the cause (R304, R244 step 6). A load on a STRONG page takes
the rule of a store (R306). -/
def State.routeLoad (s : State) (p : Page) (el : Elig) : Except Byte (Entry × Holder) :=
  let es := s.matching p.fab
  if p.cls = 1 then s.routeStore p
  else
    match pickHolder es (fun e h => eligible es e.len p.label el h) with
    | some (e, h) =>
      match h.path with
      | [] => .ok (e, h)
      | q :: _ => if s.liveHop q then .ok (e, h) else .error cUnreach
    | none =>
      match es.flatMap (·.holders) with
      | [h] => if p.label.toNat < h.ceiling.toNat then .error cPageProt else .error cRouteNone
      | _ => .error cRouteNone

/-- The byte of backing a holder here serves for an address (R307). -/
def backingOf (e : Entry) (h : Holder) (a : Fab) : Nat := h.backing.toNat + (a.toNat - e.pfx.toNat)

/-! ### Bytes this package serves itself: its memory, and lines of other origins it owns (R264) -/

/-- One byte at an address served here. DESIGN CHOICE (log 4): every offset of the package's own peer is served as memory,
those beyond its 512 GB of HBM too, which the spec does not speak of. -/
def State.byteAt (s : State) (a : Nat) : Byte := s.mem.byte a

/-- n bytes at an address served here. -/
def State.bytesAt (s : State) (a n : Nat) : List Byte := (List.range n).map (fun i => s.byteAt (a + i))

/-- Bytes written at an address served here, under a page label. -/
def State.writeAt (s : State) (a : Nat) (bs : List Byte) (l : Label) : State := { s with mem := s.mem.write a bs l }

/-- The line of an address, if this package owns it for another origin. -/
def State.lineOf (s : State) (a : Fab) : Option Owned := Store.find (a.toNat / 64) s.ownedHere

/-- n bytes of an owned line from an address on. -/
def State.lineBytes (s : State) (a : Fab) (n : Nat) : List Byte :=
  match s.lineOf a with
  | some o => (List.range n).map (fun i => o.bytes.getD (a.toNat % 64 + i) 0)
  | none => []

/-- Bytes written to an owned line for a function under a page label, `wl` being the label of their value; monitors of the line see
it (R153, R264). -/
def State.writeLine (s : State) (fn : Nat) (a : Fab) (bs : List Byte) (l wl : Label) : State :=
  match s.lineOf a with
  | some o =>
    let k := a.toNat % 64
    { s with ownedHere := Store.put (a.toNat / 64)
               { o with bytes := o.bytes.take k ++ bs ++ o.bytes.drop (k + bs.length), lab := some l, fn := fn,
                        carried := lmax o.carried wl } s.ownedHere
             mem := s.mem.stamp a.toNat bs.length }
  | none => s

/-- The cells of the records under way to the host, latest first (R363). -/
def State.openCells (s : State) : List (Nat × List Byte) :=
  s.funcs.flatMap (fun f => f.2.bounce.flatMap (fun b => b.2.part.reverse))

/-- One byte of host memory as this package reads it: a record under way is seen by its own sender. -/
def State.hostByte (s : State) (a : Nat) : Byte :=
  match s.openCells.find? (fun c => decide (c.1 ≤ a ∧ a < c.1 + c.2.length)) with
  | some c => c.2.getD (a - c.1) 0
  | none => Store.get 0 a s.hostMem

/-- Host memory bytes. -/
def State.hostRead (s : State) (a n : Nat) : List Byte := (List.range n).map (fun k => s.hostByte (a + k))

/-- The bounce channel of a function whose range holds an address (R363). -/
def State.bounceOf (s : State) (fn : Nat) (a : Fab) : Option Bounce :=
  ((s.func fn).bounce.find? (fun b => decide (b.2.len ≠ 0) && under a b.2.pfx b.2.len)).map Prod.snd

/-- Whether another package owns the line of an address of this origin (R264). -/
def State.ownedAway (s : State) (a : Nat) : Bool := (Store.find (a / 64) s.owners).isSome

/-- The first byte of those from an address on whose line another package owns. -/
def State.awayIn (s : State) (a n : Nat) : Option Nat :=
  ((List.range ((a + n - 1) / 64 - a / 64 + 1)).map (fun k => if k = 0 then a else 64 * (a / 64 + k))).find? s.ownedAway

/-- The first line of a range that another package owns, however long the range. -/
def State.awayWithin (s : State) (a n : Nat) : Option Nat :=
  (s.owners.find? (fun c => decide (a < 64 * (c.1 + 1) ∧ 64 * c.1 < a + n))).map (fun c => 64 * c.1)

/-- Whether a poison mark covers one of n bytes. -/
def Mem.poisonedIn (m : Mem) (a n : Nat) : Bool :=
  (List.range ((a + n - 1) / 64 - a / 64 + 1)).any (fun k => m.poisoned (64 * (a / 64 + k)))

/-- The incarnation recorded of a peer (R263); none where nothing was heard of it. -/
def State.incOf (s : State) (p : Peer) : Option (BitVec 16) := if p = s.peer then some s.inc else Store.find p.toNat s.incs

/-- What a packet to a peer names of the two incarnations (R263). -/
def State.packetTo (s : State) (p : Peer) : Packet := { src := s.peer, srcInc := s.inc, dstInc := (s.incOf p).getD 0 }

/-- A recall of a line sent to its owner, once (R264). -/
def State.recallLine (s : State) (a : Nat) : State :=
  match Store.find (a / 64) s.owners with
  | some o =>
    if s.recalling.contains (a / 64) then s
    else { s with recalling := (a / 64) :: s.recalling, outbox := s.outbox ++ [.recall o.1 (s.packetTo o.1) o.2] }
  | none => s

/-! ### Requests to holders outside -/

/-- Serial comparison on w bits: a is above b (R301). -/
def above {w : Nat} (a b : BitVec w) : Bool := decide ((a - b) ≠ 0) && decide ((a - b).toNat < 2 ^ (w - 1))

/-- Whether a peer is in the package's pod (R324): itself, or the far end of a pod port. -/
def State.inPod (s : State) (p : Peer) : Bool :=
  decide (p = s.peer) || s.links.any (fun l => !l.2.trunk && decide (l.2.far = p))

/-- The launch a request is made for. -/
def State.launchFor (s : State) : Who → Option Nat
  | .lane y _ _ _ | .fetch y _ => (Store.find y s.yarns).bind (fun v => (Store.find v.strand s.strands).map (fun x => x.launch))
  | .engine x _ | .spill x => (Store.find x s.strands).map (fun x => x.launch)
  | .cp l | .chunk l _ => some l
  | _ => none

/-- Whether an earlier request of a yarn to a line is still to be accepted (R262). -/
def State.lineBusy (s : State) (who : Who) (r : Request) : Bool :=
  match who with
  | .lane y _ _ _ => s.reqs.any (fun c => !c.2.accepted && decide (c.1 < r.id)
      && decide (c.2.req.addr.toNat / 64 = r.addr.toNat / 64)
      && (match c.2.who with | .lane y' _ _ _ => decide (y' = y) | _ => false))
  | _ => false

/-- Whether ownership of a line is asked for already (R264). -/
def State.lineAsked (s : State) (r : Request) : Bool :=
  r.owned && s.reqs.any (fun c => c.2.req.owned && !c.2.passed && decide (c.2.hold = .none) && decide (c.1 ≠ r.id)
    && decide (c.2.req.addr.toNat / 64 = r.addr.toNat / 64))

/-- What holds a request back here once the meter has admitted it: an earlier one of its yarn to its line (R262); an answer
about the line that another awaits (R264); the injection regulator (R324). A check of R244's steps alone is no access and
keeps no order, and what it lets through is regulated with it. -/
def State.heldBy (s : State) (who : Who) (dst : Peer) (r : Request) : Hold :=
  if r.stage ≠ .ask ∧ s.lineBusy who r then .order
  else if s.lineAsked r then .line
  else if r.stage ≠ .go ∧ !s.inPod dst then .injection
  else .none

/-- A request handed on under its number: sent, or held here for a reason. -/
def State.post (s : State) (who : Who) (fn : Nat) (dst : Peer) (hold : Hold) (r : Request) : State :=
  { s with
    reqs := Store.put r.id { req := r, dst := dst, who := who, hold := hold, fn := fn, launch := s.launchFor who } s.reqs
    outbox := if hold = .none then s.outbox ++ [.request dst r] else s.outbox }

/-- A request as it leaves: its number, its sender and the incarnations it names (R263). -/
def State.formed (s : State) (dst : Peer) (r : Request) : Request :=
  { r with id := s.nextReq, src := s.peer, srcInc := s.inc, dstInc := (s.incOf dst).getD 0 }

/-- A request formed under the next number and handed on: sent at once, or held here. -/
def State.request (s : State) (who : Who) (fn : Nat) (dst : Peer) (hold : Hold) (r : Request) : State :=
  let r' := s.formed dst r
  { s.post who fn dst (if hold = .none then s.heldBy who dst r' else hold) r' with nextReq := s.nextReq + 1 }

/-- A request held here let go as far as what else holds it allows. -/
def State.letGo (s : State) (k : Nat) (o : OutReq) : State :=
  let hold := s.heldBy o.who o.dst o.req
  { s with reqs := Store.put k { o with hold := hold } s.reqs
           outbox := if hold = .none then s.outbox ++ [.request o.dst o.req] else s.outbox }

/-- The next request of a yarn to a line let go once the earlier one is accepted (R262), and the next that awaits ownership
of the line (R264). -/
def State.releaseOrder (s : State) (who : Who) (addr : Fab) : State :=
  let here := fun (o : OutReq) => decide (o.req.addr.toNat / 64 = addr.toNat / 64)
  let next := fun (s : State) (ok : OutReq → Bool) => match s.reqs.find? (fun c => here c.2 && ok c.2) with
    | some (k, o) => s.letGo k o
    | none => s
  let s1 := match who with
    | .lane y _ _ _ => next s (fun o => decide (o.hold = .order)
        && (match o.who with | .lane y' _ _ _ => decide (y' = y) | _ => false))
    | _ => s
  next s1 (fun o => decide (o.hold = .line))

/-- A request settled: ACKs held back for it alone go out (R303). -/
def State.settleReq (s : State) (r : Nat) : State :=
  let acks := s.heldAcks.map (fun a => { a with reqs := a.reqs.filter (fun k => !decide (k = r)) })
  { s with heldAcks := acks.filter (fun a => !a.reqs.isEmpty)
           outbox := s.outbox ++ (acks.filter (fun a => a.reqs.isEmpty)).map (fun a => .route a.dst a.msg) }

/-- A request that has passed its checks told to its holder as one to perform. -/
def State.proceed (s : State) (k : Nat) : State :=
  match Store.find k s.reqs with
  | some o =>
    let o' := { o with req := { o.req with stage := .go }, passed := false }
    s.letGo k o'
  | none => s

/-- A request that has passed its checks given up: its holder is told, and nothing waits for it any more. -/
def State.dropReq (s : State) (k : Nat) : State :=
  match Store.find k s.reqs with
  | some o =>
    let s1 := { s with reqs := Store.drop k s.reqs
                       outbox := s.outbox ++ [Msg.request o.dst { o.req with stage := .drop }] }
    (s1.settleReq k).releaseOrder o.who o.req.addr
  | none => s

/-- Every request that has passed its checks and meets a test given up. -/
def State.dropPassed (s : State) (ok : OutReq → Bool) : State :=
  (s.reqs.filter (fun c => c.2.passed && ok c.2)).foldl (fun t c => t.dropReq c.1) s

/-- Whether a launch's yarn or engine made a request that is held here and has gone nowhere. -/
def OutReq.unsent (l : Nat) (o : OutReq) : Bool :=
  decide (o.launch = some l ∧ o.hold ≠ .none ∧ o.req.stage ≠ .go)
    && (match o.who with | .lane .. | .fetch .. | .engine .. | .spill _ => true | _ => false)

/-- With those of a launch given up: nothing would let them go (R163). -/
def State.dropUnsent (s : State) (l : Nat) : State :=
  (s.reqs.filter (fun c => c.2.unsent l)).foldl (fun t c => (t.settleReq c.1).releaseOrder c.2.who c.2.req.addr)
    { s with reqs := s.reqs.filter (fun c => !c.2.unsent l) }

/-! ### Reads the package makes on its own account -/

/-- What such a read gives: bytes and the page's label; a cause and the faulting address; or that it waits for a holder
outside, its request being sent. -/
inductive Got where
  | ok (bs : List Byte) (lab : Label)
  | fault (cause : Byte) (addr : DWord)
  | wait (s : State)
  deriving DecidableEq, Repr

/-- The answer that came for a requester and an address, if one was asked for. -/
def State.bufFor (s : State) (who : Who) (a : Fab) : Option Buf :=
  s.bufs.find? (fun b => decide (b.who = who) && decide (b.addr = a) && !b.write)

/-- A read of n bytes in one page for a function, as the rules for device reads have it: R244 steps 1, 3, 4 (no write bit),
then 6 and 7 on a given route. -/
def State.devReadBy (s : State) (who : Who) (fn : Nat) (ceil : Nat) (route : Page → Except Byte (Entry × Holder)) (va : DWord)
    (n : Nat) : Got :=
  match s.translate fn va with
  | .error c => .fault c va
  | .ok p =>
    if ceil < p.label.toNat ∨ p.cls = 3 ∨ s.inSeal p.fab then .fault cPageProt va
    else
      match s.bounceOf fn p.fab with
      | some b =>
        if b.resync then .fault cUnreach (p.fab.setWidth 64)
        else .ok (s.hostRead (b.host + (p.fab.toNat - b.pfx.toNat)) n) p.label
      | none =>
        if (s.lineOf p.fab).isSome then .ok (s.lineBytes p.fab n) p.label
        else
        match route p with
        | .error c => .fault c (if virtualCause c then va else p.fab.setWidth 64)
        | .ok (e, h) =>
          if h.peer = s.peer then
            let q := backingOf e h p.fab
            if s.inSeal (BitVec.ofNat 57 q) then .fault cPageProt va
            else if s.scrubHeld (BitVec.ofNat 57 q) then .wait s
            else if s.ownedAway q then .wait (s.recallLine q)
            else if s.mem.poisoned q then .fault cPoison (p.fab.setWidth 64)
            else .ok (s.bytesAt q n) p.label
          else
            match s.bufFor who p.fab with
            | some { ans := some a, .. } =>
              if a.ok then .ok a.data p.label
              else .fault a.cause (if virtualCause a.cause then va else p.fab.setWidth 64)
            | some _ => .wait s
            | none =>
              .wait (State.request { s with bufs := s.bufs ++ [{ who := who, addr := p.fab, len := n, req := s.nextReq }] } who fn h.peer
                .none { kind := .load, addr := p.fab, pfx := e.pfx, len := e.len, width := n, label := p.label,
                        strong := decide (p.cls = 1), owned := p.owned })

/-- A device read on the route of a load (R304). -/
def State.devRead (s : State) (who : Who) (fn : Nat) (ceil : Nat) (el : Elig) (va : DWord) (n : Nat) : Got :=
  s.devReadBy who fn ceil (fun p => s.routeLoad p el) va n

/-- An input put back, to be taken up again later. -/
def State.requeue (s : State) (i : Instr) : State := { s with inputs := s.inputs ++ [i] }

/-- With a requester's finished answers forgotten, once its step has used them. -/
def State.dropBufs (s : State) (who : Who) : State :=
  { s with bufs := s.bufs.filter (fun b => !(decide (b.who = who))) }

/-- Whether a requester still waits for an answer. -/
def State.asking (s : State) (who : Who) : Bool :=
  s.bufs.any (fun b => decide (b.who = who) && b.ans.isNone)

end Sys2Proof.Machine
end

