-- ==== Sys2Proof/Machine/Ops.lean ====
section
/-! DEFINITION. The shared operations over fibres, groups, frays and launches: executing lanes (R28), registers (R50 to
R54), flags (R26), advancing (R101, R102), splitting frays (R104 to R107), taking a trap and returning (R112, R113,
R116), retirement (R97), termination (R146). -/

namespace Sys2Proof.Machine

open Host (Outcome)

/-! ### Finding things -/

/-- The launch a strand belongs to, or a default where the state has none. -/
def State.launchOf (s : State) (x : Strand) : Launch :=
  (Store.find x.launch s.launches).getD { fn := 0, queue := 0, packet := 0 }

/-- A strand by its context id, or a default where the state has none. -/
def State.strandAt (s : State) (x : Nat) : Strand := (Store.find x s.strands).getD { launch := 0 }

/-- With a strand's record changed. -/
def State.setStrand (s : State) (x : Nat) (v : Strand) : State := { s with strands := Store.put x v s.strands }

/-- With a launch's record changed. -/
def State.setLaunch (s : State) (l : Nat) (v : Launch) : State := { s with launches := Store.put l v s.launches }

/-- With a yarn's record changed. -/
def State.setYarn (s : State) (y : Nat) (v : Yarn) : State := { s with yarns := Store.put y v s.yarns }

/-- A core's key: its die and its number in the die. -/
def coreKey (die core : Nat) : Nat := die * 48 + core

/-- The place of a strand; the first core where it has none. -/
def Strand.at_ (x : Strand) : Place := x.place.getD { die := 0, core := 0, base := 0 }

/-- The key of the core that holds a strand. -/
def Strand.core (x : Strand) : Nat := coreKey x.at_.die x.at_.core

/-- A core's state. -/
def State.coreAt (s : State) (k : Nat) : Core := Store.get {} k s.cores

/-- With a core's state changed. -/
def State.setCore (s : State) (k : Nat) (c : Core) : State := { s with cores := Store.set {} k c s.cores }

/-- A core's local cycle count (R58). -/
def State.cycles (s : State) (k : Nat) : Nat := s.now - (s.coreAt k).resetAt

/-- Cycles from one 64-bit count to a later one. -/
def elapsed (t since : Nat) : Nat := (t + 2 ^ 64 - since % 2 ^ 64) % 2 ^ 64

/-! ### The launch packet's fields (R158, R159) -/

/-- Bytes [i, i + n) of a 64-byte record as a number. -/
def recAt (p : BitVec 512) (i n : Nat) : Nat := bitsAt p (8 * i) (8 * n)

def Launch.ceil (l : Launch) : Nat := recAt l.packet 3 1
def Launch.policyTerminate (l : Launch) : Bool := l.packet.getLsbD 20
def Launch.exponent (l : Launch) : Nat := bitsAt l.packet 16 4
def Launch.debug (l : Launch) : Bool := l.packet.getLsbD 15
def Launch.replayBit (l : Launch) : Bool := l.packet.getLsbD 14
def Launch.snapshot (l : Launch) : Bool := l.packet.getLsbD 13
def Launch.protd (l : Launch) : Bool := l.packet.getLsbD 12
def Launch.priority (l : Launch) : Nat := bitsAt l.packet 10 2
def Launch.relFence (l : Launch) : Bool := l.packet.getLsbD 9
def Launch.acqFence (l : Launch) : Bool := l.packet.getLsbD 8
def Launch.fibres (l : Launch) : Nat := bitsAt l.packet 32 16
def Launch.stageYarns (l : Launch) (k : Nat) : Nat := bitsAt l.packet (48 + 4 * k) 4
def Launch.yarnCount (l : Launch) : Nat := l.stageYarns 0 + l.stageYarns 1 + l.stageYarns 2 + l.stageYarns 3
def Launch.entry (l : Launch) : Nat := recAt l.packet 8 8
def Launch.argAddr (l : Launch) : Nat := recAt l.packet 16 8
def Launch.gridX (l : Launch) : Nat := recAt l.packet 24 2
def Launch.gridY (l : Launch) : Nat := recAt l.packet 26 2
def Launch.gridZ (l : Launch) : Nat := recAt l.packet 28 2
def Launch.coils (l : Launch) : Nat := l.gridX * l.gridY * l.gridZ
/-- A coil extent; 0 counts as 1 (R119). -/
def orOne (n : Nat) : Nat := if n = 0 then 1 else n
def Launch.sx (l : Launch) : Nat := orOne (bitsAt l.packet 240 5)
def Launch.sy (l : Launch) : Nat := orOne (bitsAt l.packet 245 5)
def Launch.sz (l : Launch) : Nat := orOne (bitsAt l.packet 250 5)
def Launch.coilSize (l : Launch) : Nat := l.sx * l.sy * l.sz
/-- Scratchpad bytes of a strand: the field with bits [7:0] read as zero (R122). -/
def Launch.alloc (l : Launch) : Nat := recAt l.packet 32 4 / 256 * 256
/-- The status word's role field of a stage (R122). -/
def Launch.role (l : Launch) (k : Nat) : BitVec 2 :=
  let c := bitsAt l.packet (256 + 2 * k) 2
  if c = 0 then 2 else if c = 1 then 0 else 1
/-- Whether the strand has a matrix stage. -/
def Launch.matrix (l : Launch) : Bool :=
  [0, 1, 2, 3].any (fun k => decide (l.stageYarns k ≠ 0) && decide (l.role k = 1))
def Launch.binTimer (l : Launch) : Nat := recAt l.packet 36 4
def Launch.handler (l : Launch) : Nat := recAt l.packet 40 8
def Launch.bindAddr (l : Launch) : Nat := recAt l.packet 48 8
def Launch.signal (l : Launch) : Nat := recAt l.packet 56 8
/-- The copy-template table: address and record count (R184). -/
def Launch.tableAddr (l : Launch) : Nat := bitsAt l.args 384 57
def Launch.tableSize (l : Launch) : Nat :=
  let e := bitsAt l.args 441 7
  if e = 0 then 65536 else if e ≤ 16 then 2 ^ e else 0

/-! ### Masks and lanes -/

/-- Lanes of a mask, ascending. -/
def lanesOf (m : Mask) : List Nat := (List.range 64).filter m.getLsbD

/-- The mask of some lanes. -/
def maskOf (ls : List Nat) : Mask := ls.foldl (fun m l => m ||| (1#64 <<< l)) 0

/-- One lane of a yarn. -/
def Yarn.lane (y : Yarn) (l : Nat) : Lane := Store.get {} l y.lanes

/-- With one lane changed. -/
def Yarn.setLane (y : Yarn) (l : Nat) (v : Lane) : Yarn := { y with lanes := Store.set {} l v y.lanes }

/-- With each of some lanes changed by a function. -/
def Yarn.mapLanes (y : Yarn) (f : Nat → Lane → Lane) : List Nat → Yarn
  | [] => y
  | l :: t => (y.setLane l (f l (y.lane l))).mapLanes f t

/-- A predicate of a fibre; p7 reads true (R49). -/
def Lane.pred (v : Lane) (n : BitVec 3) : Bool := if n = 7 then true else v.preds.getLsbD n.toNat

/-- A predicate written; a write to p7 is discarded (R34). -/
def Lane.setPred (v : Lane) (n : BitVec 3) (b : Bool) : Lane :=
  if n = 7 then v
  else { v with preds := if b then v.preds ||| (1#7 <<< n.toNat) else v.preds &&& ~~~(1#7 <<< n.toNat) }

/-- Whether a guard is true in a fibre (R28). -/
def Lane.guarded (v : Lane) (g : Guard) : Bool := v.pred g.p != g.neg

/-- G: the lanes of a group that execute an instruction under its guard, ascending (R28). -/
def Yarn.executing (y : Yarn) (g : Group) (gd : Guard) : List Nat :=
  (lanesOf g.lanes).filter (fun l => g.gmask.getLsbD l && (y.lane l).guarded gd)

/-- A vector register of a lane (R50). -/
def Lane.reg (v : Lane) (n : Nat) : RegVal := Store.get {} n v.regs

/-- With a vector register written. -/
def Lane.setReg (v : Lane) (n : Nat) (x : RegVal) : Lane := { v with regs := Store.set {} n x v.regs }

/-- The bank a group uses: its yarn's, or its fray's copy (R55, R105). -/
def Yarn.bankOf (y : Yarn) (fray : Option Nat) : Bank :=
  match fray with
  | none => y.bank
  | some e => match Store.find e y.frays with | some f => f.bank | none => y.bank

/-- When the yarn, or the fray a group runs in, last issued (R167). -/
def Yarn.turnsOf (y : Yarn) (fray : Option Nat) : Turns :=
  match fray with
  | none => y.turns
  | some e => match Store.find e y.frays with | some f => f.turns | none => y.turns

/-- With that changed. -/
def Yarn.setTurns (y : Yarn) (fray : Option Nat) (t : Turns) : Yarn :=
  match fray with
  | none => { y with turns := t }
  | some e => { y with frays := Store.modify e (fun f => { f with turns := t }) y.frays }

/-- With that bank changed. -/
def Yarn.setBank (y : Yarn) (fray : Option Nat) (b : Bank) : Yarn :=
  match fray with
  | none => { y with bank := b }
  | some e => { y with frays := Store.modify e (fun f => { f with bank := b }) y.frays }

/-- A scalar register (R54). -/
def Bank.scalar (b : Bank) (n : Nat) : RegVal := Store.get {} n b.scalars

/-- With a scalar register written. -/
def Bank.setScalar (b : Bank) (n : Nat) (x : RegVal) : Bank := { b with scalars := Store.set {} n x b.scalars }

/-- Whether a bank is in handler mode (R61). -/
def Bank.handler (b : Bank) : Bool := b.status.getLsbD 15

/-- The role field of a status word (R61). -/
def Bank.role (b : Bank) : BitVec 2 := b.status.extractLsb' 12 2

/-- A group by its number. -/
def Yarn.group (y : Yarn) (g : Nat) : Option Group := y.groups.find? (fun x => x.id == g)

/-- The number of a new group: above every number in use. -/
def Yarn.newGroup (y : Yarn) : Nat := y.groups.foldl (fun n g => max n (g.id + 1)) y.nextGroup

/-- With a group replaced by its number. -/
def Yarn.setGroup (y : Yarn) (g : Group) : Yarn :=
  { y with groups := y.groups.map (fun x => if x.id = g.id then g else x) }

/-- Without a group. -/
def Yarn.dropGroup (y : Yarn) (g : Nat) : Yarn := { y with groups := y.groups.filter (fun x => x.id != g) }

/-! ### The issuer of an instruction -/

/-- What an issuing instruction sees: its yarn and group, their numbers, strand and launch. -/
structure Issuer where
  y : Nat
  yarn : Yarn
  g : Group
  strand : Strand
  launch : Launch
  deriving DecidableEq, Repr

/-- The group whose instruction issues, if the state has it. -/
def State.issuer (s : State) : Option Issuer :=
  match s.cur with
  | none => none
  | some (y, g) =>
    match Store.find y s.yarns with
    | none => none
    | some Y =>
      match Y.group g with
      | none => none
      | some G =>
        let x := s.strandAt Y.strand
        some { y := y, yarn := Y, g := G, strand := x, launch := s.launchOf x }

/-- An instruction's meaning as a step of the machine: it always answers a next state where some group issues. -/
def issued (s : State) (f : Issuer → State) : Outcome State Fault Refusal :=
  match s.issuer with
  | none => .fault .noIssuer
  | some i => .next (f i)

/-- An event's meaning as a step of the machine. -/
def event (on : Bool) (t : State) : Outcome State Fault Refusal := if on then .next t else .refused .notEnabled

/-- The bank the issuer uses. -/
def Issuer.bank (i : Issuer) : Bank := i.yarn.bankOf i.g.fray

/-- The lanes that execute. -/
def Issuer.lanes (i : Issuer) (x : Args) : List Nat := i.yarn.executing i.g x.guard

/-- The launch's label ceiling as a label (R158). -/
def Issuer.ceil (i : Issuer) : Nat := i.launch.ceil

/-- The local cycle of the issuer's core. -/
def Issuer.cycles (i : Issuer) (s : State) : Nat := s.cycles i.strand.core

/-- Whether the issuer's launch is protected (R229). -/
def Issuer.protd (i : Issuer) : Bool := i.launch.protd

/-- The issuer as a changed state has it. -/
def State.again (s : State) (i : Issuer) : Issuer := s.issuer.getD i

/-! ### Flags (R26) -/

/-- The flag that covers instruction n of a clause, if it is long-latency: X for the first, Y for every later one. -/
def coverFlag (c : Clause) (n : Nat) : Option Nat :=
  match decodeWords (c.code.getD n []) with
  | .ok (i, _) =>
    if i.long then (if longCount (c.code.take n) = 0 then headerX c.w0 else headerY c.w0) else none
  | .error _ => none

/-- Whether a group in a clause still has an instruction to issue that a flag covers. -/
def Group.covers (g : Group) (f : Nat) : Bool :=
  decide (g.phase = .issue)
    && (List.range g.clause.code.length).any (fun n => decide (g.idx ≤ n) && decide (coverFlag g.clause n = some f))

/-- Whether a flag of one copy still covers an instruction that has not completed. -/
def Yarn.flagBusy (y : Yarn) (fray : Option Nat) (f : Nat) : Bool :=
  y.pend.any (fun p => decide (p.fray = fray) && decide (p.flag = some f))
    || y.groups.any (fun g => decide (g.fray = fray) && g.covers f)

/-- A bank's flags with those cleared that cover nothing any more. -/
def Yarn.settled (y : Yarn) (fray : Option Nat) (fl : BitVec 12) : BitVec 12 :=
  if fl = 0 then 0
  else (List.range 12).foldl (fun m f => if fl.getLsbD f && y.flagBusy fray f then m ||| (1#12 <<< f) else m) 0

/-- With every copy's flags settled. -/
def Yarn.settleFlags (y : Yarn) : Yarn :=
  let y1 := { y with bank := { y.bank with flags := y.settled none y.bank.flags } }
  { y1 with frays := y1.frays.map (fun c =>
      (c.1, { c.2 with bank := { c.2.bank with flags := y1.settled (some c.1) c.2.bank.flags } })) }

/-! ### Advancing (R27, R101, R102) -/

/-- Whether a group's fibres are in handler mode (R112). -/
def Yarn.inHandler (y : Yarn) (g : Group) : Bool :=
  (y.bankOf g.fray).handler && (g.fray.isSome || decide (g.lanes &&& y.bank.xmask ≠ 0))

/-- A group arrives at a clause header: it joins a group standing there, or stands there by itself (R101). A group of a
running fray joins only another of the same fray here, and fibres in handler mode only their own. -/
def Yarn.arriveAt (y : Yarn) (g : Group) (pc : BitVec 57) (t : Nat) : Yarn :=
  let here := fun (h : Group) => decide (h.fray = g.fray) && decide (h.pc = pc) && decide (h.id ≠ g.id)
    && decide (y.inHandler h = y.inHandler g)
    && (decide (h.phase = .header) || decide (h.phase = .rejoin) || decide (h.phase = .flags))
  let g' := { g with pc := pc, arrival := t, rank := 64, phase := .header, clause := {}, idx := 0, gmask := 0, wait := none,
                     drained := none, brk := false }
  match y.groups.find? here with
  | some h => (y.dropGroup g.id).setGroup { h with lanes := h.lanes ||| g.lanes, arrival := min h.arrival t,
                                                        rank := if t < h.arrival then 64 else h.rank }
  | none => y.setGroup g'

/-- Whether a group reached its header before another: earlier, or, both restored in one cycle, in their former order (R171). -/
def Group.sooner (g h : Group) : Bool := decide (g.arrival < h.arrival ∨ (g.arrival = h.arrival ∧ g.rank < h.rank))

/-- Whether the group's instruction is its clause's last. -/
def Group.last (g : Group) : Bool := decide (g.clause.code.length ≤ g.idx + 1)

/-- A group goes on past its instruction: to the next of its clause, or to the next header. -/
def Yarn.advance (y : Yarn) (g : Group) (t : Nat) : Yarn :=
  if g.last then y.arriveAt g g.clause.next t
  else y.setGroup { g with idx := g.idx + 1, wait := none, drained := none, brk := false }

/-- A group goes on past its instruction, unless no lane of it is left. -/
def Yarn.goOn (y : Yarn) (g : Nat) (t : Nat) : Yarn :=
  match y.group g with
  | some r => if r.lanes = 0 then y else y.advance r t
  | none => y

/-- What is pending in a fray that is gone: no flag stands for it, and its scalar results are discarded (R97, R110). -/
def Pend.orphan (p : Pend) : Pend := { p with fray := none, flag := none, swrites := [] }

/-- What is pending, once of the frays only some are left. -/
def orphans (frays : Store Fray) (ps : List Pend) : List Pend :=
  ps.map (fun p => match p.fray with
    | some e => if (Store.find e frays).isSome then p else p.orphan
    | none => p)

/-- A fray that has no group and is not parked ends: its entry is freed, and nothing stands under its number any more
(R110). A group with no lanes ceases. -/
def Yarn.tidy (y : Yarn) : Yarn :=
  let groups := y.groups.filter (fun g => decide (g.lanes ≠ 0))
  let frays := y.frays.filter (fun c => decide (c.2.state = .parked) || groups.any (fun g => decide (g.fray = some c.1)))
  { y with groups := groups, frays := frays, pend := orphans frays y.pend }

/-- Whether no lane of a yarn is active any more. -/
def Yarn.over (y : Yarn) : Bool := y.lanes.all (fun c => !c.2.active)

/-- A yarn after a step of its own: flags settled, groups and frays that ended gone, and, when all its fibres have
retired and its flags are clear, retired (R97). A yarn made from a bin leaves no record; what it still has counted is kept
with the launch. -/
def State.settleYarn (s : State) (y : Nat) (v : Yarn) : State :=
  let v1 := v.tidy.settleFlags
  if v1.over && decide (v1.bank.flags = 0) && v1.pend.isEmpty && !v1.retired then
    let x := s.strandAt v1.strand
    let l := s.launchOf x
    let s1 := s.setLaunch x.launch { l with unacked := l.unacked ++ v1.counted }
    if v1.spawned then { s1 with yarns := Store.drop y s1.yarns }
    else s1.setYarn y { v1 with retired := true, slot := none, counted := [] }
  else s.setYarn y v1

/-- The instruction is done: its yarn's changes stand and its group goes on. -/
def State.done (s : State) (i : Issuer) (v : Yarn) : State :=
  s.settleYarn i.y (v.advance ((v.group i.g.id).getD i.g) (i.cycles s))

/-- The group stays at its instruction, waiting. -/
def State.stay (s : State) (i : Issuer) (w : Option Wait) : State :=
  s.setYarn i.y (i.yarn.setGroup { i.g with wait := w })

/-! ### Termination (R146, R162) -/

/-- A record under way of a launch that stops is aborted: its bytes are discarded, and the two ends are out of step
(R363). -/
def Bounce.abort (l : Nat) (b : Bounce) : Bounce :=
  if b.by_ = some l ∧ b.part ≠ [] then { b with part := [], by_ := none, skew := true } else b

/-- A launch's records under way aborted. -/
def State.abortRecords (s : State) (l : Nat) : State :=
  { s with funcs := s.funcs.map (fun c => (c.1, { c.2 with bounce := c.2.bounce.map (fun b => (b.1, b.2.abort l)) })) }

/-- A launch ends early: its yarns, frays, bins and strands are removed, its engines stop, and the command processor
will report a status and a cause. The first ending stands. -/
def State.terminate (s : State) (l : Nat) (cause : Byte) : State :=
  match Store.find l s.launches with
  | none => s
  | some L =>
    let mine := fun (x : Nat) => decide ((s.strandAt x).launch = l)
    let gone := s.yarns.filter (fun c => mine c.2.strand)
    let L1 := { L with ending := some (L.ending.getD { status := 1, cause := cause }), evicted := [],
                       nextCoil := L.coils, unacked := L.unacked ++ gone.flatMap (fun c => c.2.counted) }
    { s with
      launches := Store.put l L1 s.launches
      yarns := s.yarns.filter (fun c => !mine c.2.strand)
      strands := s.strands.filter (fun c => !decide (c.2.launch = l)) }.dropPassed (fun o => decide (o.launch = some l))
    |>.dropUnsent l |>.abortRecords l

/-! ### Host records (R106, R233, R370) -/

/-- A number of 32 bits that none of a list bears: the first from n on. -/
def freeId (used : List Nat) (n : Nat) : Nat :=
  (((List.range (used.length + 1)).map (fun k => (n + k) % 2 ^ 32)).find? (fun k => !used.contains k)).getD 0

/-- A number with fields put at bit offsets. -/
def pack (fs : List (Nat × Nat)) : Nat := fs.foldl (fun n f => n + f.2 * 2 ^ f.1) 0

/-- A record queued for a function's host fault queue. -/
def State.report (s : State) (fn : Nat) (r : FaultRec) : State :=
  let f := s.func fn
  s.setFunc fn { f with waiting := f.waiting ++ [r] }

/-- The bytes of a fray's record (R106). -/
def frayRecord (launch die core slot entry : Nat) (f : Fray) : List Byte :=
  let head := pack [(0, entry), (8, f.cause.toNat), (16, slot), (22, die), (24, core), (32, f.use.toNat), (64, launch),
    (128, f.lanes.toNat), (192, f.pc.toNat), (252, f.index.toNat), (256, f.rejoin.toNat)]
  let body := leBytes 64 head ++ f.addrs.flatMap (fun a => leBytes 8 a.toNat)
  body ++ List.replicate ((64 - body.length % 64) % 64) 0

/-- The bytes of an error record (R233). -/
def errorRecord (launch die core : Nat) (cause : Byte) (cand : Bool) (action loc replays op col addr : Nat) : List Byte :=
  leBytes 64 (pack [(8, cause.toNat), (22, die), (24, core), (33, if cand then 1 else 0), (34, action), (36, loc),
    (40, replays), (64, launch), (128, op), (192, col), (256, addr)])

/-- A die's core map: the cores neither fenced nor power-gated (R166, R235, R367). -/
def State.mapOf (s : State) (die : Nat) : BitVec 48 :=
  let f := Store.get 0 die s.fence
  BitVec.ofNat 48 (((List.range 48).filter (fun c => !f.getLsbD c && !(s.coreAt (coreKey die c)).gated)).foldl
    (fun n c => n + 2 ^ c) 0)

/-- With a die's core map brought up to date. -/
def State.remap (s : State) (die : Nat) : State := { s with coreMap := Store.put die (s.mapOf die) s.coreMap }

/-- A core becomes a fencing candidate, and is fenced where the function's policy says so (R235). -/
def State.candidate (s : State) (fn die core : Nat) : State :=
  let k := coreKey die core
  let s1 := s.setCore k { s.coreAt k with cand := true }
  if (s.func fn).policy.getLsbD 7 then
    { s1 with fence := Store.put die (Store.get 0 die s.fence ||| (1#48 <<< core)) s.fence }.remap die
  else s1

/-! ### Reading code (R374) -/

/-- What reading code gives: a value; the failing word's cause and address; a wait for a holder outside. -/
inductive Fetch (α : Type) where
  | ok (v : α)
  | fault (cause : Byte) (addr : DWord)
  | wait (s : State)
  deriving DecidableEq, Repr

/-- Then, with what was read. -/
def Fetch.bind {α β : Type} (r : Fetch α) (f : α → Fetch β) : Fetch β :=
  match r with
  | .ok v => f v
  | .fault c a => .fault c a
  | .wait s => .wait s

/-- A word of code, by the read of its aligned 8-byte unit as one load (R374); a load from an aperture page reads zero
(R268). -/
def State.codeWord (s : State) (who : Who) (fn ceil : Nat) (el : Elig) (a : Nat) : Fetch Word :=
  let va := BitVec.ofNat 64 (a / 8 * 8)
  match s.translate fn va with
  | .ok { cls := 3#2, label := lab, .. } => if ceil < lab.toNat then .fault cPageProt va else .ok 0
  | _ =>
    match s.devRead who fn ceil el va 8 with
    | .ok bs _ => .ok (BitVec.ofNat 32 (leNat ((bs.drop (a % 8)).take 4)))
    | .fault c d => .fault c d
    | .wait s' => .wait s'

/-! ### Target checks (R31) and the rejoin scan (R107) -/

/-- What the device finds at a transfer's target: a header, no header, a failing read, or a wait for a holder outside. -/
inductive Target where
  | ok | bad
  | fault (cause : Byte) (addr : DWord)
  | wait (s : State)
  deriving DecidableEq, Repr

/-- How a yarn's loads are routed (R305). -/
def Yarn.elig (y : Yarn) : Elig := { acq := y.acqEvent, wrote := y.wrote }

/-- R31's check of a target address, its header read under R374. -/
def State.target (s : State) (who : Who) (fn ceil : Nat) (el : Elig) (t : DWord) : Target :=
  if t.toNat % 8 ≠ 0 then .bad
  else
    match s.codeWord who fn ceil el t.toNat with
    | .ok w => if headerSigned w then .ok else .bad
    | .fault c a => .fault c a
    | .wait s' => .wait s'

/-- Where the words of n instructions from an address on end, and whether the last one is a transfer that ends the scan
of R107: a major opcode from bra to exit, or tret. -/
def codeEnd (rd : Nat → Fetch Word) : Nat → Nat → Bool → Fetch (Nat × Bool)
  | 0, a, tr => .ok (a, tr)
  | n + 1, a, _ =>
    (rd a).bind fun w =>
      let m := bitsAt w 2 7
      codeEnd rd n (a + 4 * wordCount w) (decide (0x50 ≤ m ∧ m ≤ 0x55) || decide (m = 0x59))

/-- The first header with its rejoin bit set among the clauses that follow, 8 at most, up to the first that ends in a
transfer; 0 for none (R107). -/
def scanFrom (rd : Nat → Fetch Word) : Nat → Nat → Fetch (BitVec 57)
  | 0, _ => .ok 0
  | n + 1, a =>
    (rd a).bind fun w0 =>
      if !headerSigned w0 then .ok 0
      else if headerRejoin w0 then .ok (BitVec.ofNat 57 a)
      else (codeEnd rd (headerCount w0) (a + 8) false).bind fun q =>
        if q.2 then .ok 0 else scanFrom rd n ((q.1 + 7) / 8 * 8)

/-! ### Taking a trap (R112, R113) -/

/-- Where a trapped group resumes (R113). -/
inductive Resume where
  | here                       -- the clause and the faulting instruction
  | after                      -- the following instruction
  | clause                     -- the clause afresh, index 8
  deriving DecidableEq, Repr

/-- The resume point of a group: clause header address and index. -/
def Group.resumePoint (g : Group) : Resume → BitVec 57 × Nat
  | .here => (g.pc, g.idx)
  | .clause => (g.pc, 8)
  | .after => if g.last then (g.clause.next, 8) else (g.pc, g.idx + 1)

/-- A bank as trap entry leaves it: SSW takes the status word, the handler bit is set, and the trap registers say what
happened (R62, R112, R113). -/
def Bank.enter (b : Bank) (cause : Byte) (arg : DWord) (mask : Mask) (r : BitVec 57 × Nat) : Bank :=
  { b with
    ssw := b.status
    status := b.status ||| 0x8000
    xcause := cause.setWidth 32
    xindex := BitVec.ofNat 32 r.2
    xpc := r.1.setWidth 64
    xarg := arg
    xmask := mask }

/-- A launch's handler, as a requester of code reads its header (R31, R374). -/
def State.handlerAt (s : State) (who : Who) (l : Launch) (el : Elig) : Target :=
  if l.handler = 0 then .bad else s.target who l.fn l.ceil el (BitVec.ofNat 64 l.handler)

/-- A yarn whose lanes T of a group have trapped: they are one group at the handler's address, and the group's other lanes
go on past the instruction (R112). -/
def Issuer.entered (i : Issuer) (t : List Nat) (cause : Byte) (arg : DWord) (r : Resume) (now : Nat) : Yarn :=
  let m := maskOf t
  let y1 := i.yarn.setBank i.g.fray (i.bank.enter cause arg m (i.g.resumePoint r))
  let rest := i.g.lanes &&& ~~~m
  let y2 := match i.g.fray with
    | some e => { y1 with frays := Store.modify e (fun f => { f with state := .handler }) y1.frays }
    | none => y1
  let hg : Group := { id := y2.newGroup, lanes := m, fray := i.g.fray, pc := BitVec.ofNat 57 i.launch.handler, arrival := now }
  let y3 := (y2.setGroup { i.g with lanes := rest, wait := none })
  let y4 := { y3 with groups := y3.groups ++ [hg], nextGroup := y3.newGroup + 1 }
  if rest = 0 then y4.dropGroup i.g.id else y4.advance { i.g with lanes := rest } now

/-- Lanes T of a group trap (R112). A zero handler, a handler that fails R31 or cannot be read, and a trap in handler mode
end the launch with the trap's cause (R112, R162). Where the header must come from a holder outside, the instruction stays
and traps once it is read. -/
def State.trap (s : State) (i : Issuer) (t : List Nat) (cause : Byte) (arg : DWord) (r : Resume) : State :=
  if i.bank.handler then s.terminate i.strand.launch cause
  else
    let who := Who.fetch i.y i.g.id
    match s.handlerAt who i.launch i.yarn.elig with
    | .ok => (s.dropBufs who).settleYarn i.y (i.entered t cause arg r (i.cycles s))
    | .wait s' => s'
    | _ => s.terminate i.strand.launch cause

/-- XARG of a trap for which R113 names no value: free (log entry 15). -/
def State.anyArg (s : State) : DWord := Config.freeXarg s.tick

/-- Return from a trap (R62, R116): the status word takes SSW's sticky bits and the handler bit clears. -/
def Bank.leave (b : Bank) : Bank :=
  { b with status := (b.status &&& 0xFFFF7F80) ||| (b.ssw &&& 0x7F) }

/-! ### Splitting frays (R104 to R107) -/

/-- One lane's fault. -/
structure LaneFault where
  lane : Nat
  cause : Byte
  addr : DWord
  deriving DecidableEq, Repr

/-- The causes met, ascending, each once. -/
def causesOf (fs : List LaneFault) : List Byte :=
  ((List.range 256).map (BitVec.ofNat 8)).filter (fun c => fs.any (fun f => decide (f.cause = c)))

/-- Fragment-table entries in use on a core. -/
def State.usedEntries (s : State) (k : Nat) : List Nat :=
  s.yarns.flatMap (fun c => if (s.strandAt c.2.strand).core = k ∧ (s.strandAt c.2.strand).place.isSome
    then Store.keys c.2.frays else [])

/-- The free entries of a core, ascending (R104). -/
def State.freeEntries (s : State) (k : Nat) : List Nat :=
  (List.range 32).filter (fun e => !(s.usedEntries k).contains e)

/-- The lanes whose registers an act will write. -/
def PendAct.lanes : PendAct → List Nat
  | .accLd _ _ els _ => els.map Prod.fst
  | .mmchk _ _ _ m => lanesOf m
  | _ => []

/-- An act kept to the lanes that pass a test. -/
def PendAct.only (f : Nat → Bool) : PendAct → PendAct
  | .accLd s d els l => .accLd s d (els.filter (fun e => f e.1)) l
  | .mmchk s h d m => .mmchk s h d (maskOf ((lanesOf m).filter f))
  | a => a

/-- The lanes whose registers an instruction still has to write. -/
def Pend.lanes (p : Pend) : List Nat := p.writes.map Prod.fst ++ p.act.lanes

/-- Pending writes divided between the group and the lanes that leave it as entry e (R105). DESIGN CHOICE (log 53): a scalar
result still pending stays with the group alone, the fray's copy takes neither its value nor its flag: R105 speaks of
writes pending in a fray's lanes. -/
def splitPend (ps : List Pend) (fray : Option Nat) (ls : List Nat) (e : Nat) : List Pend :=
  ps.flatMap (fun p =>
    if p.fray = fray ∧ p.lanes.any ls.contains then
      let q := { p with writes := p.writes.filter (fun w => !ls.contains w.1), act := p.act.only (fun l => !ls.contains l) }
      let r := { p with fray := some e, writes := p.writes.filter (fun w => ls.contains w.1), swrites := [],
                        knot := none, act := if p.act.lanes.any ls.contains then p.act.only ls.contains else .none }
      if q.lanes = [] ∧ q.swrites = [] ∧ q.knot = none then [r] else [q, r]
    else [p])

/-- The flags a fray takes: those with a write pending in one of its lanes (R105). -/
def pendFlags (ps : List Pend) (e : Nat) : BitVec 12 :=
  ps.foldl (fun m p => match p.flag with
    | some f => if p.fray = some e then m ||| (1#12 <<< f) else m
    | none => m) 0

/-- The rejoin PC of a fray that leaves a group at its instruction (R107). DESIGN CHOICE (log 14): 0 where the fault struck
the clause read, whose end is not known, or a word the scan passes over cannot be read. -/
def State.rejoinPc (s : State) (i : Issuer) (idx : Nat) : Fetch (BitVec 57) :=
  if idx = 8 then .ok 0
  else scanFrom (s.codeWord (.fetch i.y i.g.id) i.launch.fn i.ceil i.yarn.elig) 8 i.g.clause.next.toNat

/-- The state that asks for the launch's handler header, where it must come from a holder outside. -/
def State.handlerWait (s : State) (i : Issuer) : Option State :=
  match s.handlerAt (.fetch i.y i.g.id) i.launch i.yarn.elig with
  | .wait s' => some s'
  | _ => none

/-- Whether a split into frays of some causes must wait for a word a holder outside has: a handler's header, where a cause
has no repair, or code the scan of R107 passes over, where one has. The state that has asked for it. -/
def State.splitWaits (s : State) (i : Issuer) (idx : Nat) (cs : List Byte) : Option State :=
  let h := if cs.all repairable then none else s.handlerWait i
  match h, s.rejoinPc i idx with
  | some s', _ => some s'
  | none, .wait s' => if cs.any repairable then some s' else none
  | none, _ => none

/-- With an error record for a shadow mismatch (R230, R233): location 7, the candidate bit set. -/
def State.shadowReport (s : State) (i : Issuer) : State :=
  let p := i.strand.at_
  (s.report i.launch.fn { bytes := errorRecord i.strand.launch p.die p.core cShadow true 0 7 i.launch.replays 0 0 0
                        }).candidate i.launch.fn p.die p.core

/-- Without some lanes in the running fray they leave, if they run in one (R104). -/
def leaveFray (fray : Option Nat) (m : Mask) (fs : Store Fray) : Store Fray :=
  match fray with
  | some o => Store.modify o (fun f => { f with lanes := f.lanes &&& ~~~m }) fs
  | none => fs

/-- The lanes of one cause leave the group, and the running fray it is of, as the fray of entry e. `idx` is the faulting
instruction, 8 for a clause read. -/
def State.splitOne (s : State) (i : Issuer) (idx : Nat) (c : Byte) (fs : List LaneFault) (e : Nat) (v : Yarn) :
    State × Yarn :=
  let k := i.strand.core
  let core := s.coreAt k
  let use := Store.get 0 e core.uses + 1
  let mine := fs.filter (fun f => decide (f.cause = c))
  let ls := mine.map (·.lane)
  let ps := splitPend v.pend i.g.fray ls e
  let b := v.bankOf i.g.fray
  let fr : Fray :=
    { lanes := maskOf ls, pc := i.g.pc, index := BitVec.ofNat 4 idx, cause := c, addrs := mine.map (·.addr),
      rejoin := (match s.rejoinPc i idx with | .ok p => p | _ => 0),
      use := use, bank := { b with flags := pendFlags ps e }, clause := i.g.clause, gmask := i.g.gmask, num := v.nextFray,
      turns := v.turnsOf i.g.fray }
  let v1 := v.mapLanes (fun _ x => { x with parked := true }) ls
  let v2 := { v1 with pend := ps, frays := Store.put e fr (leaveFray i.g.fray (maskOf ls) v1.frays), nextFray := v1.nextFray + 1 }
  let v3 := { v2 with groups := v2.groups.map (fun g =>
    if g.id = i.g.id then { g with lanes := g.lanes &&& ~~~(maskOf ls) } else g) }
  let s1 := s.setCore k { core with uses := Store.set 0 e use core.uses }
  if repairable c then
    (s1.report i.launch.fn { bytes := frayRecord i.strand.launch i.strand.at_.die i.strand.at_.core (v.slot.getD 0) e fr }, v3)
  else (if c = cShadow then s1.shadowReport i else s1, v3)

/-- Lane-level faults raised in handler mode end the launch with the lowest of their causes (R112); a shadow mismatch among them
writes its error record first (R233). -/
def State.endFor (s : State) (i : Issuer) (cs : List Byte) : State :=
  (if cs.contains cShadow then s.shadowReport i else s).terminate i.strand.launch (cs.headD 0)

/-- Each cause's lanes leave, in ascending cause order, each taking the lowest free entry (R104). -/
def State.splitAll (s : State) (i : Issuer) (idx : Nat) (fs : List LaneFault) :
    List Byte → List Nat → Yarn → State × Yarn
  | c :: cs, e :: es, v =>
    let r := s.splitOne i idx c fs e v
    State.splitAll r.1 i idx fs cs es r.2
  | _, _, v => (s, v)

/-- A fray of a cause without repair enters the launch's handler at once (R108, R112); `who` has read its header. -/
def State.frayTrap (s : State) (who : Who) (y : Nat) (e : Nat) : State :=
  match Store.find y s.yarns with
  | none => s
  | some v =>
    match Store.find e v.frays with
    | none => s
    | some f =>
      let x := s.strandAt v.strand
      let l := s.launchOf x
      let bad := match s.handlerAt who l v.elig with
        | .bad => true
        | .fault _ _ => true
        | _ => false
      if bad then s.terminate x.launch f.cause
      else
        let b := f.bank.enter f.cause (f.addrs.headD 0) f.lanes (f.pc, f.index.toNat)
        let g : Group := { id := v.newGroup, lanes := f.lanes, fray := some e, pc := BitVec.ofNat 57 l.handler,
                           arrival := s.cycles x.core }
        let v1 := { v with frays := Store.put e { f with state := .handler, bank := b } v.frays,
                           groups := v.groups ++ [g], nextGroup := v.newGroup + 1 }
        s.setYarn y (v1.mapLanes (fun _ x => { x with parked := false }) (lanesOf f.lanes))

/-- The frays of causes without repair, each entering the handler. -/
def State.frayTraps (s : State) (who : Who) (y : Nat) : List Byte → List Nat → State
  | c :: cs, e :: es => State.frayTraps (if repairable c then s else s.frayTrap who y e) who y cs es
  | _, _ => s

/-- Lanes of a group leave it as frays, one for each cause, and frays without repair enter the handler (R104, R108); `v` is
the yarn with the instruction's effect in its other lanes, and `on` takes the group on. -/
def State.splitOff (s : State) (i : Issuer) (idx : Nat) (fs : List LaneFault) (v : Yarn) (on : Yarn → Yarn) : State :=
  let who := Who.fetch i.y i.g.id
  let cs := causesOf fs
  let es := s.freeEntries i.strand.core
  let p := s.splitAll i idx fs cs es v
  ((p.1.settleYarn i.y (on p.2)).frayTraps who i.y cs es).dropBufs who

/-- An instruction that met lane-level faults in some lanes of G (R104). `ok` is the yarn with the instruction's effect
in the other lanes, its group still at the instruction; `G` its executing lanes. Without room in the fragment table it
traps FRAY_FULL on G with no effect; in handler mode it ends the launch (R112). Where a word the split needs must come from a
holder outside, the instruction stays until it is read. -/
def State.finish (s : State) (i : Issuer) (G : List Nat) (fs : List LaneFault) (ok : State → State × Yarn) : State :=
  if fs = [] then
    let r := ok s
    r.1.done i r.2
  else if i.bank.handler then s.endFor i (causesOf fs)
  else
    let cs := causesOf fs
    let es := s.freeEntries i.strand.core
    if es.length < cs.length then s.trap i G cFrayFull s.anyArg .here
    else
      match s.splitWaits i i.g.idx cs with
      | some s' => s'
      | none =>
        let r := ok s
        r.1.splitOff i i.g.idx fs r.2 (fun v =>
          let g := (v.group i.g.id).getD i.g
          if g.lanes = 0 then v else v.advance g (i.cycles s))

/-! ### Retirement (R97, R130) -/

/-- A fibre retires: its predicates are kept and its registers die. -/
def Lane.retire (v : Lane) (pc : BitVec 57) (idx : Nat) : Lane :=
  { v with active := false, exited := true, parked := false, regs := [], monitor := none, lastPc := pc,
           lastIdx := BitVec.ofNat 4 idx }

/-- Fibres retire: what is pending for them is discarded, and they leave their group. -/
def Yarn.retireLanes (y : Yarn) (ls : List Nat) (pc : BitVec 57) (idx : Nat) : Yarn :=
  let y1 := y.mapLanes (fun _ v => v.retire pc idx) ls
  { y1 with
    pend := y1.pend.map (fun p => { p with writes := p.writes.filter (fun w => !ls.contains w.1),
                                           act := p.act.only (fun l => !ls.contains l) })
    groups := y1.groups.map (fun g => { g with lanes := g.lanes &&& ~~~(maskOf ls) })
    frays := y1.frays.map (fun c => (c.1, { c.2 with lanes := c.2.lanes &&& ~~~(maskOf ls) })) }

end Sys2Proof.Machine
end

