-- ==== Sys2Proof/Machine/Place.lean ====
section
/-! DEFINITION. A program placed from outside: a launch of one strand, one yarn and one fibre, standing at one clause. -/

namespace Sys2Proof.Machine

open Host (Outcome)

/-- The packet of the placed launch: one fibre in one matrix yarn, 4,096 bytes of scratchpad, ceiling 3. -/
def placedPacket : BitVec 512 :=
  BitVec.ofNat 512 (pack [(0, 1), (24, 3), (32, 1), (48, 1), (192, 1), (208, 1), (224, 1), (240, 1), (256, 4096 + 2)])

/-- A clause holding one instruction: it sets flag X when the instruction is long-latency (R24, R26). -/
def oneClause (ws : List Word) : Clause :=
  let code := ws.take (wordCount (ws.headD 0))
  let long := match decodeWords ws with | .ok (i, _) => i.long | .error _ => false
  { w0 := if long then 0x00100008 else 0x00000008, w1 := 0x00070000, code := [code],
    next := BitVec.ofNat 57 ((8 + 4 * code.length + 7) / 8 * 8) }

/-- The yarn of the placed launch: its fibre is lane 0, its one group issues the clause's instruction. -/
def placedYarn (x : Nat) (ws : List Word) : Yarn :=
  let c := oneClause ws
  { strand := x, slot := some 0, stage := 0,
    lanes := [(0, { active := true, linear := some 0 })],
    bank := { status := 0x1000, flags := if c.w0.getLsbD 20 then 1 else 0 },
    groups := [{ id := 0, lanes := 1, pc := 0, phase := .issue, clause := c, gmask := 1 }], nextGroup := 1 }

/-- The state with words placed as the next instruction to issue. -/
def State.placeWords (s : State) (ws : List Word) : State :=
  let l := s.nextLaunch
  let x := s.nextCtx
  let y := s.nextYarn
  { s with
    launches := Store.put l { fn := 0, queue := 0, packet := placedPacket, nextCoil := 1 } s.launches
    strands := Store.put x { launch := l, place := some { die := 0, core := 0, base := 0 } } s.strands
    yarns := Store.put y (placedYarn x ws) s.yarns
    nextLaunch := l + 1
    nextCtx := x + 1
    nextYarn := y + 1
    turn := some (.issue y 0) }

end Sys2Proof.Machine
end

