-- ==== Sys2Proof/Machine/Flags.lean ====
section
/-! DEFINITION. The status word's sticky bits (R61) and the setting of them. -/

namespace Sys2Proof.Machine

def stNV : Word := 0x01
def stDZ : Word := 0x02
def stOF : Word := 0x04
def stUF : Word := 0x08
def stNX : Word := 0x10
def stISAT : Word := 0x20
def stQSAT : Word := 0x40

/-- A bank with sticky bits set in its status word. -/
def Bank.raise (b : Bank) (bits : Word) : Bank := { b with status := b.status ||| (bits &&& 0x7F) }

/-- A yarn with sticky bits set in the status word of one of its copies (R55, R66, R204). -/
def Yarn.raise (y : Yarn) (fray : Option Nat) (bits : Word) : Yarn :=
  if bits &&& 0x7F = 0 then y else y.setBank fray ((y.bankOf fray).raise bits)

/-- The status word after a csrw (R61, R352): writing 1 clears a sticky bit, every other field ignores the write. -/
def statusWrite (old w : Word) : Word := old &&& ~~~(w &&& 0x7F)

/-- Whether a reserved bit of SSW is set (R61, R62). -/
def sswReserved (w : Word) : Bool := decide (w &&& 0xFFFF0F80 ≠ 0)

end Sys2Proof.Machine
end

