-- ==== Sys2Proof/Machine/Operands.lean ====
section
/-! DEFINITION. Operand forms: what an operand reads in a lane (R38, R58, R64), in another lane (R83), what a last-read
bit does (R51), and where a result goes (R34, R50, R54, R59, R349). -/

namespace Sys2Proof.Machine

/-- Fibres a yarn of a launch holds at most: 32 pairs in a protected launch (R120, R229). -/
def Launch.perYarn (l : Launch) : Nat := if l.protd then 32 else 64

/-- The first yarn of a stage (R121). -/
def Launch.firstYarn (l : Launch) (stage : Nat) : Nat :=
  ((List.range stage).map l.stageYarns).foldl (· + ·) 0

/-- A lane's number as its fibre reads it (R58, R229). -/
def Launch.laneNo (l : Launch) (n : Nat) : Nat := if l.protd then n / 2 else n

/-- The fray a lane runs in, as %fray reads it (R58). -/
def Yarn.frayReg (y : Yarn) (l : Nat) : Nat :=
  match y.frays.find? (fun c => c.2.lanes.getLsbD l && decide (c.2.state ≠ .parked)) with
  | some c => 256 + c.1
  | none => 0

/-- The label floor a lane's instructions use. -/
def Yarn.floorAt (y : Yarn) (l : Nat) : Label :=
  match y.frays.find? (fun c => c.2.lanes.getLsbD l) with
  | some c => c.2.bank.floor
  | none => y.bank.floor

/-- A coordinate that a spawned fibre reads as all ones (R127). -/
def orSpawned (y : Yarn) (v : Nat) : Nat := if y.spawned then 0xFFFFFFFF else v

/-- What a special register reads in a lane (R58, R121, R127). DESIGN CHOICE (log 53): in a protected launch, where a yarn has 32
fibres, %fibre.y is the index among the fibres of the stage, as R121 words it, where its formula has 64 to a yarn. -/
def Issuer.special (i : Issuer) (s : State) (r : SReg) (l : Nat) : Nat :=
  let x := i.strand
  let L := i.launch
  let y := i.yarn
  let b := L.firstYarn y.stage
  let lin := ((y.lane l).linear).getD 0
  match r with
  | .lane => L.laneNo l
  | .fibreX => orSpawned y lin
  | .fibreY => orSpawned y (lin - L.perYarn * b)
  | .fibreZ => orSpawned y 0
  | .yarnX => orSpawned y y.num
  | .yarnY => orSpawned y (y.num - b)
  | .yarnZ => orSpawned y 0
  | .strandX => x.index % L.sx
  | .strandY => x.index / L.sx % L.sy
  | .strandZ => x.index / L.sx / L.sy
  | .coilX => x.coil % L.gridX
  | .coilY => x.coil / L.gridX % L.gridY
  | .coilZ => x.coil / L.gridX / L.gridY
  | .stage => y.stage
  | .launchid => x.launch
  | .fray => y.frayReg l
  | .cycles => i.cycles s
  | .peer => s.peer.toNat
  | .label => (y.floorAt l).toNat + 256 * (L.ceil % 4)

/-- A value with its label. -/
structure Val where
  val : DWord := 0
  lab : Label := 0
  deriving DecidableEq, Repr, Inhabited

/-- A vector register, or a pair, of a lane. -/
def Lane.read (v : Lane) (n : Nat) (wide : Bool) : Val :=
  let a := v.reg n
  if wide then
    let b := v.reg (n + 1)
    { val := b.val ++ a.val, lab := lmax a.lab b.lab }
  else { val := a.val.setWidth 64, lab := a.lab }

/-- A scalar register, or a pair. -/
def Bank.read (k : Bank) (n : Nat) (wide : Bool) : Val :=
  let a := k.scalar n
  if wide then
    let b := k.scalar (n + 1)
    { val := b.val ++ a.val, lab := lmax a.lab b.lab }
  else { val := a.val.setWidth 64, lab := a.lab }

/-- A value cut to its position's width. -/
def fitWidth (wide : Bool) (v : DWord) : DWord := if wide then v else (v.setWidth 32).setWidth 64

/-- What an operand reads in a lane (R38, R64). Inline integers are sign-extended; literals and special registers carry
label 0. -/
def Issuer.operand (i : Issuer) (s : State) (o : Operand) (wide : Bool) (l : Nat) : Val :=
  match o with
  | .none => {}
  | .v n => (i.yarn.lane l).read n.toNat wide
  | .s n => i.bank.read n.toNat wide
  | .int k => { val := fitWidth wide (k.signExtend 64) }
  | .pred n => { val := if (i.yarn.lane l).pred n then 1 else 0 }
  | .special r => { val := fitWidth wide (BitVec.ofNat 64 (i.special s r l)) }
  | .lit w => { val := fitWidth wide w }

/-- Whether a special register reads differently in each lane (R83). -/
def sregPerLane : SReg → Bool
  | .lane | .fibreX | .fibreY | .fibreZ | .fray | .label => true
  | _ => false

/-- What an instruction reads of an operand in another lane (R83): a lane that is not active gives zero with label 0. -/
def Issuer.across (i : Issuer) (s : State) (o : Operand) (wide : Bool) (m : Nat) : Val :=
  let on := (i.yarn.lane m).active
  match o with
  | .v _ => if on then i.operand s o wide m else {}
  | .special r => if sregPerLane r && !on then {} else i.operand s o wide m
  | _ => i.operand s o wide m

/-- The instruction a group stands at. -/
def Group.here (g : Group) : Option (Op × Args) :=
  match decodeWords (g.clause.code.getD g.idx []) with
  | .ok (i, _) => i.op?
  | .error _ => none

/-- Whether a group's instruction has begun to issue in a lane and is not over there: its access is under acceptance, the
lane's own or that of the other lane of its pair (R229, R245), or the lane executes an instruction that waits. -/
def Yarn.owes (y : Yarn) (g : Group) (gd : Guard) (m : Nat) : Bool :=
  match g.wait with
  | some (.accept a) =>
    a.lanes.any (fun q => decide (q.lane = m) || (y.bank.status.getLsbD 14 && decide (q.lane / 2 = m / 2)))
  | some _ => (y.executing g gd).contains m
  | none => g.drained.isSome && (y.executing g gd).contains m

/-- Whether a group's instruction, begun and not over, is still to write a register of a lane (R83). -/
def Yarn.awaited (y : Yarn) (g : Group) (m n : Nat) : Bool :=
  match g.here with
  | some (o, x) =>
    match x.dst with
    | .v k => (decide (n = k.toNat) || (o.dWide x.ty x.sub x.mods && decide (n = k.toNat + 1))) && y.owes g x.guard m
    | _ => false
  | none => false

/-- Whether a write to a register of a lane is still pending: an issued instruction has not written it, or one that has
begun to issue still waits. -/
def Yarn.pendingAt (y : Yarn) (m n : Nat) : Bool :=
  y.pend.any (fun p =>
    p.writes.any (fun w => decide (w.1 = m ∧ w.2.1 = n))
      || (match p.act with
          | .accLd _ d els _ => decide (d = n) && els.any (fun e => decide (e.1 = m))
          | .mmchk _ _ d ls => decide (d = n) && ls.getLsbD m
          | _ => false))
    || y.groups.any (fun g => y.awaited g m n)

/-- Whether a cross-lane read of an operand in lanes outside G must wait for a pending write (R83). -/
def Issuer.mustWait (i : Issuer) (o : Operand) (wide : Bool) (G ms : List Nat) : Bool :=
  match o with
  | .v n => ms.any (fun m => !G.contains m && (i.yarn.lane m).active
      && (i.yarn.pendingAt m n.toNat || (wide && i.yarn.pendingAt m (n.toNat + 1))))
  | _ => false

/-! ### Last-read bits -/

/-- The registers an operand's set last-read bit kills: both of a pair (R39, R51). -/
def operandKills (o : Operand) (lr wide : Bool) : List Nat :=
  match o with
  | .v n => if lr then (if wide then [n.toNat, n.toNat + 1] else [n.toNat]) else []
  | _ => []

/-- Whether a clause holds an exit, which can only be its last instruction (R46). -/
def Clause.exits (c : Clause) : Bool :=
  match decodeWords (c.code.getLastD []) with
  | .ok (.exitF _, _) => true
  | _ => false

/-- The registers that die in the lanes that execute an instruction (R25, R34, R51); none in a clause holding exit
(R97). -/
def Issuer.killed (i : Issuer) (o : Op) (x : Args) : List Nat :=
  if i.g.clause.exits then []
  else
    let lr := headerLr i.g.clause.w1 i.g.idx
    operandKills x.a lr.1 (o.aWide x.ty x.src x.mods) ++ operandKills x.b lr.2 (o.bWide x.ty)
      ++ operandKills x.c x.lrC (o.cWide x.ty)

/-- Registers of a lane made dead: they read as zero with label 0. -/
def Lane.kill (v : Lane) (ns : List Nat) : Lane := ns.foldl (fun v n => v.setReg n {}) v

/-! ### Results -/

/-- One lane's result: its value, its label, and the sticky bits it raises. -/
structure Res where
  lane : Nat
  val : DWord
  lab : Label := 0
  bits : Word := 0
  deriving DecidableEq, Repr

/-- A register of a lane, or a pair, written (R50). -/
def Lane.writeReg (v : Lane) (n : Nat) (wide : Bool) (x : DWord) (l : Label) : Lane :=
  let v1 := v.setReg n ⟨x.setWidth 32, l⟩
  if wide then v1.setReg (n + 1) ⟨x.extractLsb' 32 32, l⟩ else v1

/-- A scalar, or a pair, written. -/
def Bank.writeScalar (b : Bank) (n : Nat) (wide : Bool) (x : DWord) (l : Label) : Bank :=
  let b1 := b.setScalar n ⟨x.setWidth 32, l⟩
  if wide then b1.setScalar (n + 1) ⟨x.extractLsb' 32 32, l⟩ else b1

/-- Results put into a destination: each lane's register or predicate, or the scalar of the lowest lane (R54). -/
def Yarn.writeDest (y : Yarn) (fray : Option Nat) (d : Dest) (wide : Bool) (rs : List Res) : Yarn :=
  match d with
  | .none => y
  | .v n => rs.foldl (fun y r => y.setLane r.lane ((y.lane r.lane).writeReg n.toNat wide r.val r.lab)) y
  | .s n =>
    match rs with
    | [] => y
    | r :: _ => y.setBank fray ((y.bankOf fray).writeScalar n.toNat wide r.val r.lab)
  | .p n => rs.foldl (fun y r => y.setLane r.lane ((y.lane r.lane).setPred n (decide (r.val ≠ 0)))) y

/-- The lanes whose result may not be written because its label exceeds the launch's ceiling: they fault PAGE_PROT
(R349). A predicate carries no label; a scalar is written by the lowest lane. -/
def overCeil (ceil : Nat) (d : Dest) (addr : DWord) (rs : List Res) : List LaneFault :=
  let bad := fun (r : Res) => decide (ceil < r.lab.toNat)
  match d with
  | .v _ => (rs.filter bad).map (fun r => ⟨r.lane, cPageProt, addr⟩)
  | .s _ => ((rs.take 1).filter bad).map (fun r => ⟨r.lane, cPageProt, addr⟩)
  | _ => []

/-- The yarn after an instruction that only computes: in the lanes that do not fault, last-read registers die, then the
results are written and the sticky bits set (R51, R52, R54, R66). -/
def Issuer.computed (i : Issuer) (o : Op) (x : Args) (dw : Bool) (rs : List Res) : Yarn :=
  let y1 := i.yarn.mapLanes (fun _ v => v.kill (i.killed o x)) (rs.map (·.lane))
  let y2 := y1.writeDest i.g.fray x.dst dw rs
  y2.raise i.g.fray (rs.foldl (fun b r => b ||| r.bits) 0)

/-- An instruction that only computes: its results, one for each executing lane, go to the destination (R63). -/
def State.compute (s : State) (i : Issuer) (o : Op) (x : Args) (rs : List Res) : State :=
  let dw := o.dWide x.ty x.sub x.mods
  let fs := overCeil i.ceil x.dst s.anyArg rs
  let good := rs.filter (fun r => !fs.any (fun f => decide (f.lane = r.lane)))
  s.finish i (rs.map (·.lane)) fs (fun s => (s, i.computed o x dw good))

/-- The label of a result: the highest of its operands' labels and the floor (R59). -/
def Issuer.label (i : Issuer) (vs : List Val) : Label := vs.foldl (fun m v => lmax m v.lab) i.bank.floor

/-- An instruction that acts on each executing lane alone: f gives the value and the sticky bits from the three
operands (R63). -/
def State.laneWise (s : State) (i : Issuer) (o : Op) (x : Args) (f : DWord → DWord → DWord → DWord × Word) : State :=
  s.compute i o x ((i.lanes x).map (fun l =>
    let a := i.operand s x.a (o.aWide x.ty x.src x.mods) l
    let b := i.operand s x.b (o.bWide x.ty) l
    let c := i.operand s x.c (o.cWide x.ty) l
    let r := f a.val b.val c.val
    { lane := l, val := r.1, lab := i.label [a, b, c], bits := r.2 }))

/-- The lowest executing lane's reading of an operand. -/
def Issuer.first (i : Issuer) (s : State) (G : List Nat) (o : Operand) (wide : Bool) : Val :=
  i.operand s o wide (G.headD 0)

end Sys2Proof.Machine
end

