-- ==== Sys2Proof/Machine/Integer.lean ====
section
/-! DEFINITION. Integer, logic, permute and cross-lane instructions: major opcodes 0x00 to 0x28 (R63 to R91). -/

namespace Sys2Proof.Machine

open Host (Outcome)

/-! ### Numbers of a type -/

/-- A type's width in bits; 32 where a type has none. -/
def tyBits : Ty → Nat
  | .s64 | .n64 | .b64 | .f64 => 64
  | .s16 | .n16 | .f16 | .bf16 | .t16e1 => 16
  | .s8 | .n8 | .t8e0 | .t8e1 => 8
  | .s4 | .n4 => 4
  | .t6e0 | .t6e1 => 6
  | _ => 32

/-- Whether a type is signed. -/
def tySigned : Ty → Bool
  | .s32 | .s64 | .s16 | .s8 | .s4 => true
  | _ => false

/-- Whether an integer type is packed (R65). -/
def tyPacked : Ty → Bool
  | .s16 | .n16 | .s8 | .n8 => true
  | _ => false

/-- The low w bits of a value as a number, signed or not. -/
def numOf (sg : Bool) (w : Nat) (v : DWord) : Int :=
  let n := v.toNat % 2 ^ w
  if sg ∧ 2 ^ (w - 1) ≤ n then (n : Int) - 2 ^ w else n

/-- A number's low w bits, zeros above. -/
def lowBits (w : Nat) (v : Int) : DWord := BitVec.ofNat 64 (v % 2 ^ w).toNat

/-- The least and the greatest number of a type (R66). -/
def tyLo (t : Ty) : Int := if tySigned t then -(2 ^ (tyBits t - 1)) else 0
def tyHi (t : Ty) : Int := if tySigned t then 2 ^ (tyBits t - 1) - 1 else 2 ^ tyBits t - 1

/-- A number held to a type's range (R66). -/
def clamp (t : Ty) (v : Int) : Int := if tyHi t < v then tyHi t else if v < tyLo t then tyLo t else v

/-- An exact result put into a type: clamped under saturate, which sets ISAT where it replaces, else reduced (R66). -/
def narrow (t : Ty) (sat : Bool) (v : Int) : DWord × Word :=
  if sat then (lowBits (tyBits t) (clamp t v), if clamp t v = v then 0 else stISAT)
  else (lowBits (tyBits t) v, 0)

/-- Element e of w bits of a packed word. -/
def elemAt (w e : Nat) (v : DWord) : DWord := BitVec.ofNat 64 (v.toNat / 2 ^ (w * e) % 2 ^ w)

/-- An operation on each element of packed words, n of them from element e on. -/
def perElem (w : Nat) (f : DWord → DWord → DWord → DWord × Word) (a b c : DWord) : Nat → Nat → DWord × Word
  | 0, _ => (0, 0)
  | n + 1, e =>
    let r := f (elemAt w e a) (elemAt w e b) (elemAt w e c)
    let t := perElem w f a b c n (e + 1)
    (BitVec.ofNat 64 (r.1.toNat % 2 ^ w * 2 ^ (w * e) + t.1.toNat), r.2 ||| t.2)

/-- The shared effect of R70 on one lane's operands: f on each element, exact, then narrowed. -/
def arith (t : Ty) (sat : Bool) (f : Int → Int → Int → Int) (a b c : DWord) : DWord × Word :=
  let w := tyBits t
  let one := fun a b c => narrow t sat (f (numOf (tySigned t) w a) (numOf (tySigned t) w b) (numOf (tySigned t) w c))
  if tyPacked t then perElem w one a b c (32 / w) 0 else one a b c

/-- An inline integer placed in every element of a packed word (R65); other operands as they stand. -/
def packedOperand (t : Ty) (o : Operand) : Operand :=
  match o with
  | .int k =>
    if tyPacked t then
      let w := tyBits t
      let e := (lowBits w k.toInt).toNat
      .lit (BitVec.ofNat 64 ((List.range (32 / w)).foldl (fun n i => n + e * 2 ^ (w * i)) 0))
    else o
  | _ => o

/-- The arguments with packed inline integers. -/
def packedArgs (x : Args) : Args :=
  { x with a := packedOperand x.ty x.a, b := packedOperand x.ty x.b, c := packedOperand x.ty x.c }

/-- An instruction of R70: exact arithmetic on each element in each lane. -/
def State.integer (s : State) (i : Issuer) (o : Op) (x : Args) (f : Int → Int → Int → Int) : State :=
  s.laneWise i o (packedArgs x) (arith x.ty x.sat f)

/-- add (R70). -/
def execAdd (x : Args) (s : State) : Outcome State Fault Refusal :=
  issued s fun i => s.integer i .add x fun a b _ => a + b

/-- sub (R70). -/
def execSub (x : Args) (s : State) : Outcome State Fault Refusal :=
  issued s fun i => s.integer i .sub x fun a b _ => a - b

/-- mul.lo (R70). -/
def execMulLo (x : Args) (s : State) : Outcome State Fault Refusal :=
  issued s fun i => s.integer i .mulLo x fun a b _ => a * b

/-- mul.hi (R70): the product divided by 2^w, toward minus infinity. -/
def execMulHi (x : Args) (s : State) : Outcome State Fault Refusal :=
  issued s fun i => s.integer i .mulHi x fun a b _ => (a * b).fdiv (2 ^ tyBits x.ty)

/-- mad (R70). -/
def execMad (x : Args) (s : State) : Outcome State Fault Refusal :=
  issued s fun i => s.integer i .mad x fun a b c => a * b + c

/-- mad.wide (R71). -/
def execMadWide (x : Args) (s : State) : Outcome State Fault Refusal :=
  issued s fun i => s.laneWise i .madWide x fun a b c =>
    (lowBits 64 (numOf (tySigned x.ty) 32 a * numOf (tySigned x.ty) 32 b + c.toNat), 0)

/-- min (R70). -/
def execMinI (x : Args) (s : State) : Outcome State Fault Refusal :=
  issued s fun i => s.integer i .minI x fun a b _ => min a b

/-- max (R70). -/
def execMaxI (x : Args) (s : State) : Outcome State Fault Refusal :=
  issued s fun i => s.integer i .maxI x fun a b _ => max a b

/-- abs (R70). -/
def execAbsI (x : Args) (s : State) : Outcome State Fault Refusal :=
  issued s fun i => s.integer i .absI x fun a _ _ => a.natAbs

/-- neg (R70). -/
def execNegI (x : Args) (s : State) : Outcome State Fault Refusal :=
  issued s fun i => s.integer i .negI x fun a _ _ => -a

/-! ### Logic, shifts and bits -/

/-- A bitwise instruction (R72). -/
def State.bitwise (s : State) (i : Issuer) (o : Op) (x : Args) (f : DWord → DWord → DWord) : State :=
  s.laneWise i o x fun a b _ => (fitWidth x.ty.wide (f a b), 0)

/-- and (R72). -/
def execAndB (x : Args) (s : State) : Outcome State Fault Refusal :=
  issued s fun i => s.bitwise i .andB x fun a b => a &&& b

/-- or (R72). -/
def execOrB (x : Args) (s : State) : Outcome State Fault Refusal :=
  issued s fun i => s.bitwise i .orB x fun a b => a ||| b

/-- xor (R72). -/
def execXorB (x : Args) (s : State) : Outcome State Fault Refusal :=
  issued s fun i => s.bitwise i .xorB x fun a b => a ^^^ b

/-- andn (R72): a AND NOT b. -/
def execAndn (x : Args) (s : State) : Outcome State Fault Refusal :=
  issued s fun i => s.bitwise i .andn x fun a b => a &&& ~~~b

/-- not (R72). -/
def execNotB (x : Args) (s : State) : Outcome State Fault Refusal :=
  issued s fun i => s.bitwise i .notB x fun a _ => ~~~a

/-- A shift's count: operand b's low 32 bits, unsigned (R73). -/
def shiftCount (b : DWord) : Nat := b.toNat % 2 ^ 32

/-- a << n in w bits (R73). -/
def shlBits (w n : Nat) (a : DWord) : DWord := if w ≤ n then 0 else lowBits w (a.toNat * 2 ^ n)

/-- a >> n in w bits, zeros or the sign moved in (R73). -/
def shrBits (w n : Nat) (a : DWord) : DWord := if w ≤ n then 0 else BitVec.ofNat 64 (a.toNat % 2 ^ w / 2 ^ n)
def sarBits (w n : Nat) (a : DWord) : DWord := lowBits w ((numOf true w a).fdiv (2 ^ min n w))

/-- a rotated left by n mod w in w bits (R73). -/
def rotBits (w n : Nat) (a : DWord) : DWord :=
  let k := n % w
  let v := a.toNat % 2 ^ w
  lowBits w (v * 2 ^ k + v / 2 ^ (w - k))

/-- shl (R73). -/
def execShl (x : Args) (s : State) : Outcome State Fault Refusal :=
  issued s fun i => s.laneWise i .shl x fun a b _ => (shlBits (tyBits x.ty) (shiftCount b) a, 0)

/-- shr (R73). -/
def execShr (x : Args) (s : State) : Outcome State Fault Refusal :=
  issued s fun i => s.laneWise i .shr x fun a b _ => (shrBits (tyBits x.ty) (shiftCount b) a, 0)

/-- sar (R73). -/
def execSar (x : Args) (s : State) : Outcome State Fault Refusal :=
  issued s fun i => s.laneWise i .sar x fun a b _ => (sarBits (tyBits x.ty) (shiftCount b) a, 0)

/-- rot (R73). -/
def execRot (x : Args) (s : State) : Outcome State Fault Refusal :=
  issued s fun i => s.laneWise i .rot x fun a b _ => (rotBits (tyBits x.ty) (shiftCount b) a, 0)

/-- shf (R74): bits [n + 31 : n] of b:a, n the count's low six bits. -/
def execShf (x : Args) (s : State) : Outcome State Fault Refusal :=
  issued s fun i => s.laneWise i .shf x fun a b c =>
    (lowBits 32 ((b.toNat % 2 ^ 32 * 2 ^ 32 + a.toNat % 2 ^ 32) / 2 ^ (c.toNat % 64)), 0)

/-- How many of bits [w - 1 : 0] are set. -/
def popBits : Nat → Nat → Nat
  | 0, _ => 0
  | w + 1, v => v % 2 + popBits w (v / 2)

/-- Trailing zeros of a w-bit number; w for zero. -/
def ctzBits : Nat → Nat → Nat
  | 0, _ => 0
  | w + 1, v => if v % 2 = 1 then 0 else 1 + ctzBits w (v / 2)

/-- The w bits of a number in reverse order. -/
def revBits : Nat → Nat → Nat
  | 0, _ => 0
  | w + 1, v => v % 2 * 2 ^ w + revBits w (v / 2)

/-- popc (R75). -/
def execPopc (x : Args) (s : State) : Outcome State Fault Refusal :=
  issued s fun i => s.laneWise i .popc x fun a _ _ => (BitVec.ofNat 64 (popBits (tyBits x.ty) a.toNat), 0)

/-- clz (R75): the width for zero. -/
def execClz (x : Args) (s : State) : Outcome State Fault Refusal :=
  issued s fun i => s.laneWise i .clz x fun a _ _ =>
    (BitVec.ofNat 64 (ctzBits (tyBits x.ty) (revBits (tyBits x.ty) a.toNat)), 0)

/-- ctz (R75): the width for zero. -/
def execCtz (x : Args) (s : State) : Outcome State Fault Refusal :=
  issued s fun i => s.laneWise i .ctz x fun a _ _ => (BitVec.ofNat 64 (ctzBits (tyBits x.ty) a.toNat), 0)

/-- brev (R75). -/
def execBrev (x : Args) (s : State) : Outcome State Fault Refusal :=
  issued s fun i => s.laneWise i .brev x fun a _ _ => (BitVec.ofNat 64 (revBits (tyBits x.ty) a.toNat), 0)

/-- The field of a bext or bins control: pos and len, a len above w being w (R76). -/
def fieldOf (w : Nat) (b : DWord) : Nat × Nat := (b.toNat % 256, min (b.toNat / 256 % 256) w)

/-- bext in w bits (R76): the operand is taken as extended without end. -/
def bextBits (sg : Bool) (w : Nat) (a b : DWord) : DWord :=
  let f := fieldOf w b
  if f.2 = 0 then 0
  else
    let v := (numOf sg w a).fdiv (2 ^ f.1) % 2 ^ f.2
    lowBits w (if sg ∧ 2 ^ (f.2 - 1) ≤ v then v - 2 ^ f.2 else v)

/-- bins in w bits (R76). -/
def binsBits (w : Nat) (a b c : DWord) : DWord :=
  let f := fieldOf w b
  let m := (2 ^ f.2 - 1) * 2 ^ f.1 % 2 ^ w
  let m64 : DWord := BitVec.ofNat 64 m
  (a &&& ~~~m64) ||| (lowBits w (c.toNat * 2 ^ f.1) &&& m64)

/-- bext (R76). -/
def execBext (x : Args) (s : State) : Outcome State Fault Refusal :=
  issued s fun i => s.laneWise i .bext x fun a b _ => (bextBits (tySigned x.ty) (tyBits x.ty) a b, 0)

/-- bins (R76). -/
def execBins (x : Args) (s : State) : Outcome State Fault Refusal :=
  issued s fun i => s.laneWise i .bins x fun a b c => (binsBits (tyBits x.ty) a b c, 0)

/-! ### Compare, select, move, address -/

/-- The condition of cmp on two numbers: 0 eq, 1 ne, 2 lt, 3 le, 4 gt, 5 ge (R77). -/
def cmpHolds (sub : BitVec 4) (a b : Int) : Bool :=
  if sub = 0 then decide (a = b) else if sub = 1 then decide (a ≠ b) else if sub = 2 then decide (a < b)
  else if sub = 3 then decide (a ≤ b) else if sub = 4 then decide (b < a) else decide (b ≤ a)

/-- 1 or 0. -/
def bit (b : Bool) : DWord := if b then 1 else 0

/-- cmp (R77). -/
def execCmp (x : Args) (s : State) : Outcome State Fault Refusal :=
  issued s fun i => s.laneWise i .cmp x fun a b _ =>
    (bit (cmpHolds x.sub (numOf (tySigned x.ty) (tyBits x.ty) a) (numOf (tySigned x.ty) (tyBits x.ty) b)), 0)

/-- sel (R78): the label counts both a and b. -/
def execSel (x : Args) (s : State) : Outcome State Fault Refusal :=
  issued s fun i => s.laneWise i .sel x fun a b c => (if c = 1 then a else b, 0)

/-- mov (R79). -/
def execMov (x : Args) (s : State) : Outcome State Fault Refusal :=
  issued s fun i => s.laneWise i .mov x fun a _ _ => (a, 0)

/-- movi (R79). -/
def execMovi (x : Args) (s : State) : Outcome State Fault Refusal :=
  issued s fun i => s.laneWise i .movi x fun a _ _ => (a, 0)

/-- lea (R80). -/
def execLea (x : Args) (s : State) : Outcome State Fault Refusal :=
  issued s fun i => s.laneWise i .lea x fun a b _ =>
    let k : Int := if x.ty = .b64 then b.toNat else numOf (tySigned x.ty) 32 b
    (lowBits 64 (a.toNat + k * 2 ^ x.mods.toNat + x.off.toInt), 0)

/-- The sum of products of the n elements of w bits from element e on (R81). -/
def dotBits (sg : Bool) (w : Nat) (a b : DWord) : Nat → Nat → Int
  | 0, _ => 0
  | n + 1, e => numOf sg w (elemAt w e a) * numOf sg w (elemAt w e b) + dotBits sg w a b n (e + 1)

/-- dp4 (R81). -/
def execDp4 (x : Args) (s : State) : Outcome State Fault Refusal :=
  issued s fun i => s.laneWise i .dp4 x fun a b c =>
    let sg := tySigned x.ty
    let w := tyBits x.ty
    narrow (if sg then .s32 else .n32) x.sat (numOf sg 32 c + dotBits sg w a b (32 / w) 0)

/-- A number converted to a type and extended to 32 bits where it is narrower (R82). -/
def cvtBits (dst : Ty) (sat : Bool) (v : Int) : DWord × Word :=
  let r := narrow dst sat v
  let w := tyBits dst
  if w < 32 then (lowBits 32 (numOf (tySigned dst) w r.1), r.2) else r

/-- cvt (R82). -/
def execCvt (x : Args) (s : State) : Outcome State Fault Refusal :=
  issued s fun i => s.laneWise i .cvt x fun a _ _ => cvtBits x.ty x.sat (numOf (tySigned x.src) (tyBits x.src) a)

/-- Byte k of perm's result (R84). -/
def permByte (q c k : Nat) : Nat :=
  let sk := c / 16 ^ k % 16
  if 8 ≤ sk then 0 else q / 256 ^ sk % 256

/-- perm (R84). -/
def execPerm (x : Args) (s : State) : Outcome State Fault Refusal :=
  issued s fun i => s.laneWise i .perm x fun a b c =>
    let q := b.toNat % 2 ^ 32 * 2 ^ 32 + a.toNat % 2 ^ 32
    (BitVec.ofNat 64 (permByte q c.toNat 0 + 256 * permByte q c.toNat 1 + 65536 * permByte q c.toNat 2
      + 16777216 * permByte q c.toNat 3), 0)

/-- Byte k of lut16's result from its 16-byte table (R85). -/
def lutByte (tab a k : Nat) : Nat := tab / 256 ^ (a / 256 ^ k % 16) % 256

/-- lut16 (R85): the table is four scalars from operand b on; the label counts all four. -/
def execLut16 (x : Args) (s : State) : Outcome State Fault Refusal :=
  issued s fun i =>
    let n := match x.b with | .s n => n.toNat | _ => 0
    let t := [0, 1, 2, 3].map (fun j => i.bank.read (n + j) false)
    let tab := t.foldr (fun v k => v.val.toNat + 2 ^ 32 * k) 0
    s.compute i .lut16 x ((i.lanes x).map (fun l =>
      let a := i.operand s x.a false l
      { lane := l,
        val := BitVec.ofNat 64 (lutByte tab a.val.toNat 0 + 256 * lutByte tab a.val.toNat 1
          + 65536 * lutByte tab a.val.toNat 2 + 16777216 * lutByte tab a.val.toNat 3),
        lab := i.label (a :: t) }))

/-! ### Reading other lanes (R83) -/

/-- A cross-lane instruction: it waits where a source lane outside G still has a write pending, else computes. `src`
gives the source lanes of a lane. -/
def State.crossLane (s : State) (i : Issuer) (o : Op) (x : Args) (src : Nat → List Nat) (f : Nat → Res) : State :=
  let G := i.lanes x
  if i.mustWait x.a (o.aWide x.ty x.src x.mods) G (G.flatMap src) then s.stay i i.g.wait
  else s.compute i o x (G.map f)

/-- The lane that a lane number of an operand names in a lane's own terms: in a protected launch number k is pair k, of
which a primary reads the primary and a shadow the shadow (R229). -/
def Issuer.laneFrom (i : Issuer) (l k : Nat) : Nat := if i.protd then 2 * k + l % 2 else k

/-- lprev (R86): lane 0 takes operand b. DESIGN CHOICE (log 48): only lanes of G are written, lane 0 among them. -/
def execLprev (x : Args) (s : State) : Outcome State Fault Refusal :=
  issued s fun i =>
    let w := x.ty.wide
    let src := fun l => if i.launch.laneNo l = 0 then [] else [i.laneFrom l (i.launch.laneNo l - 1)]
    s.crossLane i .lprev x src (fun l =>
      let v := match src l with
        | m :: _ => i.across s x.a w m
        | [] => i.operand s x.b w l
      { lane := l, val := v.val, lab := i.label [v] })

/-- The lane shfl reads (R87): S the segment's size, n the lane, k the selector. -/
def shflLane (sub : BitVec 4) (S n k : Nat) : Nat :=
  let base := n - n % S
  let j := n % S
  if sub = 0 then base + k % S
  else if sub = 1 then (if j < k then n else base + j - k)
  else if sub = 2 then (if S ≤ j + k then n else base + j + k)
  else base + (j ^^^ (k % S))

/-- shfl (R87). In a protected launch lane selectors count pairs (R229): a segment spans half its lanes in pairs. -/
def execShfl (x : Args) (s : State) : Outcome State Fault Refusal :=
  issued s fun i =>
    let w := x.ty.wide
    let S := (if i.protd then 32 else 64) / 2 ^ x.mods.toNat
    let src := fun l =>
      let k := (i.operand s x.b false l).val.toNat
      i.laneFrom l (shflLane x.sub (max S 1) (i.launch.laneNo l) k)
    s.crossLane i .shfl x (fun l => [src l]) (fun l =>
      let v := i.across s x.a w (src l)
      { lane := l, val := v.val, lab := i.label [v, i.operand s x.b false l] })

/-- The mask of some lanes, one bit a pair in a protected launch (R88, R229). -/
def Issuer.pairMask (i : Issuer) (ls : List Nat) : Mask := maskOf (ls.map i.launch.laneNo)

/-- The lanes of G that a lane's results are drawn from: in a protected launch a primary's from primaries, a shadow's from
shadows (R229). -/
def Issuer.sideOf (i : Issuer) (G : List Nat) (l : Nat) : List Nat :=
  G.filter (fun m => !i.protd || decide (m % 2 = l % 2))

/-- vote (R88). -/
def execVote (x : Args) (s : State) : Outcome State Fault Refusal :=
  issued s fun i =>
    let G := i.lanes x
    s.compute i .vote x (G.map (fun l =>
      let S := i.sideOf G l
      let yes := S.filter (fun m => decide ((i.operand s x.a false m).val = 1))
      let v : DWord := if x.sub = 0 then bit (!yes.isEmpty) else if x.sub = 1 then bit (decide (yes.length = S.length))
      else i.pairMask yes
      { lane := l, val := v, lab := i.bank.floor }))

/-- bcast (R89). DESIGN CHOICE (log 48): a special register in operand b is read in each lane for itself, and in a protected
launch the selector counts pairs modulo 32 (R229). -/
def execBcast (x : Args) (s : State) : Outcome State Fault Refusal :=
  issued s fun i =>
    let w := x.ty.wide
    let src := fun l =>
      let b := (i.operand s x.b false l).val.toNat
      i.laneFrom l (if i.protd then b % 32 else b % 64)
    s.crossLane i .bcast x (fun l => [src l]) (fun l =>
      let v := i.across s x.a w (src l)
      { lane := l, val := v.val, lab := i.label [v, i.operand s x.b false l] })

/-- The operation of scan and redux (R90), on values of a type. -/
def scanOp (sub : BitVec 4) (t : Ty) (sat : Bool) (a b : DWord) : DWord × Word :=
  let w := tyBits t
  let x := numOf (tySigned t) w a
  let y := numOf (tySigned t) w b
  if sub = 0 then narrow t sat (x + y)
  else if sub = 1 then (lowBits w (min x y), 0)
  else if sub = 2 then (lowBits w (max x y), 0)
  else if sub = 3 then (a &&& b, 0)
  else if sub = 4 then (a ||| b, 0)
  else (a ^^^ b, 0)

/-- Its identity (R90). -/
def scanUnit (sub : BitVec 4) (t : Ty) : DWord :=
  let w := tyBits t
  if sub = 1 then lowBits w (tyHi t) else if sub = 2 then lowBits w (tyLo t) else if sub = 3 then lowBits w (-1) else 0

/-- The running combination over lanes in ascending order: for each, the value and label before it and with it (R90). -/
def scanRun (f : DWord → DWord → DWord × Word) : Val → List (Nat × Val) → List (Nat × Val × Val × Word)
  | _, [] => []
  | acc, (l, v) :: t =>
    let r := f acc.val v.val
    let now : Val := { val := r.1, lab := lmax acc.lab v.lab }
    (l, acc, now, r.2) :: scanRun f now t

/-- The values a combination runs over: those of the lanes of the primary's or of the shadow's side (R229). -/
def Issuer.column (i : Issuer) (s : State) (x : Args) (w : Bool) (side : Nat) : List (Nat × Val) :=
  ((i.lanes x).filter (fun l => !i.protd || decide (l % 2 = side))).map (fun l => (l, i.operand s x.a w l))

/-- scan (R90). -/
def execScan (x : Args) (s : State) : Outcome State Fault Refusal :=
  issued s fun i =>
    let w := x.ty.wide
    let run := fun side => scanRun (scanOp x.sub x.ty x.sat) { val := scanUnit x.sub x.ty } (i.column s x w side)
    let all := run 0 ++ (if i.protd then run 1 else [])
    s.compute i .scan x ((i.lanes x).filterMap (fun l =>
      (all.find? (fun r => decide (r.1 = l))).map (fun r =>
        let v := if flag29 x.mods then r.2.1 else r.2.2.1
        { lane := l, val := v.val, lab := i.label [v], bits := r.2.2.2 })))

/-- redux (R90). -/
def execRedux (x : Args) (s : State) : Outcome State Fault Refusal :=
  issued s fun i =>
    let w := x.ty.wide
    let run := fun side => scanRun (scanOp x.sub x.ty x.sat) { val := scanUnit x.sub x.ty } (i.column s x w side)
    s.compute i .redux x ((i.lanes x).map (fun l =>
      let r := run (if i.protd then l % 2 else 0)
      let v := (r.getLast?.map (·.2.2.1)).getD {}
      { lane := l, val := v.val, lab := i.label [v], bits := r.foldl (fun b q => b ||| q.2.2.2) 0 }))

/-- match (R91): the label counts a in every lane of G. -/
def execMatchL (x : Args) (s : State) : Outcome State Fault Refusal :=
  issued s fun i =>
    let w := x.ty.wide
    let G := i.lanes x
    let vs := G.map (fun l => i.operand s x.a w l)
    s.compute i .matchL x (G.map (fun l =>
      let a := (i.operand s x.a w l).val
      { lane := l, lab := i.label vs,
        val := i.pairMask ((i.sideOf G l).filter (fun m => decide ((i.operand s x.a w m).val = a))) }))

end Sys2Proof.Machine
end

