-- ==== Sys2Proof/Machine/Control.lean ====
section
/-! DEFINITION. Control flow, predicate logic, fray queries, traps by instruction: major opcodes 0x50 to 0x5C (R92 to
R100, R115, R116). -/

namespace Sys2Proof.Machine

open Host (Outcome)

/-! ### Shadow lanes (R229, R230) -/

/-- The other lane of a pair (R229). -/
def twin (l : Nat) : Nat := if l % 2 = 0 then l + 1 else l - 1

/-- The lanes of the pairs whose two lanes differ in what is compared, both of them where both are in the group; none outside a
protected launch (R230). `rest` is what counts for a lane of the group that does not execute. DEDUCED (log 29): one that does
nothing at all differs from one that acts. -/
def Issuer.mismatched {α : Type} [DecidableEq α] (i : Issuer) (G : List Nat) (f : Nat → α) (rest : Option α := none) :
    List Nat :=
  let does := fun l => if G.contains l then some (f l) else if i.g.lanes.getLsbD l then rest else none
  if i.protd then
    (lanesOf i.g.lanes).filter (fun l => (G.contains l || G.contains (twin l)) && decide (does l ≠ does (twin l)))
  else []

/-- The faults of mismatched lanes. -/
def shadowFaults (addr : DWord) (ls : List Nat) : List LaneFault := ls.map (fun l => ⟨l, cShadow, addr⟩)

/-! ### Transfers (R31, R94) -/

/-- What the targets of some lanes are, each header read in turn; the state carries the requests sent to holders
outside. -/
def State.checkTargets (s : State) (i : Issuer) : List (Nat × DWord) → State × List (Nat × DWord × Target)
  | [] => (s, [])
  | (l, t) :: rest =>
    let r := s.target (.fetch i.y i.g.id) i.launch.fn i.ceil i.yarn.elig t
    let s1 := match r with | .wait s' => s' | _ => s
    let q := State.checkTargets s1 i rest
    (q.1, (l, t, r) :: q.2)

/-- Lanes of a group stand at new headers: those of one target form a group, and the rest of the group falls through to
the next header (R94, R101). -/
def Yarn.moveTo (y : Yarn) (g : Group) (t : Nat) : List (Nat × BitVec 57) → Yarn
  | [] =>
    match y.group g.id with
    | some r => if r.lanes = 0 then y else y.arriveAt r r.clause.next t
    | none => y
  | (l, pc) :: rest =>
    let m : Mask := 1#64 <<< l
    let y1 : Yarn := { y with
      groups := y.groups.map (fun (x : Group) => if x.id = g.id then { x with lanes := x.lanes &&& ~~~m } else x)
        ++ [{ id := y.newGroup, lanes := m, fray := g.fray, pc := pc, arrival := t }]
      nextGroup := y.newGroup + 1 }
    (y1.arriveAt { id := y.newGroup, lanes := m, fray := g.fray, pc := pc, arrival := t } pc t).moveTo g t rest

/-- Whether a window base moved by a step leaves the strand's allocation or its alignment (R95). -/
def badWindow (alloc : Nat) (w : Int) : Bool := decide (w % 256 ≠ 0 ∨ w < 0 ∨ (alloc : Int) < w + 256)

/-- A lane's window base after a step. -/
def Lane.window (v : Lane) (d : Int) : Int := v.wbase.toNat + d

/-- Some lanes' window bases moved. -/
def Yarn.moveWindows (y : Yarn) (d : Nat → Int) (ls : List Nat) : Yarn :=
  y.mapLanes (fun l v => { v with wbase := BitVec.ofInt 19 (v.window (d l)) }) ls

/-- A transfer's lanes once every target is known, none of them bad (R94 to R96): lanes whose target cannot be read leave as
frays; then the window check of the others traps EXTENT_BOUNDS, or they take the transfer's own effect, move their windows
by `step`, and go to their targets. DESIGN CHOICE (log 53): where both happen the frays leave first and the trap is that of the
others, which it leaves unchanged; R95 does not say which comes first. -/
def State.takeTargets (s : State) (i : Issuer) (G : List Nat) (fs : List LaneFault) (good : List (Nat × DWord))
    (step : Option (Nat → Int)) (own : Yarn → List Nat → Yarn) : State :=
  let ls := good.map Prod.fst
  let out := match step with
    | none => false
    | some d => ls.any (fun l => badWindow i.launch.alloc ((i.yarn.lane l).window (d l)))
  let moved := match step with
    | none => own i.yarn ls
    | some d => (own i.yarn ls).moveWindows d ls
  let go := fun (v : Yarn) => v.moveTo i.g (i.cycles s) (good.map (fun q => (q.1, q.2.setWidth 57)))
  if fs = [] then
    if out then s.trap i G cExtentBounds s.anyArg .here
    else (s.dropBufs (.fetch i.y i.g.id)).settleYarn i.y (go moved)
  else if i.bank.handler then s.endFor i (causesOf fs)
  else if (s.freeEntries i.strand.core).length < (causesOf fs).length then s.trap i G cFrayFull s.anyArg .here
  else
    match s.splitWaits i i.g.idx (causesOf fs) with
    | some s' => s'
    | none =>
      if out then
        match s.handlerAt (.fetch i.y i.g.id) i.launch i.yarn.elig with
        | .wait s' => s'
        | _ =>
          let s1 := s.splitOff i i.g.idx fs i.yarn id
          let v := (Store.find i.y s1.yarns).getD i.yarn
          s1.trap { i with yarn := v, g := (v.group i.g.id).getD i.g } ls cExtentBounds s.anyArg .here
      else s.splitOff i i.g.idx fs moved go

/-- A transfer (R94 to R96). `strict` is set where bits [63:57] of a target are checked before any target is read: a bad
target traps with no lane moved (R31). In a protected launch the lanes of a pair whose targets differ are a lane-level
fault (R230); a lane that does not execute goes to the next header, as a conditional transfer has it (R94). -/
def State.transfer (s : State) (i : Issuer) (tgts : List (Nat × DWord)) (strict : Bool) (step : Option (Nat → Int))
    (own : Yarn → List Nat → Yarn) : State :=
  let G := tgts.map Prod.fst
  match tgts.find? (fun t => strict && decide (bitsAt t.2 57 7 ≠ 0)) with
  | some t => s.trap i G cBranchMidclause t.2 .here
  | none =>
    let mm := i.mismatched G (fun l => (tgts.find? (fun t => decide (t.1 = l))).map Prod.snd)
      (some (some (i.g.clause.next.setWidth 64)))
    let r := s.checkTargets i (tgts.filter (fun t => !mm.contains t.1))
    if r.2.any (fun q => match q.2.2 with | .wait _ => true | _ => false) then r.1
    else
      match r.2.find? (fun q => match q.2.2 with | .bad => true | _ => false) with
      | some q => s.trap i G cBranchMidclause q.2.1 .here
      | none =>
        let fs := r.2.filterMap (fun q => match q.2.2 with
          | .fault c _ => some (LaneFault.mk q.1 c q.2.1)
          | _ => none) ++ shadowFaults s.anyArg mm
        let good := r.2.filterMap (fun q => match q.2.2 with | .ok => some (q.1, q.2.1) | _ => none)
        s.takeTargets i G fs good step own

/-- A target given as an offset in 8-byte units from the clause's header (R92). -/
def Issuer.offsetTarget (i : Issuer) (off : BitVec 24) : DWord :=
  i.g.pc.setWidth 64 + 8 * off.signExtend 64

/-- bra (R94). -/
def execBra (x : Args) (s : State) : Outcome State Fault Refusal :=
  issued s fun i => s.transfer i ((i.lanes x).map (fun l => (l, i.offsetTarget x.off))) false none (fun y _ => y)

/-- bra with a condition (R94): lanes where it does not hold go to the next header. -/
def execBraConditional (x : Args) (s : State) : Outcome State Fault Refusal :=
  issued s fun i => s.transfer i
    ((i.lanes x).map (fun l =>
      let c := decide ((i.operand s x.a false l).val = 1) != flag29 x.mods
      (l, if c then i.offsetTarget x.off else i.g.clause.next.setWidth 64))) false none (fun y _ => y)

/-- Last-read registers of the lanes that execute a transfer die. -/
def Issuer.killIn (i : Issuer) (o : Op) (x : Args) (y : Yarn) (ls : List Nat) : Yarn :=
  y.mapLanes (fun _ v => v.kill (i.killed o x)) ls

/-- brx (R94). -/
def execBrx (x : Args) (s : State) : Outcome State Fault Refusal :=
  issued s fun i => s.transfer i ((i.lanes x).map (fun l => (l, (i.operand s x.a true l).val))) true none
    (i.killIn .brx x)

/-- call (R95): the link is the next header, with the floor's label. -/
def execCall (x : Args) (s : State) : Outcome State Fault Refusal :=
  issued s fun i =>
    let G := i.lanes x
    let link : DWord := i.g.clause.next.setWidth 64
    let step := if flag29 x.mods then some (fun l => ((i.operand s x.a false l).val.setWidth 32).toInt) else none
    s.transfer i (G.map (fun l => (l, i.offsetTarget x.off))) true step (fun y ls =>
      (i.killIn .call x y ls).writeDest i.g.fray x.dst true
        (ls.map (fun l => { lane := l, val := link, lab := i.bank.floor })))

/-- ret (R96). -/
def execRet (x : Args) (s : State) : Outcome State Fault Refusal :=
  issued s fun i =>
    let G := i.lanes x
    let step := if flag29 x.mods then some (fun l => -((i.operand s x.b false l).val.setWidth 32).toInt) else none
    s.transfer i (G.map (fun l => (l, (i.operand s x.a true l).val))) true step (i.killIn .ret x)

/-- exit (R97). -/
def execExitF (x : Args) (s : State) : Outcome State Fault Refusal :=
  issued s fun i =>
    let y := i.yarn.retireLanes (i.lanes x) i.g.pc i.g.idx
    s.settleYarn i.y (y.goOn i.g.id (i.cycles s))

/-- nop (R98). -/
def execNop (_x : Args) (s : State) : Outcome State Fault Refusal := issued s fun i => s.done i i.yarn

/-- yield (R98): no architectural state changes; the quadrant is to consider every other ready yarn before the group's yarn,
or its fray, starts its next clause. -/
def execYieldI (_x : Args) (s : State) : Outcome State Fault Refusal :=
  issued s fun i => s.done i (i.yarn.setTurns i.g.fray { i.yarn.turnsOf i.g.fray with yielded := some s.now })

/-- A trap raised by an instruction on G; with no lane in G the instruction acts on no fibre (R28). -/
def State.trapG (s : State) (i : Issuer) (G : List Nat) (cause : Byte) (arg : DWord) (r : Resume) : State :=
  if G = [] then s.done i i.yarn else s.trap i G cause arg r

/-- trap (R115): TRAP_INSTR with operand a as XARG. DESIGN CHOICE (log 48): where a reads differently in each lane, as %lane
does, the lowest lane of G gives it. -/
def execTrapI (x : Args) (s : State) : Outcome State Fault Refusal :=
  issued s fun i =>
    let G := i.lanes x
    s.trapG i G cTrapInstr (i.first s G x.a false).val .after

/-- brk (R115): where fid is attached to the core and the launch allows debug, the yarn stops for it without a trap. -/
def execBrk (x : Args) (s : State) : Outcome State Fault Refusal :=
  issued s fun i =>
    let G := i.lanes x
    if G ≠ [] ∧ s.attached i.launch.fn ∧ i.launch.debug then s.done i { i.yarn with stopped := true }
    else s.trapG i G cBreakpoint s.anyArg .after

/-- The lanes of G leave a handler for a resume point: at its header, or at an instruction of its clause (R116). DESIGN
CHOICE (log 14): where G is not all of T, the lanes of G alone return, the handler bit being clear for all, and the rest of T
goes on as an ordinary group. -/
def Yarn.returnTo (y : Yarn) (g : Group) (G : List Nat) (pc : BitVec 57) (idx t : Nat) : Yarn :=
  let m := maskOf G
  let rest := g.lanes &&& ~~~m
  let r : Group := { id := y.newGroup, lanes := m, fray := g.fray, pc := pc, arrival := t,
                     phase := if idx = 8 then .header else .resume (BitVec.ofNat 4 idx) }
  let y1 : Yarn := { y with groups := y.groups ++ [r], nextGroup := y.newGroup + 1 }
  let y2 := if idx = 8 then y1.arriveAt r pc t else y1
  let y3 := y2.setGroup { g with lanes := rest }
  if rest = 0 then y3.dropGroup g.id else y3.advance { g with lanes := rest } t

/-- tret (R62, R116). -/
def execTret (x : Args) (s : State) : Outcome State Fault Refusal :=
  issued s fun i =>
    let G := i.lanes x
    let b := i.bank
    if G = [] then s.done i i.yarn
    else if !b.handler then s.trap i G cTretOutside s.anyArg .here
    else if sswReserved b.ssw then s.trap i G cSswReserved s.anyArg .here
    else
      let pc : DWord := b.xpc &&& 0x01FFFFFFFFFFFFFF
      let idx := bitsAt b.xindex 0 4
      let who := Who.fetch i.y i.g.id
      match s.target who i.launch.fn i.ceil i.yarn.elig pc with
      | .wait s' => s'
      | .fault c _ => s.terminate i.strand.launch c
      | .bad => s.trap i G cBranchMidclause pc .here
      | .ok =>
        let w0 := match s.codeWord who i.launch.fn i.ceil i.yarn.elig pc.toNat with | .ok w => w | _ => 0
        if idx ≠ 8 ∧ headerCount w0 ≤ idx then s.trap i G cBranchMidclause pc .here
        else
          let y1 := i.yarn.setBank i.g.fray b.leave
          let y2 := match i.g.fray with
            | some e => { y1 with frays := Store.modify e (fun f => { f with state := .running }) y1.frays }
            | none => y1
          (s.dropBufs who).settleYarn i.y (y2.returnTo i.g G (pc.setWidth 57) idx (i.cycles s))

/-! ### Predicates and frays -/

/-- An instruction on predicates in each lane (R99). -/
def State.predOp (s : State) (i : Issuer) (o : Op) (x : Args) (f : Bool → Bool → Bool) : State :=
  s.laneWise i o x fun a b _ => (bit (f (decide (a = 1)) (decide (b = 1))), 0)

/-- pand (R99). -/
def execPand (x : Args) (s : State) : Outcome State Fault Refusal := issued s fun i => s.predOp i .pand x (· && ·)

/-- por (R99). -/
def execPor (x : Args) (s : State) : Outcome State Fault Refusal := issued s fun i => s.predOp i .por x (· || ·)

/-- pxor (R99). -/
def execPxor (x : Args) (s : State) : Outcome State Fault Refusal := issued s fun i => s.predOp i .pxor x (fun a b => a != b)

/-- pnot (R99). -/
def execPnot (x : Args) (s : State) : Outcome State Fault Refusal := issued s fun i => s.predOp i .pnot x (fun a _ => !a)

/-- pmov (R99). -/
def execPmov (x : Args) (s : State) : Outcome State Fault Refusal := issued s fun i => s.predOp i .pmov x (fun a _ => a)

/-- A fray's state as frayq.info codes it (R100). -/
def FrayState.code : FrayState → Nat
  | .parked => 0 | .running => 1 | .handler => 2

/-- What frayq answers for a selector (R100). -/
def Issuer.frayAnswer (i : Issuer) (info : Bool) (sel : Nat) : DWord :=
  let fr := i.yarn.frays
  if sel < 32 then
    match Store.find sel fr with
    | none => 0
    | some f =>
      if info then BitVec.ofNat 64 (pack [(0, sel), (8, f.cause.toNat), (16, f.state.code), (24, f.use.toNat)])
      else i.pairMask (lanesOf f.lanes)
  else if sel = 64 then
    if info then (maskOf ((List.range 32).filter (fun k => (Store.find k fr).isSome)))
    else i.pairMask ((List.range 64).filter (fun l => (i.yarn.lane l).parked))
  else 0

/-- frayq (R100). DESIGN CHOICE (log 48): a selector that reads differently in each lane is the lowest lane's. -/
def execFrayq (x : Args) (s : State) : Outcome State Fault Refusal :=
  issued s fun i =>
    let G := i.lanes x
    let v := i.frayAnswer (flag29 x.mods) (i.first s G x.a false).val.toNat
    s.compute i .frayq x (G.map (fun l => { lane := l, val := v, lab := i.bank.floor }))

end Sys2Proof.Machine
end

