-- ==== Sys2Proof/Machine/Latency.lean ====
section
/-! DEFINITION. Results that arrive later (R26), the pairs of a protected launch (R229), and an instruction that acts once
for its group. -/

namespace Sys2Proof.Machine

/-- An instruction that acts once for G: on no fibre it acts not at all (R28). -/
def State.once (s : State) (i : Issuer) (x : Args) (f : List Nat → State) : State :=
  match i.lanes x with
  | [] => s.done i i.yarn
  | l :: t => f (l :: t)

/-- The instruction is done, its last-read registers dead. -/
def State.doneKill (s : State) (i : Issuer) (o : Op) (x : Args) : State :=
  let j := s.again i
  s.done j (j.killIn o x j.yarn (j.lanes x))

/-! ### Pairs of lanes (R229) -/

/-- The lane that makes a lane's access: the primary of its pair, where it executes too. -/
def Issuer.lead (i : Issuer) (G : List Nat) (l : Nat) : Nat :=
  if i.protd && decide (l % 2 = 1) && G.contains (l - 1) then l - 1 else l

/-- The lanes of G that make accesses: one for each pair in a protected launch. -/
def Issuer.acting (i : Issuer) (G : List Nat) : List Nat := G.filter (fun l => decide (i.lead G l = l))

/-- The lanes that take what a lane's access gives. -/
def Issuer.led (i : Issuer) (G : List Nat) (l : Nat) : List Nat := G.filter (fun m => decide (i.lead G m = l))

/-- Results given to every lane they are for. -/
def Issuer.spread (i : Issuer) (G : List Nat) (rs : List Res) : List Res :=
  G.filterMap (fun m => (rs.find? (fun r => decide (r.lane = i.lead G m))).map (fun r => { r with lane := m }))

/-- Faults met by every lane they are for. -/
def Issuer.spreadFaults (i : Issuer) (G : List Nat) (fs : List LaneFault) : List LaneFault :=
  G.filterMap (fun m => (fs.find? (fun f => decide (f.lane = i.lead G m))).map (fun f => { f with lane := m }))

/-! ### Scratchpad accesses that come later (R177, R224) -/

/-- The strand and the first byte of the 65,536 bytes of scratchpad that an accumulator instruction still has to read or
write. -/
def PendAct.pad : PendAct → Option (Nat × Nat)
  | .accOut _ x o => some (x, o)
  | .accIn _ x o _ => some (x, o)
  | _ => Option.none

/-- Whether scratchpad accesses issued by a yarn are still to be performed: every later access to scratchpad waits for them, so
that the one order of all accesses keeps each fibre's program order (R138, R144, R150, R177, R178, R181). -/
def Yarn.padPending (y : Yarn) : Bool := y.pend.any (fun p => p.act.pad.isSome)

/-! ### Results that arrive later -/

/-- What a long-latency instruction still has to write: each lane's registers, or the scalar of the lowest lane; nothing
where no fibre executes it (R26, R54). -/
def Issuer.pendOf (i : Issuer) (d : Dest) (wide : Bool) (rs : List Res) : List Pend :=
  let regs := fun (n : Nat) (r : Res) =>
    (n, (⟨r.val.setWidth 32, r.lab⟩ : RegVal)) :: (if wide then [(n + 1, ⟨r.val.extractLsb' 32 32, r.lab⟩)] else [])
  match d, rs with
  | .v n, _ :: _ =>
    [{ flag := coverFlag i.g.clause i.g.idx, fray := i.g.fray,
       writes := rs.flatMap (fun r => (regs n.toNat r).map (fun p => (r.lane, p.1, p.2))) }]
  | .s n, r :: _ => [{ flag := coverFlag i.g.clause i.g.idx, fray := i.g.fray, swrites := regs n.toNat r }]
  | _, _ => []

/-- A yarn with more to be written. -/
def Yarn.push (y : Yarn) (ps : List Pend) : Yarn := { y with pend := y.pend ++ ps }

end Sys2Proof.Machine
end

