-- ==== Sys2Proof/Machine/Log.lean ====
section
/-! DEFINITION. The access log (R359, R360) and the egress meter's admission (R356, R357). -/

namespace Sys2Proof.Machine

/-! ### The access log -/

/-- Entries the ring holds (R359). -/
def logRoom : Nat := 2 ^ 20

/-- Whether the ring has no entry that may be overwritten (R360). -/
def State.logFull (s : State) : Bool := decide (logRoom ≤ s.logSeq.toNat - s.logAcked.toNat)

/-- Whether the log has no room for n more entries (R360). -/
def State.logShort (s : State) (n : Nat) : Bool := decide (logRoom < s.logSeq.toNat - s.logAcked.toNat + n)

/-- The 128 bytes of an entry (R359). -/
def LogEntry.bytes (e : LogEntry) : List Byte :=
  leBytes 64 e.detail.toNat ++ leBytes 4 e.launch.toNat ++ leBytes 2 0 ++ [e.fn, e.kind] ++ leBytes 8 e.seq.toNat
    ++ leBytes 48 e.prev.toNat

/-- The latest sequence and its entry's hash signed by ECDSA and by LMS (R359). -/
def State.signLog (s : State) : State :=
  let body := leBytes 8 (s.logSeq - 1).toNat ++ leBytes 48 s.logHead.toNat
  { s with logSigned := s.logSeq, logSig := body ++ Config.ecdsaSign body ++ Config.lmsSign body }

/-- With one entry appended, and at every 1,024th the pair signed (R359). The log keeps the entries the ring still holds, oldest
first; the host reads them through the firmware mailbox, which is given each as it is appended (R360). -/
def State.append (s : State) (kind fn : Nat) (launch : Nat) (detail : Nat) : State :=
  let e : LogEntry := { prev := s.logHead, seq := s.logSeq, kind := BitVec.ofNat 8 kind, fn := BitVec.ofNat 8 fn,
                        launch := BitVec.ofNat 32 launch, detail := BitVec.ofNat 512 detail }
  let l := s.log ++ [e]
  let s1 := { s with log := l.drop (l.length - logRoom), logHead := Config.sha384 e.bytes, logSeq := s.logSeq + 1
                     outbox := s.outbox ++ [.mailbox 0 e.bytes] }
  if (e.seq + 1).toNat % 1024 = 0 then s1.signLog else s1

/-- A meter stall: an entry of kind 0x05, or one more counted while the ring is full (R357, R360). -/
def State.logStall (s : State) (fn balance waiting : Nat) : State :=
  if s.logFull then { s with stallsHeld := s.stallsHeld + 1 }
  else s.append 0x05 fn 0 (pack [(0, balance), (64, waiting)])

/-! ### The meter -/

/-- The first wait after a refill (R357). -/
def State.stall (s : State) (fn waiting : Nat) : State :=
  let f := s.func fn
  if f.metStalled then s
  else
    (s.setFunc fn { f with metStalled := true, tele := { f.tele with stalls := f.tele.stalls + 1 } }).logStall fn
      f.metbal.toNat waiting

/-- Whether a function's meter admits n units of 32 bytes now. -/
def State.admits (s : State) (fn n : Nat) : Bool := decide (32 * n ≤ (s.func fn).metbal.toNat)

/-- With n units of 32 bytes charged (R357). -/
def State.charge (s : State) (fn n : Nat) : State :=
  let f := s.func fn
  s.setFunc fn { f with metbal := f.metbal - BitVec.ofNat 64 (32 * n) }

/-- What n units pay before they leave together: each is admitted once the balance covers it, and charged then (R357). The
answer says whether all are admitted; they stay so until `tollPaid`. -/
def State.toll (s : State) (fn : Nat) (key : Toll) (n : Nat) : State × Bool :=
  let had := ((s.tolls.find? (fun c => decide (c.1 = key))).map Prod.snd).getD 0
  let k := min (n - had) ((s.func fn).metbal.toNat / 32)
  let s1 := { s.charge fn k with tolls := (key, had + k) :: s.tolls.filter (fun c => !decide (c.1 = key)) }
  if had + k < n then (s1.stall fn (n - had - k), false) else (s1, true)

/-- With a toll forgotten: what paid it has left, or is given up. -/
def State.tollPaid (s : State) (key : Toll) : State := { s with tolls := s.tolls.filter (fun c => !decide (c.1 = key)) }

end Sys2Proof.Machine
end

