-- ==== Sys2Proof/Machine/Scratch.lean ====
section
/-! DEFINITION. Scratchpad, window, rendezvous points, stage rings and end: major opcodes 0x60 to 0x6A and 0x6C (R134 to
R150, R130). -/

namespace Sys2Proof.Machine

open Host (Outcome)

/-! ### A strand's scratchpad (R134, R137, R138) -/

def Strand.padByte (x : Strand) (o : Nat) : Byte := Store.get 0 o x.pad

/-- n bytes of a strand's scratchpad. -/
def Strand.padRead (x : Strand) (o n : Nat) : List Byte := (List.range n).map (fun k => x.padByte (o + k))

/-- Bytes put into a strand's scratchpad, nothing else of it changed. -/
def Strand.padPut (x : Strand) (o : Nat) : List Byte → Strand
  | [] => x
  | b :: t => Strand.padPut { x with pad := Store.set 0 o b x.pad } (o + 1) t

/-- One more write counted for the 64-byte block of an offset (R152). -/
def Strand.stamp (x : Strand) (o : Nat) : Strand :=
  { x with padStamp := Store.set 0 (o / 64) (Store.get 0 (o / 64) x.padStamp + 1) x.padStamp }

/-- The label of the 8-byte unit of an offset (R137). -/
def Strand.unitLabel (x : Strand) (o : Nat) : Label := Store.get 0 (o / 8) x.padLab

def Strand.setUnit (x : Strand) (o : Nat) (l : Label) : Strand := { x with padLab := Store.set 0 (o / 8) l x.padLab }

/-- A store of at most 8 aligned bytes: a whole unit takes the value's label, a narrower store raises it (R137). -/
def Strand.padStore (x : Strand) (o : Nat) (bs : List Byte) (l : Label) : Strand :=
  ((x.padPut o bs).stamp o).setUnit o (if bs.length = 8 then l else lmax (x.unitLabel o) l)

/-- The strand of a coil with a linear index, if it has not ended (R134, R140). -/
def State.inCoil (s : State) (i : Issuer) (n : Nat) : Option Nat :=
  (s.strands.find? (fun c =>
    decide (c.2.launch = i.strand.launch ∧ c.2.coil = i.strand.coil ∧ c.2.index = n ∧ c.2.ended = false))).map Prod.fst

/-- R134's first check: the strand and the offset an address names; none where it breaks the bounds. Window instructions
address the issuing strand only: DESIGN CHOICE (log 53), one whose address has the coil bit set breaks the bounds, even where it
names a strand there is. -/
def State.locate (s : State) (i : Issuer) (own : Bool) (a w : Nat) : Option (Nat × Nat) :=
  let off := a % 2 ^ 19
  let coil := decide (a / 2 ^ 24 % 2 = 1)
  let n := a / 2 ^ 20 % 16
  if a / 2 ^ 25 ≠ 0 ∨ a / 2 ^ 19 % 2 ≠ 0 ∨ (!coil ∧ n ≠ 0) ∨ (own ∧ coil) ∨ i.launch.alloc < off + w then none
  else if coil then (s.inCoil i n).map (fun x => (x, off)) else some (i.yarn.strand, off)

/-- The offset accessed under a swizzle (R44). -/
def swizzled (k off : Nat) : Nat := if k = 0 then off else off ^^^ (off / 2 ^ (k + 8) % 8 * 8)

/-- One lane's place in a scratchpad. -/
structure SpLoc where
  lane : Nat
  x : Nat
  off : Nat
  deriving DecidableEq, Repr

/-- A scratchpad instruction: the bounds on G, then each lane's alignment, then f on the lanes that make the access, in
ascending order; its results arrive later (R134, R26). `cmp` gives the data a protected pair must agree on beside the
address (R230); none for a load. It waits for an earlier acc.ld or acc.st of the yarn that is still to access scratchpad
(R177, R181). `wl` gives the label a store brings to its unit: one above the launch's ceiling is PAGE_PROT in that lane (R349).
DESIGN CHOICE (log 53): a scalar destination takes the value of the lowest lane that met no fault. -/
def State.spAccess (s : State) (i : Issuer) (o : Op) (x : Args) (own : Bool) (addr : Nat → Nat) (w : Nat)
    (cmp : Option (Nat → DWord × DWord)) (wide : Bool) (f : State → List SpLoc → State × List Res)
    (arm : Yarn → List SpLoc → Yarn := fun y _ => y) (wl : Nat → Label := fun _ => 0) : State :=
  let G := i.lanes x
  let at_ := fun l => if cmp.isSome then addr l else addr (i.lead G l)
  match G.find? (fun l => (s.locate i own (at_ l) w).isNone) with
  | some l => s.trap i G cExtentBounds (BitVec.ofNat 64 (at_ l)) .here
  | none =>
    let mm := match cmp with
      | some c => i.mismatched G (fun l => (at_ l, c l))
      | none => []
    let ok := G.filter (fun l => !mm.contains l)
    let mis := ok.filter (fun l => decide (at_ l % w ≠ 0))
    let fine := ok.filter (fun l => !mis.contains l)
    let high := fine.filter (fun l => decide (i.ceil < (wl l).toNat))
    let good := fine.filter (fun l => !high.contains l)
    let fault := fun (c : Byte) (l : Nat) => LaneFault.mk l c (BitVec.ofNat 64 (at_ l))
    let fs := shadowFaults s.anyArg mm ++ mis.map (fault cMisalign) ++ high.map (fault cPageProt)
    let locs := (i.acting good).filterMap (fun l =>
      (s.locate i own (at_ l) w).map (fun p => SpLoc.mk l p.1 (swizzled x.swz.toNat p.2)))
    if locs ≠ [] ∧ i.yarn.padPending then s
    else s.finish i G fs (fun s1 =>
      let r := f s1 locs
      (r.1, (i.killIn o x (arm i.yarn locs) good).push (i.pendOf x.dst wide (i.spread good r.2))))

/-- A scratchpad address of a lane: base and offset as a 32-bit value (R44, R134). -/
def Issuer.spAddr (i : Issuer) (s : State) (x : Args) (win : Bool) (l : Nat) : Nat :=
  let b := if win then (i.yarn.lane l).wbase.toNat else 0
  ((i.operand s x.a false l).val + BitVec.ofNat 64 b + x.off.signExtend 64).toNat % 2 ^ 32

/-- A loaded value extended to its register (R137, R247). -/
def extended (t : Ty) (bs : List Byte) : DWord :=
  let w := 8 * bs.length
  if w < 32 then lowBits 32 (numOf (tySigned t) w (BitVec.ofNat 64 (leNat bs))) else BitVec.ofNat 64 (leNat bs)

/-- lds and ldw: the value and the highest label of the unit, the address operand and the floor (R137). -/
def State.spLoad (s : State) (i : Issuer) (o : Op) (x : Args) (win : Bool) : State :=
  let w := tyBits x.ty / 8
  s.spAccess i o x win (i.spAddr s x win) w none x.ty.wide (fun s1 locs =>
    (s1, locs.map (fun p =>
      let t := s1.strandAt p.x
      { lane := p.lane, val := extended x.ty (t.padRead p.off w),
        lab := i.label [{ lab := t.unitLabel p.off }, i.operand s x.a false p.lane] })))

/-- sts and stw (R137): the unit's label moves with the value's own label, that of its register (R60). -/
def State.spStore (s : State) (i : Issuer) (o : Op) (x : Args) (win : Bool) : State :=
  let w := tyBits x.ty / 8
  let val := fun l => i.operand s x.b x.ty.wide l
  s.spAccess i o x win (i.spAddr s x win) w (some (fun l => (BitVec.ofNat 64 ((val l).val.toNat % 2 ^ (8 * w)), 0))) false
    (fun s1 locs => (locs.foldl (fun s2 p =>
      s2.setStrand p.x ((s2.strandAt p.x).padStore p.off (leBytes w (val p.lane).val.toNat) (val p.lane).lab)) s1, []))
    (wl := fun l => (val l).lab)

/-- lds (R137). -/
def execLds (x : Args) (s : State) : Outcome State Fault Refusal := issued s fun i => s.spLoad i .lds x false

/-- sts (R137). -/
def execSts (x : Args) (s : State) : Outcome State Fault Refusal := issued s fun i => s.spStore i .sts x false

/-- ldw (R134, R137). -/
def execLdw (x : Args) (s : State) : Outcome State Fault Refusal := issued s fun i => s.spLoad i .ldw x true

/-- stw (R134, R137). -/
def execStw (x : Args) (s : State) : Outcome State Fault Refusal := issued s fun i => s.spStore i .stw x true

/-- The new value of an atomic operation on w bits (R139). -/
def atomic (sub : BitVec 4) (t : Ty) (old b c : DWord) : DWord :=
  let w := tyBits t
  let n := numOf (tySigned t) w
  let o := BitVec.ofNat 64 (old.toNat % 2 ^ w)
  let v := BitVec.ofNat 64 (b.toNat % 2 ^ w)
  if sub = 0 then lowBits w (old.toNat + b.toNat)
  else if sub = 1 then (if n b < n old then v else o)
  else if sub = 2 then (if n old < n b then v else o)
  else if sub = 3 then o &&& v
  else if sub = 4 then o ||| v
  else if sub = 5 then o ^^^ v
  else if sub = 6 then v
  else if o = v then BitVec.ofNat 64 (c.toNat % 2 ^ w) else o

/-- One lane's read-modify-write in a scratchpad (R139): the old value with the unit's old label and the floor. -/
def State.spAtomic (s : State) (i : Issuer) (x : Args) (w : Nat) (p : SpLoc) (b c : Val) : State × Res :=
  let t := s.strandAt p.x
  let old := BitVec.ofNat 64 (leNat (t.padRead p.off w))
  let lab := t.unitLabel p.off
  let new := if x.sub = 6 then i.label [b] else if x.sub = 7 then i.label [{ lab := lab }, b, c] else i.label [{ lab := lab }, b]
  let bs := leBytes w (atomic x.sub x.ty old b.val c.val).toNat
  (s.setStrand p.x (((t.padPut p.off bs).stamp p.off).setUnit p.off new),
    { lane := p.lane, val := old, lab := i.label [{ lab := lab }] })

/-- The lanes' operations in ascending order, each seeing the one before it. -/
def State.spAtomics (s : State) (i : Issuer) (x : Args) (w : Nat) (b c : Nat → Val) : List SpLoc → State × List Res
  | [] => (s, [])
  | p :: t =>
    let r := s.spAtomic i x w p (b p.lane) (c p.lane)
    let q := State.spAtomics r.1 i x w b c t
    (q.1, r.2 :: q.2)

/-- atoms (R139). -/
def execAtoms (x : Args) (s : State) : Outcome State Fault Refusal :=
  issued s fun i =>
    let w := tyBits x.ty / 8
    let b := fun l => i.operand s x.b x.ty.wide l
    let c := fun l => i.operand s x.c x.ty.wide l
    s.spAccess i .atoms x false (i.spAddr s x false) w (some (fun l => ((b l).val, (c l).val))) x.ty.wide
      (fun s1 locs => s1.spAtomics i x w b c locs) (wl := fun l => i.label [b l, if x.sub = 7 then c l else {}])

/-! ### Rendezvous points (R140 to R144) -/

/-- The strand and the point a rendezvous name gives; none where it names none (R140). -/
def State.pointOf (s : State) (i : Issuer) (q : Nat) : Option (Nat × Nat) :=
  let pt := q % 32
  if 24 ≤ pt ∨ q / 2 ^ 10 ≠ 0 then none
  else if q / 2 ^ 9 % 2 = 1 then (s.inCoil i (q / 2 ^ 5 % 16)).map (fun x => (x, pt)) else some (i.yarn.strand, pt)

/-- A point of a strand. -/
def Strand.point (x : Strand) (pt : Nat) : Point := Store.get {} pt x.points

/-- complete(pt) (R142): each phase the arrivals fill moves the phase on; what remains counts from now. DESIGN CHOICE (log 53):
no fibre is marked as arrived in the new phase, whose arrival it was that remains being left open. -/
def Point.complete (p : Point) (now : Nat) : Point :=
  if p.armed ∧ 0 < p.exp ∧ p.exp ≤ p.arr then
    { p with arr := p.arr % p.exp, phase := p.phase + BitVec.ofNat 16 (p.arr / p.exp), marks := [], fired := false,
             first := if p.arr % p.exp = 0 then p.first else now }
  else p

/-- Every group that waits at a point of a strand sees its phase move (R142). -/
def State.wakePoint (s : State) (x pt : Nat) : State :=
  { s with yarns := s.yarns.map (fun c => (c.1, { c.2 with groups := c.2.groups.map (fun g =>
      if g.wait = some (.rdv x pt false) then { g with wait := some (.rdv x pt true) } else g) })) }

/-- A point changed and completed. -/
def State.setPoint (s : State) (x pt : Nat) (p : Point) : State :=
  let t := s.strandAt x
  let q := p.complete (s.cycles t.core)
  let s1 := s.setStrand x { t with points := Store.set {} pt q t.points }
  if q.phase = p.phase then s1 else s1.wakePoint x pt

/-- rinit (R141): the count is 1 to 16,384, the point not armed yet. -/
def execRinit (x : Args) (s : State) : Outcome State Fault Refusal :=
  issued s fun i => s.once i x fun G =>
    let b := (i.first s G x.b false).val.toNat
    match s.pointOf i (i.first s G x.a false).val.toNat with
    | none => s.trap i G cExtentBounds s.anyArg .here
    | some (t, pt) =>
      let p := (s.strandAt t).point pt
      if p.armed ∨ b = 0 ∨ 16384 < b then s.trap i G cIllegalOp s.anyArg .here
      else (s.setPoint t pt { p with exp := b, armed := true }).doneKill i .rinit x

/-- Lanes of a yarn marked as arrived in the current phase of a point, for the watchdog's record (R148). -/
def Point.mark (p : Point) (yarn : Nat) (m : Mask) : Point :=
  match p.marks.find? (fun c => c.1 == yarn) with
  | some _ => { p with marks := p.marks.map (fun c => if c.1 = yarn then (c.1, c.2 ||| m) else c) }
  | none => { p with marks := p.marks ++ [(yarn, m)] }

/-- An arrival of G at a point (R142, R143): one for each fibre, a pair counting once (R229). DESIGN CHOICE (log 53): the marks
for the watchdog's record, which knows the yarns of one strand, take the arrivals of that strand's launch yarns only. -/
def State.arrive (s : State) (i : Issuer) (G : List Nat) (x pt : Nat) (p : Point) : State :=
  let n := (i.acting G).length
  let first := if p.arr = 0 then s.cycles (s.strandAt x).core else p.first
  let q := { p with arr := p.arr + n, first := first }
  s.setPoint x pt (if i.yarn.spawned ∨ i.yarn.strand ≠ x then q else q.mark i.yarn.num (maskOf G))

/-- Whether an arrival would pass 65,535 on a point that is not armed (R142). -/
def Issuer.overArrive (i : Issuer) (G : List Nat) (p : Point) : Bool :=
  !p.armed && decide (65535 < p.arr + (i.acting G).length)

/-- arrive (R142): every earlier scratchpad access of the yarn is performed first (R144). -/
def execArrive (x : Args) (s : State) : Outcome State Fault Refusal :=
  issued s fun i => s.once i x fun G =>
    match s.pointOf i (i.first s G x.a false).val.toNat with
    | none => s.trap i G cExtentBounds s.anyArg .here
    | some (t, pt) =>
      let p := (s.strandAt t).point pt
      if i.overArrive G p then s.trap i G cIllegalOp s.anyArg .here
      else if i.yarn.padPending then s
      else
        let s1 := s.arrive i G t pt p
        s1.compute (s1.again i) .arrive x (G.map (fun l => { lane := l, val := p.phase.setWidth 64 }))

/-- A wait at a point: the group goes on once the phase has moved. -/
def State.awaitPoint (s : State) (i : Issuer) (o : Op) (x : Args) (t pt : Nat) (met : Bool) : State :=
  if met then s.doneKill i o x else s.stay (s.again i) (some (.rdv t pt false))

/-- rwait (R142). -/
def execRwait (x : Args) (s : State) : Outcome State Fault Refusal :=
  issued s fun i => s.once i x fun G =>
    match i.g.wait with
    | some (.rdv t pt woken) => s.awaitPoint i .rwait x t pt woken
    | _ =>
      match s.pointOf i (i.first s G x.a false).val.toNat with
      | none => s.trap i G cExtentBounds s.anyArg .here
      | some (t, pt) =>
        let ph := ((s.strandAt t).point pt).phase
        s.awaitPoint i .rwait x t pt (G.all (fun l => decide ((i.operand s x.b false l).val.setWidth 16 ≠ ph)))

/-- arwait (R142, R144): an arrival, then a wait for the phase to move past the one it arrived in. -/
def execArwait (x : Args) (s : State) : Outcome State Fault Refusal :=
  issued s fun i => s.once i x fun G =>
    match i.g.wait with
    | some (.rdv t pt woken) => s.awaitPoint i .arwait x t pt woken
    | _ =>
      match s.pointOf i (i.first s G x.a false).val.toNat with
      | none => s.trap i G cExtentBounds s.anyArg .here
      | some (t, pt) =>
        let p := (s.strandAt t).point pt
        if i.overArrive G p then s.trap i G cIllegalOp s.anyArg .here
        else if i.yarn.padPending then s
        else
          let s1 := s.arrive i G t pt p
          s1.awaitPoint i .arwait x t pt (decide (((s1.strandAt t).point pt).phase ≠ p.phase))

/-! ### Stage rings (R149, R150) -/

/-- A ring header as read. -/
def Strand.ring (x : Strand) (a : Nat) : BitVec 256 := BitVec.ofNat 256 (leNat (x.padRead a 32))

def ringPutIx (h : BitVec 256) : Nat := bitsAt h 0 16
def ringTakeIx (h : BitVec 256) : Nat := bitsAt h 16 16
def ringSlots (h : BitVec 256) : Nat := bitsAt h 32 7
def ringBase (h : BitVec 256) : Nat := bitsAt h 64 13 * 64
def ringStride (h : BitVec 256) : Nat := bitsAt h 80 16 * 64
def ringFull (h : BitVec 256) (k : Nat) : Bool := h.getLsbD (192 + k)
def ringPhase (h : BitVec 256) (k : Nat) : Bool := h.getLsbD (128 + k)

/-- A header with one bit inverted. -/
def flipBit (h : BitVec 256) (n : Nat) : BitVec 256 := h ^^^ (1#256 <<< n)

/-- Whether a header breaks its layout (R149). -/
def ringBad (h : BitVec 256) : Bool :=
  decide (bitsAt h 39 25 ≠ 0) || decide (bitsAt h 77 3 ≠ 0) || decide (bitsAt h 96 32 ≠ 0)
    || !([1, 2, 4, 8, 16, 32, 64].contains (ringSlots h)) || decide (ringStride h = 0)

/-- A header written back; the units' labels stay. -/
def State.setRing (s : State) (x a : Nat) (h : BitVec 256) : State :=
  s.setStrand x (((s.strandAt x).padPut a (leBytes 32 h.toNat)).stamp a)

/-- The header a ring instruction names, checked (R149): the trap it takes, or the address and the header. -/
def State.ringOf (s : State) (i : Issuer) (G : List Nat) (x : Args) : Except Byte (Nat × BitVec 256) :=
  let a := (i.first s G x.a false).val.toNat
  if a % 32 ≠ 0 ∨ i.launch.alloc < a + 32 then .error cExtentBounds
  else
    let h := i.strand.ring a
    if ringBad h then .error cReservedField else .ok (a, h)

/-- The slot address in every lane of G, label 0 (R150); it arrives under the instruction's flag (R26). -/
def State.ringGive (s : State) (i : Issuer) (o : Op) (x : Args) (d : Nat) : State :=
  let j := s.again i
  let G := j.lanes x
  s.done j ((j.killIn o x j.yarn G).push (j.pendOf x.dst false (G.map (fun l => { lane := l, val := BitVec.ofNat 64 d }))))

/-- put.acq and take.acq (R150): a reservation taken once, after every earlier scratchpad access (R138), then the wait for its
slot. -/
def State.ringAcq (s : State) (i : Issuer) (o : Op) (x : Args) (take : Bool) : State :=
  s.once i x fun G =>
    let a := (i.first s G x.a false).val.toNat
    match i.g.wait with
    | some (.ring k r full) =>
      let h := i.strand.ring a
      if ringFull h k = full ∧ ringPhase h k = r then s.ringGive i o x (ringBase h + k * ringStride h) else s
    | _ =>
      if i.yarn.padPending then s
      else
      match s.ringOf i G x with
      | .error c => s.trap i G c s.anyArg .here
      | .ok (a, h) =>
        let n := if take then ringTakeIx h else ringPutIx h
        let S := ringSlots h
        let k := n % S
        let r := decide (n / S % 2 = 1)
        if i.launch.alloc < ringBase h + (k + 1) * ringStride h then s.trap i G cExtentBounds s.anyArg .here
        else
          let up : BitVec 256 := BitVec.ofNat 256 ((n + 1) % 2 ^ 16)
          let h1 := if take then (h &&& ~~~(0xFFFF0000 : BitVec 256)) ||| (up <<< 16)
            else (h &&& ~~~(0xFFFF : BitVec 256)) ||| up
          let s1 := s.setRing i.yarn.strand a h1
          if ringFull h1 k = take ∧ ringPhase h1 k = r then s1.ringGive i o x (ringBase h1 + k * ringStride h1)
          else s1.stay (s1.again i) (some (.ring k r take))

/-- put.rel and take.rel (R150): a release, after every earlier scratchpad access (R144). -/
def State.ringRel (s : State) (i : Issuer) (o : Op) (x : Args) (take : Bool) : State :=
  s.once i x fun G =>
    if i.yarn.padPending then s
    else
    match s.ringOf i G x with
    | .error c => s.trap i G c s.anyArg .here
    | .ok (a, h) =>
      let b := (i.first s G x.b false).val.toNat
      let k := (b - ringBase h) / ringStride h
      if b < ringBase h ∨ (b - ringBase h) % ringStride h ≠ 0 ∨ ringSlots h ≤ k then s.trap i G cExtentBounds s.anyArg .here
      else if ringFull h k ≠ take then s.trap i G cIllegalOp s.anyArg .here
      else
        let h1 := flipBit h (192 + k)
        (s.setRing i.yarn.strand a (if take then flipBit h1 (128 + k) else h1)).doneKill i o x

/-- ring.put.acq (R150). -/
def execRingPutAcq (x : Args) (s : State) : Outcome State Fault Refusal := issued s fun i => s.ringAcq i .ringPutAcq x false

/-- ring.put.rel (R150). -/
def execRingPutRel (x : Args) (s : State) : Outcome State Fault Refusal := issued s fun i => s.ringRel i .ringPutRel x false

/-- ring.take.acq (R150). -/
def execRingTakeAcq (x : Args) (s : State) : Outcome State Fault Refusal := issued s fun i => s.ringAcq i .ringTakeAcq x true

/-- ring.take.rel (R150). -/
def execRingTakeRel (x : Args) (s : State) : Outcome State Fault Refusal := issued s fun i => s.ringRel i .ringTakeRel x true

/-- end (R130): the fibres of G retire; the others of the group go on with the next instruction. -/
def execEndF (x : Args) (s : State) : Outcome State Fault Refusal :=
  issued s fun i =>
    s.settleYarn i.y ((i.yarn.retireLanes (i.lanes x) i.g.pc i.g.idx).goOn i.g.id (i.cycles s))

end Sys2Proof.Machine
end

