-- ==== Sys2Proof/Machine/Access.lean ====
section
/-! DEFINITION. Global accesses: each lane's checks (R244), requests and their acceptance (R245), what the package performs
itself (R248, R250), and the counters of outstanding acknowledgements (R254). -/

namespace Sys2Proof.Machine

/-! ### Where one part of an access goes -/

/-- Where an access to an address goes once it passes steps 1 to 6 of R244: backing bytes served here under a prefix; a line
of another origin owned here; host memory behind a bounce channel; a copy channel's aperture; or a holder outside. -/
inductive Where where
  | here (q : Fab) (pfx : Fab) (len : Nat)
  | line
  | host (a : Nat)
  | aper (chan : Nat)
  | away (dst : Peer) (pfx : Fab) (len : Nat)
  deriving DecidableEq, Repr

/-- What a requester asks at an address. `origin` asks for a store's route (R306) without writing (R338). -/
structure Ask where
  fn : Nat
  ceil : Nat
  el : Elig := {}
  write : Bool := false
  origin : Bool := false
  wlab : Label := 0
  deriving DecidableEq, Repr

/-- The faulting address of a cause: virtual or fabric physical (R106). -/
def faultAddr (c : Byte) (va : DWord) (p : Page) : DWord := if virtualCause c then va else p.fab.setWidth 64

/-- Whether a write to a page would go to another peer or to host memory, be the way to it live or not (R244 step 5). -/
def State.leaves (s : State) (fn : Nat) (p : Page) : Bool :=
  (s.bounceOf fn p.fab).isSome || (s.originOf p.fab).any (fun c => decide (c.2.peer ≠ s.peer))

/-- Step 6 of R244 for a page: where the access goes and the peer that serves it; or the cause and the faulting address. A
page's bytes held in a seal window fault as the window does (R358). -/
def State.placeOf (s : State) (k : Ask) (va : DWord) (p : Page) : Except (Byte × DWord) (Where × Peer) :=
  match s.bounceOf k.fn p.fab with
  | some b =>
    if b.resync then .error (cUnreach, p.fab.setWidth 64) else .ok (.host (b.host + (p.fab.toNat - b.pfx.toNat)), s.peer)
  | none =>
    match (if k.origin then none else s.lineOf p.fab) with
    | some o => .ok (.line, o.origin)
    | none =>
      match (if k.write ∨ k.origin then s.routeStore p else s.routeLoad p k.el) with
      | .error c => .error (c, faultAddr c va p)
      | .ok (e, h) =>
        if h.peer ≠ s.peer then .ok (.away h.peer e.pfx e.len, h.peer)
        else
          let q : Fab := BitVec.ofNat 57 (backingOf e h p.fab)
          if s.inSeal q then .error (cPageProt, va) else .ok (.here q e.pfx e.len, s.peer)

/-- Steps 1 and 3 to 6 of R244 for an address: the page, where it goes and the peer that serves it; or the cause and the
faulting address. -/
def State.judge (s : State) (k : Ask) (va : DWord) : Except (Byte × DWord) (Page × Where × Peer) :=
  match s.translate k.fn va with
  | .error c => .error (c, va)
  | .ok p =>
    if k.ceil < p.label.toNat ∨ (k.write ∧ !p.write) ∨ (p.cls ≠ 3 ∧ s.inSeal p.fab) then .error (cPageProt, va)
    else if k.write ∧ p.label.toNat < k.wlab.toNat then .error (cLabelDown, va)
    else if p.cls = 3 then .ok (p, .aper (bitsAt p.base 12 3), s.peer)
    else if k.write ∧ k.wlab = 3 ∧ s.leaves k.fn p then .error (cLabelDown, va)
    else match s.placeOf k va p with
      | .error e => .error e
      | .ok r => .ok (p, r)

/-! ### One lane's access -/

/-- What a lane asks for: address, width, bytes to write, the label of its address operand and its write label. -/
structure Want where
  lane : Nat
  va : DWord
  width : Nat
  data : List Byte := []
  data2 : List Byte := []
  lab : Label := 0
  wlab : Label := 0
  deriving DecidableEq, Repr

/-- What an instruction asks for its lanes. -/
structure Form where
  kind : AccKind
  write : Bool := false
  read : Bool := true
  unaligned : Bool := false
  op : BitVec 4 := 0
  ty : Ty := .none
  deriving DecidableEq, Repr

/-- The pieces of an access of w bytes: cut at boundaries of aligned 8-byte units (R249). Place and length of each. -/
def pieces (va : Nat) : Nat → Nat → Nat → List (Nat × Nat)
  | 0, _, _ => []
  | n + 1, off, w =>
    let k := min w (8 - (va + off) % 8)
    if w = 0 then [] else (off, k) :: pieces va n (off + k) (w - k)

/-- The request kind of an access. -/
def AccKind.req : AccKind → ReqKind
  | .store | .shape | .spill => .store
  | .atom => .atom
  | .red => .red
  | .knot => .knot
  | _ => .load

/-- The request of one part to a holder outside. A write is asked about first, and performed once every lane and part has
passed (R104, R249); a knot instruction has one part only. -/
def Form.request (f : Form) (w : Want) (g : Page) (off len : Nat) (pfx : Fab) (plen : Nat) : Request :=
  { kind := f.kind.req, addr := g.fab, pfx := pfx, len := plen, width := len,
    data := if f.kind = .knot then w.data else (w.data.drop off).take len, data2 := w.data2, op := f.op, ty := f.ty,
    label := g.label, strong := decide (g.cls = 1), owned := g.owned && f.write,
    stage := if f.write ∧ f.kind ≠ .knot then .ask else .whole }

/-- One part of a lane's access at the place it goes to. -/
def Form.part (f : Form) (w : Want) (g : Page) (off len : Nat) (at_ : Where × Peer) : Part × PartState :=
  let p : Part := { page := g, off := off, len := len, dst := at_.2 }
  match at_.1 with
  | .here q pfx plen => ({ p with pfx := pfx, plen := plen }, .here q)
  | .line => (p, .line)
  | .host a => (p, if f.write then .hostMeter a else .host a)
  | .aper c => (p, .aper c)
  | .away h pfx plen => ({ p with pfx := pfx, plen := plen }, .away h (f.request w g off len pfx plen))

/-- What the lanes of an instruction ask about an address. -/
def Issuer.ask (i : Issuer) (f : Form) (w : Want) (trailing : Bool) : Ask :=
  { fn := i.launch.fn, ceil := i.ceil, el := { i.yarn.elig with trailing := trailing }, write := f.write,
    origin := decide (f.kind = .knot), wlab := w.wlab }

/-- One part of a lane's access as it stands after its checks. -/
def State.partOf (s : State) (i : Issuer) (f : Form) (w : Want) (p : Nat × Nat) : Part × PartState :=
  let va := w.va + BitVec.ofNat 64 p.1
  match s.judge (i.ask f w true) va with
  | .error (c, a) => ({ page := { va := va }, off := p.1, len := p.2 }, .fault c a)
  | .ok (g, r) => f.part w g p.1 p.2 r

/-- A lane's access after steps 1 to 6 of R244. A knot is one part, and may not cross a 4 KiB boundary (R341). -/
def State.laneAcc (s : State) (i : Issuer) (f : Form) (w : Want) : LaneAcc :=
  let base : LaneAcc := { lane := w.lane, parts := [], data := w.data, data2 := w.data2, lab := w.lab, wlab := w.wlab }
  if bitsAt w.va 57 7 ≠ 0 then
    { base with parts := [({ page := { va := w.va }, len := w.width }, .fault cPageProt w.va)] }
  else if !f.unaligned ∧ w.va.toNat % w.width ≠ 0 then
    { base with parts := [({ page := { va := w.va }, len := w.width }, .fault cMisalign w.va)] }
  else if f.kind = .knot ∧ 4096 < w.va.toNat % 4096 + 1088 then
    { base with parts := [({ page := { va := w.va }, len := w.width }, .fault cMisalign w.va)] }
  else
    let ps := if f.kind = .knot then [(0, 1088)] else pieces w.va.toNat w.width 0 w.width
    { base with parts := ps.map (s.partOf i f w) }

/-- What a lane asked for, as its access keeps it. -/
def LaneAcc.want (a : LaneAcc) (va : DWord) : Want :=
  { lane := a.lane, va := va, width := a.data.length, data := a.data, data2 := a.data2, lab := a.lab, wlab := a.wlab }

/-- The fault a part has met. -/
def PartState.fault? : PartState → Option (Byte × DWord)
  | .fault c d => some (c, d)
  | _ => Option.none

/-- The fault of a lane: that of the lowest part that fails (R249). -/
def LaneAcc.fault (a : LaneAcc) : Option LaneFault :=
  a.parts.findSome? (fun p => p.2.fault?.map (fun c => ⟨a.lane, c.1, c.2⟩))

/-! ### Admission and acceptance -/

/-- A 32-byte unit on its way to a peer. -/
abbrev MUnit := Peer × Nat

/-- The unit that a part's bytes leave the package in, while they may still have to be admitted. -/
def unitOf (p : Part × PartState) : Option MUnit :=
  match p.2 with
  | .away d r => some (d, r.addr.toNat / 32)
  | .sent => some (p.1.dst, p.1.page.fab.toNat / 32)
  | .hostMeter a => some (0, 2 ^ 64 + a / 32)
  | _ => none

/-- The units of an access that hold a label-2 byte, so that the egress meter admits them whole or not at all (R357). -/
def Form.metered (f : Form) (ls : List LaneAcc) : List MUnit :=
  if f.write then (ls.filter (fun a => decide (a.wlab = 2))).flatMap (fun a => a.parts.filterMap unitOf) else []

/-- A unit at the meter: whether it may leave, with what it is charged; `us` are the units charged already. -/
def State.admitUnit (s : State) (fn : Nat) (hot us : List MUnit) (u : MUnit) : State × List MUnit × Bool :=
  if !hot.contains u ∨ us.contains u then (s, us, true)
  else if s.admits fn 1 then (s.charge fn 1, u :: us, true)
  else (s.stall fn 1, us, false)

/-- Whether this package still holds the prefix a part was routed by, at the byte it was routed to (R308). -/
def State.holds (s : State) (origin : Bool) (p : Part) (q : Fab) : Bool :=
  s.table.any (fun e => decide (e.pfx = p.pfx ∧ e.len = p.plen) && e.holders.any (fun h =>
    decide (h.peer = s.peer) && (!origin || decide (h.kind = 0)) && decide (backingOf e h p.page.fab = q.toNat)))

/-- A part served here, its place looked up again where it is gone: a line given up is asked for at its origin once more
(R264), and a prefix withdrawn meanwhile is passed on as its stub passes it on, no TRAILING holder being eligible (R308,
R309). -/
def State.fresh (s : State) (i : Issuer) (f : Form) (a : LaneAcc) (p : Part × PartState) : Part × PartState :=
  let again := fun (_ : Unit) =>
    let w := a.want p.1.page.va
    if f.write ∧ w.wlab = 3 ∧ s.leaves i.launch.fn p.1.page then (p.1, PartState.fault cLabelDown p.1.page.va)
    else match s.placeOf (i.ask f w false) p.1.page.va p.1.page with
    | .error (c, d) => (p.1, PartState.fault c d)
    | .ok r =>
      let n := f.part w p.1.page p.1.off p.1.len r
      ({ n.1 with req := p.1.req }, n.2)
  match p.2 with
  | .here q => if s.holds (f.write || decide (f.kind = .knot) || decide (p.1.page.cls = 1)) p.1 q then p else again ()
  | .line => if (s.lineOf p.1.page.fab).isSome then p else again ()
  | _ => p

/-- A launch that has done what R231 names is no longer replayable. -/
def State.unreplay (s : State) (l : Nat) : State :=
  match Store.find l s.launches with
  | some L => s.setLaunch l { L with replayable := false }
  | none => s

/-- One part pushed forward: a request is formed, and sent once the meter admits its unit; the line of a part served here is
recalled; a poisoned line that is read faults (R244 step 7), but not before a scrub has passed it (R364). -/
def State.pushPart (s : State) (i : Issuer) (f : Form) (a : LaneAcc) (n : Nat) (hot us : List MUnit)
    (p : Part × PartState) : State × List MUnit × (Part × PartState) :=
  let fn := i.launch.fn
  let who := Who.lane i.y i.g.id a.lane n
  match p.2 with
  | .away d r =>
    let m := (if f.write ∧ r.stage = .whole then s.unreplay i.strand.launch else s).admitUnit fn hot us (d, r.addr.toNat / 32)
    let hold : Hold := if m.2.2 then .none else .meter
    match p.1.req with
    | none => (m.1.request who fn d hold r, m.2.1, ({ p.1 with req := some s.nextReq }, .sent))
    | some k =>
      let r' := { m.1.formed d r with id := k }
      (m.1.post who fn d (if m.2.2 then m.1.heldBy who d r' else .meter) r', m.2.1, (p.1, .sent))
  | .sent =>
    match p.1.req.bind (fun k => (Store.find k s.reqs).map (fun o => (k, o))) with
    | some (k, o) =>
      if o.hold ≠ .meter then (s, us, p)
      else
        let m := s.admitUnit fn hot us (p.1.dst, p.1.page.fab.toNat / 32)
        (if m.2.2 then m.1.letGo k o else m.1, m.2.1, p)
    | none => (s, us, p)
  | .hostMeter h =>
    let m := s.admitUnit fn hot us (0, 2 ^ 64 + h / 32)
    (m.1, m.2.1, if m.2.2 then (p.1, .host h) else p)
  | .here q =>
    if s.scrubHeld q then (s, us, p)
    else
      match s.awayIn q.toNat p.1.len with
      | some a => (s.recallLine a, us, p)
      | none =>
        if f.read ∧ s.mem.poisonedIn q.toNat p.1.len then (s, us, (p.1, .fault cPoison (p.1.page.fab.setWidth 64)))
        else (s, us, p)
  | _ => (s, us, p)

/-- A lane's parts pushed forward, from part n on, up to the lowest that fails. -/
def State.pushParts (s : State) (i : Issuer) (f : Form) (a : LaneAcc) (hot : List MUnit) :
    Nat → List MUnit → List (Part × PartState) → State × List MUnit × List (Part × PartState)
  | _, us, [] => (s, us, [])
  | n, us, p :: t =>
    let r := s.pushPart i f a n hot us (s.fresh i f a p)
    if r.2.2.2.fault?.isSome then (r.1, r.2.1, r.2.2 :: t)
    else
      let q := State.pushParts r.1 i f a hot (n + 1) r.2.1 t
      (q.1, q.2.1, r.2.2 :: q.2.2)

/-- The lanes of an access pushed forward. -/
def State.pushLanes (s : State) (i : Issuer) (f : Form) (hot : List MUnit) :
    List MUnit → List LaneAcc → State × List LaneAcc
  | _, [] => (s, [])
  | us, a :: t =>
    let r := s.pushParts i f a hot 0 us a.parts
    let q := State.pushLanes r.1 i f hot r.2.1 t
    (q.1, { a with parts := r.2.2 } :: q.2)

/-- Whether a part is accepted, and free to be performed where it is served here (R245, R264, R364). -/
def State.partReady (s : State) (p : Part × PartState) : Bool :=
  match p.2 with
  | .here q => !s.scrubHeld q && (s.awayIn q.toNat p.1.len).isNone
  | .line => (s.lineOf p.1.page.fab).isSome
  | .host _ | .aper _ | .got _ _ | .passed _ _ | .fault _ _ => true
  | _ => false

/-- Whether the parts of a lane are accepted, or those below the lowest that fails (R249). -/
def State.partsReady (s : State) : List (Part × PartState) → Bool
  | [] => true
  | p :: t => p.2.fault?.isSome || (s.partReady p && s.partsReady t)

/-- Whether a lane is accepted or has failed. -/
def State.laneReady (s : State) (a : LaneAcc) : Bool := s.partsReady a.parts

/-! ### What the package performs itself -/

/-- The bytes of a page range, first byte and size. -/
def inRange (r : Nat × Nat) (k : Nat) : Bool := decide (r.1 ≤ k ∧ k < r.1 + r.2)

/-- A launch's first write to a snapshot page saves the page, if the pool has room; else the launch is no longer
replayable (R231). -/
def State.snapshot (s : State) (l : Nat) (p : Page) (q : Fab) : State :=
  match Store.find l s.launches with
  | none => s
  | some L =>
    if !p.snap ∨ peerOf q ≠ s.peer then s.setLaunch l { L with replayable := false }
    else if !L.snapshot then s
    else
      let r : Nat × Nat := (q.toNat - (p.fab.toNat - p.base.toNat), p.size)
      if L.snapPages.contains r then s
      else
        let used := s.launches.foldl (fun n c => if c.2.fn = L.fn then c.2.snapPages.foldl (fun n r => n + r.2) n else n) 0
        if Config.snapshotRoom s.tick < used + p.size then
          let f := s.func L.fn
          (s.setLaunch l { L with replayable := false }).setFunc L.fn
            { f with tele := { f.tele with snapFull := f.tele.snapFull + 1 } }
        else s.setLaunch l { L with
          snapPages := L.snapPages ++ [r]
          snap := (s.mem.bytes.filter (fun c => inRange r c.1)).foldl (fun t c => Store.put c.1 c.2 t) L.snap
          snapLabs := (s.mem.labels.filter (fun c => inRange (r.1 / 4096, r.2 / 4096) c.1)).foldl
            (fun t c => Store.put c.1 c.2 t) L.snapLabs }

/-- A write of a launch through a page, performed here (R248, R231). -/
def State.launchWrite (s : State) (l : Nat) (p : Page) (q : Fab) (bs : List Byte) : State :=
  (s.snapshot l p q).writeAt q.toNat bs p.label

/-- Bytes written to host memory. -/
def State.hostPut (s : State) (a : Nat) : List Byte → State
  | [] => s
  | b :: t => State.hostPut { s with hostMem := Store.set 0 a b s.hostMem } (a + 1) t

/-- The 96-bit nonce of a bounce record: channel, direction and sequence (R363). -/
def bounceNonce (chan : Nat) (toHost : Bool) (seq : Nat) : BitVec 96 :=
  BitVec.ofNat 96 (pack [(0, seq % 2 ^ 64), (64, if toHost then 1 else 0), (72, chan)])

/-- A channel with a changed record. -/
def State.setBounce (s : State) (fn ch : Nat) (b : Bounce) : State :=
  s.setFunc fn { s.func fn with bounce := Store.put ch b (s.func fn).bounce }

/-- The record under way on a channel complete: it is sealed and sent, and host memory takes its bytes (R363). -/
def State.closeRecord (s : State) (fn ch : Nat) (b : Bounce) : State :=
  if b.part = [] then s
  else
    let n := bounceNonce ch true b.outSeq
    let ct := Config.gcmSeal b.key n (b.part.flatMap Prod.snd)
    let s1 := (b.part.foldl (fun t c => t.hostPut c.1 c.2) s).setBounce fn ch
      { b with outSeq := b.outSeq + 1, part := [], by_ := none }
    { s1 with outbox := s1.outbox ++ [.bounceOut fn ch ct (Config.gcmTag b.key n [] ct)] }

/-- A launch's records under way complete: its copy is done. -/
def State.closeRecords (s : State) (fn l : Nat) : State :=
  ((s.func fn).bounce.filter (fun c => decide (c.2.by_ = some l))).foldl (fun t c => t.closeRecord fn c.1 c.2) s

/-- A device write to a bounce range (R363). A lane's store is a record of its own; the sectors of a launch's copies gather in
one record of at most 4 KiB until the copy is done. Where a record was aborted the next one fails authentication: its bytes go
nowhere, and the channel enters RESYNC_REQUIRED. DESIGN CHOICE (log 25): the rule leaves open how traffic is cut into
records. -/
def State.bounceWrite (s : State) (fn : Nat) (by_ : Option Nat) (a : Nat) (bs : List Byte) : State :=
  match (s.func fn).bounce.find? (fun c => decide (c.2.len ≠ 0 ∧ c.2.host ≤ a ∧ a < c.2.host + 2 ^ (57 - c.2.len))) with
  | none => s
  | some (ch, b) =>
    if b.skew then s.setBounce fn ch { b with skew := false, resync := true, part := [], by_ := none }
    else
      let goes := decide (b.by_ = by_) && decide ((b.part.flatMap Prod.snd).length + bs.length ≤ 4096)
      let s1 := if goes then s else s.closeRecord fn ch b
      let b1 := if goes then b else { b with outSeq := if b.part = [] then b.outSeq else b.outSeq + 1, part := [] }
      let b2 : Bounce := { b1 with part := b1.part ++ [(a, bs)], by_ := by_ }
      if by_.isNone then s1.closeRecord fn ch b2 else s1.setBounce fn ch b2

/-- A load's part as read. -/
def State.readPart (s : State) (p : Part × PartState) : List Byte :=
  match p.2 with
  | .here q => s.bytesAt q.toNat p.1.len
  | .line => s.lineBytes p.1.page.fab p.1.len
  | .host a => s.hostRead a p.1.len
  | .got d _ => d
  | _ => []

/-- A write of an instruction counted in its yarn's counters (R254), unless its page is STRONG and it is performed already
(R265). -/
def Yarn.count (y : Yarn) (g : Group) (id : Nat) (p : Page) (here : Bool) (dst : Peer) : Yarn :=
  if p.cls = 1 ∧ here then y
  else { y with counted := y.counted ++ [{ id := id, ordered := decide (p.cls ≠ 2), here := here, dst := dst, addr := p.fab,
                                           va := p.va, pc := g.pc, idx := g.idx, strand := y.strand }] }

/-- One part of a store of a write label performed: here, in an owned line, whose write is acknowledged at once (R264), in host
memory, or by its holder already. -/
def State.writePart (s : State) (i : Issuer) (y : Yarn) (wl : Label) (data : List Byte) (p : Part × PartState) : State × Yarn :=
  let bs := (data.drop p.1.off).take p.1.len
  let y1 := if y.wrote.contains p.1.dst then y else { y with wrote := p.1.dst :: y.wrote }
  match p.2 with
  | .here q => ({ s.launchWrite i.strand.launch p.1.page q bs with nextReq := s.nextReq + 1 },
      y1.count i.g s.nextReq p.1.page true p.1.dst)
  | .line => ((s.writeLine i.launch.fn p.1.page.fab bs p.1.page.label wl).unreplay i.strand.launch, y1)
  | .host a => ({ (s.bounceWrite i.launch.fn none a bs).unreplay i.strand.launch with nextReq := s.nextReq + 1 },
      y1.count i.g s.nextReq p.1.page true p.1.dst)
  | .got _ _ => (s, y1)
  | _ => (s, y)

/-- A lane's store performed, part by part. -/
def State.writeParts (s : State) (i : Issuer) (y : Yarn) (wl : Label) (data : List Byte) :
    List (Part × PartState) → State × Yarn
  | [] => (s, y)
  | p :: t =>
    let r := s.writePart i y wl data p
    State.writeParts r.1 i r.2 wl data t

/-- The highest page label of a lane's parts. -/
def LaneAcc.pageLabel (a : LaneAcc) : Label := a.parts.foldl (fun m p => lmax m p.1.page.label) 0

/-- Whether a lane used a page of DOMAIN scope; an aperture's scope bits are ignored (R241). -/
def LaneAcc.domain (a : LaneAcc) : Bool := a.parts.any (fun p => decide (p.1.page.scope = 3 ∧ p.1.page.cls ≠ 3))

/-- An acquire at DOMAIN scope marks the yarn (R305): a refresh recorded before it no longer counts. -/
def Yarn.acquire (y : Yarn) (s : State) (domain : Bool) : Yarn :=
  if domain then { y with acqEvent := s.routeEvent + 1 } else y

/-! ### The course of an access -/

/-- Whether every write counted before a mark is acknowledged; `all` counts the unordered counter too (R253, R254). -/
def Yarn.drainedTo (y : Yarn) (mark : Nat) (all : Bool) : Bool :=
  y.counted.all (fun c => decide (mark ≤ c.id) || (!all && !c.ordered))

/-- The group held until the writes counted before it are acknowledged (R253, R254); `all` waits for its earlier scratchpad
accesses too (R178). -/
def State.drain (s : State) (i : Issuer) (all : Bool) (t : State) : State :=
  if all ∧ i.yarn.padPending then s
  else
    match i.g.drained with
    | none =>
      if i.yarn.drainedTo s.nextReq all then t
      else s.setYarn i.y (i.yarn.setGroup { i.g with drained := some s.nextReq })
    | some m => if i.yarn.drainedTo m all then t else s

/-- An access under way: pushed forward; once every lane is accepted or has failed, `fin` ends the instruction. -/
def State.pursue (s : State) (i : Issuer) (f : Form) (a : Access) (fin : State → Issuer → List LaneAcc → State) : State :=
  let r := s.pushLanes i f (f.metered a.lanes) [] a.lanes
  if r.2.all r.1.laneReady then fin r.1 i r.2
  else r.1.stay i (some (.accept { a with lanes := r.2 }))

/-- The parts of some lanes that a write counts in one of the two counters (R254): one for each part, none for an aperture
(R241). -/
def countsIn (ordered : Bool) (ls : List LaneAcc) : Nat :=
  ls.foldl (fun n a => n + (a.parts.filter (fun p => p.2.fault?.isNone && decide (p.1.page.cls ≠ 3)
    && decide (p.1.page.cls ≠ 2) == ordered)).length) 0

/-- Whether some lanes' writes would take a counter past 65,535 (R254). -/
def Yarn.overCount (y : Yarn) (ls : List LaneAcc) : Bool :=
  [true, false].any (fun o => decide (65535 < (y.counted.filter (fun c => c.ordered == o)).length + countsIn o ls)
    && decide (countsIn o ls ≠ 0))

/-- Whether some lane is on a STRONG page (R253). -/
def anyStrong (ls : List LaneAcc) : Bool := ls.any (fun a => a.parts.any (fun p => decide (p.1.page.cls = 1)))

/-- The course of an access instruction: its lanes judged once, the counters' room, STRONG pages and releases held for what
comes before (R253, R254), then acceptance. -/
def State.access (s : State) (i : Issuer) (f : Form) (release : Bool) (ws : List Want)
    (fin : State → Issuer → List LaneAcc → State) : State :=
  match i.g.wait with
  | some (.accept a) => s.pursue i f a fin
  | _ =>
    let ls := ws.map (s.laneAcc i f)
    let go := s.pursue i f { kind := f.kind, lanes := ls } fin
    let held := if anyStrong ls then s.drain i true go else if release then s.drain i false go else go
    if f.write ∧ i.yarn.overCount ls then s else held

/-- The faults of an access's lanes. -/
def lanesFaults (ls : List LaneAcc) : List LaneFault := ls.filterMap LaneAcc.fault

/-- The lanes of an access that met no fault. -/
def lanesOk (ls : List LaneAcc) : List LaneAcc := ls.filter (fun a => a.fault.isNone)

end Sys2Proof.Machine
end

