-- ==== Sys2Proof/Machine/Template.lean ====
section
/-! DEFINITION. Copy templates (R272 to R274), transaction barriers (R288 to R290), the aperture's registers (R267) and
the start of a copy (R269, R270). -/

namespace Sys2Proof.Machine

/-! ### A template's fields (R272) -/

def tKind (r : BitVec 512) : Nat := bitsAt r 0 4
def tFlag (r : BitVec 512) (n : Nat) : Bool := r.getLsbD (8 + n)
def tBarOn (r : BitVec 512) : Bool := r.getLsbD 31
def tBar (r : BitVec 512) : Nat := bitsAt r 16 15 * 16
def tBytes (r : BitVec 512) : Nat := recAt r 4 4
def tSrc (r : BitVec 512) : Nat := recAt r 8 8
def tDst (r : BitVec 512) : Nat := recAt r 16 8
def tRows (r : BitVec 512) : Nat := recAt r 24 4
def tSrcPitch (r : BitVec 512) : Nat := recAt r 28 4
def tDstPitch (r : BitVec 512) : Nat := recAt r 32 4
def tAux (r : BitVec 512) : Nat := recAt r 40 8
def tK (r : BitVec 512) : Nat := recAt r 48 4
def tN (r : BitVec 512) : Nat := recAt r 52 2
def tBits (r : BitVec 512) : Nat := recAt r 54 1

/-- The tile row and column of a start value (R269). -/
def tileRow (v : DWord) : Nat := bitsAt v 16 16
def tileCol (v : DWord) : Nat := bitsAt v 32 16

/-- The source address after the tile offset (R273). -/
def tSource (r : BitVec 512) (v : DWord) : Nat :=
  if tFlag r 2 then tSrc r + tileRow v * tRows r * tSrcPitch r + tileCol v * tBytes r else tSrc r

/-- The destination address after the tile offset (R273). -/
def tDest (r : BitVec 512) (v : DWord) : Nat :=
  if tFlag r 3 then tDst r + tileRow v * tRows r * tDstPitch r + tileCol v * tBytes r else tDst r

/-- Bytes a template moves: the extent of R276 for a DECK. -/
def tSize (r : BitVec 512) : Nat :=
  if tKind r = 2 ∨ tKind r = 3 then tRows r * tBytes r
  else if tKind r = 4 then 128 * tK r * tBits r / 8 + 4 * tK r
  else tBytes r

/-! ### The tests of R274 -/

/-- A reserved field or bit is nonzero. -/
def tReserved (r : BitVec 512) : Bool :=
  [decide (bitsAt r 4 4 ≠ 0), decide (bitsAt r 12 4 ≠ 0), decide (recAt r 36 4 ≠ 0), decide (recAt r 55 9 ≠ 0),
   tFlag r 0 && decide (bitsAt r 83 45 ≠ 0), tFlag r 1 && decide (bitsAt r 147 45 ≠ 0)].any id

/-- The fields a kind does not use (R272). -/
def tUnused (r : BitVec 512) : List Nat :=
  match tKind r with
  | 1 => [tRows r, tSrcPitch r, tDstPitch r, tAux r, tK r, tN r, tBits r]
  | 2 => [tAux r, tK r, tN r, tBits r]
  | 3 => [tK r, tN r, tBits r]
  | 4 => [tBytes r, tRows r, tSrcPitch r, tDstPitch r]
  | _ => [tRows r, tSrcPitch r, tDstPitch r, tAux r, tN r, tBits r]

/-- The flags a kind allows. -/
def tFlagOk (r : BitVec 512) : Bool :=
  match tKind r with
  | 1 | 2 => true
  | 3 => !tFlag r 0
  | 4 => !tFlag r 0 && !tFlag r 1 && !tFlag r 2 && !tFlag r 3
  | _ => !tFlag r 0 && !tFlag r 1

/-- A kind, a field or a flag is out of range. -/
def tBadField (L : Launch) (r : BitVec 512) : Bool :=
  [decide (tKind r = 0 ∨ 5 < tKind r), (tUnused r).any (fun n => decide (n ≠ 0)), !tFlagOk r,
   decide ((tKind r = 2 ∨ tKind r = 3) ∧ (tRows r = 0 ∨ 65535 < tRows r)),
   decide (tKind r = 4 ∧ (tN r ≠ 128 ∨ tK r % 32 ≠ 0 ∨ tK r = 0 ∨ 65536 < tK r)),
   decide (tKind r = 4) && !([4, 6, 8, 16, 32].contains (tBits r)),
   decide (tKind r = 4) && !L.matrix].any id

/-- A tile index is nonzero where R273 has it zero. -/
def tBadTile (r : BitVec 512) (v : DWord) : Bool :=
  (!tFlag r 2 && !tFlag r 3 && decide (tileRow v ≠ 0 ∨ tileCol v ≠ 0))
    || decide ((tKind r = 1 ∨ tKind r = 5) ∧ tileRow v ≠ 0)

/-- Bytes or a pitch break their multiples. -/
def tBadSize (r : BitVec 512) : Bool :=
  decide (tKind r ≠ 4 ∧ (tBytes r = 0 ∨ tBytes r % 32 ≠ 0)) || decide (tSrcPitch r % 32 ≠ 0 ∨ tDstPitch r % 32 ≠ 0)
    || decide ((tKind r = 2 ∨ tKind r = 3) ∧ tDstPitch r < tBytes r)

/-- The addresses to be aligned, each with its alignment. -/
def tAligned (r : BitVec 512) (v : DWord) : List (Nat × Nat) :=
  [(tSource r v, 32), (tDest r v, if tKind r = 4 then 256 else 32)]
    ++ (if tKind r = 3 then [(tAux r, 4)] else if tKind r = 4 then [(tAux r, 32)] else [])

/-- Bytes from a side's first to its last (R273). -/
def tSpan (r : BitVec 512) (pitch : Nat) : Nat :=
  if tKind r = 2 ∨ tKind r = 3 then (tRows r - 1) * pitch + tBytes r else tBytes r

/-- A scratchpad side or the barrier is outside the allocation, the slice extent beyond 2 MiB, or a global address is
not one. -/
def tOutside (L : Launch) (r : BitVec 512) (v : DWord) : Bool :=
  [tFlag r 0 && decide (L.alloc < tSource r v + tSpan r (tSrcPitch r)),
   tFlag r 1 && decide (L.alloc < tDest r v + tSpan r (tDstPitch r)),
   tBarOn r && decide (tKind r ≠ 5 ∧ L.alloc < tBar r + 16),
   decide (tKind r = 4 ∧ 2 ^ 21 < tDest r v + tSize r),
   !tFlag r 0 && decide (2 ^ 57 ≤ tSource r v),
   !tFlag r 1 && decide (tKind r ≠ 4 ∧ 2 ^ 57 ≤ tDest r v),
   decide ((tKind r = 3 ∨ tKind r = 4) ∧ 2 ^ 57 ≤ tAux r)].any id

/-- The first failing test of a record, at shape (`start` none) or for a start value: the cause, and the failing address
where there is one (R274). -/
def tCheck (L : Launch) (start : Option DWord) (r : BitVec 512) : Option (Byte × Option DWord) :=
  if tReserved r then some (cReservedField, none)
  else if tBadField L r then some (if start.isSome then cExtentBounds else cIllegalOp, none)
  else if (match start with | some v => tBadTile r v | none => false) then some (cExtentBounds, none)
  else if tBadSize r then some (if start.isSome then cCopyAlign else cShapeAlign, none)
  else
    match start with
    | none => none
    | some v =>
      match (tAligned r v).find? (fun p => decide (p.1 % p.2 ≠ 0)) with
      | some p => some (cCopyAlign, some (BitVec.ofNat 64 p.1))
      | none => if tOutside L r v then some (cExtentBounds, none) else none

/-- A record as the store or scale template of an mma: its source side and tile indexes ignored (R273). -/
def tAsStore (r : BitVec 512) : BitVec 512 :=
  r &&& ~~~(BitVec.ofNat 512 (pack [(8, 1), (10, 1), (64, 2 ^ 64 - 1), (224, 2 ^ 32 - 1)]))

/-- Whether a record may serve an epilogue that writes n bytes (R273, R216). -/
def tStoreOk (L : Launch) (n : Nat) (r : BitVec 512) : Bool :=
  decide (tKind r = 2 ∨ tKind r = 5) && (tCheck L (some 0) (tAsStore r)).isNone && decide (tSize r = n)

/-! ### Transaction barriers -/

/-- A barrier as read from scratchpad (R288). -/
def Strand.bar (x : Strand) (o : Nat) : BitVec 128 := BitVec.ofNat 128 (leNat (x.padRead o 16))

def barPhase (b : BitVec 128) : Nat := bitsAt b 0 4
def barArrivals (b : BitVec 128) : Nat := bitsAt b 4 20
def barReload (b : BitVec 128) : Nat := bitsAt b 24 20
def barSectors (b : BitVec 128) : Int := (b.extractLsb' 44 44).toInt

/-- A barrier's fields put together, its reserved bits kept. -/
def barMake (old : BitVec 128) (phase arrivals reload : Nat) (sectors : Int) : BitVec 128 :=
  old.extractLsb' 88 40 ++ BitVec.ofInt 44 sectors ++ BitVec.ofNat 20 reload ++ BitVec.ofNat 20 arrivals
    ++ BitVec.ofNat 4 phase

/-- complete(bar) (R289). -/
def barComplete (b : BitVec 128) : BitVec 128 :=
  if barArrivals b = 0 ∧ barSectors b = 0 then barMake b (barPhase b + 1) (barReload b) (barReload b) 0 else b

/-- Every group that waits at a barrier of a strand sees its phase move (R289). -/
def State.wakeBar (s : State) (x o : Nat) : State :=
  { s with yarns := s.yarns.map (fun c => (c.1, { c.2 with groups := c.2.groups.map (fun g =>
      if g.wait = some (.tb x o false) then { g with wait := some (.tb x o true) } else g) })) }

/-- A barrier written; its units' labels stay. -/
def State.setBar (s : State) (x o : Nat) (b : BitVec 128) : State :=
  let t := s.strandAt x
  let s1 := s.setStrand x ((t.padPut o (leBytes 16 b.toNat)).stamp o)
  if barPhase b = barPhase (t.bar o) then s1 else s1.wakeBar x o

/-- A barrier with its count of sectors changed. -/
def barCount (b : BitVec 128) (n : Int) : BitVec 128 :=
  barMake b (barPhase b) (barArrivals b) (barReload b) (barSectors b + n)

/-- Sectors registered with a barrier as a transfer starts: the count alone (R290). -/
def State.barRegister (s : State) (x o n : Nat) : State := s.setBar x o (barCount ((s.strandAt x).bar o) n)

/-- One sector landed: the count, and complete (R290). -/
def State.barLand (s : State) (x o : Nat) : State := s.setBar x o (barComplete (barCount ((s.strandAt x).bar o) (-1)))

/-! ### The aperture (R267, R268) -/

/-- A strand's current copy on a channel. -/
def Strand.current (x : Strand) (ch : Nat) : Option Copy :=
  match x.copies.find? (fun c => decide (c.chan = ch ∧ c.run.state ≠ .done)) with
  | some c => some c
  | none => (x.copies.filter (fun c => decide (c.chan = ch))).getLast?

/-- Copies of a strand on a channel that are not done. -/
def Strand.pendingOn (x : Strand) (ch : Nat) : Nat :=
  (x.copies.filter (fun c => decide (c.chan = ch ∧ c.run.state ≠ .done))).length

/-- STATUS as the strand sees it. -/
def Strand.apStatus (x : Strand) (ch : Nat) : Nat :=
  match x.current ch with
  | none => 0
  | some c =>
    let st := if c.run.state = .faulted then 2 else if c.run.state = .done then 0 else 1
    pack [(0, st), (8, if st = 2 then c.run.cause.toNat else 0), (16, bitsAt c.start 0 16), (32, x.pendingOn ch)]

/-- What a load of w bytes at an offset of the aperture gives. -/
def Strand.apRead (x : Strand) (ch off w : Nat) : Nat :=
  if w ≠ 8 then 0
  else if off = 8 then (match x.current ch with | some c => c.run.off | none => 0)
  else if off = 16 then x.apStatus ch
  else 0

/-! ### Reading a record and starting a copy -/

/-- What reading a template record gives. -/
inductive Record where
  | ok (r : BitVec 512)
  | bad
  | fault (cause : Byte) (addr : DWord)
  | wait (s : State)
  deriving DecidableEq, Repr

/-- Record n of the launch's table as a lane loads it (R184, R269); bad where the table has no such record. -/
def State.record (s : State) (i : Issuer) (l n : Nat) : Record :=
  let t := i.launch.tableAddr
  if t = 0 ∨ t % 64 ≠ 0 ∨ i.launch.tableSize ≤ n then .bad
  else
    let va := BitVec.ofNat 64 (t + 64 * n)
    match s.translate i.launch.fn va with
    | .ok { cls := 3#2, label := lab, .. } => if i.ceil < lab.toNat then .fault cPageProt va else .ok 0
    | _ =>
      match s.devRead (.lane i.y i.g.id l 1) i.launch.fn i.ceil i.yarn.elig va 64 with
      | .ok bs _ => .ok (BitVec.ofNat 512 (leNat bs))
      | .fault c a => .fault c a
      | .wait s' => .wait s'

/-- A strand's counts on one context (R291). -/
def Strand.issuedOn (x : Strand) (c : Nat) : Nat := Store.get 0 c x.issued
def Strand.doneOn (x : Strand) (c : Nat) : Nat := Store.get 0 c x.dones

/-- One more operation submitted on a context (R291). -/
def Strand.submit (x : Strand) (c : Nat) : Strand := { x with issued := Store.set 0 c (x.issuedOn c + 1) x.issued }

/-- A copy started: it takes the next number of its channel and registers its sectors with its barrier (R270, R290). On a channel
with no other to do it is the current copy, and RUNNING (R267). -/
def State.startCopy (s : State) (x ch : Nat) (r : BitVec 512) (v : DWord) (floor : Label) (yarn : Nat) : State :=
  let t := (s.strandAt x).submit ch
  let s1 := s.setStrand x { t with copies := t.copies ++
    [{ chan := ch, num := t.issuedOn ch, record := r, start := v, floor := floor, yarn := yarn,
       run := { state := if t.copies.any (fun c => decide (c.chan = ch ∧ c.run.state ≠ .done)) then .queued else .running } }] }
  if tBarOn r ∧ tKind r ≠ 5 then s1.barRegister x (tBar r) (tSize r / 32) else s1

end Sys2Proof.Machine
end

