-- ==== Sys2Proof/Machine/Global.lean ====
section
/-! DEFINITION. Global memory, atomics, fences, cache control and monitors: major opcodes 0x70 to 0x77, 0x6D and 0x6E
(R244 to R256, R152, R153), and the start of copies through an aperture (R269). -/

namespace Sys2Proof.Machine

open Host (Outcome)

/-! ### Shared course -/

/-- Modifier bits of a global access (R242). -/
def modU (m : BitVec 3) : Bool := m.getLsbD 2
def modAcq (m : BitVec 3) : Bool := m.getLsbD 0
def modRel (m : BitVec 3) : Bool := m.getLsbD 1

/-- A lane's global address (R244). -/
def Issuer.gAddr (i : Issuer) (s : State) (x : Args) (l : Nat) : DWord :=
  (i.operand s x.a true l).val + x.off.signExtend 64

/-- The lanes whose access an S destination leaves: the lowest and its twin (R246). -/
def Issuer.forDest (i : Issuer) (d : Dest) (G : List Nat) : List Nat :=
  match d with
  | .s _ => i.led G (i.lead G (G.headD 0))
  | _ => G

/-- What a lane of a global instruction asks for. -/
def Issuer.want (i : Issuer) (s : State) (x : Args) (w : Nat) (l : Nat) : Want :=
  let a := i.operand s x.a true l
  let b := i.operand s x.b x.ty.wide l
  let c := i.operand s x.c x.ty.wide l
  { lane := l, va := i.gAddr s x l, width := w, data := leBytes w b.val.toNat, data2 := leBytes w c.val.toNat,
    lab := a.lab, wlab := i.label [a, b, c] }

/-- Everything an access instruction has decided about its lanes: those it is for, and those whose pair disagrees. -/
structure Scope where
  all : List Nat
  mine : List Nat
  wrong : List Nat
  deriving DecidableEq, Repr

/-- The lanes of an access; a store's pairs must agree in address and data (R230). -/
def Issuer.scope (i : Issuer) (s : State) (x : Args) (cmp : Bool) : Scope :=
  let G := i.lanes x
  let G1 := i.forDest x.dst G
  let w := tyBits x.ty / 8
  let mm := if cmp then i.mismatched G1 (fun l =>
      let k := i.want s x w l
      (k.va, k.data, k.data2)) else []
  { all := G, mine := G1.filter (fun l => !mm.contains l), wrong := mm }

/-- What an instruction does at one part of a lane that it performs here: the bytes that stood there come back. -/
abbrev Perf := State → Issuer → Yarn → LaneAcc → Part × PartState → State × Yarn × List Byte

/-- A store at one part. -/
def storePerf : Perf := fun s i y a p =>
  let r := s.writePart i y a.wlab a.data p
  (r.1, r.2, [])

/-- Whether some lane has a part that its holder outside has passed and not been told to perform. -/
def anyPassed (ls : List LaneAcc) : Bool :=
  ls.any (fun a => a.parts.any (fun p => match p.2 with | .passed _ _ => true | _ => false))

/-- One part once every lane and part has passed: performed here, or its holder told to perform it, after which the launch
has written another package's page (R231). -/
def State.commitPart (s : State) (i : Issuer) (perf : Perf) (y : Yarn) (a : LaneAcc) (p : Part × PartState) :
    State × Yarn × (Part × PartState) :=
  match p.2 with
  | .passed _ _ => ((s.proceed (p.1.req.getD 0)).unreplay i.strand.launch, y, (p.1, .sent))
  | .here _ | .line | .host _ =>
    let r := perf s i y a p
    (r.1, r.2.1, (p.1, .got r.2.2 0))
  | _ => (s, y, p)

/-- The parts of a lane. -/
def State.commitParts (s : State) (i : Issuer) (perf : Perf) (y : Yarn) (a : LaneAcc) :
    List (Part × PartState) → State × Yarn × List (Part × PartState)
  | [] => (s, y, [])
  | p :: t =>
    let r := s.commitPart i perf y a p
    let q := State.commitParts r.1 i perf r.2.1 a t
    (q.1, q.2.1, r.2.2 :: q.2.2)

/-- The lanes, in ascending order (R176, R250). -/
def State.commitLanes (s : State) (i : Issuer) (perf : Perf) (y : Yarn) : List LaneAcc → State × Yarn × List LaneAcc
  | [] => (s, y, [])
  | a :: t =>
    let r := s.commitParts i perf y a a.parts
    let q := State.commitLanes r.1 i perf r.2.1 t
    (q.1, q.2.1, { a with parts := r.2.2 } :: q.2.2)

/-- Every lane and part of a write has passed: it is performed, and the group stays until its holders outside answer. -/
def State.commit (s : State) (i : Issuer) (kind : AccKind) (perf : Perf) (ls : List LaneAcc) : State :=
  let r := s.commitLanes i perf i.yarn ls
  r.1.setYarn i.y (r.2.1.setGroup { i.g with wait := some (.accept { kind := kind, lanes := r.2.2 }) })

/-- With a group's record answers forgotten. -/
def State.dropLaneBufs (s : State) (y g : Nat) : State :=
  { s with bufs := s.bufs.filter (fun b => match b.who with
      | .lane y' g' _ _ => !(decide (y' = y) && decide (g' = g))
      | _ => true) }

/-- What some lanes' holders outside have passed given up. -/
def State.forgo (s : State) (ls : List LaneAcc) : State :=
  s.dropPassed (fun o => ls.any (fun a => a.parts.any (fun p => decide (p.1.req = some o.req.id))))

/-- The lanes that failed leave the group before anything of the instruction is performed, and it stays at its instruction
with the others; without room it traps FRAY_FULL with no effect (R104). -/
def State.splitNow (s : State) (i : Issuer) (kind : AccKind) (G : List Nat) (fs : List LaneFault) (ls : List LaneAcc) : State :=
  let stay := fun (t : State) => t.stay i (some (.accept { kind := kind, lanes := ls }))
  let cs := causesOf fs
  if i.bank.handler then s.endFor i cs
  else if (s.freeEntries i.strand.core).length < cs.length then
    match s.handlerWait i with
    | some t => stay t
    | none => ((s.dropLaneBufs i.y i.g.id).forgo ls).trap i G cFrayFull s.anyArg .here
  else
    match s.splitWaits i i.g.idx cs with
    | some t => stay t
    | none =>
      let rest := ls.filter (fun a => !fs.any (fun f => decide (f.lane = a.lane)))
      (s.forgo (ls.filter (fun a => fs.any (fun f => decide (f.lane = a.lane))))).splitOff i i.g.idx fs
        (i.yarn.setGroup { i.g with wait := some (.accept { kind := kind, lanes := rest }) }) id

/-- An access instruction's end: lanes that failed split, the others take what `eff` does (R104, R245). A write that must go
on at a holder outside is performed once the failing lanes have left; from then on no lane of it fails any more. -/
def State.accessEnd (s : State) (i : Issuer) (o : Op) (x : Args) (f : Form) (c : Scope) (ls : List LaneAcc) (perf : Perf)
    (eff : State → Issuer → List LaneAcc → State × Yarn × List Res) : State :=
  let fs := i.spreadFaults c.mine (lanesFaults ls) ++ shadowFaults s.anyArg c.wrong
  let ok := c.all.filter (fun l => !fs.any (fun f => decide (f.lane = l)))
  let mine := c.mine.filter (fun l => ok.contains l)
  if anyPassed ls then
    if fs = [] then s.commit i f.kind perf ls else s.splitNow i f.kind c.all fs ls
  else s.finish i c.all fs (fun s1 =>
    let r := eff s1 i (lanesOk ls)
    (r.1, (i.killIn o x r.2.1 ok).push (i.pendOf x.dst x.ty.wide (i.spread mine r.2.2))))

/-- A load, an atomic or a reduction from its lanes' addresses to its end. -/
def State.global (s : State) (i : Issuer) (o : Op) (x : Args) (f : Form) (release cmp : Bool) (perf : Perf)
    (eff : State → Issuer → List LaneAcc → State × Yarn × List Res) : State :=
  s.once i x fun _ =>
    let c := i.scope s x cmp
    s.access i f release ((i.acting c.mine).map (i.want s x (tyBits x.ty / 8)))
      (fun s1 j ls => s1.accessEnd j o x f c ls perf eff)

/-- Aperture parts of a lane turned into PAGE_PROT (R268). -/
def LaneAcc.noAperture (a : LaneAcc) : LaneAcc :=
  { a with parts := a.parts.map (fun p => match p.2 with | .aper _ => (p.1, .fault cPageProt p.1.page.va) | _ => p) }

/-! ### Loads -/

/-- The bytes one part of a load gives. -/
def State.loadPart (s : State) (i : Issuer) (p : Part × PartState) : List Byte :=
  match p.2 with
  | .aper ch => leBytes p.1.len ((s.strandAt i.yarn.strand).apRead ch (p.1.page.va.toNat % 4096) p.1.len)
  | _ => s.readPart p

/-- What a lane's load gives: the value, and the highest label of page, address and floor (R247). -/
def State.loadRes (s : State) (i : Issuer) (x : Args) (a : LaneAcc) : Res :=
  { lane := a.lane, val := extended x.ty (a.parts.flatMap (s.loadPart i)),
    lab := i.label [{ lab := a.pageLabel }, { lab := a.lab }] }

/-- ld and ld.acq (R247). -/
def State.load (s : State) (i : Issuer) (o : Op) (x : Args) (unaligned acquire : Bool) : State :=
  s.global i o x { kind := .load, unaligned := unaligned } false false storePerf (fun s1 j ls =>
    (s1, if acquire then j.yarn.acquire s1 (ls.any LaneAcc.domain) else j.yarn, ls.map (s1.loadRes j x)))

/-- ld (R247, R249). -/
def execLd (x : Args) (s : State) : Outcome State Fault Refusal := issued s fun i => s.load i .ld x (modU x.mods) false

/-- ld.acq (R247). -/
def execLdAcq (x : Args) (s : State) : Outcome State Fault Refusal := issued s fun i => s.load i .ldAcq x false true

/-! ### Atomics and reductions -/

/-- A read-modify-write at one part, performed here, in an owned line, in host memory, or by its holder already (R250). -/
def atomPerf (x : Args) : Perf := fun s i y a p =>
  let w := tyBits x.ty / 8
  let bs := s.readPart p
  let new := atomic x.sub x.ty (BitVec.ofNat 64 (leNat bs)) (BitVec.ofNat 64 (leNat a.data)) (BitVec.ofNat 64 (leNat a.data2))
  let r := s.writePart i y a.wlab (leBytes w new.toNat) p
  (r.1, r.2, bs)

/-- One lane's read-modify-write. -/
def State.atomLane (s : State) (i : Issuer) (x : Args) (y : Yarn) (a : LaneAcc) : State × Yarn × DWord :=
  match a.parts with
  | p :: _ =>
    let r := atomPerf x s i y a p
    (r.1, r.2.1, BitVec.ofNat 64 (leNat r.2.2))
  | [] => (s, y, 0)

/-- The lanes' operations in ascending order, each seeing the one before it. -/
def State.atomLanes (s : State) (i : Issuer) (x : Args) (y : Yarn) : List LaneAcc → State × Yarn × List Res
  | [] => (s, y, [])
  | a :: t =>
    let r := s.atomLane i x y a
    let q := State.atomLanes r.1 i x r.2.1 t
    (q.1, q.2.1, { lane := a.lane, val := r.2.2, lab := i.label [{ lab := a.pageLabel }, { lab := a.lab }] } :: q.2.2)

/-- The course of an atomic or a reduction (R250 to R252). -/
def State.atomically (s : State) (i : Issuer) (o : Op) (x : Args) (kind : AccKind) : State :=
  s.once i x fun _ =>
    let c := i.scope s x true
    let f : Form := { kind := kind, write := true, read := decide (kind = .atom), op := x.sub, ty := x.ty }
    let eff := fun (s1 : State) (j : Issuer) (ls : List LaneAcc) =>
      let r := s1.atomLanes j x j.yarn ls
      (r.1, if modAcq x.mods then r.2.1.acquire s1 (ls.any LaneAcc.domain) else r.2.1,
        if kind = .atom then r.2.2 else [])
    s.access i f (modRel x.mods) ((i.acting c.mine).map (i.want s x (tyBits x.ty / 8)))
      (fun s1 j ls => s1.accessEnd j o x f c (ls.map LaneAcc.noAperture) (atomPerf x) eff)

/-- atom (R250, R252). -/
def execAtom (x : Args) (s : State) : Outcome State Fault Refusal := issued s fun i => s.atomically i .atom x .atom

/-- red (R251). -/
def execRed (x : Args) (s : State) : Outcome State Fault Refusal := issued s fun i => s.atomically i .red x .red

/-! ### Stores, and the start of copies -/

/-- The channel a lane's store starts a copy on, if its address is a START register: an aligned 8-byte store (R268). -/
def LaneAcc.start (a : LaneAcc) : Option Nat :=
  match a.parts with
  | [(p, .aper ch)] => if p.len = 8 ∧ p.page.va.toNat % 4096 = 0 then some ch else none
  | _ => none

/-- Aperture parts that are no start turned into PAGE_PROT (R268). -/
def LaneAcc.onlyStarts (a : LaneAcc) : LaneAcc := if a.start.isSome then a else a.noAperture

/-- The 64-bit value a store carries. -/
def LaneAcc.value (a : LaneAcc) : DWord := BitVec.ofNat 64 (leNat a.data)

/-- A lane marked by the checks of a start (R269). -/
structure Mark where
  lane : Nat
  cause : Byte
  arg : Option DWord
  deriving DecidableEq, Repr

/-- The mark a record gives a lane. -/
def LaneAcc.mark (a : LaneAcc) (L : Launch) (r : BitVec 512) : List Mark :=
  match tCheck L (some a.value) r with
  | some (c, d) => [⟨a.lane, c, d⟩]
  | none => []

/-- A lane's record once read, kept with the lane. -/
def LaneAcc.template (a : LaneAcc) : BitVec 512 := BitVec.ofNat 512 (leNat a.data2)

/-- The records of the lanes that start copies, read and checked: the lanes with their records, their marks, and whether
a record is still to come (R269). -/
def State.readRecords (s : State) (i : Issuer) : List LaneAcc → State × List LaneAcc × List Mark × Bool
  | [] => (s, [], [], false)
  | a :: t =>
    let keep := fun (s : State) (a : LaneAcc) (ms : List Mark) (w : Bool) =>
      let q := State.readRecords s i t
      (q.1, a :: q.2.1, ms ++ q.2.2.1, w || q.2.2.2)
    if a.start.isNone then keep s a [] false
    else if bitsAt a.value 48 16 ≠ 0 then keep s a [⟨a.lane, cReservedField, none⟩] false
    else if a.data2 ≠ [] then keep s a (a.mark i.launch a.template) false
    else
      match s.record i a.lane (bitsAt a.value 0 16) with
      | .ok r => keep s { a with data2 := leBytes 64 r.toNat } (a.mark i.launch r) false
      | .bad => keep s a [⟨a.lane, cExtentBounds, none⟩] false
      | .fault c d => keep s { a with parts := a.parts.map (fun p => (p.1, PartState.fault c d)) } [] false
      | .wait s' => keep s' a [] true

/-- Copies started, lane by lane, as long as the strand has room on the channel; a lane whose copy started has nothing
left to do (R269, R270). -/
def State.startLanes (s : State) (i : Issuer) : Bool → List LaneAcc → State × List LaneAcc
  | _, [] => (s, [])
  | go, a :: t =>
    match a.start with
    | none =>
      let q := State.startLanes s i go t
      (q.1, a :: q.2)
    | some ch =>
      if !(a.mark i.launch a.template).isEmpty then
        let q := State.startLanes s i go t
        (q.1, a :: q.2)
      else if go ∧ (s.strandAt i.yarn.strand).pendingOn ch < 16 then
        let q := State.startLanes (s.startCopy i.yarn.strand ch a.template a.value i.bank.floor i.y) i true t
        (q.1, { a with parts := [] } :: q.2)
      else
        let q := State.startLanes s i false t
        (q.1, a :: q.2)

/-- Ordinary lanes of a store performed (R248). -/
def State.storeLanes (s : State) (i : Issuer) (y : Yarn) : List LaneAcc → State × Yarn
  | [] => (s, y)
  | a :: t =>
    let r := if a.start.isSome then (s, y) else s.writeParts i y a.wlab a.data a.parts
    State.storeLanes r.1 i r.2 t

/-- A store with starts, every lane accepted or failed: failed lanes split, what holders outside perform is performed, copies
start, the ordinary lanes are performed, and the lanes of an unaligned record trap (R269). -/
def State.startEnd (s : State) (i : Issuer) (o : Op) (x : Args) (c : Scope) (ls : List LaneAcc) : State :=
  let fs := i.spreadFaults c.mine (lanesFaults ls) ++ shadowFaults s.anyArg c.wrong
  let stay := fun (t : State) (ls : List LaneAcc) => t.stay i (some (.accept { kind := .store, lanes := ls }))
  let marks := ls.flatMap (fun a => if a.start.isSome then a.mark i.launch a.template else [])
  if fs ≠ [] then s.splitNow i .store c.all fs ls
  else if anyPassed ls then s.commit i .store storePerf ls
  else
    match (if marks = [] then none else s.handlerWait i) with
    | some t => stay t ls
    | none =>
      let q := s.startLanes i true ls
      if q.2.any (fun a => a.start.isSome && (a.mark i.launch a.template).isEmpty) then stay q.1 q.2
      else
        let bad := c.all.filter (fun l => marks.any (fun m => decide (m.lane = i.lead c.all l)))
        let r := q.1.storeLanes i i.yarn q.2
        let y1 := i.killIn o x r.2 (c.all.filter (fun l => !bad.contains l))
        let s1 := r.1.dropLaneBufs i.y i.g.id
        match marks with
        | [] => s1.done i y1
        | m :: _ =>
          let s2 := s1.setYarn i.y y1
          s2.trap (s2.again i) bad cCopyAlign (m.arg.getD s.anyArg) .here

/-- A store whose lanes are judged: starts are checked first, then the lanes are accepted, then performed. -/
def State.storeGo (s : State) (i : Issuer) (o : Op) (x : Args) (f : Form) (c : Scope) (ls : List LaneAcc) : State :=
  let q := s.readRecords i ls
  if q.2.2.2 then q.1.stay i (some (.accept { kind := .store, lanes := q.2.1 }))
  else
    match q.2.2.1.find? (fun m => decide (m.cause ≠ cCopyAlign)) with
    | some m => (q.1.dropLaneBufs i.y i.g.id).trap i c.all m.cause (m.arg.getD s.anyArg) .here
    | none =>
      q.1.pursue i f { kind := .store, lanes := q.2.1 } (fun s1 j ls =>
        if ls.any (fun a => a.start.isSome || a.parts.isEmpty) then s1.startEnd j o x c ls
        else s1.accessEnd j o x f c ls storePerf (fun s2 j2 ls =>
          let r := s2.storeLanes j2 j2.yarn ls
          (r.1, r.2, [])))

/-- st and st.rel (R248, R249, R269). -/
def State.store (s : State) (i : Issuer) (o : Op) (x : Args) (unaligned release : Bool) : State :=
  s.once i x fun G =>
    let c := i.scope s x true
    let f : Form := { kind := .store, write := true, read := false, unaligned := unaligned }
    match i.g.wait with
    | some (.accept a) => s.storeGo i o x f c a.lanes
    | _ =>
      let reach := fun l => match s.translate i.launch.fn (i.gAddr s x l) with
        | .ok p => decide (p.cls = 3)
        | .error _ => false
      if i.bank.role ≠ 0 ∧ G.any reach then s.trap i G cRole s.anyArg .after
      else
        let ls := (((i.acting c.mine).map (i.want s x (tyBits x.ty / 8))).map (s.laneAcc i f)).map (fun a =>
          { a with data2 := [] }.onlyStarts)
        let go := s.storeGo i o x f c ls
        if i.yarn.overCount ls then s
        else if anyStrong ls then s.drain i true go
        else if release then s.drain i false go
        else go

/-- st (R248, R249). -/
def execSt (x : Args) (s : State) : Outcome State Fault Refusal :=
  issued s fun i => s.store i .st x (modU x.mods) false

/-- st.rel (R248, R254). -/
def execStRel (x : Args) (s : State) : Outcome State Fault Refusal := issued s fun i => s.store i .stRel x false true

/-! ### Fences and cache control -/

/-- Whether a fence's scope is DOMAIN: that of the widest page, a lane that does not translate counting so (R253), an
aperture's scope bits ignored (R241). -/
def State.fenceDomain (s : State) (i : Issuer) (x : Args) (G : List Nat) : Bool :=
  G.any (fun l => match s.translate i.launch.fn (i.gAddr s x l) with
    | .ok p => decide (p.scope = 3 ∧ p.cls ≠ 3)
    | .error _ => true)

/-- A fence: every earlier scratchpad access is performed; an acquire marks the yarn, a release waits for both counters (R253,
R254). -/
def State.fenceOp (s : State) (i : Issuer) (o : Op) (x : Args) (acq rel : Bool) : State :=
  s.once i x fun G =>
    let y1 := if acq then i.yarn.acquire s (s.fenceDomain i x G) else i.yarn
    let go := s.done i (i.killIn o x y1 G)
    if i.yarn.padPending then s else if rel then s.drain i true go else go

/-- fence.acq (R253): every earlier load is performed already. -/
def execFenceAcq (x : Args) (s : State) : Outcome State Fault Refusal := issued s fun i => s.fenceOp i .fenceAcq x true false

/-- fence.rel (R253). -/
def execFenceRel (x : Args) (s : State) : Outcome State Fault Refusal := issued s fun i => s.fenceOp i .fenceRel x false true

/-- fence.ar (R253). -/
def execFenceAr (x : Args) (s : State) : Outcome State Fault Refusal := issued s fun i => s.fenceOp i .fenceAr x true true

/-- prefetch (R256): it changes no value. -/
def execPrefetch (x : Args) (s : State) : Outcome State Fault Refusal :=
  issued s fun i => s.once i x fun _ => s.doneKill i .prefetch x

/-- The line of another origin owned here that a lane's address is in; none where a lane would fail steps 1 to 4 of R244, or
has no route (R256). -/
def State.lineFor (s : State) (i : Issuer) (va : DWord) : Option (Page × Owned) :=
  match s.translate i.launch.fn va with
  | .error _ => none
  | .ok p =>
    match s.routeLoad p i.yarn.elig, s.lineOf p.fab with
    | .ok _, some o => if i.ceil < p.label.toNat ∨ p.cls = 3 ∨ s.inSeal p.fab then none else some (p, o)
    | _, _ => none

/-- Each line of some lanes once, with the lane that names it first. -/
def firstLines : List (Nat × Page × Owned) → List (Nat × Page × Owned)
  | [] => []
  | c :: t => c :: (firstLines t).filter (fun d => !decide (d.2.1.fab.toNat / 64 = c.2.1.fab.toNat / 64))

/-- A line owned here sent to its origin, as a write that awaits its acknowledgement; given up by `release` (R264). -/
def State.sendLine (s : State) (who : Who) (k : Nat) (o : Owned) (release : Bool) : State :=
  let a : Fab := BitVec.ofNat 57 (64 * k)
  let s1 := s.tollPaid (.line k)
  let p := { s1.packetTo o.origin with ack := some s1.nextReq }
  { s1 with
    outbox := s1.outbox ++ [.writeBack o.origin p ⟨a, o.bytes, o.lab⟩ release]
    reqs := Store.put s1.nextReq { req := { id := s1.nextReq, kind := .store, addr := a }, dst := o.origin, who := who,
                                   accepted := true, fn := o.fn } s1.reqs
    nextReq := s1.nextReq + 1
    ownedHere := if release then Store.drop k s1.ownedHere else Store.put k { o with lab := none } s1.ownedHere }

/-- The lines of an instruction sent to their origins, one after the other, and the lanes that wait for it. -/
def State.sendLines (s : State) (i : Issuer) (release : Bool) : List (Nat × Page × Owned) → State × List LaneAcc
  | [] => (s, [])
  | (l, p, o) :: t =>
    let r := s.sendLine (.lane i.y i.g.id l 0) (p.fab.toNat / 64) o release
    let q := State.sendLines r i release t
    (q.1, { lane := l, parts := [({ page := p, len := 64, dst := o.origin, req := some s.nextReq }, .taken [] 0)] } :: q.2)

/-- Whether a line owned here holds label-2 bytes that its write-back carries out of the package (R350, R357). -/
def Owned.hot (o : Owned) : Bool := o.lab.isSome && decide (o.carried = 2)

/-- Lines that hold label-2 bytes admitted by the meter of the function that wrote them last, all of them (R357). -/
def State.tollLines (s : State) : List (Nat × Page × Owned) → State × Bool
  | [] => (s, true)
  | (_, p, o) :: t =>
    let r := if o.hot then s.toll o.fn (.line (p.fab.toNat / 64)) 2 else (s, true)
    let q := State.tollLines r.1 t
    (q.1, r.2 && q.2)

/-- cwb and cinv over the lanes: the lines written here go to their origins, and the instruction completes once each is
performed there (R256); cinv gives every line up. -/
def State.cacheOp (s : State) (i : Issuer) (o : Op) (x : Args) (release : Bool) : State :=
  s.once i x fun G =>
    match i.g.wait with
    | some (.accept a) => if a.lanes.all s.laneReady then s.doneKill i o x else s
    | _ =>
      let mine := firstLines (G.filterMap (fun l => (s.lineFor i (i.gAddr s x l)).map (fun c => (l, c.1, c.2))))
      let ls := mine.filter (fun c => release || c.2.2.lab.isSome)
      let m := s.tollLines ls
      if !m.2 then m.1
      else
        let r := m.1.sendLines i release ls
        if r.2 = [] then r.1.doneKill i o x else r.1.stay i (some (.accept { kind := .store, lanes := r.2 }))

/-- cwb (R256, R264). -/
def execCwb (x : Args) (s : State) : Outcome State Fault Refusal := issued s fun i => s.cacheOp i .cwb x false

/-- cinv (R256, R264). -/
def execCinv (x : Args) (s : State) : Outcome State Fault Refusal := issued s fun i => s.cacheOp i .cinv x true

/-! ### Monitors (R152, R153) -/

/-- Lanes' monitors armed. -/
def Yarn.arm (y : Yarn) (m : Monitor) : List Nat → Yarn
  | [] => y
  | l :: t => Yarn.arm (y.setLane l { y.lane l with monitor := some m }) m t

/-- Writes a global block has taken, as this package counts them. -/
def State.globStamp (s : State) (a : Nat) : Nat := Store.get 0 (a / 64) s.mem.stamps

/-- Writes a scratchpad block has taken. -/
def State.padStampAt (s : State) (x o : Nat) : Nat := Store.get 0 (o / 64) (s.strandAt x).padStamp

/-- The monitor a lane's load arms; an aperture names no block. -/
def State.globMonitor (s : State) (x : Args) (a : LaneAcc) (v : DWord) : Option Monitor :=
  match a.parts with
  | (p, st) :: _ =>
    let at_ := match st with
      | .here q => q.toNat
      | .aper _ => 2 ^ 57
      | _ => p.page.fab.toNat
    some { glob := true, addr := p.page.va, place := at_, width := tyBits x.ty / 8, value := v, seen := s.globStamp at_ }
  | [] => none

/-- monw (R152). -/
def execMonw (x : Args) (s : State) : Outcome State Fault Refusal :=
  issued s fun i =>
    let w := tyBits x.ty / 8
    if flag29 x.mods then
      s.spAccess i .monw x false (i.spAddr s x false) w none x.ty.wide (fun s1 locs =>
        (s1, locs.map (fun p =>
          let t := s1.strandAt p.x
          { lane := p.lane, val := extended x.ty (t.padRead p.off w),
            lab := i.label [{ lab := t.unitLabel p.off }, i.operand s x.a false p.lane] })))
        (fun y locs => locs.foldl (fun y p =>
          y.arm { glob := false, addr := BitVec.ofNat 64 p.off, place := p.x, width := w,
                  value := extended x.ty ((s.strandAt p.x).padRead p.off w), seen := s.padStampAt p.x p.off }
            (i.led (i.lanes x) p.lane)) y)
    else
      s.global i .monw x { kind := .mon } false false storePerf (fun s1 j ls =>
        let y1 := j.yarn.acquire s1 (ls.any LaneAcc.domain)
        let y2 := ls.foldl (fun y a => match s1.globMonitor x a (s1.loadRes j x a).val with
          | some m => y.arm m (j.led (j.lanes x) a.lane)
          | none => y) y1
        (s1, y2, ls.map (s1.loadRes j x)))

/-- Whether a lane's mwait is over: woken, or no monitor was armed. -/
def Lane.awake (v : Lane) : Bool := match v.monitor with | none => true | some m => m.woken.isSome

/-- The reason a lane's mwait ended (R153). -/
def Lane.wakeReason (v : Lane) : Word := match v.monitor with | none => 3 | some m => m.woken.getD 3

/-- A lane's monitor beginning to wait. -/
def Lane.beginWait (v : Lane) (t limit : Nat) : Lane :=
  match v.monitor with
  | none => v
  | some m => { v with monitor := some { m with since := some t, limit := limit } }

/-- mwait (R153): the group goes on when every lane has woken; waking disarms. -/
def execMwait (x : Args) (s : State) : Outcome State Fault Refusal :=
  issued s fun i => s.once i x fun G =>
    let limit := (i.first s G x.a false).val.toNat
    let y0 := match i.g.wait with
      | some .mwait => i.yarn
      | _ => i.yarn.mapLanes (fun _ v => v.beginWait (i.cycles s) limit) G
    if G.all (fun l => (y0.lane l).awake) then
      let rs := G.map (fun l => (⟨l, (y0.lane l).wakeReason.setWidth 64, 0, 0⟩ : Res))
      s.compute { i with yarn := y0.mapLanes (fun _ v => { v with monitor := none }) G } .mwait x rs
    else s.setYarn i.y (y0.setGroup { i.g with wait := some .mwait })

/-- A lane's waiting monitor, if it has one that has not woken. -/
def State.waitingMonitor (s : State) (y l : Nat) : Option (Yarn × Monitor) :=
  match Store.find y s.yarns with
  | none => none
  | some v =>
    match (v.lane l).monitor with
    | some m => if m.since.isSome ∧ m.woken = none ∧ !m.reread ∧ v.slot.isSome then some (v, m) else none
    | none => none

/-- A waiting monitor woken for a reason. -/
def State.wakeMonitor (s : State) (y l : Nat) (on : Monitor → Bool) (why : Word) : Outcome State Fault Refusal :=
  match s.waitingMonitor y l with
  | none => .refused .notEnabled
  | some (v, m) =>
    event (on m) (s.setYarn y (v.setLane l { v.lane l with monitor := some { m with woken := some why } }))

/-- Writes the watched block has taken, as this package counts them. -/
def State.stampOf (s : State) (m : Monitor) : Nat :=
  if m.glob then s.globStamp m.place else s.padStampAt m.place m.addr.toNat

/-- Whether another package's memory holds the watched block. -/
def State.watchesAway (s : State) (m : Monitor) : Bool :=
  m.glob && decide (m.place < 2 ^ 57) && decide (peerOf (BitVec.ofNat 57 m.place) ≠ s.peer)
    && (s.lineOf (BitVec.ofNat 57 m.place)).isNone

/-- Whether the watched block may have taken a write since the monitor was armed: one counted here, or one that its holder
outside reports. -/
def State.written (s : State) (m : Monitor) : Bool := decide (s.stampOf m ≠ m.seen) || s.watchesAway m

/-- A restored monitor's address read anew (R153). -/
def State.reread (s : State) (y l : Nat) (v : Yarn) (m : Monitor) : Got :=
  let L := s.launchOf (s.strandAt v.strand)
  if m.glob then s.devRead (.monitor y l) L.fn L.ceil v.elig m.addr m.width
  else .ok ((s.strandAt m.place).padRead m.addr.toNat m.width) 0

/-- A restored monitor once its address is read anew: where the value differs its fibre wakes with reason 1, else it watches
on (R153). A scratchpad monitor watches the strand it was armed on. DESIGN CHOICE (log 18): a read that faults shows no difference. -/
def State.rereadMonitor (s : State) (y l : Nat) (v : Yarn) (m : Monitor) : State :=
  let kept : Monitor := { m with reread := false, seen := s.stampOf m }
  let put := fun (t : State) (n : Monitor) =>
    (t.dropBufs (.monitor y l)).setYarn y (v.setLane l { v.lane l with monitor := some n })
  match s.reread y l v m with
  | .wait s1 => s1
  | .fault _ _ => put s kept
  | .ok bs _ => put s (if leNat bs = m.value.toNat % 2 ^ (8 * m.width) then kept else { kept with woken := some 1 })

/-- MONITOR_WAKE (R153): a restored monitor read anew, or a write seen, with reason 0. -/
def execMonitorWake (y lane : Nat) (s : State) : Outcome State Fault Refusal :=
  match Store.find y s.yarns with
  | none => .refused .notEnabled
  | some v =>
    match (v.lane lane).monitor with
    | none => .refused .notEnabled
    | some m =>
      if m.reread then event (v.slot.isSome && !s.asking (.monitor y lane)) (s.rereadMonitor y lane v m)
      else s.wakeMonitor y lane s.written 0

/-- MWAIT_LIMIT (R153, reason 2). -/
def execMwaitLimit (y lane : Nat) (s : State) : Outcome State Fault Refusal :=
  s.wakeMonitor y lane (fun m =>
    match Store.find y s.yarns, m.since with
    | some v, some t => decide (m.limit ≠ 0) && decide (m.limit ≤ elapsed (s.cycles (s.strandAt v.strand).core) t)
    | _, _ => false) 2

/-- WAKE_THAT_NAMES_NO_WRITE (R153, reason 4). -/
def execWakeThatNamesNoWrite (y lane : Nat) (s : State) : Outcome State Fault Refusal :=
  s.wakeMonitor y lane (fun _ => true) 4

/-! ### Answers and acknowledgements -/

/-- One part of a lane under acceptance changed. -/
def State.setPart (s : State) (y g l p : Nat) (f : Part × PartState → Part × PartState) : State :=
  let lane := fun (a : LaneAcc) => if a.lane = l then { a with parts := a.parts.modify p f } else a
  { s with yarns := Store.modify y (fun v => { v with groups := v.groups.map (fun q =>
      if q.id = g then
        match q.wait with
        | some (.accept a) => { q with wait := some (.accept { a with lanes := a.lanes.map lane }) }
        | _ => q
      else q) }) s.yarns }

/-- The part a request belongs to. -/
def State.partOfReq (s : State) (r y g l p : Nat) : Option Part :=
  match Store.find y s.yarns with
  | none => none
  | some v =>
    match v.group g with
    | some { wait := some (.accept a), .. } =>
      match a.lanes.find? (fun k => k.lane == l) with
      | some k => (k.parts[p]?).bind (fun q => if q.1.req = some r then some q.1 else none)
      | none => none
    | _ => none

/-- The answer to a request filled in, if its requester still waits for it. -/
def State.fillBuf (s : State) (r : Nat) (ans : Answer) : State :=
  { s with bufs := s.bufs.map (fun b => if b.req = r ∧ b.ans = none then { b with ans := some ans } else b) }

/-- Whether a request writes: knot.init and knot.put, sub-opcodes 0 and 1, do (R341). -/
def reqWrites (r : Request) : Bool :=
  decide (r.kind = .store ∨ r.kind = .atom ∨ r.kind = .red ∨ (r.kind = .knot ∧ r.op.toNat < 2))

/-- A buffer whose write is visible at its page's scope (R294). -/
def State.ackBuf (s : State) (r : Nat) : State :=
  { s with bufs := s.bufs.map (fun b => if b.req = r ∧ b.write then { b with acked := true } else b) }

/-- A buffer whose write was accepted and then lost with its holder: it has failed (R284, R294). -/
def State.failBuf (s : State) (r : Nat) : State :=
  { s with bufs := s.bufs.map (fun b =>
      if b.req = r ∧ b.write then { b with ans := some { ok := false, cause := cUnreach } } else b) }

/-- A function's lost writes counted (R263). -/
def State.loseFor (s : State) (fn : Nat) (n : Nat) : State :=
  let f := s.func fn
  if n = 0 then s else s.setFunc fn { f with tele := { f.tele with lost := f.tele.lost + n } }

/-- A write performed by a holder outside, as this package's monitors see it (R153). -/
def State.stampReq (s : State) (r : Request) : State :=
  if reqWrites r then { s with mem := s.mem.stamp r.addr.toNat r.width } else s

/-- An accepted write of a lane counted in its yarn (R254). -/
def State.countReq (s : State) (y g r : Nat) (dst : Peer) (p : Page) : State :=
  { s with yarns := Store.modify y (fun v => v.count ((v.group g).getD { id := g, lanes := 0, pc := 0 }) r p false dst) s.yarns }

/-- The load field of an answer from beyond the pod recorded (R324). -/
def State.noteLoad (s : State) (dst : Peer) (l : BitVec 3) : State :=
  if s.inPod dst then s
  else { s with loads := Store.set 0 dst.toNat l s.loads, loadAt := Store.put dst.toNat s.now s.loadAt }

/-- What the read of an atomic gives whose write was lost with its holder (R263): free values (log entry 32). -/
def State.lostBytes (s : State) (n : Nat) : List Byte := leBytes n (Config.lostValue s.tick).toNat

/-- A lane's part answered (R245, R254, R265): its checks have passed or failed, or the access is accepted. An answer that no
lane waits for any more settles the request; one that had passed is given up, and a write accepted all the same stays known until
it is acknowledged (R163). A write whose checks have passed is accepted, and
fails its lane no more: one that its holder loses is counted as lost (R263). -/
def State.answerPart (s : State) (r : Nat) (o : OutReq) (y g l p : Nat) (ans : Answer) : State :=
  let gone := ({ s with reqs := Store.drop r s.reqs }).settleReq r
  match s.partOfReq r y g l p with
  | none =>
    if o.req.stage = .ask ∧ ans.ok then s.dropReq r
    else if reqWrites o.req ∧ ans.ok then { s with reqs := Store.put r { o with accepted := true } s.reqs }.settleReq r
    else gone
  | some part =>
    if !ans.ok ∧ o.req.stage = .go then
      (gone.loseFor o.fn 1).setPart y g l p (fun c => (c.1, .got (s.lostBytes part.len) 0))
    else if !ans.ok then gone.setPart y g l p (fun c => (c.1, .fault ans.cause (faultAddr ans.cause part.page.va part.page)))
    else if o.req.stage = .ask then
      { s with reqs := Store.put r { o with passed := true } s.reqs }.setPart y g l p (fun c => (c.1, .passed o.dst o.req))
    else if o.req.strong ∧ reqWrites o.req then
      ({ s with reqs := Store.put r { o with accepted := true } s.reqs }.settleReq r).setPart y g l p
        (fun c => (c.1, .taken ans.data ans.label))
    else
      let s1 := (gone.stampReq o.req).setPart y g l p (fun c => (c.1, .got ans.data ans.label))
      if reqWrites o.req then s1.countReq y g r o.dst part.page else s1

/-- An answer sent to a peer, under this package's name (R245, R263). -/
def State.tell (s : State) (dst : Peer) (id : Nat) (a : Answer) : State :=
  let p := s.packetTo dst
  { s with outbox := s.outbox ++ [.answer dst id { a with src := p.src, srcInc := p.srcInc, dstInc := p.dstInc }] }

/-- An acknowledgement sent to a peer (R254, R263). -/
def State.ackTo (s : State) (dst : Peer) (id : Nat) : State :=
  let p := s.packetTo dst
  { s with outbox := s.outbox ++ [.acked dst { id := id, src := p.src, srcInc := p.srcInc, dstInc := p.dstInc }] }

/-- A relayed request answered by the holder it was passed on to (R308): one that has passed its checks, or a write that is
still to be acknowledged, stays known. -/
def State.answerRelay (s : State) (r : Nat) (o : OutReq) (src : Peer) (id : Nat) (ans : Answer) : State :=
  let told := s.tell src id ans
  if o.req.stage = .ask ∧ ans.ok then { told with reqs := Store.put r { o with passed := true } told.reqs }
  else if reqWrites o.req ∧ ans.ok then { told with reqs := Store.put r { o with accepted := true } told.reqs }.settleReq r
  else ({ told with reqs := Store.drop r told.reqs }).settleReq r

/-- A request of this package answered by its holder: what waits for it goes on (R245). -/
def State.answered (s : State) (r : Nat) (o : OutReq) (ans : Answer) : State :=
  let filled := fun (_ : Unit) =>
    if reqWrites o.req ∧ ans.ok then
      ({ s with reqs := Store.put r { o with accepted := true } s.reqs }.settleReq r).fillBuf r ans
    else (({ s with reqs := Store.drop r s.reqs }).settleReq r).fillBuf r ans
  let s1 : State := match o.who with
    | .lane y g l p =>
      if s.bufs.any (fun b => decide (b.req = r)) then filled () else s.answerPart r o y g l p ans
    | .relay src id => s.answerRelay r o src id ans
    | _ => filled ()
  s1.releaseOrder o.who o.req.addr

/-- Whether some counter still holds a write. -/
def State.counts (s : State) (r : Nat) : Bool :=
  s.yarns.any (fun c => c.2.counted.any (fun k => decide (k.id = r)))
    || s.launches.any (fun c => c.2.unacked.any (fun k => decide (k.id = r)))

/-- A write taken from every counter that holds it. -/
def State.uncount (s : State) (r : Nat) : State :=
  let f := fun (l : List Counted) => l.filter (fun k => !decide (k.id = r))
  { s with yarns := s.yarns.map (fun c => (c.1, { c.2 with counted := f c.2.counted }))
           launches := s.launches.map (fun c => (c.1, { c.2 with unacked := f c.2.unacked })) }

end Sys2Proof.Machine
end

