-- ==== Sys2Proof/Machine/Engines.lean ====
section
/-! DEFINITION. The copy engines and their instructions: major opcodes 0x78 to 0x7A (R281 to R292), the movement of
copies by sectors (R271, R275 to R279, R284), and remote completion signals (R172). -/

namespace Sys2Proof.Machine

open Host (Outcome)

/-! ### What an engine reads and writes -/

/-- What an engine's access is made for. -/
structure Job where
  who : Who
  x : Nat
  l : Nat
  launch : Launch
  el : Elig
  deriving DecidableEq, Repr

/-- What an engine's write gives. -/
inductive Put where
  | ok (s : State) (home : Peer)
  | fault (cause : Byte) (addr : DWord)
  | wait (s : State)
  deriving DecidableEq, Repr

/-- Bytes an engine asks a holder outside to write, once the meter admits them (R357). The launch has then written another
package's page (R231). -/
def State.sendWrite (s : State) (j : Job) (va : DWord) (lab : Label) (h : Peer) (r : Request) : State :=
  let fn := j.launch.fn
  if lab = 2 ∧ !s.admits fn 1 then s.stall fn 1
  else
    let s1 := if lab = 2 then s.charge fn 1 else s
    let b : Buf := { who := j.who, addr := r.addr, len := r.width, req := s1.nextReq, va := va, write := true }
    (State.request { s1 with bufs := s1.bufs ++ [b] } j.who fn h .none r).unreplay j.l

/-- The write of a requester at an address that a holder outside has been asked to perform. -/
def State.writing (s : State) (who : Who) (va : DWord) : Option Buf :=
  s.bufs.find? (fun b => decide (b.who = who) && b.write && decide (b.va = va))

/-- What became of a write sent to a holder outside: refused, not yet acknowledged, or done (R284, R294). -/
def Buf.outcome (b : Buf) (s : State) : Put :=
  match b.ans with
  | none => .wait s
  | some a =>
    if !a.ok then .fault a.cause (if virtualCause a.cause then b.va else b.addr.setWidth 64)
    else if b.acked then .ok s (peerOf b.addr) else .wait s

/-- A write of one sector's bytes at a global address with their label (R278, R284, R294, R325). One that a holder outside
performs is done once it is acknowledged as visible at its page's scope, and is judged once, as it is sent; one performed here
stands in the memory that every agent reads. -/
def State.devWrite (s : State) (j : Job) (va : Nat) (bs : List Byte) (lab : Label) (whole : Bool) : Put :=
  let v := BitVec.ofNat 64 va
  match s.writing j.who v with
  | some b => b.outcome s
  | none =>
  match s.judge { fn := j.launch.fn, ceil := j.launch.ceil, write := true, wlab := lab } v with
  | .error (c, a) => .fault c a
  | .ok (_, .aper _, _) => .fault cPageProt v
  | .ok (p, .host a, _) =>
    if lab = 2 ∧ !s.admits j.launch.fn 1 then .wait (s.stall j.launch.fn 1)
    else
      let s1 := if lab = 2 then s.charge j.launch.fn 1 else s
      .ok ((s1.bounceWrite j.launch.fn (some j.l) a bs).unreplay j.l) (peerOf p.fab)
  | .ok (p, .line, _) => .ok ((s.writeLine j.launch.fn p.fab bs p.label lab).unreplay j.l) (peerOf p.fab)
  | .ok (p, .here q _ _, _) =>
    if s.scrubHeld q then .wait s
    else if s.ownedAway q.toNat then .wait (s.recallLine q.toNat)
    else
      let s1 := s.launchWrite j.l p q bs
      .ok (if whole then { s1 with mem := s1.mem.setPoison q.toNat false } else s1) (peerOf p.fab)
  | .ok (p, .away h pfx len, _) =>
    .wait (s.sendWrite j v lab h { kind := .store, addr := p.fab, pfx := pfx, len := len, width := bs.length, data := bs,
                                   label := p.label, strong := decide (p.cls = 1), whole := whole })

/-- The installed seal window that holds an address. -/
def State.sealOf (s : State) (a : Fab) : Option (Nat × Sealed) := s.windows.find? (fun w => under a w.2.win.pfx w.2.win.len)

/-- Bytes decrypted through a window, counted toward its next key-use entry (R358), which waits while the log is full
(R360). -/
def State.keyUse (s : State) (k : Nat) (w : Sealed) (n : Nat) : State :=
  let used := w.used + n
  if 2 ^ 30 ≤ used ∧ !s.logFull then
    { s with windows := Store.put k { w with used := 0 } s.windows }.append 0x01 w.win.fn 0 (pack [(0, k), (64, used)])
  else { s with windows := Store.put k { w with used := used } s.windows }

/-- One data byte range inside one 32-byte unit read from a sealed window, decrypted (R358). -/
def State.sealRead (s : State) (w : Sealed) (p : Page) (n : Nat) : List Byte :=
  let q := p.fab.toNat
  let unit := q / 32 * 32
  let k := (unit - w.win.pfx.toNat) / 32
  ((Config.xtsDecrypt w.key k (s.mem.read unit 32)).drop (q - unit)).take n

/-- A read of data by an engine, in one 32-byte unit of global memory: as a launch's load, but a sealed window is
decrypted, except for a REMOTE copy (R278, R358). -/
def State.dataRead (s : State) (j : Job) (remote : Bool) (va n : Nat) : Got :=
  let v := BitVec.ofNat 64 va
  match s.translate j.launch.fn v with
  | .ok p =>
    match s.sealOf p.fab with
    | some (_, w) =>
      if p.cls = 3 ∨ j.launch.ceil < p.label.toNat ∨ w.win.fn ≠ j.launch.fn then .fault cPageProt v
      else if remote then .fault cLabelDown v
      else if s.scrubHeld p.fab then .wait s
      else if s.mem.poisoned p.fab.toNat then .fault cPoison (p.fab.setWidth 64)
      else .ok (s.sealRead w p n) 3
    | none => s.devRead j.who j.launch.fn j.launch.ceil j.el v n
  | .error c => .fault c v

/-- Whether a data read at an address decrypts, and under which window. -/
def State.decrypts (s : State) (j : Job) (va : Nat) : Option (Nat × Sealed) :=
  match s.translate j.launch.fn (BitVec.ofNat 64 va) with
  | .ok p => s.sealOf p.fab
  | .error _ => none

/-! ### One sector's source (R273, R275, R276, R278) -/

/-- The bytes of a sector and the label of each of its four units; or a fault, or a wait. -/
inductive Data where
  | ok (bs : List Byte) (labs : List Label)
  | fault (cause : Byte) (addr : DWord)
  | wait (s : State)
  deriving DecidableEq, Repr

/-- 32 bytes of the strand's scratchpad with their units' labels. -/
def Strand.sector (x : Strand) (o : Nat) : Data :=
  .ok (x.padRead o 32) ((List.range 4).map (fun u => x.unitLabel (o + 8 * u)))

/-- Reads joined into one number: each an address, a count of bytes, the bit it starts at and its count of bits. -/
def State.gatherBits (s : State) (j : Job) : List (Nat × Nat × Nat × Nat) → Nat → Label → Nat → Except Got (Nat × Label)
  | [], _, lab, acc => .ok (acc, lab)
  | (va, n, sh, w) :: t, pos, lab, acc =>
    match s.dataRead j false va n with
    | .ok bs l =>
      State.gatherBits s j t (pos + w) (lmax lab l) (acc + leNat bs / 2 ^ sh % 2 ^ w * 2 ^ pos)
    | g => .error g

/-- w bits from a source bit on, as a read: address, bytes, first bit, bits. -/
def bitPiece (src at_ w : Nat) : Nat × Nat × Nat × Nat := (src + at_ / 8, (at_ % 8 + w + 7) / 8, at_ % 8, w)

/-- Where the elements that slice bytes [o, o + 32) hold stand in the source of a DECK, in slice order, each read inside
one 32-byte unit (R276). -/
def deckPieces (src K w o : Nat) : List (Nat × Nat × Nat × Nat) :=
  let first := 8 * o / w
  let last := (8 * o + 255) / w
  (List.range (last + 1 - first)).flatMap (fun d =>
    let e := first + d
    let at_ := (e % K * 128 + e / K) * w
    let room := 256 - at_ % 256
    if room < w then [bitPiece src at_ room, bitPiece src (at_ + room) (w - room)] else [bitPiece src at_ w])

/-- A DECK's sector at slice offset o of its extent: elements by column, then scales, all 0x7F for an unblocked B. -/
def State.deckSector (s : State) (j : Job) (r : BitVec 512) (o : Nat) : Data :=
  let cols := 16 * tK r * tBits r
  if o < cols then
    match s.gatherBits j (deckPieces (tSrc r) (tK r) (tBits r) o) 0 0 0 with
    | .ok (v, lab) => .ok (leBytes 32 (v / 2 ^ (8 * o % tBits r))) (List.replicate 4 lab)
    | .error (.fault c a) => .fault c a
    | .error (.wait s') => .wait s'
    | .error (.ok _ _) => .ok [] []
  else if tAux r = 0 then .ok (List.replicate 32 0x7F) (List.replicate 4 0)
  else
    match s.dataRead j false (tAux r + (o - cols)) 32 with
    | .ok bs lab => .ok bs (List.replicate 4 lab)
    | .fault c a => .fault c a
    | .wait s' => .wait s'

/-- The source address of a byte of delivery order, outside DECK. -/
def Copy.source (c : Copy) (o : Nat) : Nat :=
  let r := c.record
  let b := tBytes r
  let base := tSource r c.start
  if tKind r = 2 then base + o / b * tSrcPitch r + o % b
  else if tKind r = 3 then base + (c.idx.getD (o / b) 0).toNat * tSrcPitch r + o % b
  else base + o

/-- The destination address of a byte of delivery order (R271). -/
def destOf (r : BitVec 512) (base o : Nat) : Nat :=
  if tKind r = 2 ∨ tKind r = 3 then base + o / tBytes r * tDstPitch r + o % tBytes r else base + o

/-- The next sector of a copy as read. -/
def State.copyData (s : State) (j : Job) (c : Copy) : Data :=
  let o := c.run.off
  if tKind c.record = 4 then s.deckSector j c.record o
  else if tFlag c.record 0 then (s.strandAt j.x).sector (c.source o)
  else
    match s.dataRead j (decide (tKind c.record = 5)) (c.source o) 32 with
    | .ok bs lab => .ok bs (List.replicate 4 lab)
    | .fault a b => .fault a b
    | .wait s' => .wait s'

/-! ### One sector's destination -/

/-- Four units of scratchpad written with their labels. -/
def Strand.putUnits (x : Strand) (o : Nat) (bs : List Byte) (labs : List Label) : Strand :=
  let x1 := (x.padPut o bs).stamp o
  (List.range 4).foldl (fun x u => x.setUnit (o + 8 * u) (labs.getD u 0)) x1

/-- Bytes of the B-store slice. -/
def sliceRead (t : Store Byte) (o n : Nat) : List Byte := (List.range n).map (fun k => Store.get 0 (o + k) t)

/-- Bytes put into the B-store slice. -/
def slicePut (t : Store Byte) (o : Nat) : List Byte → Store Byte
  | [] => t
  | b :: bs => slicePut (Store.set 0 o b t) (o + 1) bs

/-- A sector written where a template's destination side stands (R278, R349). -/
def State.putSector (s : State) (j : Job) (r : BitVec 512) (addr : Nat) (bs : List Byte) (labs : List Label)
    (floor : Label) (whole : Bool) : Put :=
  let high := fun (ls : List Label) => ls.any (fun l => decide (j.launch.ceil < l.toNat))
  if tKind r = 4 then
    let t := s.strandAt j.x
    let k := s.coreAt t.core
    let lab := labs.foldl lmax (lmax k.sliceLab floor)
    if high [labs.foldl lmax floor] then .fault cPageProt (BitVec.ofNat 64 addr)
    else .ok (s.setCore t.core { k with slice := slicePut k.slice addr bs, sliceLab := lab }) s.peer
  else if tFlag r 1 then
    let ls := labs.map (lmax floor)
    if high ls then .fault cPageProt (BitVec.ofNat 64 addr)
    else .ok (s.setStrand j.x ((s.strandAt j.x).putUnits addr bs ls)) s.peer
  else s.devWrite j addr bs (labs.foldl lmax 0) whole

/-! ### Completion signals to other packages (R172, R277) -/

/-- A signal taken at this package: credited to the barrier of the strand it names, in scratchpad or image, or dropped
and counted. -/
def State.takeSignal (s : State) (inc : BitVec 16) (ctx offset : Nat) : State :=
  if inc ≠ s.inc then { s with packetsDropped := s.packetsDropped + 1 }
  else
    match Store.find ctx s.strands with
    | none => { s with signalsDropped := s.signalsDropped + 1 }
    | some x => if (s.launchOf x).alloc < offset + 16 then s else s.barLand ctx offset

/-- One delivered sector credited (R277, R290). -/
def State.credit (s : State) (x : Nat) (r : BitVec 512) (home : Peer) : State :=
  if !tBarOn r then s
  else if tKind r = 5 then
    if home = s.peer then s.takeSignal s.inc (tK r) (tBar r)
    else { s with outbox := s.outbox ++ [.signal home ((s.incOf home).getD 0) (BitVec.ofNat 32 (tK r)) (tBar r)] }
  else s.barLand x (tBar r)

/-- REMOTE_COMPLETION_SIGNAL (R172). -/
def execRemoteCompletionSignal (inc : BitVec 16) (x offset : Nat) (s : State) : Outcome State Fault Refusal :=
  .next (s.takeSignal inc x offset)

/-! ### Faults of a transfer (R284 to R286) -/

/-- The bytes of a copy fault record (R285). -/
def copyRecord (x : Nat) (t : Strand) (chan num tmpl : Nat) (epi : Bool) (r : Run) : List Byte :=
  leBytes 64 (pack [(0, 0xC0), (8, r.cause.toNat), (19, chan), (22, t.at_.die), (24, t.at_.core), (32, r.use.toNat),
    (64, t.launch), (256, x % 2 ^ 32), (288, if r.point = 2 then r.index.toNat else 0), (320, r.point.toNat),
    (322, if epi then 1 else 0), (336, tmpl), (352, r.off % 2 ^ 32), (384, num), (448, r.addr.toNat)])

/-- A transfer at rest at a fault. -/
def Run.fail (r : Run) (cause : Byte) (addr : DWord) (point : BitVec 2) (index : Nat) : Run :=
  { r with state := .faulted, cause := cause, addr := addr, point := point, index := BitVec.ofNat 32 index,
           use := if repairable cause then r.use + 1 else r.use }

/-- A strand with one of its copies changed. -/
def Strand.setCopy (x : Strand) (c : Copy) : Strand :=
  { x with copies := x.copies.map (fun d => if d.chan = c.chan ∧ d.num = c.num then c else d) }

/-- A copy faults: reported, or the end of its launch (R284). -/
def State.copyFault (s : State) (x : Nat) (c : Copy) (cause : Byte) (addr : DWord) (point : BitVec 2) (index : Nat) : State :=
  let t := s.strandAt x
  let c1 := { c with run := c.run.fail cause addr point index }
  let s1 := (s.dropBufs (.engine x c.chan)).setStrand x (t.setCopy c1)
  if repairable cause then
    s1.report (s.launchOf t).fn { bytes := copyRecord x t c.chan c.num (bitsAt c.start 0 16) false c1.run }
  else s1.terminate t.launch cause

/-! ### The steps of a copy -/

/-- The copy a channel works on for a strand: its oldest that is not done, if it is not faulted and the strand stands on
a core (R270). -/
def State.moving (s : State) (x ch : Nat) : Option (Strand × Copy) :=
  match Store.find x s.strands with
  | none => none
  | some t =>
    if t.place.isNone then none
    else
      match t.copies.find? (fun c => decide (c.chan = ch ∧ c.run.state ≠ .done)) with
      | some c => if c.run.state = .faulted then none else some (t, c)
      | none => none

/-- What a copy's accesses are made for. -/
def State.copyJob (s : State) (x : Nat) (t : Strand) (c : Copy) : Job :=
  { who := .engine x c.chan, x := x, l := t.launch, launch := s.launchOf t,
    el := match Store.find c.yarn s.yarns with
      | some y => y.elig
      | none => { trailing := false } }

/-- A copy that has begun its step and waits for a holder outside: it is RUNNING. -/
def State.begun (s : State) (x : Nat) (c : Copy) : State :=
  if c.run.state = .running then s
  else s.setStrand x ((s.strandAt x).setCopy { c with run := { c.run with state := .running } })

/-- Phase 1 of a GATHER: one index read (R275). -/
def State.readIndex (s : State) (x : Nat) (t : Strand) (c : Copy) : State :=
  let j := s.copyJob x t c
  let n := c.idx.length
  match s.devRead j.who j.launch.fn j.launch.ceil j.el (BitVec.ofNat 64 (tAux c.record + 4 * n)) 4 with
  | .ok bs _ =>
    (s.dropBufs j.who).setStrand x (t.setCopy { c with idx := c.idx ++ [BitVec.ofNat 32 (leNat bs)],
                                                       run := { c.run with state := .running } })
  | .fault k a => s.copyFault x c k a 2 n
  | .wait s' => s'.begun x c

/-- Bytes counted toward key use where a sector's source is sealed. -/
def State.countSeal (s : State) (j : Job) (c : Copy) : State :=
  if tFlag c.record 0 then s
  else
    let va := if tKind c.record = 4 then
        (let cols := 16 * tK c.record * tBits c.record
         if c.run.off < cols then (deckPieces (tSrc c.record) (tK c.record) (tBits c.record) c.run.off).headD (0, 0, 0, 0) |>.1
         else tAux c.record + (c.run.off - cols))
      else c.source c.run.off
    match s.decrypts j va with
    | some (k, w) => s.keyUse k w 32
    | none => s

/-- Whether a transfer that has written its first o bytes has written the 32 bytes at an address (R325). -/
def coveredBy (r : BitVec 512) (base o a : Nat) : Bool :=
  if tKind r = 2 ∨ tKind r = 3 then
    (List.range (o / tBytes r + 1)).any (fun q =>
      let row := base + q * tDstPitch r
      decide (row ≤ a ∧ a < row + tBytes r ∧ q * tBytes r + (a - row) < o))
  else decide (base ≤ a ∧ a - base < o)

/-- Whether the sector of a transfer at its offset o completes a 64-byte line that the one transfer writes (R325). -/
def wholeLine (r : BitVec 512) (base o : Nat) : Bool :=
  let a := destOf r base o
  coveredBy r base o (if a % 64 = 0 then a + 32 else a - 32) && decide (a % 32 = 0)

/-- One sector of a copy: read, written, credited (R271, R284, R290). One whose write a holder outside has been asked for is not
read again: it is written or fails as that holder answers (R284). -/
def State.copyStep (s : State) (x : Nat) (t : Strand) (c : Copy) : State :=
  let j := s.copyJob x t c
  let o := c.run.off
  let r := c.record
  let dst := destOf r (tDest r c.start) o
  let src := if (s.writing j.who (BitVec.ofNat 64 dst)).isSome then Data.ok [] [] else s.copyData j c
  match src with
  | .fault k a => s.copyFault x c k a 0 0
  | .wait s' => s'.begun x c
  | .ok bs labs =>
    match s.putSector j r dst bs labs c.floor (wholeLine r (tDest r c.start) o) with
    | .fault k a => s.copyFault x c k a 1 0
    | .wait s' => s'.begun x c
    | .ok s1 home =>
      let s2 := (s1.countSeal j c).dropBufs j.who
      let c1 := { c with run := { c.run with state := .running, off := o + 32 } }
      (s2.setStrand x ((s2.strandAt x).setCopy c1)).credit x r home

/-- The oldest copy of a channel that is not done begun, if it has not (R267, R270). -/
def Strand.beginNext (x : Strand) (ch : Nat) : Strand :=
  match x.copies.find? (fun c => decide (c.chan = ch ∧ c.run.state ≠ .done)) with
  | some c => if c.run.state = .queued then x.setCopy { c with run := { c.run with state := .running } } else x
  | none => x

/-- An operation done: the done value of its context, which follows the number order (R291). -/
def Strand.finish (x : Strand) (ctx : Nat) : Strand := { x with dones := Store.set 0 ctx (x.doneOn ctx + 1) x.dones }

/-! ### Replies of the host (R286) -/

/-- A reply ignored, and counted. -/
def State.ignoreReply (s : State) (fn : Nat) : State :=
  let f := s.func fn
  s.setFunc fn { f with tele := { f.tele with replies := f.tele.replies + 1 } }

/-- The faulted copy or epilogue store a reply names: the strand, and the copy or the operation. -/
def State.replied (s : State) (fn : Nat) (w : DWord) : Option (Nat × Strand × (Copy ⊕ MOp)) :=
  let x := bitsAt w 32 32
  match Store.find x s.strands with
  | none => none
  | some t =>
    if (s.launchOf t).fn ≠ fn ∨ bitsAt w 16 2 ≠ 0 ∨ bitsAt w 0 8 ≠ 0 then none
    else
      let hit := fun (r : Run) => decide (r.state = .faulted ∧ r.use = w.extractLsb' 8 8)
      if w.getLsbD 18 then
        if bitsAt w 19 3 ≠ 0 then none
        else (t.ops.find? (fun o => hit o.run || hit o.srun)).map (fun o => (x, t, .inr o))
      else (t.copies.find? (fun c => decide (c.chan = bitsAt w 19 3) && hit c.run)).map (fun c => (x, t, .inl c))

/-- A transfer that goes on at its fault offset. -/
def Run.goOn (r : Run) : Run := { r with state := .running }

/-- An operation of a strand changed. -/
def Strand.setOp (x : Strand) (o : MOp) : Strand := { x with ops := x.ops.map (fun d => if d.num = o.num then o else d) }

/-- COPY_REPLY_REPAIRED (R284, R286): the copy goes on with the same record, indexes and number. -/
def execCopyReplyRepaired (fn : Nat) (w : DWord) (s : State) : Outcome State Fault Refusal :=
  if bitsAt w 30 2 ≠ 1 then .refused .notEnabled
  else
    match s.replied fn w with
    | none => .next (s.ignoreReply fn)
    | some (x, t, .inl c) => .next (s.setStrand x (t.setCopy { c with run := c.run.goOn }))
    | some (x, t, .inr o) =>
      let first := decide (o.run.state = .faulted ∧ o.run.use = w.extractLsb' 8 8)
      .next (s.setStrand x (t.setOp (if first then { o with run := o.run.goOn } else { o with srun := o.srun.goOn })))

/-- COPY_REPLY_KILL (R284): the launch ends with the cause. -/
def execCopyReplyKill (fn : Nat) (w : DWord) (s : State) : Outcome State Fault Refusal :=
  if bitsAt w 30 2 ≠ 2 then .refused .notEnabled
  else
    match s.replied fn w with
    | none => .next (s.ignoreReply fn)
    | some (_, t, .inl c) => .next (s.terminate t.launch c.run.cause)
    | some (_, t, .inr o) =>
      let first := decide (o.run.state = .faulted ∧ o.run.use = w.extractLsb' 8 8)
      .next (s.terminate t.launch (if first then o.run.cause else o.srun.cause))

/-! ### shape (R283) -/

/-- The record of 16 scalars from s(b) on, and the highest of their labels. -/
def Bank.record (b : Bank) (n : Nat) : BitVec 512 × Label :=
  ((List.range 16).foldl (fun (r : BitVec 512 × Label) j =>
    let v := b.scalar (n + j)
    (r.1 ||| (v.val.setWidth 512 <<< (32 * j)), lmax r.2 v.lab)) (0, 0))

/-- shape (R283): the lowest lane checks the record and stores it as eight units. In a protected launch its pair must agree on
the address (R230). -/
def execShape (x : Args) (s : State) : Outcome State Fault Refusal :=
  issued s fun i => s.once i x fun G =>
    let n := match x.b with | .s k => k.toNat | _ => 0
    let r := i.bank.record n
    match tCheck i.launch none r.1 with
    | some (c, a) => s.trap i G c (a.getD s.anyArg) .here
    | none =>
      let l := G.headD 0
      let pair := i.led G (i.lead G l)
      let wrong := i.mismatched pair (i.gAddr s x)
      let mine := pair.filter (fun m => !wrong.contains m)
      let f : Form := { kind := .shape, write := true, read := false }
      let lab := i.label [{ lab := r.2 }, i.operand s x.a true l]
      let w : Want := { lane := i.lead G l, va := i.gAddr s x l, width := 64, data := leBytes 64 r.1.toNat, wlab := lab }
      s.access i f false (if wrong = [] then [w] else []) (fun s1 j ls =>
        s1.accessEnd j .shape x f { all := G, mine := mine, wrong := wrong } (ls.map LaneAcc.noAperture) storePerf (fun s2 k ls =>
          let q := s2.storeLanes k k.yarn ls
          (q.1, q.2, [])))

/-! ### Barrier instructions (R289) -/

/-- The barrier an instruction names: its strand and offset, or the trap. -/
def State.barOf (s : State) (i : Issuer) (x : Args) : Except Byte (Nat × Nat) :=
  let a := i.spAddr s x false ((i.lanes x).headD 0)
  match s.locate i false a 16 with
  | none => .error cExtentBounds
  | some (t, o) =>
    if o % 16 ≠ 0 then .error cExtentBounds
    else if bitsAt ((s.strandAt t).bar o) 88 40 ≠ 0 then .error cReservedField
    else .ok (t, o)

/-- A barrier instruction, after every earlier scratchpad access of the yarn (R177, R295): its checks, then f on the barrier. -/
def State.onBar (s : State) (i : Issuer) (x : Args) (f : List Nat → Nat → Nat → BitVec 128 → State) : State :=
  s.once i x fun G =>
    if i.yarn.padPending then s else
    match s.barOf i x with
    | .error c =>
      s.trap i G c (if c = cExtentBounds then BitVec.ofNat 64 (i.spAddr s x false (G.headD 0)) else s.anyArg) .here
    | .ok (t, o) => f G t o ((s.strandAt t).bar o)

/-- tbinit (R289): every unit of the barrier takes label 0. -/
def execTbinit (x : Args) (s : State) : Outcome State Fault Refusal :=
  issued s fun i => s.onBar i x fun G t o b =>
    let n := (i.first s G x.b false).val.toNat
    if n = 0 ∨ 1048575 < n then s.trap i G cIllegalOp s.anyArg .here
    else
      let s1 := s.setBar t o (barMake b 0 n n 0)
      let t1 := ((s1.strandAt t).setUnit o 0).setUnit (o + 8) 0
      (s1.setStrand t t1).doneKill i .tbinit x

/-- tbarrive (R289): one arrival for each fibre of G. -/
def execTbarrive (x : Args) (s : State) : Outcome State Fault Refusal :=
  issued s fun i => s.onBar i x fun G t o b =>
    let n := (i.acting G).length
    if barArrivals b < n then s.trap i G cIllegalOp s.anyArg .here
    else
      let b1 := barMake b (barPhase b) (barArrivals b - n) (barReload b) (barSectors b)
      let s1 := s.setBar t o (barComplete b1)
      s1.compute (s1.again i) .tbarrive x (G.map (fun l => { lane := l, val := BitVec.ofNat 64 (barPhase b) }))

/-- tbexpect's registration. -/
def State.expect (s : State) (i : Issuer) (x : Args) (G : List Nat) (t o : Nat) (b : BitVec 128) (q : Nat) : State :=
  if (2 : Int) ^ 43 ≤ barSectors b + q then s.trap i G cIllegalOp s.anyArg .here
  else
    let b1 := barMake b (barPhase b) (barArrivals b) (barReload b) (barSectors b + q)
    ((s.dropLaneBufs i.y i.g.id).setBar t o (barComplete b1)).doneKill i .tbexpect x

/-- tbexpect (R289): sectors given, or those of a template of the launch's table. -/
def execTbexpect (x : Args) (s : State) : Outcome State Fault Refusal :=
  issued s fun i => s.onBar i x fun G t o b =>
    let n := (i.first s G x.b false).val.toNat
    if flag29 x.mods then
      match s.record i (G.headD 0) n with
      | .wait s' => s'
      | .bad => s.trap i G cExtentBounds s.anyArg .here
      | .fault c a =>
        let fs := (i.led G (i.lead G (G.headD 0))).map (fun l => LaneFault.mk l c a)
        s.finish i G fs (fun s1 =>
          (s1, i.killIn .tbexpect x i.yarn (G.filter (fun l => !fs.any (fun f => decide (f.lane = l))))))
      | .ok r =>
        match tCheck i.launch (some 0) r with
        | some (c, a) => s.trap i G c (a.getD s.anyArg) .here
        | none => s.expect i x G t o b (tSize r / 32)
    else s.expect i x G t o b n

/-- A wait that is over: the group goes on once every earlier access of its yarn is visible (R178). -/
def State.endWait (s : State) (i : Issuer) (o : Op) (x : Args) (w : Wait) : State :=
  s.drain { i with g := { i.g with wait := some w } } true (s.doneKill i o x)

/-- tbwait (R289, R178). -/
def execTbwait (x : Args) (s : State) : Outcome State Fault Refusal :=
  issued s fun i =>
    match i.g.wait with
    | some (.tb t o woken) => if woken then s.endWait i .tbwait x (.tb t o true) else s
    | _ => s.onBar i x fun G t o b =>
      if G.all (fun l => decide ((i.operand s x.b false l).val.toNat % 16 ≠ barPhase b)) then s.endWait i .tbwait x (.tb t o true)
      else s.stay i (some (.tb t o false))

/-! ### Timelines (R292) -/

/-- tlwait (R292, R178). -/
def execTlwait (x : Args) (s : State) : Outcome State Fault Refusal :=
  issued s fun i => s.once i x fun G =>
    match i.g.wait with
    | some (.timeline c n) => if n.toNat ≤ i.strand.doneOn c then s.endWait i .tlwait x (.timeline c n) else s
    | _ =>
      let c := (i.first s G x.a false).val.toNat
      let n := (i.first s G x.b true).val
      if 9 < c ∨ i.strand.issuedOn c < n.toNat then s.trap i G cIllegalOp s.anyArg .here
      else if n.toNat ≤ i.strand.doneOn c then s.endWait i .tlwait x (.timeline c n)
      else s.stay i (some (.timeline c n))

/-- tlread (R292). -/
def execTlread (x : Args) (s : State) : Outcome State Fault Refusal :=
  issued s fun i => s.once i x fun G =>
    let give := fun (v : Nat) =>
      s.compute i .tlread x (G.map (fun l => { lane := l, val := BitVec.ofNat 64 v, lab := i.bank.floor }))
    if x.mods.getLsbD 1 then give (i.yarn.strand % 2 ^ 32)
    else
      let c := (i.first s G x.a false).val.toNat
      if 9 < c then s.trap i G cIllegalOp s.anyArg .here
      else give (if x.mods.getLsbD 0 then i.strand.doneOn c else i.strand.issuedOn c)

end Sys2Proof.Machine
end

