-- ==== Sys2Proof/Machine/Errors.lean ====
section
/-! DEFINITION. Replay of a launch (R234) and the policy on an error found (R232, R233, R235). -/

namespace Sys2Proof.Machine

/-- The cells of a saved range put back over memory's. -/
def restoreRange {α : Type} (r : Nat × Nat) (saved t : Store α) : Store α :=
  (saved.filter (fun c => inRange r c.1)).foldl (fun t c => Store.put c.1 c.2 t) (t.filter (fun c => !inRange r c.1))

/-- Memory with every page a launch saved written back, its frames' labels with it. -/
def Mem.restorePages (m : Mem) (L : Launch) : List (Nat × Nat) → Mem
  | [] => m
  | r :: t =>
    { m with bytes := restoreRange r L.snap m.bytes
             labels := restoreRange (r.1 / 4096, r.2 / 4096) L.snapLabs m.labels }.restorePages L t

/-- R234: everything of the launch stops, the snapshot pages are written back, its resources are freed, and it starts
again from its packet. What it has sent to another package is only reads and requests that have passed their checks: a write
on its way has made it unreplayable (R231). -/
def State.replay (s : State) (l : Nat) : State :=
  match Store.find l s.launches with
  | none => s
  | some L =>
    let mine := fun (x : Nat) => decide ((s.strandAt x).launch = l)
    let gone := s.yarns.filter (fun c => mine c.2.strand)
    let L1 : Launch := { fn := L.fn, queue := L.queue, at_ := L.at_, packet := L.packet, replays := L.replays + 1,
                         replayable := L.replayBit, granted := L.granted, lblcnt := L.lblcnt,
                         unacked := L.unacked ++ gone.flatMap (fun c => c.2.counted), cores := L.cores
                         errors := L.errors }
    { s with
      mem := s.mem.restorePages L L.snapPages
      colls := Store.modify l (fun c => { c with due := [] }) s.colls
      launches := Store.put l L1 s.launches
      yarns := s.yarns.filter (fun c => !mine c.2.strand)
      strands := s.strands.filter (fun c => !decide (c.2.launch = l)) }.dropPassed (fun o => decide (o.launch = some l))
      |>.dropUnsent l |>.abortRecords l

/-- Whether an error was met in an earlier attempt of a launch: at the same location, on the same core, or, in HBM or a die
cache, in the same line (R235). -/
def Launch.recurs (L : Launch) (loc at_ : Nat) : Bool :=
  L.errors.any (fun e => decide (e.loc = loc ∧ e.at_ = at_ ∧ e.attempt < L.replays))

/-- What is done about an error: 0 reported, 1 terminated, 2 replayed; replay only where R231, R232 and R235 let the
launch. -/
def actionTaken (L : Launch) (policy : Word) (code loc at_ : Nat) : Nat :=
  if code = 0 ∧ ¬(loc ≤ 1 ∧ L.recurs loc at_) then 0
  else if code = 2 ∧ L.replayable ∧ L.replays < bitsAt policy 8 2 ∧ ¬(loc ≤ 1 ∧ L.recurs loc at_) then 2
  else 1

/-- An error of a launch found on a core: recorded, the core made a fencing candidate where it recurs in a replay, and the
policy's action taken (R232 to R235). DEDUCED (log 51): the same error is one at the same location. -/
def State.errorAct (s : State) (l die core : Nat) (cause : Byte) (code loc op col : Nat) (addr : DWord) : State :=
  match Store.find l s.launches with
  | none => s
  | some L =>
    let k := coreKey die core
    let c := s.coreAt k
    let at_ := if loc ≤ 1 then addr.toNat / 64 else k
    let again := decide (2 ≤ loc) && L.recurs loc at_
    let act := actionTaken L (s.func L.fn).policy code loc at_
    let s1 := s.setLaunch l { L with errors := L.errors ++ [{ loc := loc, at_ := at_, attempt := L.replays }] }
    let s2 := if again then s1.candidate L.fn die core else s1
    let s3 := s2.report L.fn { bytes := errorRecord l die core cause (again || c.cand) act loc L.replays op col addr.toNat }
    if act = 0 then s3 else if act = 1 then s3.terminate l cause else s3.replay l

end Sys2Proof.Machine
end

