-- ==== Sys2Proof/Machine/Float.lean ====
section
/-! DEFINITION. Number formats to the last bit: IEEE and tapered codes, rounding, quantising a block, and the functions
of R207 (R186 to R201, R205 to R208). -/

namespace Sys2Proof.Machine

/-! ### Exact values -/

/-- What a code of a float format denotes: a NaN or NaR, an infinity, or a sign and the magnitude m x 2^e. -/
inductive Num where
  | nan
  | inf (neg : Bool)
  | fin (neg : Bool) (m : Nat) (e : Int)
  deriving DecidableEq, Repr, Inhabited

/-- Bits of a number; 0 for zero. -/
def bitLen (m : Nat) : Nat := if m = 0 then 0 else Nat.log2 m + 1

/-- A magnitude with its sign. -/
def signed (neg : Bool) (m : Nat) : Int := if neg then -(m : Int) else m

/-- Whether m1 x 2^e1 <= m2 x 2^e2. -/
def leDy (m1 : Nat) (e1 : Int) (m2 : Nat) (e2 : Int) : Bool :=
  if e2 ≤ e1 then decide (m1 * 2 ^ (e1 - e2).toNat ≤ m2) else decide (m1 ≤ m2 * 2 ^ (e2 - e1).toNat)

/-- The exact sum of two signed magnitudes, as an integer times a power of two. -/
def addDy (v1 : Int) (e1 : Int) (v2 : Int) (e2 : Int) : Int × Int :=
  let e := min e1 e2
  (v1 * 2 ^ (e1 - e).toNat + v2 * 2 ^ (e2 - e).toNat, e)

/-- The magnitude m x 2^s rounded to an integer in a mode, and whether that changed it (R43). -/
def roundShift (r : Rnd) (neg : Bool) (m : Nat) (s : Int) : Nat × Bool :=
  if 0 ≤ s then (m * 2 ^ s.toNat, false)
  else
    let k := min (-s).toNat (bitLen m + 2)
    let q := m / 2 ^ k
    let d := m % 2 ^ k
    let half := 2 ^ (k - 1)
    let up := match r with
      | .rne => decide (half < d) || (decide (d = half) && decide (q % 2 = 1))
      | .rtz => false
      | .rdn => neg && decide (d ≠ 0)
      | .rup => !neg && decide (d ≠ 0)
    (if up then q + 1 else q, decide (d ≠ 0))

/-! ### IEEE formats (R187, R188, R197) -/

/-- An IEEE format: exponent and fraction bits. -/
structure Fmt where
  ebits : Nat
  fbits : Nat
  deriving DecidableEq, Repr

/-- The IEEE format of a type (R187). -/
def fmtOf : Ty → Fmt
  | .f16 => ⟨5, 10⟩
  | .bf16 => ⟨8, 7⟩
  | .f64 => ⟨11, 52⟩
  | _ => ⟨8, 23⟩

def Fmt.width (f : Fmt) : Nat := f.ebits + f.fbits + 1
def Fmt.sign (f : Fmt) (neg : Bool) : Nat := if neg then 2 ^ (f.ebits + f.fbits) else 0
def Fmt.inf (f : Fmt) : Nat := (2 ^ f.ebits - 1) * 2 ^ f.fbits
def Fmt.quiet (f : Fmt) : Nat := 2 ^ (f.fbits - 1)
/-- The canonical quiet NaN (R187). -/
def Fmt.canon (f : Fmt) : Nat := f.inf + f.quiet
/-- The least exponent of a normal value. -/
def Fmt.emin (f : Fmt) : Int := 2 - 2 ^ (f.ebits - 1)
/-- A code's magnitude bits. -/
def Fmt.mag (f : Fmt) (v : Nat) : Nat := v % 2 ^ (f.ebits + f.fbits)
def Fmt.neg (f : Fmt) (v : Nat) : Bool := v.testBit (f.ebits + f.fbits)
def Fmt.isNan (f : Fmt) (v : Nat) : Bool := decide (f.inf < f.mag v)
/-- A signalling NaN: its quiet bit is clear. -/
def Fmt.isSnan (f : Fmt) (v : Nat) : Bool := f.isNan v && !v.testBit (f.fbits - 1)

/-- What a code denotes; subnormals count in full (R187). -/
def Fmt.read (f : Fmt) (v : Nat) : Num :=
  let m := f.mag v
  if f.inf < m then .nan
  else if m = f.inf then .inf (f.neg v)
  else
    let x := m / 2 ^ f.fbits
    if x = 0 then .fin (f.neg v) m (f.emin - f.fbits)
    else .fin (f.neg v) (m % 2 ^ f.fbits + 2 ^ f.fbits) (f.emin + (x - 1 : Nat) - f.fbits)

/-- Whether m x 2^e is tiny after rounding (R197). -/
def Fmt.tiny (f : Fmt) (r : Rnd) (neg : Bool) (m : Nat) (e : Int) : Bool :=
  let E : Int := e + bitLen m - 1
  decide (E < f.emin)
    && !(decide (E = f.emin - 1) && decide ((roundShift r neg m (e - (E - f.fbits))).1 = 2 ^ (f.fbits + 1)))

/-- A signed magnitude rounded to the format, with the sticky bits it raises (R197). -/
def Fmt.round (f : Fmt) (r : Rnd) (sat neg : Bool) (m : Nat) (e : Int) : Nat × Word :=
  if m = 0 then (f.sign neg, 0)
  else
    let E : Int := max (e + bitLen m - 1) f.emin
    let q := roundShift r neg m (e - (E - f.fbits))
    let code := (E - f.emin).toNat * 2 ^ f.fbits + q.1
    if f.inf ≤ code then
      let toInf := !sat && (match r with | .rne => true | .rtz => false | .rdn => neg | .rup => !neg)
      (f.sign neg + (if toInf then f.inf else f.inf - 1), stOF ||| stNX)
    else (f.sign neg + code, if q.2 then (if f.tiny r neg m e then stUF ||| stNX else stNX) else 0)

/-- The first NaN among the operands, quieted, with NV where one signals (R188). -/
def Fmt.nanOf (f : Fmt) (vs : List Nat) : Option (Nat × Word) :=
  match vs.filter f.isNan with
  | [] => none
  | v :: _ =>
    some ((if v.testBit (f.fbits - 1) then v else v + f.quiet) % 2 ^ f.width, if vs.any f.isSnan then stNV else 0)

/-- A NaN created from operands that are none (R188). -/
def Fmt.invalid (f : Fmt) : Nat × Word := (f.canon, stNV)

/-! ### Arithmetic (R205) -/

/-- The sum of two values, neither a NaN, rounded once. -/
def Fmt.sum (f : Fmt) (r : Rnd) (sat : Bool) (x y : Num) : Nat × Word :=
  match x, y with
  | .inf a, .inf b => if a = b then (f.sign a + f.inf, 0) else f.invalid
  | .inf a, _ => (f.sign a + f.inf, 0)
  | _, .inf b => (f.sign b + f.inf, 0)
  | .fin n1 m1 e1, .fin n2 m2 e2 =>
    let v := addDy (signed n1 m1) e1 (signed n2 m2) e2
    if v.1 = 0 then
      (f.sign (if m1 = 0 ∧ n1 = n2 then n1 else decide (r = .rdn)), 0)
    else f.round r sat (decide (v.1 < 0)) v.1.natAbs v.2
  | _, _ => f.invalid

/-- A value with its sign changed. -/
def Num.negate : Num → Num
  | .nan => .nan
  | .inf n => .inf (!n)
  | .fin n m e => .fin (!n) m e

/-- The exact product of two values; none where a zero meets an infinity. -/
def Num.times (x y : Num) : Option Num :=
  match x, y with
  | .nan, _ => some .nan
  | _, .nan => some .nan
  | .inf a, .inf b => some (.inf (a != b))
  | .inf a, .fin n m _ => if m = 0 then none else some (.inf (a != n))
  | .fin n m _, .inf b => if m = 0 then none else some (.inf (n != b))
  | .fin n1 m1 e1, .fin n2 m2 e2 => some (.fin (n1 != n2) (m1 * m2) (e1 + e2))

/-- A value put into the format. -/
def Fmt.put (f : Fmt) (r : Rnd) (sat : Bool) : Num → Nat × Word
  | .nan => (f.canon, 0)
  | .inf n => (f.sign n + f.inf, 0)
  | .fin n m e => f.round r sat n m e

def Fmt.add (f : Fmt) (r : Rnd) (sat : Bool) (a b : Nat) : Nat × Word :=
  match f.nanOf [a, b] with
  | some v => v
  | none => f.sum r sat (f.read a) (f.read b)

def Fmt.sub (f : Fmt) (r : Rnd) (sat : Bool) (a b : Nat) : Nat × Word :=
  match f.nanOf [a, b] with
  | some v => v
  | none => f.sum r sat (f.read a) (f.read b).negate

def Fmt.mul (f : Fmt) (r : Rnd) (sat : Bool) (a b : Nat) : Nat × Word :=
  match f.nanOf [a, b] with
  | some v => v
  | none => match (f.read a).times (f.read b) with
    | none => f.invalid
    | some p => f.put r sat p

/-- a x b + c with a single rounding. A zero times an infinity is invalid whatever c, a NaN among them (R205; DEDUCED: R188's
NaN operands come after it, log entry 16). -/
def Fmt.fma (f : Fmt) (r : Rnd) (sat : Bool) (a b c : Nat) : Nat × Word :=
  if f.nanOf [a, b] = none ∧ (f.read a).times (f.read b) = none then f.invalid
  else match f.nanOf [a, b, c] with
    | some v => v
    | none => f.sum r sat (((f.read a).times (f.read b)).getD .nan) (f.read c)

/-- a x 2^n (R205). -/
def Fmt.scale (f : Fmt) (r : Rnd) (sat : Bool) (a : Nat) (n : Int) : Nat × Word :=
  match f.nanOf [a] with
  | some v => v
  | none => match f.read a with
    | .fin g m e => f.round r sat g m (e + n)
    | x => f.put r sat x

/-! ### Minimum, maximum, comparison (R206) -/

/-- A code's place in the order of values, -0 below +0. -/
def Fmt.rank (f : Fmt) (v : Nat) : Int := if f.neg v then -(f.mag v : Int) - 1 else f.mag v

/-- fmin or fmax. -/
def Fmt.pick (f : Fmt) (greatest : Bool) (a b : Nat) : Nat × Word :=
  let nv := if f.isSnan a || f.isSnan b then stNV else 0
  if f.isNan a && f.isNan b then (f.nanOf [a, b]).getD f.invalid
  else if f.isNan a then (b, nv)
  else if f.isNan b then (a, nv)
  else if decide (f.rank b < f.rank a) = greatest then (a, 0) else (b, 0)

/-- Whether the values of two codes that are no NaN stand in an order: less, equal (zeros of both signs equal). -/
def Fmt.ordering (f : Fmt) (a b : Nat) : Ordering :=
  if f.mag a = 0 ∧ f.mag b = 0 then .eq else compare (f.rank a) (f.rank b)

/-- fcmp's condition and the NV it raises. -/
def Fmt.compares (f : Fmt) (sub : BitVec 4) (a b : Nat) : Bool × Word :=
  let un := f.isNan a || f.isNan b
  let nv := if f.isSnan a || f.isSnan b || (un && decide (2 ≤ sub.toNat ∧ sub.toNat ≤ 5)) then stNV else 0
  let o := f.ordering a b
  let c := if sub = 0 then !un && decide (o = .eq)
    else if sub = 1 then un || decide (o ≠ .eq)
    else if sub = 2 then !un && decide (o = .lt)
    else if sub = 3 then !un && decide (o ≠ .gt)
    else if sub = 4 then !un && decide (o = .gt)
    else if sub = 5 then !un && decide (o ≠ .lt)
    else if sub = 6 then un
    else !un
  (c, nv)

/-! ### Tapered formats (R190, R191, R198) -/

/-- Width and exponent bits of a tapered type. -/
def taperOf : Ty → Nat × Nat
  | .t16e1 => (16, 1)
  | .t8e0 => (8, 0)
  | .t8e1 => (8, 1)
  | .t6e0 => (6, 0)
  | _ => (6, 1)

/-- The run of bits equal to r from bit k - 1 down. -/
def runLen (x : Nat) (r : Bool) : Nat → Nat
  | 0 => 0
  | k + 1 => if x.testBit k = r then 1 + runLen x r k else 0

/-- The magnitude of a positive pattern: m x 2^e. -/
def taperMag (n es x : Nat) : Nat × Int :=
  let r := x.testBit (n - 2)
  let m := runLen x r (n - 1)
  let k : Int := if r then (m : Int) - 1 else -(m : Int)
  let left := n - 2 - m
  let e := if es = 1 ∧ 1 ≤ left then (x / 2 ^ (left - 1)) % 2 else 0
  let fb := left - es
  (2 ^ fb + x % 2 ^ fb, k * 2 ^ es + (e : Int) - (fb : Int))

/-- What a tapered code denotes (R190); NaR is a NaN. -/
def taperRead (n es c : Nat) : Num :=
  let v := c % 2 ^ n
  if v = 0 then .fin false 0 0
  else if v = 2 ^ (n - 1) then .nan
  else
    let neg := v.testBit (n - 1)
    let p := taperMag n es (if neg then 2 ^ n - v else v)
    .fin neg p.1 p.2

/-- The greatest positive pattern whose value is at most m x 2^e, found bit by bit from bit k - 1 down. -/
def taperFloor (n es m : Nat) (e : Int) : Nat → Nat → Nat
  | 0, c => c
  | k + 1, c =>
    let t := c + 2 ^ k
    let p := taperMag n es t
    taperFloor n es m e k (if leDy p.1 p.2 m e then t else c)

/-- A nonzero magnitude rounded to a tapered format (R198): the code and the sticky bits. -/
def taperRound (n es : Nat) (r : Rnd) (neg : Bool) (m : Nat) (e : Int) : Nat × Word :=
  let put := fun c => if neg then 2 ^ n - c else c
  let top := 2 ^ (n - 1) - 1
  let P := taperMag n es top
  let Q := taperMag n es 1
  if leDy P.1 P.2 m e then (put top, if leDy m e P.1 P.2 then 0 else stOF ||| stNX)
  else if leDy m e Q.1 Q.2 then (put 1, if leDy Q.1 Q.2 m e then 0 else stUF ||| stNX)
  else
    let lo := taperFloor n es m e (n - 1) 0
    let L := taperMag n es lo
    if leDy m e L.1 L.2 then (put lo, 0)
    else
      let H := taperMag n es (lo + 1)
      let mid := addDy L.1 L.2 H.1 H.2
      let above := !leDy m (e + 1) mid.1.natAbs mid.2
      let below := !leDy mid.1.natAbs mid.2 m (e + 1)
      let up := match r with
        | .rne => above || (!below && decide (lo % 2 = 1))
        | .rtz => false
        | .rdn => neg
        | .rup => !neg
      (put (if up then lo + 1 else lo), stNX)

/-- A value put into a tapered format: zero to code 0, NaN to NaR, infinity to NaR with NV (R198). -/
def taperPut (t : Ty) (r : Rnd) : Num → Nat × Word
  | .nan => (2 ^ ((taperOf t).1 - 1), 0)
  | .inf _ => (2 ^ ((taperOf t).1 - 1), stNV)
  | .fin neg m e => if m = 0 then (0, 0) else taperRound (taperOf t).1 (taperOf t).2 r neg m e

/-! ### Elements of the narrow formats (R194, R195, R199) -/

/-- Whether a type is tapered. -/
def tapered : Ty → Bool
  | .t16e1 | .t8e0 | .t8e1 | .t6e0 | .t6e1 => true
  | _ => false

/-- Whether a type travels in blocks (R186). -/
def blocked : Ty → Bool
  | .t8e0 | .t8e1 | .t6e0 | .t6e1 | .s8 | .n8 | .s4 | .n4 => true
  | _ => false

/-- What an element code of a matrix or conversion type denotes (R190, R194, R187). -/
def elemRead (t : Ty) (c : Nat) : Num :=
  if tapered t then taperRead (taperOf t).1 (taperOf t).2 c
  else
    match t with
    | .f32 | .f16 | .bf16 | .f64 => (fmtOf t).read c
    | _ =>
      let v := numOf (tySigned t) (tyBits t) (BitVec.ofNat 64 c)
      .fin (decide (v < 0)) v.natAbs 0

/-- A magnitude rounded to an integer element format and clamped (R199). -/
def intRound (t : Ty) (r : Rnd) (neg : Bool) (m : Nat) (e : Int) : Nat × Word :=
  let q := roundShift r neg m e
  let v := signed neg q.1
  let w := clamp t v
  ((w % 2 ^ tyBits t).toNat, if q.2 ∨ w ≠ v then stNX else 0)

/-- A finite value put into a narrow format (R198, R199). -/
def elemRound (t : Ty) (r : Rnd) (neg : Bool) (m : Nat) (e : Int) : Nat × Word :=
  if m = 0 then (0, 0)
  else if tapered t then taperRound (taperOf t).1 (taperOf t).2 r neg m e
  else intRound t r neg m e

/-- The code every element of a NaR block holds (R201). -/
def narElem (t : Ty) : Nat := if tapered t then 2 ^ (tyBits t - 1) else 0

/-- The code of the top value of one sign (R201). -/
def topElem (t : Ty) (neg : Bool) : Nat :=
  if tapered t then (if neg then 2 ^ (tyBits t - 1) + 1 else 2 ^ (tyBits t - 1) - 1)
  else if neg then (if tySigned t then (-(tyHi t) % 2 ^ tyBits t).toNat else 0) else (tyHi t).toNat

/-- The target binade of a narrow format (R201). -/
def binade : Ty → Int
  | .s8 => 6 | .n8 => 7 | .s4 => 2 | .n4 => 3 | _ => 0

/-- The exponent of the greatest finite magnitude of some values; none where none is finite and nonzero. -/
def topExp (xs : List Num) : Option Int :=
  xs.foldl (fun b x => match x with
    | .fin _ m e => if m = 0 then b else some (match b with | none => e + bitLen m - 1 | some c => max c (e + bitLen m - 1))
    | _ => b) none

/-- The scale byte R201 chooses for the values. -/
def chooseScale (t : Ty) (xs : List Num) : Nat :=
  if xs.any (fun x => decide (x = .nan)) then 0xFF
  else
    match topExp xs with
    | some E => (max 0 (min 0xFE (E - binade t + 127))).toNat
    | none => if xs.any (fun x => match x with | .inf _ => true | _ => false) then 0xFE else 0x7F

/-- One element quantised under a scale below 0xFF (R201). -/
def quantElem (t : Ty) (r : Rnd) (sc : Nat) (x : Num) : Nat × Word :=
  match x with
  | .inf neg => (topElem t neg, stQSAT)
  | .fin neg m e => elemRound t r neg m (e + 127 - sc)
  | .nan => (narElem t, 0)

/-- FP32 values quantised into a block, under a scale given or chosen: the scale, the elements, the sticky bits (R201,
R210). -/
def quantise (t : Ty) (r : Rnd) (forced : Option Nat) (ws : List Nat) : Nat × List Nat × Word :=
  let f := fmtOf .f32
  let xs := ws.map f.read
  if xs.any (fun x => decide (x = .nan)) then
    (0xFF, ws.map (fun _ => narElem t), if ws.any f.isSnan then stNV else 0)
  else
    let sc := forced.getD (chooseScale t xs)
    if sc = 0xFF then (0xFF, ws.map (fun _ => narElem t), 0)
    else
      let es := xs.map (quantElem t r sc)
      (sc, es.map Prod.fst, es.foldl (fun b e => b ||| e.2) 0)

/-- A block element as FP32 (R200, R211). -/
def dequant (t : Ty) (r : Rnd) (sat : Bool) (c sc : Nat) : Nat × Word :=
  let f := fmtOf .f32
  if sc = 0xFF then (f.canon, 0)
  else
    match elemRead t c with
    | .fin neg m e => f.round r sat neg m (e + sc - 127)
    | _ => (f.canon, 0)

/-! ### Conversions (R208) -/

/-- A value rounded to an integer type (R208). -/
def toIntTy (t : Ty) (r : Rnd) : Num → Nat × Word
  | .nan => (0, stNV)
  | .inf neg => (((if neg then tyLo t else tyHi t) % 2 ^ tyBits t).toNat, stNV)
  | .fin neg m e =>
    let hi := decide (70 < e + bitLen m)
    let q := if hi then (2 ^ 70, false) else roundShift r neg m e
    let v := signed neg q.1
    let w := clamp t v
    ((w % 2 ^ tyBits t).toNat, if w ≠ v then stNV else if q.2 then stNX else 0)

/-- A NaN's code moved to another IEEE format (R188). -/
def nanTo (src dst : Fmt) (v : Nat) : Nat :=
  let p := v % 2 ^ src.fbits
  let q := if src.fbits ≤ dst.fbits then p * 2 ^ (dst.fbits - src.fbits) else p / 2 ^ (src.fbits - dst.fbits)
  dst.sign (src.neg v) + dst.inf + (if q.testBit (dst.fbits - 1) then q else q + dst.quiet)

/-- Whether a type is an IEEE format. -/
def ieee : Ty → Bool
  | .f32 | .f16 | .bf16 | .f64 => true
  | _ => false

/-- fcvt (R208): source and destination type, mode, saturate, code. -/
def convert (src dst : Ty) (r : Rnd) (sat : Bool) (v : Nat) : Nat × Word :=
  let c := v % 2 ^ tyBits src
  let x := elemRead src c
  let nv := if ieee src && (fmtOf src).isSnan c then stNV else 0
  if ieee dst then
    match x with
    | .nan => (if ieee src then nanTo (fmtOf src) (fmtOf dst) c else (fmtOf dst).canon, nv)
    | _ => (fmtOf dst).put r sat x
  else if dst = .t16e1 then
    let q := taperPut .t16e1 r x
    (q.1, q.2 ||| nv)
  else toIntTy dst r x

/-! ### Functions of one operand (R207) -/

/-- 1/(m x 2^e) to more bits than any format keeps, the lowest bit sticky. -/
def recipDy (m : Nat) (e : Int) : Nat × Int :=
  let k := bitLen m + 64
  let q := 2 ^ k / m
  (2 * q + (if 2 ^ k % m = 0 then 0 else 1), -e - k - 1)

/-- A magnitude with an even exponent. -/
def evenDy (m : Nat) (e : Int) : Nat × Int := if e % 2 = 0 then (m, e) else (2 * m, e - 1)

/-- The square root of m x 2^e, the lowest bit sticky. -/
def sqrtDy (m : Nat) (e : Int) : Nat × Int :=
  let p := evenDy m e
  let M := p.1 * 2 ^ 128
  let q := Nat.sqrt M
  (2 * q + (if q * q = M then 0 else 1), (p.2 - 128) / 2 - 1)

/-- The reciprocal square root of m x 2^e, the lowest bit sticky. -/
def rsqrtDy (m : Nat) (e : Int) : Nat × Int :=
  let p := evenDy m e
  let q := Nat.sqrt (2 ^ 200 / p.1)
  (2 * q + (if q * q * p.1 = 2 ^ 200 then 0 else 1), -(p.2 / 2) - 101)

def Fmt.recip (f : Fmt) (r : Rnd) (sat : Bool) (a : Nat) : Nat × Word :=
  match f.nanOf [a] with
  | some v => v
  | none => match f.read a with
    | .fin n m e =>
      if m = 0 then (f.sign n + f.inf, stDZ)
      else
        let q := recipDy m e
        f.round r sat n q.1 q.2
    | .inf n => (f.sign n, 0)
    | .nan => f.invalid

def Fmt.sqrt (f : Fmt) (r : Rnd) (sat : Bool) (a : Nat) : Nat × Word :=
  match f.nanOf [a] with
  | some v => v
  | none => match f.read a with
    | .fin n m e =>
      if m = 0 then (a, 0)
      else if n then f.invalid
      else
        let q := sqrtDy m e
        f.round r sat false q.1 q.2
    | .inf n => if n then f.invalid else (a, 0)
    | .nan => f.invalid

/-- One of the two neighbours of an inexact positive or negative value (R207). -/
def Fmt.neighbour (f : Fmt) (up neg : Bool) (m : Nat) (e : Int) : Nat × Word :=
  f.round (if up then .rup else .rdn) false neg m e

/-- frsq: within 1 ulp (R207). An exact result may also come out as either float beside it. -/
def rsqrt32 (a : Nat) : Nat × Word :=
  let f := fmtOf .f32
  let k := Config.frsqStep (BitVec.ofNat 32 a)
  match f.nanOf [a] with
  | some v => v
  | none => match f.read a with
    | .fin n m e =>
      if m = 0 then (f.sign n + f.inf, stDZ)
      else if n then f.invalid
      else
        let q := rsqrtDy m e
        if q.1 % 2 = 0 then
          let c := (f.round .rne false false q.1 q.2).1
          if k % 3 = 0 then (c, 0) else if k % 3 = 1 then (c + 1, stNX) else (c - 1, stNX)
        else f.neighbour (decide (k % 2 = 1)) false q.1 q.2
    | .inf n => if n then f.invalid else (0, 0)
    | .nan => f.invalid

/-- 2^(2^-i), in units of 2^-256: the square root of 2 taken i times over. -/
def rootTwo : Nat → Nat
  | 0 => 2 * 2 ^ 256
  | i + 1 => Nat.sqrt (rootTwo i * 2 ^ 256)

/-- 2^(j x 2^-k), in units of 2^-256, for 0 <= j < 2^k: one factor for each bit of j. -/
def powFrac (j : Nat) : Nat → Nat
  | 0 => 2 ^ 256
  | k + 1 => let t := powFrac (j / 2) k
             if j % 2 = 1 then t * rootTwo (k + 1) / 2 ^ 256 else t

/-- fexp2 (R207). -/
def exp232 (a : Nat) : Nat × Word :=
  let f := fmtOf .f32
  match f.nanOf [a] with
  | some v => v
  | none => match f.read a with
    | .inf n => if n then (0, 0) else (a, 0)
    | .nan => f.invalid
    | .fin n m e =>
      if m = 0 then (f.round .rne false false 1 0)
      else
        let big := decide (8 < e + bitLen m)
        if big then
          if n then f.neighbour (Config.fexp2Up (BitVec.ofNat 32 a)) false 1 (-1000) else (f.inf, stOF ||| stNX)
        else
          let k := (-e).toNat
          let v := signed n (m * 2 ^ e.toNat)
          let i := v.fdiv (2 ^ k)
          let j := (v.fmod (2 ^ k)).toNat
          if 128 ≤ i then (f.inf, stOF ||| stNX)
          else if j = 0 then
            (if i < -149 then f.neighbour (Config.fexp2Up (BitVec.ofNat 32 a)) false 1 i else f.round .rne false false 1 i)
          else f.neighbour (Config.fexp2Up (BitVec.ofNat 32 a)) false (2 * powFrac j k + 1) (i - 257)

/-- Bits of log2(m / 2^400), for 2^400 <= m < 2^401, n of them: square, and halve where the square reaches 2. -/
def logBits : Nat → Nat → Nat → Nat
  | 0, _, acc => acc
  | n + 1, m, acc =>
    let q := m * m / 2 ^ 400
    if 2 ^ 401 ≤ q then logBits n (q / 2) (2 * acc + 1) else logBits n q (2 * acc)

/-- flog2 (R207). -/
def log232 (a : Nat) : Nat × Word :=
  let f := fmtOf .f32
  match f.nanOf [a] with
  | some v => v
  | none => match f.read a with
    | .inf n => if n then f.invalid else (a, 0)
    | .nan => f.invalid
    | .fin n m e =>
      if m = 0 then (f.sign true + f.inf, stDZ)
      else if n then f.invalid
      else
        let L := bitLen m
        let E : Int := e + L - 1
        let x := m * 2 ^ (401 - L)
        if x = 2 ^ 400 then f.round .rne false (decide (E < 0)) E.natAbs 0
        else
          let v : Int := 2 * (E * 2 ^ 128 + logBits 128 x 0) + 1
          f.neighbour (Config.flog2Up (BitVec.ofNat 32 a)) (decide (v < 0)) v.natAbs (-129)

/-- 2 pi in units of 2^-512. -/
def twoPi : Nat :=
  84243741786901272438893642969118776210511994626978509211189370176207611564552197839587770744495452692887542593832666970654585833251198323084707548407665199

/-- The sine series of an angle t in units of 2^-512 from term k on, n terms. -/
def sinSeries (t : Int) : Nat → Int → Nat → Int
  | 0, _, _ => 0
  | n + 1, term, k =>
    term + sinSeries t n (-(term * t / 2 ^ 512 * t / 2 ^ 512) / (((2 * k + 2) * (2 * k + 3) : Nat) : Int)) (k + 1)

/-- The sine of q turns, q in units of 2^-160 and at most a quarter, in units of 2^-512. -/
def sinQuarter (q : Nat) : Int :=
  let t : Int := (twoPi * q / 2 ^ 160 : Nat)
  sinSeries t 60 t 0

/-- Whether a float stands within 2^-22 of the sine that v x 2^-512 was computed for: the series errs by less than 2^-440. -/
def nearSine (c : Nat) (v : Int) : Bool :=
  match (fmtOf .f32).read c with
  | .fin n m e =>
    let d := addDy (signed n m) e (-v) (-512)
    leDy d.1.natAbs d.2 (2 ^ 490 - 2 ^ 72) (-512)
  | _ => false

/-- The sine of v turns, v in units of 2^-160 below a turn: exact at multiples of a quarter, where a zero takes the
offered float's sign; elsewhere the offered float where it is within the bound, else the nearest. The flag says the
result is exact. -/
def sinTurns (free : Word) (v : Nat) : Nat × Bool :=
  let f := fmtOf .f32
  let quarter := 2 ^ 158
  let s := v / quarter
  let q := v % quarter
  if q = 0 then
    (if s = 1 then (f.round .rne false false 1 0).1 else if s = 3 then (f.round .rne false true 1 0).1
      else f.sign (f.neg free.toNat), true)
  else
    let mag := if s % 2 = 0 then sinQuarter q else sinQuarter (quarter - q)
    let x := if s < 2 then mag else -mag
    (if nearSine free.toNat x then free.toNat else (f.round .rne false (decide (x < 0)) x.natAbs (-512)).1, false)

/-- A finite float of f32 as a fraction of a turn in units of 2^-160: exact, since no f32 has a bit below 2^-149. -/
def turnOf (n : Bool) (m : Nat) (e : Int) : Nat := (signed n (m * 2 ^ (e + 160).toNat) % 2 ^ 160).toNat

/-- fsin (R207). UF where the sine itself is tiny. -/
def sin32 (a : Nat) : Nat × Word :=
  let f := fmtOf .f32
  match f.nanOf [a] with
  | some v => v
  | none => match f.read a with
    | .fin n m e =>
      if m = 0 then (a, 0)
      else
        let r := sinTurns (Config.fsinFree (BitVec.ofNat 32 a)) (turnOf n m e)
        (r.1, if r.2 then 0 else if f.tiny .rne n (2 * (m * twoPi) + 1) (e - 513) then stUF ||| stNX else stNX)
    | _ => f.invalid

/-- fcos (R207): the sine a quarter turn on. -/
def cos32 (a : Nat) : Nat × Word :=
  let f := fmtOf .f32
  match f.nanOf [a] with
  | some v => v
  | none => match f.read a with
    | .fin n m e =>
      let r := sinTurns (Config.fcosFree (BitVec.ofNat 32 a)) ((turnOf n m e + 2 ^ 158) % 2 ^ 160)
      (r.1, if r.2 then 0 else stNX)
    | _ => f.invalid

/-- ffrac (R207): a - floor(a), toward zero. -/
def Fmt.frac (f : Fmt) (a : Nat) : Nat × Word :=
  match f.nanOf [a] with
  | some v => v
  | none => match f.read a with
    | .fin n m e =>
      if 0 ≤ e ∨ m = 0 then (0, 0)
      else
        let k := (-e).toNat
        f.round .rtz false false ((signed n m).fmod (2 ^ k)).toNat e
    | _ => f.invalid

/-- fround (R207). -/
def Fmt.integral (f : Fmt) (r : Rnd) (a : Nat) : Nat × Word :=
  match f.nanOf [a] with
  | some v => v
  | none => match f.read a with
    | .fin n m e => ((f.round .rne false n (roundShift r n m e).1 0).1, 0)
    | _ => (a, 0)

end Sys2Proof.Machine
end

