-- ==== Sys2Proof/Machine/FloatOps.lean ====
section
/-! DEFINITION. Float vector instructions: major opcodes 0x30 to 0x3F (R204 to R208). -/

namespace Sys2Proof.Machine

open Host (Outcome)

/-- The role check of an instruction: where it fails, ROLE on G before any effect (R123). -/
def State.needRole (s : State) (i : Issuer) (x : Args) (ok : Bool) (t : State) : State :=
  if ok then t else s.trapG i (i.lanes x) cRole s.anyArg .after

/-- Whether the yarn has matrix or vector role (R61, R123): codes 1 and 2. -/
def Issuer.computes (i : Issuer) : Bool := decide (i.bank.role ≠ 0)

/-- An inline integer under a float type: converted to it, in both elements of a 16-bit type (R38, R204). -/
def floatOperand (t : Ty) (o : Operand) : Operand :=
  match o with
  | .int k =>
    let m := k.toInt.natAbs
    let neg := decide (k.toInt < 0)
    let c := if t = .t16e1 then (taperPut t .rne (.fin neg m 0)).1
      else if ieee t then ((fmtOf t).round .rne false (neg && decide (m ≠ 0)) m 0).1
      else (k.signExtend 64).toNat
    .lit (BitVec.ofNat 64 (if tyBits t = 16 then c + 2 ^ 16 * c else c))
  | _ => o

/-- The arguments with inline integers of operands a, b and c converted. -/
def floatArgs (t : Ty) (x : Args) : Args :=
  { x with a := floatOperand t x.a, b := floatOperand t x.b, c := floatOperand t x.c }

/-- A function on codes of a type applied to operands, on element 0. -/
def onFirst (t : Ty) (g : Nat → Nat → Nat → Nat × Word) (a b c : DWord) : DWord × Word :=
  let w := tyBits t
  let r := g (a.toNat % 2 ^ w) (b.toNat % 2 ^ w) (c.toNat % 2 ^ w)
  (BitVec.ofNat 64 r.1, r.2)

/-- The same on each element of a packed 16-bit type (R204). -/
def onEach (t : Ty) (g : Nat → Nat → Nat → Nat × Word) (a b c : DWord) : DWord × Word :=
  if tyBits t = 16 then perElem 16 (onFirst t g) a b c 2 0 else onFirst t g a b c

/-- A float instruction on each executing lane alone (R204). -/
def State.floatLanes (s : State) (i : Issuer) (o : Op) (x : Args) (f : DWord → DWord → DWord → DWord × Word) : State :=
  s.needRole i x i.computes (s.laneWise i o x f)

/-- fadd (R205). -/
def execFadd (x : Args) (s : State) : Outcome State Fault Refusal :=
  issued s fun i => s.floatLanes i .fadd (floatArgs x.ty x) (onEach x.ty fun a b _ => (fmtOf x.ty).add x.rnd x.sat a b)

/-- fsub (R205). -/
def execFsub (x : Args) (s : State) : Outcome State Fault Refusal :=
  issued s fun i => s.floatLanes i .fsub (floatArgs x.ty x) (onEach x.ty fun a b _ => (fmtOf x.ty).sub x.rnd x.sat a b)

/-- fmul (R205). -/
def execFmul (x : Args) (s : State) : Outcome State Fault Refusal :=
  issued s fun i => s.floatLanes i .fmul (floatArgs x.ty x) (onEach x.ty fun a b _ => (fmtOf x.ty).mul x.rnd x.sat a b)

/-- ffma (R205). -/
def execFfma (x : Args) (s : State) : Outcome State Fault Refusal :=
  issued s fun i => s.floatLanes i .ffma (floatArgs x.ty x) (onEach x.ty fun a b c => (fmtOf x.ty).fma x.rnd x.sat a b c)

/-- fmin (R206). -/
def execFmin (x : Args) (s : State) : Outcome State Fault Refusal :=
  issued s fun i => s.floatLanes i .fmin (floatArgs x.ty x) (onEach x.ty fun a b _ => (fmtOf x.ty).pick false a b)

/-- fmax (R206). -/
def execFmax (x : Args) (s : State) : Outcome State Fault Refusal :=
  issued s fun i => s.floatLanes i .fmax (floatArgs x.ty x) (onEach x.ty fun a b _ => (fmtOf x.ty).pick true a b)

/-- fcmp (R206). -/
def execFcmp (x : Args) (s : State) : Outcome State Fault Refusal :=
  issued s fun i => s.floatLanes i .fcmp (floatArgs x.ty x) (onFirst x.ty fun a b _ =>
    let r := (fmtOf x.ty).compares x.sub a b
    (if r.1 then 1 else 0, r.2))

/-- fsel (R206): as sel. -/
def execFsel (x : Args) (s : State) : Outcome State Fault Refusal :=
  issued s fun i => s.floatLanes i .fsel { x with a := floatOperand x.ty x.a, b := floatOperand x.ty x.b }
    (fun a b c => (if c = 1 then a else b, 0))

/-- frcp (R207). -/
def execFrcp (x : Args) (s : State) : Outcome State Fault Refusal :=
  issued s fun i => s.floatLanes i .frcp (floatArgs x.ty x) (onFirst x.ty fun a _ _ => (fmtOf x.ty).recip x.rnd x.sat a)

/-- frsq (R207). -/
def execFrsq (x : Args) (s : State) : Outcome State Fault Refusal :=
  issued s fun i => s.floatLanes i .frsq (floatArgs x.ty x) (onFirst x.ty fun a _ _ => rsqrt32 a)

/-- fsqrt (R207). -/
def execFsqrt (x : Args) (s : State) : Outcome State Fault Refusal :=
  issued s fun i => s.floatLanes i .fsqrt (floatArgs x.ty x) (onFirst x.ty fun a _ _ => (fmtOf x.ty).sqrt x.rnd x.sat a)

/-- fexp2 (R207). -/
def execFexp2 (x : Args) (s : State) : Outcome State Fault Refusal :=
  issued s fun i => s.floatLanes i .fexp2 (floatArgs x.ty x) (onFirst x.ty fun a _ _ => exp232 a)

/-- flog2 (R207). -/
def execFlog2 (x : Args) (s : State) : Outcome State Fault Refusal :=
  issued s fun i => s.floatLanes i .flog2 (floatArgs x.ty x) (onFirst x.ty fun a _ _ => log232 a)

/-- fsin (R207). -/
def execFsin (x : Args) (s : State) : Outcome State Fault Refusal :=
  issued s fun i => s.floatLanes i .fsin (floatArgs x.ty x) (onFirst x.ty fun a _ _ => sin32 a)

/-- fcos (R207). -/
def execFcos (x : Args) (s : State) : Outcome State Fault Refusal :=
  issued s fun i => s.floatLanes i .fcos (floatArgs x.ty x) (onFirst x.ty fun a _ _ => cos32 a)

/-- fscale (R205): operand b is a signed 32-bit integer and is not converted. -/
def execFscale (x : Args) (s : State) : Outcome State Fault Refusal :=
  issued s fun i => s.floatLanes i .fscale { x with a := floatOperand x.ty x.a } (fun a b _ =>
    onFirst x.ty (fun a _ _ => (fmtOf x.ty).scale x.rnd x.sat a (b.setWidth 32).toInt) a b 0)

/-- ffrac (R207). -/
def execFfrac (x : Args) (s : State) : Outcome State Fault Refusal :=
  issued s fun i => s.floatLanes i .ffrac (floatArgs x.ty x) (onFirst x.ty fun a _ _ => (fmtOf x.ty).frac a)

/-- fround (R207). -/
def execFround (x : Args) (s : State) : Outcome State Fault Refusal :=
  issued s fun i => s.floatLanes i .fround (floatArgs x.ty x) (onFirst x.ty fun a _ _ => (fmtOf x.ty).integral x.rnd a)

/-- fcvt (R208): operand a is of the source type. -/
def execFcvt (x : Args) (s : State) : Outcome State Fault Refusal :=
  issued s fun i => s.floatLanes i .fcvt { x with a := floatOperand x.src x.a } (fun a _ _ =>
    let r := convert x.src x.ty x.rnd x.sat a.toNat
    (BitVec.ofNat 64 r.1, r.2))

end Sys2Proof.Machine
end

