-- ==== Sys2Proof/Machine/Narrow.lean ====
section
/-! DEFINITION. Narrow-format instructions on segments of 32 lanes: major opcodes 0x40 to 0x44 (R209 to R213). -/

namespace Sys2Proof.Machine

open Host (Outcome)

/-- Lane j of a lane's segment (R209). DEDUCED (log 48): in a protected launch, where a primary reads primaries and a shadow
shadows (R229), the yarn's 32 pairs are one block for each side. -/
def Issuer.segAt (i : Issuer) (l j : Nat) : Nat := if i.protd then 2 * j + l % 2 else l / 32 * 32 + j

/-- The lanes of a lane's segment, ascending. -/
def Issuer.segment (i : Issuer) (l : Nat) : List Nat := (List.range 32).map (i.segAt l)

/-- A lane's place in its segment. -/
def Issuer.seat (i : Issuer) (l : Nat) : Nat := i.launch.laneNo l % 32

/-- A segment as an instruction sees it: what operand a reads in each of its lanes, operand b of the lowest lane of G in
it, and the label of its results. -/
structure Segment where
  a : List Val
  b : Val
  lab : Label
  deriving DecidableEq, Repr

/-- The segment of a lane. -/
def Issuer.segmentOf (i : Issuer) (s : State) (x : Args) (G : List Nat) (l : Nat) : Segment :=
  let a := (i.segment l).map (fun m => i.across s x.a false m)
  let b := i.operand s x.b false ((G.filter (fun m => (i.segment l).contains m)).headD l)
  { a := a, b := b, lab := i.label (b :: a) }

/-- A segment instruction: it waits for writes pending outside G (R83), then each lane of G takes the element f gives
for its place in the segment. -/
def State.segmentwise (s : State) (i : Issuer) (o : Op) (x : Args) (f : Segment → Nat → DWord × Word) : State :=
  let G := i.lanes x
  s.needRole i x i.computes
    (if i.mustWait x.a false G (G.flatMap i.segment) then s.stay i i.g.wait
    else s.compute i o x (G.map (fun l =>
      let g := i.segmentOf s x G l
      let r := f g (i.seat l)
      { lane := l, val := r.1, lab := g.lab, bits := r.2 })))

/-- The values of a segment as 32-bit words. -/
def Segment.words (g : Segment) : List Nat := g.a.map (fun v => v.val.toNat % 2 ^ 32)

/-- qnt (R210). -/
def execQnt (x : Args) (s : State) : Outcome State Fault Refusal :=
  issued s fun i => s.segmentwise i .qnt x fun g j =>
    let forced := if flag29 x.mods then some (g.b.val.toNat % 256) else none
    let q := quantise x.ty x.rnd forced g.words
    (BitVec.ofNat 64 (q.1 * 256 + q.2.1.getD j 0), q.2.2)

/-- dqnt (R211). -/
def execDqnt (x : Args) (s : State) : Outcome State Fault Refusal :=
  issued s fun i => s.segmentwise i .dqnt x fun g j =>
    let w := g.words.getD j 0
    let sc := if flag29 x.mods then g.b.val.toNat % 256 else w / 256 % 256
    let r := dequant x.ty x.rnd x.sat (w % 2 ^ tyBits x.ty) sc
    (BitVec.ofNat 64 r.1, r.2)

/-- bmax (R212). -/
def execBmax (x : Args) (s : State) : Outcome State Fault Refusal :=
  issued s fun i => s.segmentwise i .bmax x fun g _ =>
    (BitVec.ofNat 64 (chooseScale x.ty (g.words.map (fmtOf .f32).read)), 0)

/-- Element codes packed into one number, element e at bit w x e (R195). -/
def packElems (w : Nat) (cs : List Nat) : Nat := cs.foldr (fun c n => c % 2 ^ w + 2 ^ w * n) 0

/-- pack (R213). -/
def execPack (x : Args) (s : State) : Outcome State Fault Refusal :=
  issued s fun i => s.segmentwise i .pack x fun g j =>
    (BitVec.ofNat 64 (packElems (tyBits x.ty) g.words / 2 ^ (32 * j) % 2 ^ 32), 0)

/-- unpack (R213). -/
def execUnpack (x : Args) (s : State) : Outcome State Fault Refusal :=
  issued s fun i => s.segmentwise i .unpack x fun g j =>
    (BitVec.ofNat 64 (packElems 32 (g.words.take (tyBits x.ty)) / 2 ^ (tyBits x.ty * j) % 2 ^ tyBits x.ty), 0)

end Sys2Proof.Machine
end

