-- ==== Sys2Proof/Machine/Matrix.lean ====
section
/-! DEFINITION. The matrix engine: mma, what a K-step computes, its epilogue and stores (R214 to R222, R227, R228), the accumulator
instructions: major opcodes 0x48 to 0x4C (R223 to R226), and the arrival of results that take time (R26). -/

namespace Sys2Proof.Machine

open Host (Outcome)

/-! ### The format word and the parameter block (R214, R215) -/

/-- The type a matrix operand code names (R186). -/
def mType : Nat → Option Ty
  | 0 => some .f32
  | 1 => some .f16
  | 2 => some .bf16
  | 4 => some .t16e1
  | 5 => some .t8e0
  | 6 => some .t8e1
  | 7 => some .t6e0
  | 8 => some .t6e1
  | 9 => some .s8
  | 10 => some .n8
  | 11 => some .s4
  | 12 => some .n4
  | _ => none

/-- The row of R214's table a type stands in. -/
def mGroup (t : Ty) : Nat :=
  match t with
  | .f32 => 0
  | .f16 | .bf16 | .t16e1 => 1
  | .t8e0 | .t8e1 | .s8 | .n8 => 2
  | _ => 3

def fwA (w : Word) : Ty := (mType (bitsAt w 0 4)).getD .f32
def fwB (w : Word) : Ty := (mType (bitsAt w 4 4)).getD .f32
def fwOut (w : Word) : Ty := (mType (bitsAt w 12 4)).getD .f32
/-- The epilogue's rounding (R43). -/
def fwRnd (w : Word) : Rnd :=
  match bitsAt w 16 2 with
  | 0 => .rne
  | 1 => .rtz
  | 2 => .rdn
  | _ => .rup
def fwSat (w : Word) : Bool := w.getLsbD 18

/-- Whether a format word is valid (R214). -/
def fwValid (w : Word) : Bool :=
  match mType (bitsAt w 0 4), mType (bitsAt w 4 4), mType (bitsAt w 12 4) with
  | some a, some b, some _ =>
    decide (bitsAt w 19 13 = 0) && decide (bitsAt w 8 4 = 0) && decide (mGroup a = mGroup b)
  | _, _, _ => false

/-- Bytes of a parameter block as a number. -/
def pbAt (b : BitVec 1024) (o n : Nat) : Nat := bitsAt b (8 * o) (8 * n)

def pbA (b : BitVec 1024) : Nat := pbAt b 0 4
def pbAExt (b : BitVec 1024) : Nat := pbAt b 4 4
def pbScales (b : BitVec 1024) : Nat := pbAt b 8 4
def pbSExt (b : BitVec 1024) : Nat := pbAt b 12 4
def pbSlice (b : BitVec 1024) : Nat := pbAt b 16 4
def pbK (b : BitVec 1024) : Nat := pbAt b 24 4
def pbSlot (b : BitVec 1024) : Nat := pbAt b 28 1
def pbZero (b : BitVec 1024) : Bool := b.getLsbD 232
def pbCheck (b : BitVec 1024) : Bool := b.getLsbD 233
def pbScale (b : BitVec 1024) : Nat := pbAt b 32 4
def pbAct (b : BitVec 1024) : Nat := pbAt b 36 4
def pbBiasOn (b : BitVec 1024) : Bool := b.getLsbD 352
def pbBias (b : BitVec 1024) : Nat := bitsAt b 320 19
def pbStore (b : BitVec 1024) : Nat := pbAt b 48 2
def pbSStore (b : BitVec 1024) : Nat := pbAt b 50 2
/-- K-steps of an operation. -/
def pbSteps (b : BitVec 1024) : Nat := pbK b / 32

/-- The byte offset of the first field that fails, in a list of offsets with whether each fails. -/
def firstField (ts : List (Nat × Bool)) : Option Nat := (ts.find? (fun t => t.2)).map Prod.fst

/-- A reserved field that is nonzero. -/
def pbReserved (b : BitVec 1024) : Option Nat :=
  firstField [(30, decide (pbAt b 30 2 ≠ 0)), (40, decide (bitsAt b 339 13 ≠ 0 ∨ bitsAt b 353 31 ≠ 0)),
    (52, decide (pbAt b 52 76 ≠ 0))]

/-- A field out of its range, the templates apart. -/
def pbRange (b : BitVec 1024) : Option Nat :=
  firstField [(20, decide (pbAt b 20 2 ≠ 128)), (22, decide (pbAt b 22 2 ≠ 128)),
    (24, decide (pbK b % 32 ≠ 0 ∨ pbK b = 0 ∨ 65536 < pbK b)), (28, decide (3 < pbSlot b)),
    (29, decide (bitsAt b 234 6 ≠ 0)), (36, decide (3 < pbAct b))]

/-- An extent that fails R215, R134 or the slice bounds; a region that leaves the allocation is charged to its base. -/
def pbExtent (alloc : Nat) (w : Word) (b : BitVec 1024) : Option Nat :=
  let K := pbK b
  let n := blocked (fwA w)
  firstField [(0, decide (alloc < pbA b + pbAExt b)), (4, decide (pbAExt b < 128 * K * tyBits (fwA w) / 8)),
    (8, if n then decide (alloc < pbScales b + pbSExt b) else decide (pbScales b ≠ 0)),
    (12, if n then decide (pbSExt b < 128 * K / 32) else decide (pbSExt b ≠ 0)),
    (16, decide (pbSlice b % 256 ≠ 0 ∨ 2 ^ 21 < pbSlice b + 128 * K * tyBits (fwB w) / 8 + 4 * K)),
    (40, pbBiasOn b && decide (pbBias b % 4 ≠ 0 ∨ alloc < pbBias b + 512))]

/-- Whether an output format is narrow. -/
def fwNarrow (w : Word) : Bool := blocked (fwOut w)

/-- Bytes of an operation's output tile. -/
def tileBytes (w : Word) : Nat := 2048 * tyBits (fwOut w)

/-! ### mma at issue (R216) -/

/-- A template field: its record as read, or that it is out of range, or a fault or a wait. -/
def State.opTemplate (s : State) (i : Issuer) (l n bytes : Nat) : Record :=
  match s.record i l n with
  | .ok r => if tStoreOk i.launch bytes r then .ok (tAsStore r) else .bad
  | g => g

/-- Which of its frays a yarn runs as an entry, by the fray's own number. -/
def Yarn.frayNum (y : Yarn) (e : Option Nat) : Option Nat := (e.bind (fun k => Store.find k y.frays)).map (·.num)

/-- The entry under which a fray of a yarn stands, if it has not ended. -/
def Yarn.entryOf (y : Yarn) (n : Nat) : Option Nat := (y.frays.find? (fun c => decide (c.2.num = n))).map Prod.fst

/-- The operation enqueued: it takes the next number, which every lane of G receives with the floor's label. -/
def State.enqueue (s : State) (i : Issuer) (x : Args) (G : List Nat) (fw : Word) (lab : Label) (b : BitVec 1024)
    (tm sm : BitVec 512) : State :=
  let t := i.strand.submit 8
  let n := t.issuedOn 8
  let op : MOp := { num := n, seq := t.seq, block := b, fw := fw, lab := lab, yarn := i.y, fray := i.yarn.frayNum i.g.fray,
                    lane := i.lead G (G.headD 0), tmpl := tm, stmpl := sm }
  let s1 := (s.dropLaneBufs i.y i.g.id).setStrand i.yarn.strand { t with ops := t.ops ++ [op], seq := t.seq + 1 }
  s1.compute (s1.again i) .mma x (G.map (fun l => { lane := l, val := BitVec.ofNat 64 n, lab := i.bank.floor }))

/-- The last checks of mma, the block being read: fields, templates, extents, and room in the context. -/
def State.mmaBlock (s : State) (i : Issuer) (x : Args) (G : List Nat) (fw : Word) (lab : Label) (b : BitVec 1024) : State :=
  let ill := fun (n : Nat) => s.trap i G cIllegalOp (BitVec.ofNat 64 n) .here
  match pbReserved b, pbRange b with
  | some n, _ => s.trap i G cReservedField (BitVec.ofNat 64 n) .here
  | none, some n => ill n
  | none, none =>
    let l := G.headD 0
    let store := decide (pbStore b ≠ 0xFFFF)
    let scales := store && fwNarrow fw
    let r1 := if store then s.opTemplate i l (pbStore b) (tileBytes fw) else .ok 0
    let r2 := if scales then s.opTemplate i l (pbSStore b) 512 else if pbSStore b = 0 then .ok 0 else .bad
    let split := fun (c : Byte) (a : DWord) =>
      s.finish i G ((i.led G (i.lead G l)).map (fun m => LaneFault.mk m c a)) (fun s1 =>
        (s1, i.killIn .mma x i.yarn (G.filter (fun m => !(i.led G (i.lead G l)).contains m))))
    match r1, r2 with
    | .wait s', _ => s'
    | .fault c a, _ => split c a
    | .bad, _ => ill 48
    | .ok _, .wait s' => s'
    | .ok _, .fault c a => split c a
    | .ok _, .bad => ill 50
    | .ok tm, .ok sm =>
      match pbExtent i.launch.alloc fw b with
      | some n => s.trap i G cExtentBounds (BitVec.ofNat 64 n) .here
      | none => if 4 ≤ i.strand.ops.length then s else s.enqueue i x G fw lab b tm sm

/-- mma (R216). -/
def execMma (x : Args) (s : State) : Outcome State Fault Refusal :=
  issued s fun i => s.needRole i x (decide (i.bank.role = 1)) (s.once i x fun G =>
    let v := fun l => i.operand s x.b false l
    let fw := (v (G.headD 0)).val
    let w : Word := fw.setWidth 32
    if G.any (fun l => decide ((v l).val ≠ fw)) then s.trap i G cFormatDiverge s.anyArg .here
    else if !fwValid w then s.trap i G cIllegalOp (w.setWidth 64) .here
    else
      let a := i.spAddr s x false (G.headD 0)
      if a % 64 ≠ 0 ∨ (s.locate i true a 128).isNone then s.trap i G cExtentBounds (BitVec.ofNat 64 a) .here
      else if i.yarn.padPending then s
      else
        let o := a % 2 ^ 19
        let b := BitVec.ofNat 1024 (leNat (i.strand.padRead o 128))
        let labs := (List.range 16).map (fun u => i.strand.unitLabel (o + 8 * u))
        let lab := (labs.foldl lmax i.bank.floor)
        s.mmaBlock i x G w (G.foldl (fun m l => lmax m (v l).lab) lab) b)

/-! ### One K-step (R217, R218) -/

/-- 32 elements of a row of A or a column of B: codes, values, and the block's power of two. -/
structure Blk where
  codes : List Nat
  vals : List Num
  exp : Int
  deriving DecidableEq, Repr

/-- 32 packed elements read under a scale byte; a NaR block reads as NaN throughout (R195). -/
def mBlock (t : Ty) (n sc : Nat) : Blk :=
  let w := tyBits t
  let cs := (List.range 32).map (fun e => n / 2 ^ (w * e) % 2 ^ w)
  { codes := cs
    vals := if blocked t ∧ sc = 255 then List.replicate 32 .nan else cs.map (elemRead t)
    exp := if blocked t then (sc : Int) - 127 else 0 }

/-- The exact sum of some values; NaN where one is NaN or infinities of both signs meet. -/
def numSum (xs : List Num) : Num :=
  if xs.any (fun x => decide (x = .nan)) then .nan
  else
    let hasP := xs.any (fun x => decide (x = .inf false))
    let hasN := xs.any (fun x => decide (x = .inf true))
    if hasP && hasN then .nan
    else if hasP then .inf false
    else if hasN then .inf true
    else
      let v := xs.foldl (fun (a : Int × Int) x => match x with
        | .fin n m e => addDy a.1 a.2 (signed n m) e
        | _ => a) (0, 0)
      .fin (decide (v.1 < 0)) v.1.natAbs v.2

/-- A value times a power of two. -/
def Num.shift (x : Num) (k : Int) : Num :=
  match x with
  | .fin n m e => .fin n m (e + k)
  | y => y

/-- S for one element of the tile: the exact scaled sum of products; NaN for the cases of R218. -/
def Blk.dot (a b : Blk) : Num :=
  (numSum (List.zipWith (fun x y => (x.times y).getD .nan) a.vals b.vals)).shift (a.exp + b.exp)

def f32 : Fmt := fmtOf .f32

/-- acc := rne32(acc + rne32(S)), with NV and OF (R217, R218); a NaN accumulator stays, S being rounded all the same. -/
def accAdd (acc : Nat) (S : Num) : Nat × Word :=
  let r := f32.put .rne false S
  if S = .nan then (f32.canon, stNV)
  else if f32.isNan acc then (f32.canon, r.2 &&& stOF)
  else
    let q := f32.sum .rne false (f32.read acc) (f32.read r.1)
    (q.1, (r.2 ||| q.2) &&& (stNV ||| stOF))

/-- The 32 fused steps of FP32 operands, in k order. -/
def accFma : Nat → List (Nat × Nat) → Nat × Word
  | acc, [] => (acc, 0)
  | acc, (a, b) :: t =>
    let bad := f32.isNan a || f32.isNan b || ((f32.read a).times (f32.read b)).isNone
    let r := if bad then (f32.canon, stNV)
      else if f32.isNan acc then (f32.canon, 0)
      else
        let q := f32.fma .rne false a b acc
        (if f32.isNan q.1 then f32.canon else q.1, q.2 &&& (stNV ||| stOF))
    let u := accFma r.1 t
    (u.1, r.2 ||| u.2)

/-- One element's K-step. -/
def accStep (t : Ty) (a b : Blk) (acc : Nat) : Nat × Word :=
  if t = .f32 then accFma acc (List.zip a.codes b.codes) else accAdd acc (a.dot b)

/-- The magnitude of an FP32 word as a value. -/
def absNum (x : Num) : Num :=
  match x with
  | .fin _ m e => .fin false m e
  | .inf _ => .inf false
  | .nan => .nan

/-- One column's checksum and magnitude after a K-step: its rows of A, its block of B, what each row's S was, and the
accumulator after the step (R227). -/
def ckStep (t : Ty) (rows : List Blk) (b : Blk) (Ss : List Num) (accs : List Nat) (ck mg : Nat) : Nat × Nat :=
  let after := accs.map f32.read
  let nan := (Ss ++ after).any (fun x => decide (x = .nan)) || f32.isNan ck
  let colA := (List.range 32).map (fun k => numSum (rows.map (fun r => (r.vals.getD k .nan).shift r.exp)))
  let ck1 : Nat :=
    if nan then f32.canon
    else if t = .f32 then (accFma ck (List.zip (colA.map (fun x => (f32.put .rne false x).1)) b.codes)).1
    else (accAdd ck ((numSum (List.zipWith (fun x y => (x.times y).getD .nan) colA b.vals)).shift b.exp)).1
  let fin := match f32.read ck1 with | .fin _ _ _ => true | _ => false
  (ck1, if fin then (f32.put .rup false (numSum (f32.read mg :: (Ss ++ after).map absNum))).1 else f32.inf)

/-- A table of words from a list. -/
def storeOf (ws : List Nat) : Store Word :=
  (List.zip (List.range ws.length) ws).filterMap (fun p =>
    if p.2 % 2 ^ 32 = 0 then none else some (p.1, BitVec.ofNat 32 p.2))

/-- A word of a table as a number. -/
def wordAt (t : Store Word) (k : Nat) : Nat := (Store.get 0 k t).toNat

/-- A row of A for K-step t (from 1), with its units' highest label (R215, R222). -/
def Strand.rowA (x : Strand) (fw : Word) (b : BitVec 1024) (t i : Nat) : Blk × Label :=
  let T := fwA fw
  let w := tyBits T
  let o := pbA b + i * (pbK b * w / 8) + (t - 1) * 4 * w
  let so := pbScales b + i * pbSteps b + (t - 1)
  let labs := (List.range (w / 2 + 1)).map (fun u => x.unitLabel (o + min (8 * u) (4 * w - 1)))
  let lab := labs.foldl lmax (if blocked T then x.unitLabel so else 0)
  (mBlock T (leNat (x.padRead o (4 * w))) (x.padByte so).toNat, lab)

/-- A column of B for K-step t (from 1), as the slice holds it (R276). -/
def colB (slice : Store Byte) (fw : Word) (b : BitVec 1024) (t j : Nat) : Blk :=
  let T := fwB fw
  let w := tyBits T
  let o := pbSlice b + j * (pbK b * w / 8) + (t - 1) * 4 * w
  let so := pbSlice b + 128 * (pbK b * w / 8) + (t - 1) * 128 + j
  mBlock T (leNat (sliceRead slice o (4 * w))) (Store.get 0 so slice).toNat

/-- A slot after a K-step, and the NV and OF it records (R217, R218, R220, R227). -/
def Slot.kStep (k : Slot) (o : MOp) (rows : List (Blk × Label)) (cols : List Blk) (sliceLab : Label) : Slot × Word :=
  let t := fwA o.fw
  let first := decide (o.progress = 0)
  let zero := first && pbZero o.block
  let old := fun n => if zero then 0 else wordAt k.acc n
  let lab := rows.foldl (fun m r => lmax m r.2) (lmax o.lab sliceLab)
  let rs := rows.map Prod.fst
  let cells := (List.zip (List.range 128) rs).map (fun a =>
    (List.zip (List.range 128) cols).map (fun b => accStep t a.2 b.2 (old (128 * a.1 + b.1))))
  let flat := cells.flatten
  let ckOld := fun (v : Store Word) j => if zero then 0 else wordAt v j
  let cks := (List.zip (List.range 128) cols).map (fun b =>
    ckStep t rs b.2 (rs.map (fun a => a.dot b.2)) (cells.map (fun r => (r.getD b.1 (0, 0)).1)) (ckOld k.ck b.1) (ckOld k.mg b.1))
  let k1 : Slot := { k with acc := storeOf (flat.map Prod.fst), lab := if zero then lab else lmax k.lab lab }
  (if pbCheck o.block then { k1 with ck := storeOf (cks.map Prod.fst), mg := storeOf (cks.map Prod.snd) } else k1,
    flat.foldl (fun m c => m ||| c.2) 0)

/-- Accumulator instructions of a strand's yarns that still wait on a slot, before a place in slot order (R223). -/
def State.slotBusy (s : State) (x slot seq : Nat) : Bool :=
  s.yarns.any (fun c => decide (c.2.strand = x) && c.2.pend.any (fun p => decide (p.seq < seq) && (match p.act with
    | .accLd k _ _ _ | .accSt k _ | .accOut k _ _ | .accIn k _ _ _ | .accZero k _ | .mmchk k _ _ _ => decide (k = slot)
    | .none => false)))

/-- The operation a strand's matrix context runs: the oldest, on a core (R217). -/
def State.running (s : State) (x : Nat) : Option (Strand × MOp) :=
  match Store.find x s.strands with
  | none => none
  | some t => if t.place.isNone then none else t.ops.head?.map (fun o => (t, o))

/-- A slot of a core. -/
def Core.slot (c : Core) (n : Nat) : Slot := Store.get {} n c.slots

/-- With a slot changed. -/
def Core.setSlot (c : Core) (n : Nat) (k : Slot) : Core := { c with slots := Store.put n k c.slots }

/-! ### The epilogue (R219, R228) -/

/-- 2 sqrt(2/pi) log2(e), in units of 2^-128. -/
def geluRate : Nat := 783400854809339763318988238892141662713

/-- The magnitude of GELU's tanh form at a nonzero float: x / (1 + 2^-(r (x + 0.044715 x^3))), as a number and an
exponent; for |x| of 32 or more it lies nearer to its limit, below x or 0 in magnitude, than any float tells (R219). -/
def geluMag (n : Bool) (m : Nat) (e : Int) : Nat × Int :=
  if 5 ≤ e + bitLen m - 1 then (if n then (1, -1000) else (m * 2 ^ 1000 - 1, e - 1000))
  else
    let G : Int := signed n (m * 2 ^ (e + 160).toNat)
    let u : Int := (geluRate : Int) * (1000000 * G * 2 ^ 320 + 44715 * G * G * G)
    let v : Int := -(u.fdiv (1000000 * 2 ^ 480))
    let i := v.fdiv (2 ^ 128)
    let p := powFrac (v.fmod (2 ^ 128)).toNat 128
    let a := 2 ^ (256 + (-i).toNat)
    let b := p * 2 ^ i.toNat
    (2 * (G.natAbs * a * 2 ^ 400 / (a + b)) + 1, -561)

/-- Whether a float stands within 2 ulp of a signed magnitude. -/
def within2 (c : Nat) (neg : Bool) (m : Nat) (e : Int) : Bool :=
  match f32.read c with
  | .fin n k d =>
    let w := addDy (signed n k) d (-(signed neg m)) e
    leDy w.1.natAbs w.2 1 (max (e + bitLen m - 1) f32.emin - 22)
  | _ => false

/-- GELU: the offered float where it is within the bound, else the nearest (R219; log entry 10). -/
def gelu (y : Nat) : Nat :=
  match f32.read y with
  | .nan => f32.canon
  | .inf n => if n then f32.sign true else y
  | .fin n m e =>
    if m = 0 then y
    else
      let v := geluMag n m e
      let c := (Config.geluFree (BitVec.ofNat 32 y)).toNat
      if within2 c n v.1 v.2 then c else (f32.round .rne false n v.1 v.2).1

/-- The activation (R219). -/
def activate (a y : Nat) : Nat × Word :=
  if f32.isNan y then (f32.canon, 0)
  else if a = 1 then (if f32.neg y then 0 else y, 0)
  else if a = 2 then (if f32.neg y && decide (f32.mag y ≠ 0) then f32.mul .rne false y 0x3E000000 else (y, 0))
  else if a = 3 then (gelu y, 0)
  else (y, 0)

/-- One element through scale, bias and activation. -/
def epiOne (b : BitVec 1024) (bias : Nat) (x : Nat) : Nat × Word :=
  let y := if pbBiasOn b then f32.fma .rne false x (pbScale b) bias else f32.mul .rne false x (pbScale b)
  let z := activate (pbAct b) y.1
  (z.1, y.2 ||| z.2)

/-- A row put into the output format: its outputs, their scale bytes, the sticky bits. -/
def epiRow (fw : Word) (ys : List Nat) : List Nat × List Nat × Word :=
  let t := fwOut fw
  if fwNarrow fw then
    let qs := (List.range 4).map (fun k => quantise t (fwRnd fw) none ((ys.drop (32 * k)).take 32))
    (qs.flatMap (fun q => q.2.1), qs.map Prod.fst, qs.foldl (fun m q => m ||| q.2.2) 0)
  else
    let rs := ys.map (convert .f32 t (fwRnd fw) (fwSat fw))
    (rs.map Prod.fst, [], rs.foldl (fun m r => m ||| r.2) 0)

/-- The bias words of an operation and their highest label. -/
def Strand.biasOf (x : Strand) (b : BitVec 1024) : List Nat × Label :=
  if pbBiasOn b then
    ((List.range 128).map (fun j => leNat (x.padRead (pbBias b + 4 * j) 4)),
      (List.range 65).foldl (fun m u => lmax m (x.unitLabel (pbBias b + min (8 * u) 511))) 0)
  else (List.replicate 128 0, 0)

/-- A column's arithmetic check: none where it is skipped, else whether it passes (R228). -/
def ckColumn (steps : Nat) (accs : List Nat) (ck mg : Nat) : Option Bool :=
  let xs := accs.map f32.read
  let fin := fun (x : Num) => match x with | .fin _ _ _ => true | _ => false
  if !(xs.all fin && fin (f32.read ck)) then none
  else
    match f32.read (f32.put .rne false (numSum xs)).1, f32.read ck, f32.read mg with
    | .fin n1 m1 e1, .fin n2 m2 e2, .fin _ m3 e3 =>
      let d := addDy (signed n1 m1) e1 (-(signed n2 m2)) e2
      let bound := addDy m3 (e3 - 22) steps (-140)
      some (leDy d.1.natAbs d.2 bound.1.natAbs bound.2)
    | .fin _ _ _, _, _ => some true
    | _, _, .fin _ _ _ => some false
    | _, _, _ => some true

/-- Whether two values are the same number, or the same infinity, or both NaN. -/
def Num.same (x y : Num) : Bool :=
  match x, y with
  | .fin n m e, .fin k l d => decide ((addDy (signed n m) e (-(signed k l)) d).1 = 0)
  | .inf n, .inf k => decide (n = k)
  | .nan, .nan => true
  | _, _ => false

/-- What a code of an output format denotes under its block's scale byte (R195, R219). -/
def outVal (t : Ty) (c sc : Nat) : Num :=
  if blocked t then (if sc = 255 then .nan else (elemRead t c).shift ((sc : Int) - 127)) else elemRead t c

/-- A column's data-path check (R228): the sum of what the tile's bytes say, against the sum of the epilogue's outputs. A sum
that is no number passes where both are the same (log entry 30). -/
def dataColumn (fw : Word) (out scales : Store Byte) (vals : List (List Num)) (j : Nat) : Bool :=
  let t := fwOut fw
  let w := tyBits t
  let read := fun (i : Nat) =>
    outVal t (leNat (sliceRead out (16 * w * i) (16 * w)) / 2 ^ (w * j) % 2 ^ w) (Store.get 0 (4 * i + j / 32) scales).toNat
  (numSum ((List.range 128).map read)).same (numSum (vals.map (fun r => r.getD j .nan)))

/-- A list of bytes as a table from key 0 on. -/
def byteStore (bs : List Byte) : Store Byte :=
  (List.zip (List.range bs.length) bs).filterMap (fun p => if p.2 = 0 then none else some p)

/-- The status word of the yarn or fray that issued an operation takes what it recorded; where that has ended it is discarded (R218). -/
def State.opSticky (s : State) (o : MOp) (bits : Word) : State :=
  match Store.find o.yarn s.yarns with
  | none => s
  | some y =>
    match o.fray with
    | none => if y.retired then s else s.setYarn o.yarn (y.raise none bits)
    | some n =>
      match y.entryOf n with
      | none => s
      | some e => s.setYarn o.yarn (y.raise (some e) bits)

/-- The sticky bits an operation recorded. -/
def MOp.bits (o : MOp) : Word :=
  (if o.nv then stNV else 0) ||| (if o.of then stOF else 0) ||| (if o.qsat then stQSAT else 0)

/-- An operation done: counted on its timeline, its context free for the next (R219, R226, R291). -/
def State.opDone (s : State) (x : Nat) (o : MOp) : State :=
  match Store.find x s.strands with
  | none => s
  | some t =>
    let n := pbSlot o.block
    let c := s.coreAt t.core
    let k := c.slot n
    let s1 := if pbCheck o.block then s.setCore t.core (c.setSlot n { k with ckLive := true }) else s
    (s1.setStrand x ({ t with ops := t.ops.filter (fun d => !decide (d.num = o.num)) }.finish 8)).opSticky o o.bits

/-- The policy's CHECKSUM code: 0 report, 2 replay, else terminate (R232). -/
def checksumCode (p : Word) : Nat := bitsAt p 2 2

/-- An epilogue's sectors registered with the barrier of its template (R290). -/
def State.registerOut (s : State) (x : Nat) (r : BitVec 512) : State :=
  if tBarOn r ∧ tKind r ≠ 5 then s.barRegister x (tBar r) (tSize r / 32) else s

/-- The epilogue of an operation whose K-steps are done (R219, R228). -/
def State.epilogue (s : State) (x : Nat) (t : Strand) (o : MOp) : State :=
  if pbStore o.block = 0xFFFF then s.opDone x o
  else
    let n := pbSlot o.block
    let c := s.coreAt t.core
    let k := c.slot n
    let bias := t.biasOf o.block
    let rows := (List.range 128).map (fun i =>
      let ys := (List.range 128).map (fun j => epiOne o.block (bias.1.getD j 0) (wordAt k.acc (128 * i + j)))
      let r := epiRow o.fw (ys.map Prod.fst)
      (r.1, r.2.1, ys.foldl (fun m y => m ||| y.2) r.2.2))
    let bits := rows.foldl (fun m r => m ||| r.2.2) 0
    let cols := if pbCheck o.block then (List.range 128).map (fun j =>
        ckColumn (pbSteps o.block) ((List.range 128).map (fun i => wordAt k.acc (128 * i + j))) (wordAt k.ck j) (wordAt k.mg j))
      else []
    let skipped := (cols.filter (fun r => r.isNone)).length
    let w := tyBits (fwOut o.fw)
    let out := byteStore (rows.flatMap (fun r => leBytes (16 * w) (packElems w r.1)))
    let scales := byteStore (rows.flatMap (fun r => r.2.1.map (BitVec.ofNat 8)))
    let vals := rows.map (fun r => (List.range 128).map (fun j =>
      outVal (fwOut o.fw) (r.1.getD j 0) (r.2.1.getD (j / 32) 0)))
    let sound := if pbCheck o.block then (List.range 128).map (dataColumn o.fw out scales vals) else []
    let bad := fun j => decide (cols.getD j none = some false)
    let failed := (List.range 128).find? (fun j => bad j || !sound.getD j true)
    let L := s.launchOf t
    let f := s.func L.fn
    let o1 : MOp := { o with nv := o.nv || bits.getLsbD 0, of := o.of || bits.getLsbD 2, qsat := o.qsat || bits.getLsbD 6,
                             stage := .stored, failed := failed.map (fun j => (j, bad j)), out := out, scales := scales,
                             run := { state := .running }, srun := { state := if fwNarrow o.fw then .running else .done } }
    let s1 := (s.setCore t.core (c.setSlot n { k with lab := lmax k.lab bias.2 })).setFunc L.fn
      { f with tele := { f.tele with skipped := f.tele.skipped + skipped } }
    let code := checksumCode (s.func L.fn).policy
    match failed with
    | some j =>
      if code = 0 then
        let s2 := s1.errorAct t.launch t.at_.die t.at_.core cChecksum code (if bad j then 5 else 7) o.num j 0
        let s3 := s2.setStrand x ((s2.strandAt x).setOp o1)
        let s4 := s3.registerOut x o.tmpl
        if fwNarrow o.fw then s4.registerOut x o.stmpl else s4
      else (s1.opDone x o1).errorAct t.launch t.at_.die t.at_.core cChecksum code (if bad j then 5 else 7) o.num j 0
    | none =>
      let s3 := s1.setStrand x (t.setOp o1)
      let s4 := s3.registerOut x o.tmpl
      if fwNarrow o.fw then s4.registerOut x o.stmpl else s4

/-- MMA_EPILOGUE (R219, R228): after the last K-step, unless fid holds the context there (R185). -/
def execMmaEpilogue (x : Nat) (s : State) : Outcome State Fault Refusal :=
  match s.running x with
  | none => .refused .notEnabled
  | some (t, o) => event (decide (o.stage = .steps ∧ pbSteps o.block ≤ o.progress ∧ o.run.state ≠ .faulted) && !o.hold) (s.epilogue x t o)

/-! ### The store engine (R219, R284, R294) -/

/-- What the store engine's accesses are made for: channel 8 and 9 name its two stores among the strand's engines. -/
def State.storeJob (s : State) (x : Nat) (t : Strand) (scales : Bool) : Job :=
  { who := .engine x (if scales then 9 else 8), x := x, l := t.launch, launch := s.launchOf t, el := {} }

/-- With one of an operation's two stores changed. -/
def MOp.setRun (o : MOp) (scales : Bool) (r : Run) : MOp := if scales then { o with srun := r } else { o with run := r }

/-- A store of an epilogue faults (R284). -/
def State.storeFault (s : State) (x : Nat) (o : MOp) (scales : Bool) (cause : Byte) (addr : DWord) : State :=
  let t := s.strandAt x
  let r := (if scales then o.srun else o.run).fail cause addr 1 0
  let s1 := (s.dropBufs (.engine x (if scales then 9 else 8))).setStrand x (t.setOp (o.setRun scales r))
  if repairable cause then
    s1.report (s.launchOf t).fn
      { bytes := copyRecord x t 0 o.num (if scales then pbSStore o.block else pbStore o.block) true r }
  else s1.terminate t.launch cause

/-- One sector of an epilogue's store, or its end. -/
def State.storeStep (s : State) (x : Nat) (t : Strand) (o : MOp) (scales : Bool) : State :=
  let j := s.storeJob x t scales
  let r := if scales then o.stmpl else o.tmpl
  let run := if scales then o.srun else o.run
  let bytes := sliceRead (if scales then o.scales else o.out) run.off 32
  let lab := ((s.coreAt t.core).slot (pbSlot o.block)).lab
  let dst := destOf r (tDest r 0) run.off
  match s.putSector j r dst bytes (List.replicate 4 lab) 0 (wholeLine r (tDest r 0) run.off) with
  | .fault c a => s.storeFault x o scales c a
  | .wait s' => s'
  | .ok s1 home =>
    let off := run.off + 32
    let o1 := o.setRun scales { run with off := off, state := if tSize r ≤ off then .done else .running }
    let s2 := s1.dropBufs j.who
    let s3 := (s2.setStrand x ((s2.strandAt x).setOp o1)).credit x r home
    if o1.run.state = .done ∧ o1.srun.state = .done then (s3.closeRecords j.launch.fn j.l).opDone x o1 else s3

/-- EPILOGUE_STORE (R228, R219): the next sector of the tile, or of its scales. -/
def execEpilogueStore (x : Nat) (s : State) : Outcome State Fault Refusal :=
  match s.running x with
  | none => .refused .notEnabled
  | some (t, o) =>
    if o.stage = .stored ∧ o.run.state = .running then .next (s.storeStep x t o false)
    else if o.stage = .stored ∧ o.srun.state = .running then .next (s.storeStep x t o true)
    else .refused .notEnabled

/-! ### Accumulator instructions (R223 to R226) -/

/-- The role check of acc.ld, acc.st and mmchk (R123). -/
def Issuer.mayAcc (i : Issuer) : Bool := decide (i.bank.role = 1) || (decide (i.bank.role = 2) && i.launch.matrix)

/-- The slot an accumulator instruction names; a slot outside 0 to 3 traps EXTENT_BOUNDS (R224 to R226). -/
def State.onSlot (s : State) (i : Issuer) (x : Args) (ok : Bool) (f : List Nat → Nat → State) : State :=
  s.needRole i x ok (s.once i x fun G =>
    let n := (i.first s G x.a false).val.toNat
    if 3 < n then s.trap i G cExtentBounds (BitVec.ofNat 64 n) .here else f G n)

/-- An accumulator instruction that takes its place in slot order, its flag set until it has taken effect (R223); a lane whose
own label the launch's ceiling does not allow faults (R349), and `act` says what the others do. -/
def State.inOrder (s : State) (i : Issuer) (o : Op) (x : Args) (flag : Option Nat) (lab : Nat → Label)
    (act : List Nat → PendAct) : State :=
  let G := i.lanes x
  let fs := (G.filter (fun l => decide (i.ceil < (lab l).toNat))).map (fun l => LaneFault.mk l cPageProt s.anyArg)
  let good := G.filter (fun l => !fs.any (fun f => decide (f.lane = l)))
  let t := i.strand
  s.finish i G fs (fun s =>
    (s.setStrand i.yarn.strand { t with seq := t.seq + 1 },
      (i.killIn o x i.yarn good).push [{ flag := flag, fray := i.g.fray, act := act good, seq := t.seq }]))

/-- acc.ld and acc.st in their scratchpad form: the place of 65,536 bytes (R224). -/
def State.accRegion (s : State) (i : Issuer) (x : Args) (G : List Nat) (f : Nat → Nat → State) : State :=
  let a := ((i.first s G x.b false).val + x.off.signExtend 64).toNat % 2 ^ 32
  match s.locate i false a 65536 with
  | some (t, o) => if o % 256 ≠ 0 then s.trap i G cExtentBounds (BitVec.ofNat 64 a) .here else f t o
  | none => s.trap i G cExtentBounds (BitVec.ofNat 64 a) .here

/-- The element index of each lane, unless one is 16,384 or more (R224). -/
def State.accIndexes (s : State) (i : Issuer) (x : Args) (G : List Nat) (f : State) : State :=
  match G.find? (fun l => decide (16384 ≤ (i.operand s x.b false l).val.toNat)) with
  | some l => s.trap i G cExtentBounds (i.operand s x.b false l).val .here
  | none => f

/-- The destination register of an instruction that takes a vector register. -/
def Dest.vreg : Dest → Nat
  | .v n => n.toNat
  | _ => 0

/-- acc.ld (R224). -/
def execAccLd (x : Args) (s : State) : Outcome State Fault Refusal :=
  issued s fun i => s.onSlot i x i.mayAcc fun G n =>
    let fl := coverFlag i.g.clause i.g.idx
    if flag29 x.mods then s.accRegion i x G fun t o => s.inOrder i .accLd x fl (fun _ => 0) (fun _ => .accOut n t o)
    else s.accIndexes i x G (s.inOrder i .accLd x fl (fun l => i.label [i.operand s x.b false l]) (fun ls =>
      .accLd n (Dest.vreg x.dst) (ls.map (fun l =>
        let b := i.operand s x.b false l
        (l, b.val.toNat, b.lab))) i.bank.floor))

/-- acc.st (R224). An inline integer is read as an integer (R202). -/
def execAccSt (x : Args) (s : State) : Outcome State Fault Refusal :=
  issued s fun i => s.onSlot i x i.mayAcc fun G n =>
    let fl := coverFlag i.g.clause i.g.idx
    if flag29 x.mods then s.accRegion i x G fun t o => s.inOrder i .accSt x fl (fun _ => 0) (fun _ => .accIn n t o i.bank.floor)
    else s.accIndexes i x G (s.inOrder i .accSt x fl
      (fun l => lmax (i.operand s x.b false l).lab (i.operand s x.c false l).lab) (fun ls => .accSt n (ls.map (fun l =>
        let b := i.operand s x.b false l
        let c := i.operand s x.c false l
        (b.val.toNat, ⟨c.val.setWidth 32, lmax b.lab c.lab⟩)))))

/-- acc.zero (R225). -/
def execAccZero (x : Args) (s : State) : Outcome State Fault Refusal :=
  issued s fun i => s.onSlot i x (decide (i.bank.role = 1)) fun _ n =>
    s.inOrder i .accZero x none (fun _ => i.bank.floor) (fun _ => .accZero n i.bank.floor)

/-- mmchk (R226). -/
def execMmchk (x : Args) (s : State) : Outcome State Fault Refusal :=
  issued s fun i => s.onSlot i x i.mayAcc fun G n =>
    let h := (i.first s G x.b false).val.toNat
    if 1 < h then s.trap i G cExtentBounds (BitVec.ofNat 64 h) .here
    else s.inOrder i .mmchk x (coverFlag i.g.clause i.g.idx) (fun _ => 0) (fun ls => .mmchk n h (Dest.vreg x.dst) (maskOf ls))

/-! ### The arrival of results (R26, R223) -/

/-- A slot with its checksum vector cleared. -/
def Slot.clear (k : Slot) : Slot := { k with ck := [], mg := [], ckLive := false }

/-- The label that what an accumulator instruction writes to a slot or to scratchpad takes. -/
def State.accLabel (s : State) (x : Nat) (a : PendAct) : Label :=
  let k := fun n => ((s.coreAt (s.strandAt x).core).slot n).lab
  match a with
  | .accSt n els => els.foldl (fun m e => lmax m e.2.lab) (k n)
  | .accZero _ fl => fl
  | .accOut n _ _ => k n
  | .accIn _ y o fl => (List.range 8192).foldl (fun m b => lmax m ((s.strandAt y).unitLabel (o + 8 * b))) fl
  | _ => 0

/-- What an accumulator instruction does to its slot, and to scratchpad (R224 to R226). A write whose label the launch's
ceiling does not allow does not take place (R349; log entry 30). -/
def State.accAct (s : State) (x : Nat) (a : PendAct) : State :=
  let t := s.strandAt x
  let c := s.coreAt t.core
  if (s.launchOf t).ceil < (s.accLabel x a).toNat then s else
  match a with
  | .accSt n els =>
    let k := c.slot n
    let acc := els.foldl (fun m e => Store.set 0 e.1 e.2.val m) k.acc
    s.setCore t.core (c.setSlot n { k.clear with acc := acc, lab := s.accLabel x a })
  | .accZero n fl => s.setCore t.core (c.setSlot n { lab := fl })
  | .accOut n y o =>
    let k := c.slot n
    let u := s.strandAt y
    let u1 := u.padPut o ((List.range 16384).flatMap (fun e => leBytes 4 (wordAt k.acc e)))
    s.setStrand y ((List.range 1024).foldl (fun u b => u.stamp (o + 64 * b))
      ((List.range 8192).foldl (fun u b => u.setUnit (o + 8 * b) k.lab) u1))
  | .accIn n y o _ =>
    let u := s.strandAt y
    let k := c.slot n
    s.setCore t.core (c.setSlot n { k.clear with
      acc := storeOf ((List.range 16384).map (fun e => leNat (u.padRead (o + 4 * e) 4)))
      lab := s.accLabel x a })
  | _ => s

/-- The register writes an accumulator instruction makes. -/
def State.accWrites (s : State) (x : Nat) (a : PendAct) : List (Nat × Nat × RegVal) :=
  let k := fun n => (s.coreAt (s.strandAt x).core).slot n
  match a with
  | .accLd n d els fl => els.map (fun e => (e.1, d, ⟨Store.get 0 e.2.1 (k n).acc, lmax (lmax (k n).lab e.2.2) fl⟩))
  | .mmchk n h d m => (lanesOf m).map (fun l =>
      (l, d, if (k n).ckLive then ⟨Store.get 0 (64 * h + l) (k n).ck, (k n).lab⟩ else {}))
  | _ => []

/-- The slot and whether an act waits for slot order. -/
def PendAct.slot : PendAct → Option Nat
  | .accLd k _ _ _ | .accSt k _ | .accOut k _ _ | .accIn k _ _ _ | .accZero k _ | .mmchk k _ _ _ => some k
  | .none => Option.none

/-- Whether an instruction may take effect now: nothing before it in slot order is left, and its strand is on a core. -/
def State.mayComplete (s : State) (x : Nat) (p : Pend) : Bool :=
  let t := s.strandAt x
  t.place.isSome && (match p.act.slot with
    | none => true
    | some k => !s.slotBusy x k p.seq
        && !t.ops.any (fun o => decide (pbSlot o.block = k) && decide (o.seq < p.seq)))

/-- Registers of lanes written as results arrive; a fibre that has retired takes none. -/
def Yarn.land (y : Yarn) : List (Nat × Nat × RegVal) → Yarn
  | [] => y
  | (l, n, v) :: t =>
    let a := y.lane l
    Yarn.land (if a.active then y.setLane l (a.setReg n v) else y) t

/-- Scalars written in a bank as results arrive. -/
def Yarn.landScalars (y : Yarn) (fray : Option Nat) (ws : List (Nat × RegVal)) : Yarn :=
  if ws = [] then y else y.setBank fray (ws.foldl (fun b w => b.setScalar w.1 w.2) (y.bankOf fray))

/-- The done value of the knot context once some knot instructions are open (R347, R291). -/
def Strand.knotDone (x : Strand) (n : Nat) : Strand :=
  let left := x.knotsOpen.filter (fun k => !decide (k = n))
  { x with knotsOpen := left
           dones := Store.set 0 9 (match left with | [] => x.issuedOn 9 | k :: t => t.foldl min k - 1) x.dones }

/-- Whether the k-th instruction under way has its turn at the scratchpad: a yarn's scratchpad accesses that come later are
made in the order they issued (R177, R181). -/
def Yarn.padTurn (y : Yarn) (k : Nat) : Bool :=
  match y.pend[k]? with
  | some p => p.act.pad.isNone || (y.pend.take k).all (fun q => q.act.pad.isNone)
  | none => false

/-- LONG_LATENCY_COMPLETE (R26, R97, R223): the k-th instruction a yarn still has under way writes its results and
frees its flag. A register lane takes no label over the launch's ceiling (R349). -/
def execLongLatencyComplete (y k : Nat) (s : State) : Outcome State Fault Refusal :=
  match Store.find y s.yarns with
  | none => .refused .notEnabled
  | some v =>
    match v.pend[k]? with
    | none => .refused .notEnabled
    | some p =>
      if !(s.mayComplete v.strand p && v.padTurn k) then .refused .notEnabled
      else
        let ceil := (s.launchOf (s.strandAt v.strand)).ceil
        let ws := (p.writes ++ s.accWrites v.strand p.act).filter (fun w => decide (w.2.2.lab.toNat ≤ ceil))
        let v1 := (v.land ws).landScalars p.fray p.swrites
        let s1 := s.accAct v.strand p.act
        let s2 := match p.knot with
          | some n => s1.setStrand v.strand ((s1.strandAt v.strand).knotDone n.toNat)
          | none => s1
        .next (s2.settleYarn y { v1 with pend := v1.pend.eraseIdx k })

end Sys2Proof.Machine
end

