-- ==== Sys2Proof/Machine/Spawn.lean ====
section
/-! DEFINITION. Which groups are ready (R102, R103, R131), continuation records, spawn bins and the spill queue (R125 to
R129, R151), and the watchdog of a rendezvous point (R145 to R148). -/

namespace Sys2Proof.Machine

open Host (Outcome)

/-! ### Ready groups -/

/-- Whether a wait is at a blocking point and not over (R168). -/
def Wait.blocking : Wait → Bool
  | .rdv _ _ woken | .tb _ _ woken => !woken
  | .accept _ | .spawn _ _ _ => false
  | _ => true

/-- Whether a group waits at a blocking point (R168). -/
def Group.blocked (g : Group) : Bool := match g.wait with | some w => w.blocking | none => false

/-- Whether a group is blocked in R131's sense: at a blocking point, or held at a spawn (R129). -/
def Group.stuck (g : Group) : Bool :=
  g.blocked || (match g.wait with | some (.spawn _ _ _) => true | _ => false)

/-- Whether a lane outside a group no longer holds the group at its rejoin clause (R103): fibres in handler mode hold it wherever
they stand. -/
def Yarn.excused (y : Yarn) (g : Group) (l : Nat) : Bool :=
  y.groups.any (fun h => h.lanes.getLsbD l && decide (h.id ≠ g.id) &&
    ([decide (h.pc = g.pc) && (decide (h.phase = .header) || decide (h.phase = .rejoin) || decide (h.phase = .flags))
        && decide (y.inHandler h = y.inHandler g),
      decide (h.pc ≠ g.pc) && decide (h.phase = .rejoin) && !y.inHandler h,
      h.blocked && !y.inHandler h].any id))

/-- Whether some fibre holds a group at its rejoin clause (R103). -/
def Yarn.rejoinHeld (y : Yarn) (g : Group) : Bool :=
  y.lanes.any (fun c => c.2.active && !g.lanes.getLsbD c.1 && !y.excused g c.1)

/-- Every group whose rejoin wait has ended goes on to step 3, all at one moment: groups that wait at different rejoin
clauses release each other (R103). -/
def Yarn.releaseRejoins (y : Yarn) : Yarn :=
  { y with groups := y.groups.map (fun g =>
      if g.phase = .rejoin ∧ !y.rejoinHeld g then { g with phase := .flags } else g) }

/-- The flags a clause start waits for (R27 step 3). -/
def Clause.named (c : Clause) : BitVec 12 :=
  let bit := fun (f : Option Nat) => match f with | some n => 1#12 <<< n | none => 0
  c.w0.extractLsb' 4 12 ||| bit (headerX c.w0) ||| bit (headerY c.w0)

/-- Whether a flag holds a group at step 3 of R27. -/
def Yarn.flagsHeld (y : Yarn) (g : Group) : Bool := decide ((y.bankOf g.fray).flags &&& g.clause.named ≠ 0)

/-- Whether a group may move at all: its yarn has a slot and is not stopped, and while the yarn is in handler mode only
the trapped fibres move (R112, R115). -/
def Yarn.mayMove (y : Yarn) (g : Group) : Bool :=
  y.slot.isSome && !y.stopped && (g.fray.isSome || !y.bank.handler || y.inHandler g)

/-- Whether a group is ready (R102). -/
def Yarn.ready (y : Yarn) (g : Group) : Bool :=
  y.mayMove g && (match g.phase with
    | .rejoin => !y.rejoinHeld g
    | .flags => !y.flagsHeld g
    | _ => !g.stuck)

/-- Whether a strand has a ready group. -/
def State.anyReady (s : State) (x : Nat) : Bool :=
  s.yarns.any (fun c => decide (c.2.strand = x) && c.2.groups.any c.2.ready)

/-! ### Continuation records (R125) -/

def recEntry (r : BitVec 512) : BitVec 57 := r.extractLsb' 0 57
def recPreds (r : BitVec 512) : BitVec 7 := r.extractLsb' 64 7
def recWindow (r : BitVec 512) : Nat := bitsAt r 74 11 * 256
def recLabel (r : BitVec 512) : Label := r.extractLsb' 85 2
def recArg (r : BitVec 512) (j : Nat) : Word := r.extractLsb' (96 + 32 * j) 32

/-- A record put together. -/
def recMake (entry : DWord) (preds : BitVec 7) (window : Nat) (lab : Label) (args : List Word) : BitVec 512 :=
  BitVec.ofNat 512 (pack ([(0, bitsAt entry 0 57), (64, preds.toNat), (71, 1), (74, window / 256), (85, lab.toNat)]
    ++ (List.range args.length).map (fun j => (96 + 32 * j, (args.getD j 0).toNat))))

/-- Whether a record read back from a spill queue breaks its layout, or its window leaves the allocation (R128). -/
def recBad (alloc : Nat) (r : BitVec 512) : Bool :=
  [decide (bitsAt r 57 7 ≠ 0), decide (bitsAt r 87 9 ≠ 0), decide (bitsAt r 71 3 ≠ 1),
   decide (alloc < recWindow r + 256)].any id

/-! ### Bins (R126) -/

/-- Bins held on a core. -/
def State.binsOn (s : State) (k : Nat) : Nat :=
  s.strands.foldl (fun n c => if c.2.place.isSome ∧ c.2.core = k then n + c.2.bins.length else n) 0

/-- Whether a bin still takes a record of a stage and an entry: it has room, and it is open with its timer not passed, or was
released in this very cycle. -/
def Bin.takes (b : Bin) (timer t stage : Nat) (entry : BitVec 57) : Bool :=
  decide (b.stage = stage) && decide (b.entry = entry) && decide (b.recs.length < 64)
    && (if b.released then decide (b.releasedAt = t) else decide (elapsed t b.opened ≤ timer))

/-- A bin released at a local cycle. -/
def Bin.release (b : Bin) (t : Nat) : Bin := if b.released then b else { b with released := true, releasedAt := t }

/-- A bin with one more record; with 64 it is released. -/
def Bin.add (b : Bin) (r : BitVec 512) (t : Nat) : Bin :=
  let b1 := { b with recs := b.recs ++ [r] }
  if 64 ≤ b1.recs.length then b1.release t else b1

/-- A record added to the first of some bins that takes it. -/
def addRecord (takes : Bin → Bool) (r : BitVec 512) (t : Nat) : List Bin → Option (List Bin)
  | [] => none
  | b :: bs => if takes b then some (b.add r t :: bs) else (addRecord takes r t bs).map (b :: ·)

/-- A record put into a bin of its strand, if there is room on the core the strand stands on. A timer of 0 releases the bin it opens
at once. -/
def State.placeBin (s : State) (x stage : Nat) (r : BitVec 512) : Option State :=
  let t := s.strandAt x
  if t.place.isNone then none
  else
    let now := s.cycles t.core
    match addRecord (fun b => b.takes (s.launchOf t).binTimer now stage (recEntry r)) r now t.bins with
    | some bs => some (s.setStrand x { t with bins := bs })
    | none =>
      if s.binsOn t.core < 16 then
        let b : Bin :=
          { id := s.nextBin, stage := stage, entry := recEntry r, recs := [r], opened := now
            released := decide ((s.launchOf t).binTimer = 0), releasedAt := now }
        some { (s.setStrand x { t with bins := t.bins ++ [b] }) with nextBin := s.nextBin + 1 }
      else none

/-- With a bin of a strand changed. -/
def Strand.setBin (x : Strand) (b : Bin) : Strand := { x with bins := x.bins.map (fun d => if d.id = b.id then b else d) }

/-- The strand that holds a bin. -/
def State.binOf (s : State) (b : Nat) : Option (Nat × Strand × Bin) :=
  s.strands.findSome? (fun c => (c.2.bins.find? (fun d => d.id == b)).map (fun d => (c.1, c.2, d)))

/-- SPAWN_BIN_TIMER (R126): a bin whose timer is reached, or whose strand has no ready group, is released. It comes before
anything else (`State.due`). -/
def execSpawnBinTimer (bin : Nat) (s : State) : Outcome State Fault Refusal :=
  match s.binOf bin with
  | none => .refused .notEnabled
  | some (x, t, b) =>
    event (t.place.isSome && !b.released
      && (decide ((s.launchOf t).binTimer ≤ elapsed (s.cycles t.core) b.opened) || !s.anyReady x))
      (s.setStrand x (t.setBin (b.release (s.cycles t.core))))

/-! ### New yarns (R127) -/

/-- Yarn slots in use on a core. -/
def State.usedSlots (s : State) (k : Nat) : List Nat :=
  s.yarns.filterMap (fun c =>
    let t := s.strandAt c.2.strand
    if t.place.isSome ∧ t.core = k then c.2.slot else none)

/-- The free slots of a quadrant, ascending (R165). -/
def freeIn (used : List Nat) (q : Nat) : List Nat := ((List.range 12).map (· + 12 * q)).filter (fun n => !used.contains n)

/-- The quadrant with the most free slots, ties to the lower. -/
def bestQuadrant (used : List Nat) : Nat :=
  (List.range 4).foldl (fun b q => if (freeIn used b).length < (freeIn used q).length then q else b) 0

/-- Yarns of a strand that have not retired. -/
def State.liveYarns (s : State) (x : Nat) : Nat :=
  (s.yarns.filter (fun c => decide (c.2.strand = x) && !c.2.retired)).length

/-- The scalars of a yarn as it starts: the argument block (R10, R127). -/
def Launch.scalars (l : Launch) : Store RegVal :=
  (List.range 16).foldl (fun m n => Store.set {} n ⟨l.args.extractLsb' (32 * n) 32, l.argLab⟩ m) []

/-- The bank of a yarn as it starts in a stage (R10, R61, R122). -/
def Launch.bank0 (l : Launch) (stage : Nat) : Bank :=
  { scalars := l.scalars
    status := ((l.role stage).setWidth 32 <<< 12) ||| (if l.protd then 0x4000 else 0) }

/-- The fibre a record becomes (R127). -/
def recLane (r : BitVec 512) : Lane :=
  { preds := recPreds r, active := true, wbase := BitVec.ofNat 19 (recWindow r)
    regs := (List.range 13).foldl (fun m j => Store.set {} j ⟨recArg r j, recLabel r⟩ m) [] }

/-- The record of pair k of a protected launch fills both its lanes; else record k fills lane k (R127, R229). -/
def binLanes (protd : Bool) (rs : List (BitVec 512)) : Store Lane :=
  if protd then (rs.flatMap (fun r => [recLane r, recLane r])).mapIdx (fun k v => (k, v))
  else (rs.map recLane).mapIdx (fun k v => (k, v))

/-- The yarn of a bin: its strand, its lanes at the entry PC, the floor its records' highest label (R348). -/
def Bin.yarn (b : Bin) (x : Nat) (l : Launch) (num slot now since : Nat) (rs : List (BitVec 512)) : Yarn :=
  let lanes := binLanes l.protd rs
  { strand := x, num := num, spawned := true, stage := b.stage, slot := some slot, turns := { last := since }, lanes := lanes
    bank := { l.bank0 b.stage with floor := rs.foldl (fun m r => lmax m (recLabel r)) 0 }
    groups := [{ id := 0, lanes := maskOf (Store.keys lanes), pc := b.entry, arrival := now }], nextGroup := 1 }

/-- The least number no yarn of a strand bears, for the watchdog's record (log entry 20). -/
def State.freshNum (s : State) (x : Nat) : Nat :=
  let used := s.yarns.filterMap (fun c => if c.2.strand = x then some c.2.num else none)
  ((List.range 17).find? (fun n => !used.contains n)).getD 16

/-- BIN_YARN_START (R126, R127). A yarn of a protected launch has room for 32 pairs: what is left of its bin stays a
released bin. -/
def execBinYarnStart (bin : Nat) (s : State) : Outcome State Fault Refusal :=
  match s.binOf bin with
  | none => .refused .notEnabled
  | some (x, t, b) =>
    let used := s.usedSlots t.core
    let L := s.launchOf t
    match freeIn used (bestQuadrant used) with
    | [] => .refused .notEnabled
    | slot :: _ =>
      let now := s.cycles t.core
      let rest := b.recs.drop L.perYarn
      let bins := t.bins.filterMap (fun d => if d.id ≠ b.id then some d
        else if rest = [] then none else some { d with recs := rest })
      event (b.released && t.place.isSome && decide (s.liveYarns x < 16))
        { (s.setStrand x { t with bins := bins }) with
          yarns := Store.put s.nextYarn (b.yarn x L (s.freshNum x) slot now s.now (b.recs.take L.perYarn)) s.yarns
          nextYarn := s.nextYarn + 1 }

/-! ### The spill queue (R128) -/

/-- With a launch's record changed. -/
def State.modLaunch (s : State) (l : Nat) (f : Launch → Launch) : State := { s with launches := Store.modify l f s.launches }

/-- What the spill queue's accesses are made for. -/
def State.spillJob (s : State) (who : Who) (x : Nat) : Job :=
  let t := s.strandAt x
  { who := who, x := x, l := t.launch, launch := s.launchOf t, el := { trailing := false } }

/-- Whether a launch's spill queue has room. -/
def Launch.canSpill (l : Launch) : Bool := decide (l.spillAt ≠ 0) && decide (l.spilled.length < l.spillCap)

/-- An index of the queue's header written; a fault on it changes nothing. -/
def State.putIndex (s : State) (j : Job) (at_ v : Nat) : Put :=
  match s.devWrite j (j.launch.spillAt.toNat + at_) (leBytes 4 v) 0 false with
  | .fault _ _ => .ok s s.peer
  | p => p

/-- Whether another requester's write to an address is still under way. -/
def State.otherWrites (s : State) (who : Who) (fn va : Nat) : Bool :=
  match s.translate fn (BitVec.ofNat 64 va) with
  | .ok p => s.bufs.any (fun b => b.write && decide (b.addr = p.fab) && decide (b.who ≠ who))
  | .error _ => false

/-- A record put into the spill queue by a store of its own label (R128). -/
def State.spillRecord (s : State) (who : Who) (x stage : Nat) (r : BitVec 512) : Put :=
  let j := s.spillJob who x
  let va := j.launch.spillBase.toNat + 64 * (j.launch.spillW % j.launch.spillCap)
  let bs := leBytes 64 r.toNat
  if s.otherWrites who j.launch.fn va then .wait s
  else
    match s.devWrite j va (bs.take 32) (recLabel r) false with
    | .ok s1 _ =>
      match s1.devWrite j (va + 32) (bs.drop 32) (recLabel r) false with
      | .ok s2 _ =>
        let w := (j.launch.spillW + 1) % 2 ^ 32
        match s2.putIndex j 12 w with
        | .ok s3 h => .ok ((s3.dropBufs who).modLaunch j.l (fun l =>
            { l with spillW := w, spilled := l.spilled ++ [(x, stage, recEntry r)] })) h
        | p => p
      | p => p
    | p => p

/-- Where a record finds room: the open bin of its key, a free bin of its core, the spill queue of its launch. -/
inductive Room where
  | opened | free (core : Nat) | queue (l : Nat)
  deriving DecidableEq, Repr

/-- The room a record finds (R126, R128). DESIGN CHOICE (log 53): while the queue is not empty but full, a record whose key no queued
record has goes to a bin with room; one whose key is queued is held, to keep the order of R126. -/
def State.roomFor (s : State) (x stage : Nat) (r : BitVec 512) : Option Room :=
  let t := s.strandAt x
  let L := s.launchOf t
  let bin := if t.place.isNone then none
    else if t.bins.any (fun b => b.takes L.binTimer (s.cycles t.core) stage (recEntry r)) then some .opened
    else if s.binsOn t.core < 16 then some (.free t.core) else none
  if L.canSpill ∧ (L.spilled ≠ [] ∨ bin.isNone) then some (.queue t.launch)
  else if L.spilled.contains (x, stage, recEntry r) then none
  else bin

/-- Whether a record must let records of a spawn that issued before its own go first (R126): those of one key with it, and those
that would take the very room it finds. -/
def State.behind (s : State) (since x stage : Nat) (r : BitVec 512) : Bool :=
  s.yarns.any (fun c => c.2.groups.any (fun g => match g.wait with
    | some (.spawn n ((_, q) :: _) _) =>
      decide (n < since) && (s.strandAt c.2.strand).place.isSome
        && ((decide (c.2.strand = x) && decide (c.2.stage = stage) && decide (recEntry q = recEntry r))
          || (decide (s.roomFor x stage r ≠ some .opened)
              && decide (s.roomFor c.2.strand c.2.stage q = s.roomFor x stage r)))
    | _ => false))

/-- Records of a spawn placed in ascending lane order as far as they find room: what is left, and the lanes whose spill
store faulted (R129). -/
def State.placeRecs (s : State) (y g x stage since : Nat) :
    List (Nat × BitVec 512) → State × List (Nat × BitVec 512) × List (Nat × Byte × DWord)
  | [] => (s, [], [])
  | (l, r) :: t =>
    match s.roomFor x stage r with
    | none => (s, (l, r) :: t, [])
    | some room =>
      if s.behind since x stage r then (s, (l, r) :: t, [])
      else
        match room with
        | .queue _ =>
          match s.spillRecord (.lane y g l 2) x stage r with
          | .ok s1 _ => State.placeRecs s1 y g x stage since t
          | .wait s1 => (s1, (l, r) :: t, [])
          | .fault c a =>
            let q := State.placeRecs s y g x stage since t
            (q.1, q.2.1, (l, c, a) :: q.2.2)
        | _ => State.placeRecs ((s.placeBin x stage r).getD s) y g x stage since t

/-- A spawn's records placed as far as they go, its group waiting for the rest (R129). -/
def State.placeMore (s : State) (y : Nat) (v : Yarn) (g : Group) (since : Nat) (recs : List (Nat × BitVec 512))
    (bad : List (Nat × Byte × DWord)) : State :=
  let r := s.placeRecs y g.id v.strand v.stage since recs
  r.1.setYarn y (v.setGroup { g with wait := some (.spawn since r.2.1 (bad ++ r.2.2)) })

/-- SPILL_READBACK (R128): the oldest record of the queue, if it is this strand's, goes to a bin, or is discarded and
counted. DESIGN CHOICE (log 27): a label over the launch's ceiling is a fault of the read (R349). -/
def execSpillReadback (x : Nat) (s : State) : Outcome State Fault Refusal :=
  let j := s.spillJob (.spill x) x
  let L := j.launch
  match L.spilled with
  | [] => .refused .notEnabled
  | (z, stage, _) :: rest =>
    if z ≠ x ∨ (s.strandAt x).place.isNone then .refused .notEnabled
    else
      match s.devRead (.spill x) L.fn L.ceil j.el (BitVec.ofNat 64 (L.spillBase.toNat + 64 * (L.spillR % L.spillCap))) 64 with
      | .wait s1 => .next s1
      | .fault c _ => .next (s.terminate j.l c)
      | .ok bs _ =>
        let r := BitVec.ofNat 512 (leNat bs)
        let n := (L.spillR + 1) % 2 ^ 32
        let take := fun (s : State) (bad : Nat) => match s.putIndex j 16 n with
          | .ok s2 _ => (s2.dropBufs (.spill x)).modLaunch j.l (fun l =>
              { l with spillR := n, spilled := rest, discarded := l.discarded + bad })
          | .wait s2 => s2
          | .fault _ _ => s
        if recBad L.alloc r then .next (take s 1)
        else if L.ceil < (recLabel r).toNat then .next (s.terminate j.l cPageProt)
        else
          match s.placeBin x stage r with
          | none => .refused .notEnabled
          | some _ =>
            .next (match s.putIndex j 16 n with
              | .wait s2 => s2
              | _ => ((take s 0).placeBin x stage r).getD s)

/-! ### spawn (R151) -/

/-- The record of a lane. -/
def Issuer.recOf (i : Issuer) (x : Args) (entry : DWord) (b c : Nat) (l : Nat) : BitVec 512 :=
  let v := i.yarn.lane l
  let rs := (List.range c).map (fun j => v.reg (b + j))
  recMake entry v.preds (v.window x.off.toInt).toNat (rs.foldl (fun m r => lmax m r.lab) i.bank.floor)
    ((rs.map (fun r => r.val)))

/-- The faults of a spawn's lanes: of a pair's one record, in both its lanes; a pair that differs fails in both, one executing or
two (R230). -/
def Issuer.spawnFaults (i : Issuer) (G : List Nat) (bad : List (Nat × Byte × DWord)) : List LaneFault :=
  (lanesOf i.g.lanes).flatMap (fun l => (bad.filter (fun b =>
      decide (b.1 = l) || (G.contains l && decide (b.1 = i.lead G l) && decide (b.2.1 ≠ cShadow)))
    ).map (fun b => LaneFault.mk l b.2.1 b.2.2))

/-- Whether the fragment table lacks room for what some lanes of a spawn met, outside handler mode (R104). -/
def State.spawnFull (s : State) (i : Issuer) (fs : List LaneFault) : Bool :=
  !i.bank.handler && decide ((s.freeEntries i.strand.core).length < (causesOf fs).length)

/-- FRAY_FULL at a spawn some of whose records are placed: spawn has completed in their lanes (R129), and no record is placed twice, so
G of R104 is the lanes that are left, and the trap is theirs (log 27). -/
def State.spawnTrap (s : State) (i : Issuer) (x : Args) (left : List Nat) : State :=
  s.trap { i with yarn := i.killIn .spawn x i.yarn ((i.lanes x).filter (fun l => !left.contains l)) } left cFrayFull s.anyArg .here

/-- A spawn whose records are all placed: the lanes that failed leave as frays, or trap FRAY_FULL where there is no room. -/
def State.spawnEnd (s : State) (i : Issuer) (x : Args) (bad : List (Nat × Byte × DWord)) : State :=
  let G := i.lanes x
  let fs := i.spawnFaults G bad
  if s.spawnFull i fs then s.spawnTrap i x (fs.map (·.lane))
  else s.finish i G fs (fun s1 => (s1, i.killIn .spawn x i.yarn (G.filter (fun l => !fs.any (fun f => decide (f.lane = l))))))

/-- The lanes of a spawn whose record is not placed: those held, and those that failed. -/
def Issuer.unplaced (i : Issuer) (G : List Nat) (recs : List (Nat × BitVec 512)) (bad : List (Nat × Byte × DWord)) : List Nat :=
  G.filter (fun l => recs.any (fun r => decide (r.1 = i.lead G l)) || (i.spawnFaults G bad).any (fun f => decide (f.lane = l)))

/-- SPAWN_RECORD_PLACED (R129): held records take the room there is. Where one then fails and the fragment table has no room, none of
this moment is placed, and the lanes that are left trap. -/
def execSpawnRecordPlaced (y g : Nat) (s : State) : Outcome State Fault Refusal :=
  match State.issuer { s with cur := some (y, g) } with
  | none => .refused .notEnabled
  | some i =>
    match i.g.wait, i.g.here with
    | some (.spawn since recs bad), some (_, x) =>
      let t := s.placeMore y i.yarn i.g since recs bad
      let bad' := match (t.again { i with y := y }).g.wait with | some (.spawn _ _ b) => b | _ => bad
      event (decide (recs ≠ []))
        (if t.spawnFull i (i.spawnFaults (i.lanes x) bad') then s.spawnTrap i x (i.unplaced (i.lanes x) recs bad) else t)
    | _, _ => .refused .notEnabled

/-- spawn (R151, R129, R230). Where the faults known as it issues leave no room in the fragment table, it has no effect at all
(R104). -/
def execSpawn (x : Args) (s : State) : Outcome State Fault Refusal :=
  issued s fun i => s.once i x fun G =>
    match i.g.wait with
    | some (.spawn _ recs bad) => if recs = [] then s.spawnEnd i x bad else s
    | _ =>
      let entry := (i.first s G x.a true).val
      let c := match x.c with | .int k => k.toNat | _ => 0
      let b := match x.b with | .v n => n.toNat | _ => 0
      match s.target (.fetch i.y i.g.id) i.launch.fn i.ceil i.yarn.elig entry with
      | .wait s1 => s1
      | .bad => s.trap i G cBranchMidclause entry .here
      | t =>
        if 128 < b + c then s.trap i G cIllegalOp s.anyArg .here
        else if x.off.toInt % 256 ≠ 0 ∨ G.any (fun l => badWindow i.launch.alloc ((i.yarn.lane l).window x.off.toInt)) then
          s.trap i G cExtentBounds s.anyArg .here
        else
          let s1 := s.dropBufs (.fetch i.y i.g.id)
          match t with
          | .fault k _ => s1.finish i G (G.map (fun l => LaneFault.mk l k entry)) (fun s2 => (s2, i.yarn))
          | _ =>
            let mm := i.mismatched G (fun l => (List.range c).map (fun j => ((i.yarn.lane l).reg (b + j)).val))
            let go := i.acting (G.filter (fun l => !mm.contains l))
            let recs := go.map (fun l => (l, i.recOf x entry b c l))
            let s2 := s1.placeMore i.y i.yarn i.g s.tick recs (mm.map (fun l => (l, cShadow, s.anyArg)))
            let j := s2.again i
            match j.g.wait with
            | some (.spawn _ left bad) =>
              if s1.spawnFull i (i.spawnFaults G bad) then s1.trap i G cFrayFull s.anyArg .here
              else if left = [] then s2.spawnEnd j x bad else s2
            | _ => s2

/-! ### The watchdog (R145 to R148) -/

/-- A group entry of the record, before it is put in order: kind, yarn, PC, index, lanes. -/
structure Entry148 where
  kind : Nat
  yarn : Nat
  pc : Nat
  index : Nat
  lanes : Mask
  deriving DecidableEq, Repr

/-- The order of group entries: kind, yarn, PC. -/
def Entry148.before (a b : Entry148) : Bool :=
  decide (a.kind < b.kind) || (decide (a.kind = b.kind) && (decide (a.yarn < b.yarn)
    || (decide (a.yarn = b.yarn) && decide (a.pc < b.pc))))

/-- An entry put in its place. -/
def insertEntry (e : Entry148) : List Entry148 → List Entry148
  | [] => [e]
  | h :: t => if e.before h then e :: h :: t else h :: insertEntry e t

/-- The 32 bytes of an entry. -/
def Entry148.bytes (e : Entry148) : List Byte :=
  leBytes 32 (pack [(0, e.kind), (2, e.yarn % 16), (6, e.index % 16), (64, e.pc), (128, e.lanes.toNat)])

/-- Groups that wait at a point. DESIGN CHOICE (log 53): one of another strand of the coil, or of a spawned yarn, stands under its own
yarn's number. -/
def State.waiters (s : State) (x pt : Nat) : List Entry148 :=
  s.yarns.flatMap (fun c => (c.2.groups.filter (fun g => decide (g.wait = some (.rdv x pt false)))).map (fun g =>
    { kind := 1, yarn := c.2.num, pc := g.pc.toNat, index := g.idx, lanes := g.lanes }))

/-- The last instructions at which retired fibres of a yarn stand that have not arrived, each once. -/
def exitPoints (y : Yarn) (m : Mask) : List (BitVec 57 × BitVec 4) :=
  ((y.lanes.filter (fun c => c.2.exited && !m.getLsbD c.1)).map (fun c => (c.2.lastPc, c.2.lastIdx))).eraseDups

/-- The exited entries of a point: fibres made at launch that retired without arriving in this phase (R148). -/
def State.exitedAt (s : State) (x : Nat) (p : Point) : List Entry148 :=
  s.yarns.flatMap (fun c =>
    if c.2.strand = x ∧ !c.2.spawned then
      let m := ((p.marks.find? (fun k => k.1 == c.2.num)).map Prod.snd).getD 0
      (exitPoints c.2 m).map (fun q =>
        { kind := 2, yarn := c.2.num, pc := q.1.toNat, index := q.2.toNat
          lanes := maskOf ((c.2.lanes.filter (fun k => k.2.exited && !m.getLsbD k.1
            && decide ((k.2.lastPc, k.2.lastIdx) = q))).map Prod.fst) })
    else [])

/-- The bytes of the diagnostic record (R147, R148). -/
def State.diagnostic (s : State) (x pt : Nat) (t : Strand) (p : Point) : List Byte :=
  let L := s.launchOf t
  let es := (s.waiters x pt ++ s.exitedAt x p).foldl (fun m e => insertEntry e m) []
  let Y := L.yarnCount
  let head := pack [(0, pt), (8, cWatchdog.toNat), (16, t.index), (22, t.at_.die), (24, t.at_.core),
    (30, if L.policyTerminate then 1 else 0), (31, if 64 < es.length then 1 else 0), (32, L.exponent), (40, Y),
    (48, min 64 es.length), (64, t.launch), (96, p.phase.toNat), (112, if p.armed then p.exp else 0), (128, p.arr % 65536),
    (144, t.coil % L.gridX), (160, t.coil / L.gridX % L.gridY), (176, t.coil / L.gridX / L.gridY),
    (192, t.index % L.sx), (197, t.index / L.sx % L.sy), (202, t.index / L.sx / L.sy), (256, p.first),
    (320, s.cycles t.core)]
  let body := leBytes 64 head
    ++ (List.range Y).flatMap (fun n => leBytes 8 (((p.marks.find? (fun k => k.1 == n)).map Prod.snd).getD 0).toNat)
    ++ (es.take 64).flatMap Entry148.bytes
  body ++ List.replicate ((64 - body.length % 64) % 64) 0

/-- A launch's yarns stopped for fid. -/
def State.stopLaunch (s : State) (l : Nat) : State :=
  { s with yarns := s.yarns.map (fun c =>
      if (s.strandAt c.2.strand).launch = l then (c.1, { c.2 with stopped := true }) else c) }

/-- A launch whose watchdog has fired stopped, its policy held, where fid catches it (R117). -/
def State.catchWatchdog (s : State) (l : Nat) (L : Launch) : State :=
  if L.debug && s.attached L.fn && (s.func L.fn).session.any (·.catchWatchdog) then
    (s.stopLaunch l).modLaunch l (fun M => { M with heldPolicy := true })
  else s

/-- WATCHDOG (R145, R146): the record is captured, and fid may catch the launch; the launch's policy acts once the record is
written, and once fid lets it (R117). -/
def execWatchdog (x pt : Nat) (s : State) : Outcome State Fault Refusal :=
  match Store.find x s.strands with
  | none => .refused .notEnabled
  | some t =>
    let p := t.point pt
    let L := s.launchOf t
    let bytes := s.diagnostic x pt t p
    event (t.place.isSome && decide (0 < p.arr) && !p.fired
        && decide (2 ^ (16 + L.exponent) ≤ elapsed (s.cycles t.core) p.first)
        && !(s.waiters x pt).isEmpty)
      (((s.setStrand x { t with points := Store.set {} pt { p with fired := true } t.points }).modLaunch t.launch
        (fun l => { l with lastDiag := bytes })).report L.fn { bytes := bytes, watchdog := some t.launch }
        |>.catchWatchdog t.launch L)

end Sys2Proof.Machine
end

