-- ==== Sys2Proof/Machine/Route.lean ====
section
/-! DEFINITION. The route table and the messages that fill it (R299 to R303, R309, R310, R319, R320), and the routing
instructions: major opcode 0x7C (R311 to R318). -/

namespace Sys2Proof.Machine

open Host (Outcome)

/-! ### The route message (R301) -/

def mIssue (m : BitVec 256) : BitVec 16 := m.extractLsb' 240 16
def mCount (m : BitVec 256) : Nat := bitsAt m 140 4
/-- The peers of the path, the latest sender first. -/
def mPath (m : BitVec 256) : List Peer := (List.range (min (mCount m) 8)).map (fun j => m.extractLsb' (144 + 12 * j) 12)
def mOrigin (m : BitVec 256) : Peer := m.extractLsb' 128 12
def mPrefix (m : BitVec 256) : Fab := m.extractLsb' 64 57
def mSeq (m : BitVec 256) : Word := m.extractLsb' 32 32
def mInc (m : BitVec 256) : BitVec 16 := m.extractLsb' 16 16
def mCeil (m : BitVec 256) : Label := m.extractLsb' 14 2
def mLen (m : BitVec 256) : Nat := bitsAt m 8 6
def mStrong (m : BitVec 256) : Bool := m.getLsbD 6
def mKind (m : BitVec 256) : BitVec 2 := m.extractLsb' 4 2
def mSort (m : BitVec 256) : Nat := bitsAt m 0 4

/-- What a route message says, apart from its path. -/
structure Note where
  type : Nat
  pfx : Fab
  len : Nat
  kind : BitVec 2
  origin : Peer
  seq : Word
  issue : BitVec 16
  inc : BitVec 16
  ceiling : Label := 0
  strong : Bool := false
  refusedBit : Bool := false
  deriving DecidableEq, Repr

/-- The message of a note with a path. -/
def Note.message (n : Note) (path : List Peer) : BitVec 256 :=
  BitVec.ofNat 256 (pack ([(0, n.type), (4, n.kind.toNat), (6, if n.strong then 1 else 0),
    (7, if n.refusedBit then 1 else 0), (8, n.len), (14, n.ceiling.toNat), (16, n.inc.toNat), (32, n.seq.toNat),
    (64, n.pfx.toNat), (128, n.origin.toNat), (140, path.length), (240, n.issue.toNat)]
    ++ path.mapIdx (fun j p => (144 + 12 * j, p.toNat))))

/-- What a message says. -/
def noteOf (m : BitVec 256) : Note :=
  { type := mSort m, pfx := mPrefix m, len := mLen m, kind := mKind m, origin := mOrigin m, seq := mSeq m,
    issue := mIssue m, inc := mInc m, ceiling := mCeil m, strong := mStrong m }

/-! ### Entries -/

/-- The entry of a prefix. -/
def State.entryOf (s : State) (pfx : Fab) (len : Nat) : Option Entry :=
  s.table.find? (fun e => decide (e.pfx = pfx) && decide (e.len = len))

/-- With an entry put in the table; one with no holder leaves it. -/
def State.setEntry (s : State) (e : Entry) : State :=
  let rest := s.table.filter (fun d => !(decide (d.pfx = e.pfx) && decide (d.len = e.len)))
  { s with table := if e.holders = [] then rest else rest ++ [e] }

/-- The holder of an entry at a peer. -/
def Entry.at_ (e : Entry) (p : Peer) : Option Holder := e.holders.find? (fun h => decide (h.peer = p))

/-- The origin of an entry. -/
def Entry.origin (e : Entry) : Option Holder := e.holders.find? (fun h => decide (h.kind = 0))

/-- The package's own record of a prefix. -/
def State.mine (s : State) (pfx : Fab) (len : Nat) : Option Holder :=
  match s.entryOf pfx len with
  | some e => e.at_ s.peer
  | none => none

/-- A holder's record taken from an entry. -/
def State.dropHolder (s : State) (pfx : Fab) (len : Nat) (p : Peer) : State :=
  match s.entryOf pfx len with
  | some e => s.setEntry { e with holders := e.holders.filter (fun h => !decide (h.peer = p)) }
  | none => s

/-- Peers whose /12 origin stands in the table (R310). -/
def State.liveSet (s : State) : List Peer :=
  s.table.filterMap (fun e => if e.len = 12 then e.origin.map (·.peer) else none)

/-- The others of the live set, whose acknowledgement a change awaits. -/
def State.othersLive (s : State) : List Peer := s.liveSet.filter (fun p => !decide (p = s.peer))

/-- Far ends of live ports (R302). -/
def State.neighbours (s : State) : List Peer :=
  (s.links.filterMap (fun c => if c.2.up then some c.2.far else none)).eraseDups

/-- A route message sent to a peer. -/
def State.say (s : State) (p : Peer) (m : BitVec 256) : State := { s with outbox := s.outbox ++ [.route p m] }

/-- A message sent to every neighbour that its path does not name, this package at the front of the path (R302). -/
def State.spread (s : State) (n : Note) (path : List Peer) : State :=
  if 8 ≤ path.length then s
  else
    let far := s.neighbours.filter (fun p => !path.contains p)
    far.foldl (fun t p => t.say p (n.message (s.peer :: path))) s

/-- The ACK of a message, to its holder (R302, R303). -/
def State.ackOf (s : State) (n : Note) (h : Peer) (no : Bool) : BitVec 256 :=
  ({ n with type := 2, refusedBit := no, strong := false }).message [s.peer, h]

/-- An ACK sent. -/
def State.sendAck (s : State) (n : Note) (h : Peer) (no : Bool) : State :=
  if h = s.peer then s else { s with outbox := s.outbox ++ [.route h (s.ackOf n h no)] }

/-! ### Changes awaited (R309, R310) -/

/-- Whether a peer now live has still to acknowledge what some peers have acknowledged: a peer that came into the live set
later is awaited too, one that left it is not (R309, R310). -/
def State.awaits (s : State) (acked : List Peer) : Bool := s.othersLive.any (fun p => !acked.contains p)

/-- Changes and stubs that every live peer has acknowledged are over (R309, R310). -/
def State.settleRoutes (s : State) : State :=
  { s with changes := s.changes.filter (fun c => s.awaits c.2.acked), stubs := s.stubs.filter (fun t => s.awaits t.acked) }

/-- An acknowledgement noted in the first of some changes that lacks it. -/
def strike (p : Peer) (ok : Change → Bool) : Store Change → Option (Store Change)
  | [] => none
  | (k, c) :: t =>
    if ok c && !c.acked.contains p then some ((k, { c with acked := p :: c.acked }) :: t)
    else (strike p ok t).map (fun u => (k, c) :: u)

/-- Whether a packet names an incarnation of its sender below the one recorded (R263). -/
def State.stale (s : State) (p : Peer) (n : BitVec 16) : Bool := match s.incOf p with | some k => above k n | none => false

/-- A packet dropped and counted (R263). -/
def State.dropPacket (s : State) : State := { s with packetsDropped := s.packetsDropped + 1 }

/-- ACK (R310): an announcement of the issue that awaits the sender, or else the withdrawal of that issue. One that names
another incarnation of this package is dropped (R263). -/
def State.hearAck (s : State) (m : BitVec 256) : State :=
  match mPath m with
  | [] => s
  | p :: _ =>
    if mInc m ≠ s.inc then s.dropPacket else
    let on := fun (k : BitVec 2) (c : Change) => decide (c.pfx = mPrefix m) && decide (c.len = mLen m)
      && decide (c.issue = mIssue m) && decide (c.kind = k)
    match strike p (on 0) s.changes with
    | some cs => { s with changes := cs }.settleRoutes
    | none =>
      let s1 := match strike p (on 1) s.changes with
        | some cs => { s with changes := cs }
        | none => s
      let hit := fun (t : Stub) => if t.pfx = mPrefix m ∧ t.len = mLen m ∧ t.issue = mIssue m then
        { t with acked := p :: t.acked } else t
      State.settleRoutes { s1 with stubs := s1.stubs.map hit }

/-! ### Writes whose holder is lost (R263) -/

/-- Counted writes that pass a test leave their counters as lost. -/
def State.lose (s : State) (gone : Counted → Bool) : State :=
  let keep := fun (cs : List Counted) => cs.filter (fun c => !gone c)
  let s1 := s.yarns.foldl (fun t c => t.loseFor (s.launchOf (s.strandAt c.2.strand)).fn ((c.2.counted.filter gone).length)) s
  let s2 := s.launches.foldl (fun t c => t.loseFor c.2.fn ((c.2.unacked.filter gone).length)) s1
  { s2 with yarns := s2.yarns.map (fun c => (c.1, { c.2 with counted := keep c.2.counted }))
            launches := s2.launches.map (fun c => (c.1, { c.2 with unacked := keep c.2.unacked })) }

/-- Writes a holder accepted under a prefix that has no origin any more are lost (R263). -/
def State.loseUnder (s : State) (h : Peer) (pfx : Fab) (len : Nat) : State :=
  s.lose (fun c => !c.here && decide (c.dst = h) && under c.addr pfx len
    && (pickHolder (s.matching c.addr) (fun _ k => decide (k.kind = 0))).isNone)

/-! ### WITHDRAW (R303) -/

/-- The note of a holder's record. -/
def Holder.note (h : Holder) (pfx : Fab) (len type : Nat) : Note :=
  { type := type, pfx := pfx, len := len, kind := h.kind, origin := h.origin, seq := h.seq, issue := h.issue,
    inc := h.inc, ceiling := h.ceiling, strong := h.strong }

/-- Requests not yet accepted that went to a holder under an entry. -/
def State.pendingTo (s : State) (h : Peer) (pfx : Fab) (len : Nat) : List Nat :=
  s.reqs.filterMap (fun c => if c.2.dst = h ∧ c.2.req.pfx = pfx ∧ c.2.req.len = len ∧ !c.2.accepted then some c.1 else none)

/-- An ACK sent now, or once the requests it waits for are settled (R303 step 3). -/
def State.ackAfter (s : State) (n : Note) (h : Peer) (reqs : List Nat) : State :=
  if reqs = [] then s.sendAck n h false
  else { s with heldAcks := s.heldAcks ++ [{ dst := h, msg := s.ackOf n h false, reqs := reqs }] }

/-- A holder's record removed as its withdrawal is heard, and the word spread. -/
def State.unlearn (s : State) (n : Note) (h : Peer) (path : List Peer) : State :=
  ((s.dropHolder n.pfx n.len h).loseUnder h n.pfx n.len).spread n path

/-- WITHDRAW (R303), the holder's incarnation known. -/
def State.withdrawNote (s : State) (n : Note) (h sender : Peer) (path : List Peer) : State :=
  let reqs := s.pendingTo h n.pfx n.len
  let held := match s.entryOf n.pfx n.len with | some e => e.at_ h | none => none
  let s1 := match held with
    | some r => if above r.issue n.issue then s else s.unlearn n h path
    | none => s
  let s2 : State := match (match s1.entryOf n.pfx n.len with | some e => e.at_ h | none => none) with
    | some r =>
      if r.path.contains sender ∨ 8 ≤ r.path.length then s1
      else s1.say sender ((r.note n.pfx n.len 0).message (s.peer :: r.path))
    | none => s1
  (s2.ackAfter n h reqs).settleRoutes

/-- Whether requests of other packages that this holder has accepted under a prefix are still to be performed: a withdrawal is handed
over only after them (R309). -/
def State.owesUnder (s : State) (pfx : Fab) (len : Nat) : Bool :=
  s.checked.any (fun t => decide (t.req.pfx = pfx) && decide (t.req.len = len))

/-- The package's own record of a prefix turned into a stub, and its WITHDRAW sent (R309, R315, R316). -/
def State.retreat (s : State) (pfx : Fab) (len : Nat) : State :=
  match s.mine pfx len with
  | none => s
  | some h =>
    let s1 := s.dropHolder pfx len s.peer
    let stub : Stub := { pfx := pfx, len := len, issue := h.issue }
    let s2 : State := { s1 with stubs := s1.stubs ++ [stub] }
    (s2.spread (h.note pfx len 1) []).settleRoutes

/-! ### ANNOUNCE (R302) -/

/-- The highest origin sequence recorded for a prefix (R314). -/
def State.topSeq (s : State) (pfx : Fab) (len : Nat) : Option Word :=
  (s.maxSeq.find? (fun c => decide (c.1 = pfx) && decide (c.2.1 = len))).map (fun c => c.2.2)

/-- With an origin sequence recorded for a prefix. -/
def State.noteSeq (s : State) (pfx : Fab) (len : Nat) (q : Word) : State :=
  let higher := match s.topSeq pfx len with | some o => above q o | none => true
  if higher then
    { s with maxSeq := s.maxSeq.filter (fun c => !(decide (c.1 = pfx) && decide (c.2.1 = len))) ++ [(pfx, len, q)] }
  else s

/-- FROZEN holders left behind by an origin's advance, removed in its entry and in every longer one within it, where they
record the new origin or the one displaced (R302). -/
def State.dropStale (s : State) (pfx : Fab) (len : Nat) (q : Word) (origins : List Peer) : State :=
  let stale := fun (h : Holder) => decide (h.kind = 1) && origins.contains h.origin && above q h.seq
  let one := fun (e : Entry) =>
    if len ≤ e.len ∧ under e.pfx pfx len then { e with holders := e.holders.filter (fun h => !stale h) } else e
  { s with table := (s.table.map one).filter (fun e => !e.holders.isEmpty) }

/-- The replica of an entry that is farthest, ties to the higher peer. -/
def farthest : List Holder → Option Holder
  | [] => none
  | h :: t =>
    match farthest t with
    | some k => if h.kind = 0 then some k else if k.kind = 0 then some h
      else if k.path.length < h.path.length ∨ (k.path.length = h.path.length ∧ k.peer.toNat < h.peer.toNat) then some h else some k
    | none => some h

/-- At most four holders: the origin and the nearest replicas (R302). -/
def keepFour (hs : List Holder) : List Holder :=
  if hs.length ≤ 4 then hs
  else match farthest hs with
    | some k => hs.filter (fun h => !decide (h.peer = k.peer))
    | none => hs

/-- The sequence of an origin peer's entry that covers a prefix, the longest there is. -/
def State.originSeq (s : State) (pfx : Fab) (len : Nat) (o : Peer) : Option Word :=
  (pickHolder (s.table.filter (fun e => decide (e.len ≤ len) && under pfx e.pfx e.len))
    (fun _ h => decide (h.kind = 0) && decide (h.peer = o))).map (fun c => c.2.seq)

/-- A record made in an entry, after the origin it displaces is gone (R302). `path` is empty for the package's own. -/
def State.learn (s : State) (n : Note) (h : Peer) (path : List Peer) (backing : Fab) : State :=
  let e := (s.entryOf n.pfx n.len).getD { pfx := n.pfx, len := n.len, holders := [] }
  let old := e.at_ h
  let first := !s.noted.contains (n.pfx, n.len, h, n.issue)
  let turn := s.routeEvent + 1
  let r : Holder := { peer := h, kind := n.kind, origin := n.origin, seq := n.seq, issue := n.issue, inc := n.inc,
                      path := path, ceiling := n.ceiling, strong := n.strong,
                      refresh := if n.kind = 2 then turn else (old.map (·.refresh)).getD 0, backing := backing }
  let before := e.origin
  let s0 : State := { s with routeEvent := if n.kind = 2 then turn else s.routeEvent
                             noted := if first then (n.pfx, n.len, h, n.issue) :: s.noted else s.noted }
  let s1 := s0.setEntry { e with holders := keepFour (e.holders.filter (fun k => !decide (k.peer = h)) ++ [r]) }
  let s2 := if n.kind = 0 then s1.noteSeq n.pfx n.len n.seq else s1
  let s3 := match before with
    | some o => if n.kind = 0 ∧ above n.seq o.seq then s2.dropStale n.pfx n.len n.seq [h, o.peer] else s2
    | none => s2
  let s4 := s3.spread { n with type := 0 } path
  (if first then s4.sendAck { n with type := 0 } h false else s4).settleRoutes

/-- An origin that beats the one recorded takes its place: a displaced origin here withdraws (R302, R316). -/
def State.displace (s : State) (n : Note) (o : Holder) : State :=
  if o.peer = s.peer then s.retreat n.pfx n.len else s.dropHolder n.pfx n.len o.peer

/-- R302 for a message heard, or for one of the package's own (an empty path). -/
def State.announceNote (s : State) (n : Note) (h : Peer) (path : List Peer) (backing : Fab) : State :=
  let e := s.entryOf n.pfx n.len
  if e.isNone ∧ 16384 ≤ s.table.length then s.sendAck n h true
  else
    let rival : Option Holder := match e with
      | some d => (match d.origin with | some o => if n.kind = 0 ∧ o.peer ≠ h then some o else none | none => none)
      | none => none
    let loses : Bool := match rival with
      | some o => !(above n.seq o.seq || (decide (n.seq = o.seq) && decide (h.toNat < o.peer.toNat)))
      | none => false
    let behind := decide (n.kind = 1) && (match s.originSeq n.pfx n.len n.origin with | some q => above q n.seq | none => false)
    if loses ∨ behind then { s with rejected := s.rejected + 1 }
    else
      let old := match e with | some d => d.at_ h | none => none
      let changed := match old with
        | none => true
        | some o => above n.issue o.issue || (decide (n.issue = o.issue) && decide (path.length < o.path.length))
      let before := match rival with | some o => some o.peer | none => none
      let s1 := match rival with | some o => s.displace n o | none => s
      if !changed then s1
      else
        let s2 := s1.learn n h path backing
        match before with
        | some o => if n.kind = 0 then s2.dropStale n.pfx n.len n.seq [h, o] else s2
        | none => s2

/-! ### Incarnations (R263, R319) -/

/-- Requests that wait on a peer fail: their lanes fault FABRIC_UNREACH (R319). A write of a lane it had accepted and not
acknowledged is lost, and nothing waits for it any more (R263); one of an engine was not performed, and its transfer fails there
(R284, R294). -/
def State.failTo (s : State) (x : Peer) : State :=
  s.reqs.foldl (fun t c =>
    if c.2.dst ≠ x then t
    else
      let no : Answer := { ok := false, cause := cUnreach }
      if !c.2.accepted then t.answered c.1 c.2 no
      else match c.2.who with
        | .lane y g l p => (({ t with reqs := Store.drop c.1 t.reqs }.loseFor c.2.fn 1).setPart y g l p (fun q => match q.2 with
          | .taken d lab => (q.1, .got d lab)
          | _ => q)).failBuf c.1
        | .relay src id => { t with reqs := Store.drop c.1 t.reqs }.ackTo src id
        | _ => { t with reqs := Store.drop c.1 t.reqs }.failBuf c.1) s

/-- Lines of this origin owned by a peer are poisoned and owned no more (R319). -/
def State.orphan (s : State) (x : Peer) : State :=
  let mine := s.owners.filter (fun c => decide (c.2.1 = x))
  { s with mem := mine.foldl (fun m c => m.setPoison (64 * c.1) true) s.mem
           owners := s.owners.filter (fun c => !decide (c.2.1 = x))
           recalling := s.recalling.filter (fun k => !mine.any (fun c => decide (c.1 = k))) }

/-- The records of a table that pass a test, with their entries. -/
def State.records (s : State) (ok : Holder → Bool) : List (Entry × Holder) :=
  s.table.flatMap (fun e => (e.holders.filter ok).map (fun h => (e, h)))

/-- Records removed with a WITHDRAW sent for each (R319, R320). -/
def State.forget (s : State) (rs : List (Entry × Holder)) : State :=
  rs.foldl (fun t r => t.unlearn (r.2.note r.1.pfx r.1.len 1) r.2.peer r.2.path) s

/-- A peer's new incarnation recorded (R263, R319). -/
def State.newIncarnation (s : State) (x : Peer) (n : BitVec 16) : State :=
  let one := fun (e : Entry) => { e with holders := e.holders.filter (fun h => !decide (h.peer = x)) }
  let s2 : State := { s with incs := Store.put x.toNat n s.incs, noted := s.noted.filter (fun c => !decide (c.2.2.1 = x))
                             checked := s.checked.filter (fun t => !decide (t.req.src = x))
                             table := (s.table.map one).filter (fun e => !e.holders.isEmpty) }
  let s3 := s2.forget (s2.records (fun h => h.path.contains x))
  let s4 := s3.lose (fun c => !c.here && decide (c.dst = x))
  ((s4.orphan x).failTo x).settleRoutes

/-- An incarnation heard (R263): the first of a peer is recorded; a higher one than recorded is a new incarnation (R319). -/
def State.hearInc (s : State) (x : Peer) (n : BitVec 16) : State :=
  match s.incOf x with
  | none => { s with incs := Store.put x.toNat n s.incs }
  | some k => if x ≠ s.peer ∧ above n k then s.newIncarnation x n else s

/-- A packet received: one that names a past incarnation of its sender, or another of this package, is dropped (R263). -/
def State.fromPeer (s : State) (src : Peer) (srcInc dstInc : BitVec 16) (f : State → State) : State :=
  if s.stale src srcInc ∨ dstInc ≠ s.inc then s.dropPacket else f (s.hearInc src srcInc)

/-- REQUEST_ACCEPTED (R245, R263): a holder outside answered one of this package's requests. What has passed its checks is
performed and not refused any more (R262), but may be lost with the holder it was relayed to (R263). -/
def execRequestAccepted (r : Nat) (ans : Answer) (s : State) : Outcome State Fault Refusal :=
  if s.stale ans.src ans.srcInc ∨ ans.dstInc ≠ s.inc then .next s.dropPacket
  else
    let s1 := s.hearInc ans.src ans.srcInc
    match Store.find r s1.reqs with
    | none => .next s1
    | some o =>
      event (!o.accepted && !o.passed && decide (o.hold = .none) && (decide (o.req.stage ≠ .go) || ans.ok
          || decide (ans.cause = cUnreach)))
        ((s1.noteLoad o.dst ans.load).answered r o ans)

/-- A request's acknowledgement taken (R254, R264, R265). -/
def State.ackReq (s : State) (r : Nat) (o : OutReq) : State :=
  let s1 := { s with reqs := Store.drop r s.reqs }.stampReq o.req
  match o.who with
  | .lane y g l p => (s1.setPart y g l p (fun c => match c.2 with | .taken d lab => (c.1, .got d lab) | _ => c)).ackBuf r
  | .relay src id => s1.ackTo src id
  | _ => s1.ackBuf r

/-- WRITE_ACKNOWLEDGED (R254, R263, R265): a counted write, or a STRONG store accepted before, is visible at its page's
scope. -/
def execWriteAcknowledged (a : Ack) (s : State) : Outcome State Fault Refusal :=
  if s.stale a.src a.srcInc ∨ a.dstInc ≠ s.inc then .next s.dropPacket
  else
    let s1 := s.hearInc a.src a.srcInc
    match Store.find a.id s1.reqs with
    | some o => event o.accepted (s1.ackReq a.id o)
    | none => .next (s1.uncount a.id)

/-- A WITHDRAW heard (R303). -/
def State.hearWithdraw (s : State) (m : BitVec 256) : State :=
  let n := noteOf m
  let path := mPath m
  match path.getLast?, path with
  | some h, sender :: _ => if s.stale h n.inc then s.dropPacket else (s.hearInc h n.inc).withdrawNote n h sender path
  | _, _ => s

/-- Whether an origin announced elsewhere must wait: this package's own record of the prefix, which it may displace, has requests
accepted and not performed (R309, R316). -/
def State.mustDefer (s : State) (n : Note) (h : Peer) : Bool :=
  decide (n.kind = 0 ∧ h ≠ s.peer) && (s.mine n.pfx n.len).any (fun o => decide (o.kind = 0)) && s.owesUnder n.pfx n.len

/-- An ANNOUNCE heard (R302). -/
def State.hearAnnounce (s : State) (m : BitVec 256) : State :=
  let n := noteOf m
  let path := mPath m
  match path.getLast? with
  | none => s
  | some h =>
    if path.contains s.peer then { s with rejected := s.rejected + 1 }
    else if s.stale h n.inc then s.dropPacket
    else if s.mustDefer n h then s.requeue (.announce m)
    else (s.hearInc h n.inc).announceNote n h path 0

/-- A route message heard: one of kind 3, or of a type above 2, is discarded (R301). -/
def State.hear (s : State) (m : BitVec 256) : State :=
  if mKind m = 3 then s
  else if mSort m = 0 then s.hearAnnounce m
  else if mSort m = 1 then s.hearWithdraw m
  else if mSort m = 2 then s.hearAck m
  else s

/-- ANNOUNCE (R302). A message whose type names nothing comes here too, to be discarded. -/
def execAnnounce (m : BitVec 256) (s : State) : Outcome State Fault Refusal :=
  event (decide (mSort m ≠ 1 ∧ mSort m ≠ 2)) (s.hear m)

/-- WITHDRAW (R303). -/
def execWithdraw (m : BitVec 256) (s : State) : Outcome State Fault Refusal := event (decide (mSort m = 1)) (s.hear m)

/-- ACK (R310). -/
def execAck (m : BitVec 256) (s : State) : Outcome State Fault Refusal := event (decide (mSort m = 2)) (s.hear m)

/-! ### Ports (R320, R371) -/

/-- Whether a fabric port can be of a kind: of the 18, at most 15 stand within the pod and at most 3 are trunks (R1). -/
def State.portFits (s : State) (port : Nat) (trunk : Bool) : Bool :=
  let others := (s.links.filter (fun c => decide (c.1 ≠ port) && c.2.up && decide (c.2.trunk = trunk))).length
  decide (port < 18) && decide (others < if trunk then 3 else 15)

/-- PORT_UP (R371): every record whose path has fewer than 8 peers and does not name the far peer goes across. -/
def execPortUp (port : Nat) (far : Peer) (trunk : Bool) (s : State) : Outcome State Fault Refusal :=
  let l := Store.get {} port s.links
  let s1 : State := { s with links := Store.put port { l with far := far, trunk := trunk, up := true } s.links }
  let rs := s.records (fun h => decide (h.path.length < 8) && !h.path.contains far && !decide (h.peer = far))
  event (s.portFits port trunk)
    (rs.foldl (fun t r => t.say far ((r.2.note r.1.pfx r.1.len 0).message (s.peer :: r.2.path))) s1)

/-- With a port down. -/
def State.portDown (s : State) (port : Nat) : State :=
  { s with links := Store.modify port (fun l => { l with up := false }) s.links }

/-- A port's far peer lost as a way: every record whose path starts with it goes (R320). -/
def State.loseWay (s : State) (far : Peer) : State :=
  (s.forget (s.records (fun h => decide (h.path.head? = some far)))).settleRoutes

/-- Pod ports that are down and for which no pod peer relays any more: they are ways lost, as a trunk port's is (R320). -/
def State.loseRelays (s : State) : State :=
  ((s.links.filter (fun c => !c.2.up && !c.2.trunk && !s.liveHop c.2.far
      && s.table.any (fun e => e.holders.any (fun h => decide (h.path.head? = some c.2.far))))).map (fun c => c.2.far)).foldl
    State.loseWay s

/-- TRUNK_PORT_DOWN (R320). -/
def execTrunkPortDown (port : Nat) (s : State) : Outcome State Fault Refusal :=
  match Store.find port s.links with
  | none => .refused .notEnabled
  | some l => event (l.up && l.trunk) ((s.portDown port).loseWay l.far)

/-- POD_PORT_DOWN (R320): traffic passes through a relay peer; with none, as a trunk port. -/
def execPodPortDown (port : Nat) (s : State) : Outcome State Fault Refusal :=
  match Store.find port s.links with
  | none => .refused .notEnabled
  | some l =>
    let s1 := s.portDown port
    event (l.up && !l.trunk) (if s1.liveHop l.far then s1 else s1.loseWay l.far)

/-! ### The routing instructions -/

/-- The prefix and length a 64-bit operand holds (R314 step 1); none where it breaks the form. -/
def prefixOf (v : DWord) : Option (Fab × Nat) :=
  let len := bitsAt v 57 6
  let p : Fab := v.extractLsb' 0 57
  if v.getLsbD 63 ∨ len < 12 ∨ 53 < len ∨ p.toNat % 2 ^ (57 - len) ≠ 0 then none else some (p, len)

/-- Whether a prefix lies within an announcement window (R311). -/
def prefixIn (w : DWord) (p : Fab) (len : Nat) : Bool :=
  w.getLsbD 63 && decide (bitsAt w 57 6 ≤ len) && under p (w.extractLsb' 0 57) (bitsAt w 57 6)

/-- Whether a backing range lies within the backing window, on the package's own peer (R311, R314). -/
def State.backingIn (s : State) (fn : Nat) (b : DWord) (len : Nat) : Bool :=
  let w := (s.func fn).backwin
  let wl := bitsAt w 57 6
  let base := bitsAt w 0 57 / 2 ^ (57 - wl) * 2 ^ (57 - wl)
  w.getLsbD 63 && decide (base ≤ b.toNat) && decide (b.toNat + 2 ^ (57 - len) ≤ base + 2 ^ (57 - wl))
    && decide (peerOf (b.setWidth 57) = s.peer)

/-- The highest frame label of a backing range (R314 step 4). -/
def State.backingLabel (s : State) (b : Fab) (len : Nat) : Label :=
  let lo := b.toNat / 4096
  let hi := (b.toNat + 2 ^ (57 - len) - 1) / 4096
  s.mem.labels.foldl (fun m c => if lo ≤ c.1 ∧ c.1 ≤ hi then lmax m c.2 else m) 0

/-- The origin's record of the longest prefix, of a length or shorter, that matches a prefix and has one. -/
def State.coverOrigin (s : State) (p : Fab) (len : Nat) : Option Holder :=
  (pickHolder (s.table.filter (fun e => decide (e.len ≤ len) && under p e.pfx e.len))
    (fun _ h => decide (h.kind = 0))).map Prod.snd

/-- Whether a prefix or a shorter one that matches it carries the strong mark. -/
def State.strongOver (s : State) (p : Fab) (len : Nat) : Bool :=
  s.table.any (fun e => decide (e.len ≤ len) && under p e.pfx e.len
    && e.holders.any (fun h => decide (h.kind = 0) && h.strong))

/-- The first check of R314 that fails: the cause, and the failing value where R314 names one. -/
def State.anncBad (s : State) (i : Issuer) (v b : DWord) (kind : BitVec 2) : Option (Byte × Option DWord) :=
  match prefixOf v with
  | none => some (cIllegalOp, some v)
  | some (p, len) =>
    if !prefixIn (s.func i.launch.fn).annwin p len ∨ !s.backingIn i.launch.fn b len then some (cPriv, none)
    else if b.toNat % 2 ^ (57 - len) ≠ 0 then some (cMisalign, none)
    else if i.ceil < (s.backingLabel (b.setWidth 57) len).toNat ∨ s.backingLabel (b.setWidth 57) len = 3 then
      some (cPageProt, none)
    else
      let other := match s.entryOf p len with
        | some e => (match e.origin with | some o => decide (o.peer ≠ s.peer) | none => false)
        | none => false
      if (if kind = 0 then other else (s.coverOrigin p len).isNone) then some (cIllegalOp, none)
      else if kind ≠ 0 ∧ s.strongOver p len then some (cReplicaStrong, none)
      else none

/-- The next issue of a prefix, counted. -/
def State.nextIssue (s : State) (p : Fab) (len : Nat) : State × BitVec 16 :=
  let old := ((s.issues.find? (fun c => decide (c.1 = p) && decide (c.2.1 = len))).map (fun c => c.2.2)).getD 0
  ({ s with issues := s.issues.filter (fun c => !(decide (c.1 = p) && decide (c.2.1 = len))) ++ [(p, len, old + 1)] }, old + 1)

/-- The sequence of a new origin of a prefix (R314). -/
def State.nextSeq (s : State) (p : Fab) (len : Nat) : Word := match s.topSeq p len with | some q => q + 1 | none => 1

/-- A route change of the issuer's yarn, awaited until every live peer acknowledges it (R310). -/
def State.awaitChange (s : State) (i : Issuer) (p : Fab) (len : Nat) (issue : BitVec 16) (kind : BitVec 2) :
    State :=
  let c : Change := { pfx := p, len := len, issue := issue, kind := kind }
  let s1 : State := { s with changes := Store.put s.nextChange c s.changes, nextChange := s.nextChange + 1 }
  let y := (s1.again i).yarn
  (s1.setYarn i.y { y with changes := y.changes ++ [s.nextChange] }).settleRoutes

/-- An announcement of the package's own (R314, R316). -/
def State.announceOwn (s : State) (i : Issuer) (p : Fab) (len : Nat) (kind : BitVec 2) (strong : Bool) (b : Fab) : State :=
  let q := s.nextIssue p len
  let from_ := s.coverOrigin p len
  let n : Note := { type := 0, pfx := p, len := len, kind := kind,
                    origin := if kind = 0 then s.peer else (from_.map (·.peer)).getD s.peer,
                    seq := if kind = 0 then s.nextSeq p len else (from_.map (·.seq)).getD 0,
                    issue := q.2, inc := s.inc, ceiling := s.backingLabel b len, strong := strong }
  ((q.1.announceNote n s.peer [] b).awaitChange i p len q.2 0).unreplay i.strand.launch

/-- annc's kind, by modifiers [30:29] (R312). -/
def anncKind (mods : BitVec 3) : BitVec 2 := mods.extractLsb' 0 2

/-- annc (R314). -/
def execAnnc (x : Args) (s : State) : Outcome State Fault Refusal :=
  issued s fun i => s.once i x fun G =>
    let v := (i.first s G x.a true).val
    let b := (i.first s G x.b true).val
    match s.anncBad i v b (anncKind x.mods) with
    | some (c, a) => s.trap i G c (a.getD s.anyArg) .here
    | none =>
      let p : Fab × Nat := (prefixOf v).getD (0, 12)
      (s.announceOwn i p.1 p.2 (anncKind x.mods) (x.mods.getLsbD 2) (b.setWidth 57)).doneKill i .annc x

/-- wdrw (R315, R309): it waits until every request accepted under the prefix is performed. -/
def execWdrw (x : Args) (s : State) : Outcome State Fault Refusal :=
  issued s fun i => s.once i x fun G =>
    let v := (i.first s G x.a true).val
    match prefixOf v with
    | none => s.trap i G cIllegalOp v .here
    | some (p, len) =>
      if len = 12 ∨ !prefixIn (s.func i.launch.fn).annwin p len then s.trap i G cPriv s.anyArg .here
      else
        let s1 := s.unreplay i.strand.launch
        match s.mine p len with
        | none => s1.doneKill i .wdrw x
        | some h => if s.owesUnder p len then s else ((s1.retreat p len).awaitChange i p len h.issue 1).doneKill i .wdrw x

/-- prom (R316). -/
def execProm (x : Args) (s : State) : Outcome State Fault Refusal :=
  issued s fun i => s.once i x fun G =>
    let v := (i.first s G x.a true).val
    match prefixOf v with
    | none => s.trap i G cIllegalOp v .here
    | some (p, len) =>
      if !prefixIn (s.func i.launch.fn).annwin p len then s.trap i G cPriv s.anyArg .here
      else
        match s.mine p len with
        | none => s.trap i G cIllegalOp s.anyArg .here
        | some h =>
          if !s.backingIn i.launch.fn (h.backing.setWidth 64) len then s.trap i G cPriv s.anyArg .here
          else if h.kind = 0 then s.trap i G cIllegalOp s.anyArg .here
          else (s.announceOwn i p len 0 false h.backing).doneKill i .prom x

/-- rtq's answer for an address (R317). -/
def State.routeAnswer (s : State) (i : Issuer) (store : Bool) (va : DWord) : Nat :=
  let none_ := fun (c : Byte) => pack [(24, c.toNat), (31, 1)]
  match s.translate i.launch.fn va with
  | .error c => none_ c
  | .ok p =>
    if i.ceil < p.label.toNat ∨ (store ∧ !p.write) ∨ p.cls = 3 ∨ s.inSeal p.fab then none_ cPageProt
    else
      match (if store then s.routeStore p else s.routeLoad p i.yarn.elig) with
      | .error c => none_ c
      | .ok (e, h) => pack [(0, h.peer.toNat), (12, h.path.length), (16, e.len), (22, h.kind.toNat)]

/-- rtq (R317). -/
def execRtq (x : Args) (s : State) : Outcome State Fault Refusal :=
  issued s fun i =>
    let G := i.lanes x
    s.compute i .rtq x (G.map (fun l =>
      { lane := l, val := BitVec.ofNat 64 (s.routeAnswer i (flag29 x.mods) (i.gAddr s x l)), lab := i.bank.floor }))

/-- rtsync (R318). -/
def execRtsync (x : Args) (s : State) : Outcome State Fault Refusal :=
  issued s fun i => s.once i x fun _ =>
    let ids := match i.g.wait with
      | some (.rtsync ids) => ids
      | _ => i.yarn.changes
    let left := ids.filter (fun k => (Store.find k s.changes).isSome)
    if left = [] then s.doneKill i .rtsync x else s.stay i (some (.rtsync left))

end Sys2Proof.Machine
end

