-- ==== Sys2Proof/Machine/Holder.lean ====
section
/-! DEFINITION. What this package does as the holder of an address: requests of other packages (R244 step 7, R307, R308,
R350, R357, R364), ownership of lines (R264) and revoked extents (R326). -/

namespace Sys2Proof.Machine

open Host (Outcome)

/-! ### Arrival and answer -/

/-- A request no longer held back. -/
def State.unhold (s : State) (r : Request) : State := { s with held := s.held.filter (fun h => !decide (h.req = r)) }

/-- A request held back for a reason. -/
def State.holdBack (s : State) (r : Request) (why : Hold) : State := { s with held := s.held ++ [{ req := r, hold := why }] }

/-- A request of another package received, or taken up again after it was held back (R263). -/
def State.receive (s : State) (r : Request) (f : State → State) : State := (s.unhold r).fromPeer r.src r.srcInc r.dstInc f

/-- An answer sent (R245), with the holder's load field (R324). -/
def State.reply (s : State) (r : Request) (a : Answer) : State :=
  s.tell r.src r.id { a with load := Config.loadField s.tick }

/-- A request refused. -/
def State.refuse (s : State) (r : Request) (c : Byte) : State := s.reply r { ok := false, cause := c }

/-- Whether a request of a peer meets a revoked extent (R326). -/
def State.isRevoked (s : State) (r : Request) : Bool :=
  s.revoked.any (fun v => decide (v.peer = r.src) && under r.addr v.pfx v.len)

/-- Whether a request takes the route of a store (R306): a write, a load on a STRONG page, or a knot operation. -/
def toOrigin (r : Request) : Bool := reqWrites r || r.strong || decide (r.kind = .knot)

/-- The byte of backing that serves a request here: the package holds the prefix the request names, as its origin where
the request needs one (R307, R308). -/
def State.servedAt (s : State) (r : Request) : Option Nat :=
  match s.mine r.pfx r.len with
  | some h => if toOrigin r ∧ h.kind ≠ 0 then none else some (h.backing.toNat + (r.addr.toNat - r.pfx.toNat))
  | none => none

/-- Whether a stub stands here for a request's prefix (R309). -/
def State.hasStub (s : State) (r : Request) : Bool :=
  s.stubs.any (fun t => decide (t.pfx = r.pfx) && decide (t.len = r.len))

/-- The page a relayed request is routed by. -/
def reqPage (r : Request) : Page := { fab := r.addr, cls := if r.strong then 1 else 0, label := r.label }

/-- A request taken under the prefix another holder has: served here if this package is it, else passed on (R308). -/
def State.relay (s : State) (r : Request) (serve : State → Request → Nat → State) : State :=
  match (if toOrigin r then s.routeStore (reqPage r) else s.routeLoad (reqPage r) { trailing := false }) with
  | .error c => s.refuse r c
  | .ok (e, h) =>
    let r1 := { r with pfx := e.pfx, len := e.len, owned := false }
    if h.peer = s.peer then serve s r1 (backingOf e h r.addr)
    else s.request (.relay r.src r.id) 0 h.peer .none r1

/-! ### Serving -/

/-- The function whose metered regions hold an address (R357). -/
def State.meteredBy (s : State) (q : Nat) : Option Nat :=
  (s.funcs.find? (fun f => s.inMetreg f.2 (BitVec.ofNat 57 q))).map Prod.fst

/-- Units of 32 bytes a range touches. -/
def unitsOf (q n : Nat) : Nat := (q + n - 1) / 32 - q / 32 + 1

/-- Whether a request cannot be served now, and why, with the state that asks for what it lacks or has paid what it owes
(R264, R357, R364). `n` is the number of label-2 units its response carries away. -/
def State.mustHold (s : State) (r : Request) (q n : Nat) : State × Option Hold :=
  if s.scrubHeld (BitVec.ofNat 57 q) then (s, some .scrub)
  else if s.ownedAway q then (s.recallLine q, some .line)
  else if n = 0 then (s, none)
  else
    match s.meteredBy q with
    | some f =>
      let t := s.toll f (.req r.src r.id) n
      (t.1, if t.2 then none else some .meter)
    | none => (s, some .meter)

/-- A request that has passed its checks and is performed, or given up, is kept no more. -/
def State.untake (s : State) (r : Request) : State :=
  { s.tollPaid (.req r.src r.id) with checked := s.checked.filter (fun t => !(decide (t.req.src = r.src) && decide (t.req.id = r.id))) }

/-- Whether a request reads bytes that go back to its requester. -/
def reqReads (r : Request) : Bool := decide (r.kind = .load ∨ r.kind = .atom)

/-- The label-2 units that leave with the answer to a request. -/
def State.unitsAway (s : State) (r : Request) (q : Nat) : Nat :=
  if reqReads r ∧ s.mem.label q = 2 then unitsOf q r.width else 0

/-- A request performed on the backing: the bytes it reads (R248, R250, R325). -/
def State.perform (s : State) (r : Request) (q : Nat) : State × List Byte :=
  match r.kind with
  | .load => (s, s.bytesAt q r.width)
  | .store =>
    let s1 := s.writeAt q r.data r.label
    (if r.whole then { s1 with mem := s1.mem.setPoison q false } else s1, [])
  | _ =>
    let bs := s.bytesAt q r.width
    let new := atomic r.op r.ty (BitVec.ofNat 64 (leNat bs)) (BitVec.ofNat 64 (leNat r.data)) (BitVec.ofNat 64 (leNat r.data2))
    (s.writeAt q (leBytes r.width new.toNat) r.label, if r.kind = .atom then bs else [])

/-- The cause for which a holder refuses a request (R244 step 7, R350, R358). -/
def State.refusal (s : State) (r : Request) (q : Nat) : Option Byte :=
  if s.inSeal (BitVec.ofNat 57 q) ∨ (reqReads r ∧ s.mem.label q = 3) then some cPageProt
  else if reqReads r ∧ s.mem.poisoned q then some cPoison
  else none

/-- A request that has passed its checks performed at a byte of backing, once nothing holds it back. -/
def State.carryOut (s : State) (r : Request) (q : Nat) : State :=
  let m := s.mustHold r q (s.unitsAway r q)
  match m.2 with
  | some why => m.1.holdBack r why
  | none =>
    let p := (m.1.untake r).perform r q
    let s1 := p.1.reply r { data := p.2 }
    if reqWrites r then s1.ackTo r.src r.id else s1

/-- A request at a byte of backing: held until a scrub has passed it (R364), refused, or performed; one that only asks whether
its checks pass is told so and waits for its word (log entry 32). -/
def State.serve (s : State) (r : Request) (q : Nat) : State :=
  if s.scrubHeld (BitVec.ofNat 57 q) then s.holdBack r .scrub
  else
    match s.refusal r q with
    | some c => s.refuse r c
    | none =>
      if r.stage = .ask then { s.reply r {} with checked := s.checked ++ [{ req := r, at_ := q }] }
      else s.carryOut r q

/-- The request of this package that passes one of another on (R308). -/
def State.relayed (s : State) (r : Request) : Option (Nat × OutReq) :=
  s.reqs.find? (fun c => decide (c.2.who = .relay r.src r.id))

/-- The word to perform what has passed its checks: here, whatever became of the prefix since (R309), or at the holder it was
relayed to. -/
def State.goAhead (s : State) (r : Request) : State :=
  match s.checked.find? (fun t => decide (t.req.src = r.src) && decide (t.req.id = r.id)) with
  | some t => s.carryOut r t.at_
  | none =>
    match s.relayed r with
    | some (k, o) => if o.passed then s.proceed k else s
    | none => s.dropPacket

/-- The word that what has passed its checks is given up. -/
def State.giveUp (s : State) (r : Request) : State :=
  match s.relayed r with
  | some (k, o) => if o.passed then s.dropReq k else s
  | none => s.untake r

/-- A received request judged by what this package holds (R307, R308, R326), or what one judged before is to do. -/
def State.holder (s : State) (r : Request) (serve : State → Request → Nat → State) : State :=
  s.receive r (fun s1 =>
    if r.stage = .go then s1.goAhead r
    else if r.stage = .drop then s1.giveUp r
    else if s1.isRevoked r then s1.refuse r cRevoked
    else
      match s1.servedAt r with
      | some q => serve s1 r q
      | none => if s1.hasStub r then s1.relay r serve else s1.refuse r cRouteNone)

/-- HOLDER_REQUEST (R307, R308): a load, store, reduction or atomic of another package. -/
def execHolderRequest (r : Request) (s : State) : Outcome State Fault Refusal :=
  event (decide (r.kind ≠ .knot) && !(r.owned && reqWrites r)) (s.holder r State.serve)

/-! ### Ownership (R264) -/

/-- A request for ownership at the origin: the line is granted. One that another package owns is recalled, and the request then
served at the origin's memory side (R264); where the requester is its owner still, its write-back is on the way. A line that may not leave the package (R350), or that a poison mark
covers (R325; log entry 32), is served at the origin instead. -/
def State.own (s : State) (r : Request) (q : Nat) : State :=
  if s.scrubHeld (BitVec.ofNat 57 q) then s.holdBack r .scrub
  else if s.inSeal (BitVec.ofNat 57 q) then s.refuse r cPageProt
  else if s.mem.label q = 3 ∨ peerOf (BitVec.ofNat 57 q) ≠ s.peer ∨ s.mem.poisoned q then s.serve { r with owned := false } q
  else if (Store.find (q / 64) s.owners).any (fun o => decide (o.1 = r.src)) then s.holdBack r .line
  else if s.ownedAway q then (s.recallLine q).holdBack { r with owned := false } .line
  else
    let m := s.mustHold r q (if s.mem.label q = 2 then 2 else 0)
    match m.2 with
    | some why => m.1.holdBack r why
    | none =>
      let s1 := m.1.untake r
      let at_ : Fab := BitVec.ofNat 57 (r.addr.toNat / 64 * 64)
      { s1 with owners := Store.put (q / 64) (r.src, at_) s1.owners
                outbox := s1.outbox ++ [.grant r.src (s1.packetTo r.src)
                  { line := at_, data := s1.bytesAt (q / 64 * 64) 64, lab := some (s1.mem.label q) }] }

/-- OWNERSHIP_REQUEST (R264): a store or atomic from an OWNED page of another package. -/
def execOwnershipRequest (r : Request) (s : State) : Outcome State Fault Refusal :=
  event (decide (r.kind ≠ .knot) && r.owned && reqWrites r) (s.holder r State.own)

/-- Bytes written back to a line of this origin by its owner; the frame takes the label of the owner's last write to it
(R248). Bytes of a line that was never written there change nothing. -/
def State.takeLine (s : State) (k : Nat) (data : List Byte) (release : Bool) (lab : Option Label) : State :=
  let s1 := match lab with
    | some l => { s with mem := s.mem.write (64 * k) (data.take 64) l }
    | none => s
  if release then
    { s1 with owners := Store.drop k s.owners, recalling := s.recalling.filter (fun j => !decide (j = k)) }
  else s1

/-- WRITE_BACK (R264): the owner's bytes arrive at the origin, which acknowledges them; a release gives the line up. One of a
line its sender does not own has no effect. -/
def execWriteBack (p : Packet) (d : LineBytes) (release : Bool) (s : State) : Outcome State Fault Refusal :=
  .next (s.fromPeer p.src p.srcInc p.dstInc (fun s1 =>
    let s2 := match s1.owners.find? (fun c => decide (c.2.2 = d.line) && decide (c.2.1 = p.src)) with
      | some (k, _) => s1.takeLine k d.data release d.lab
      | none => s1
    match p.ack with
    | some n => s2.ackTo p.src n
    | none => s2))

/-- Whether a request of this package has nothing to wait for once it owns the line: it asked for ownership, or is not sent
yet. -/
def OutReq.byOwner (o : OutReq) (k : Nat) : Bool :=
  decide (o.req.addr.toNat / 64 = k) && !o.passed && !o.accepted && (o.req.owned || decide (o.hold ≠ .none))
    && (match o.who with | .relay _ _ => false | _ => true)

/-- A request that the line granted answers: a lane's part stands in the line; any other requester asks again, and finds it. -/
def State.grantTo (s : State) (k : Nat) (o : OutReq) : State :=
  let s1 := ({ s with reqs := Store.drop k s.reqs }).settleReq k
  if s.bufs.any (fun b => decide (b.req = k)) then { s1 with bufs := s1.bufs.filter (fun b => !decide (b.req = k)) }
  else
    match o.who with
    | .lane y g l p => s1.setPart y g l p (fun c => match c.2 with
      | .sent => if c.1.req = some k then (c.1, .line) else c
      | _ => c)
    | _ => s1

/-- OWNERSHIP_GRANT (R264): this package owns the line, and performs in it what waited for it. -/
def execOwnershipGrant (p : Packet) (d : LineBytes) (s : State) : Outcome State Fault Refusal :=
  .next (s.fromPeer p.src p.srcInc p.dstInc (fun s1 =>
    let k := d.line.toNat / 64
    let s2 : State := { s1 with ownedHere := Store.put k { bytes := d.data.take 64, origin := p.src, carried := d.lab.getD 0 }
                                     s1.ownedHere }
    (s2.reqs.filter (fun c => c.2.byOwner k)).foldl (fun t c => t.grantTo c.1 c.2) s2))

/-- Whether ownership of a line is asked of a peer and not answered yet (R264). -/
def State.grantDue (s : State) (k : Nat) (from_ : Peer) : Bool :=
  s.reqs.any (fun c => c.2.req.owned && !c.2.passed && !c.2.accepted && decide (c.2.hold = .none) && decide (c.2.dst = from_)
    && decide (c.2.req.addr.toNat / 64 = k))

/-- RECALL (R264): a line owned here is written back and discarded; its label-2 bytes leave through the meter of the function
that wrote them last (R357). Where the line is not here, its grant may have been overtaken (R262): the recall waits until what this
package asked of the origin is answered; else the line is on its way back already. -/
def execRecall (p : Packet) (line : Fab) (s : State) : Outcome State Fault Refusal :=
  .next (s.fromPeer p.src p.srcInc p.dstInc (fun s1 =>
    let k := line.toNat / 64
    match Store.find k s1.ownedHere with
    | none => if s1.grantDue k p.src then s1.requeue (.recall p line) else s1
    | some o =>
      let m := if o.hot then s1.toll o.fn (.line k) 2 else (s1, true)
      if !m.2 then m.1.requeue (.recall p line)
      else
        let s2 := m.1.tollPaid (.line k)
        { s2 with ownedHere := Store.drop k s2.ownedHere
                  outbox := s2.outbox ++ [.writeBack o.origin (s2.packetTo o.origin) ⟨line, o.bytes, o.lab⟩ true] }))

/-! ### Revoked extents (R326) -/

/-- EXTENT_REVOKE (R326): from now on requests of a peer to an extent are refused. -/
def execExtentRevoke (p : Peer) (pfx : Fab) (len : Nat) (s : State) : Outcome State Fault Refusal :=
  .next { s with revoked := s.revoked ++ [{ peer := p, pfx := pfx, len := len }] }

/-- REVOCATION_COMPLETE (R326): every request accepted before the revocation is performed and acknowledged. -/
def execRevocationComplete (p : Peer) (pfx : Fab) (len : Nat) (s : State) : Outcome State Fault Refusal :=
  let v : Revoked := { peer := p, pfx := pfx, len := len }
  let busy := s.reqs.any (fun c => (match c.2.who with | .relay q _ => decide (q = p) | _ => false)
    && under c.2.req.addr pfx len) || s.checked.any (fun t => decide (t.req.src = p) && under t.req.addr pfx len)
  event (s.revoked.contains v && !busy)
    { s with revoked := s.revoked.map (fun w => if w = v then { v with reported := true } else w) }

end Sys2Proof.Machine
end

