-- ==== Sys2Proof/Machine/Knots.lean ====
section
/-! DEFINITION. Knots: the operations performed at the home (R338, R339, R343 to R346), the lag report (R340) and the knot
instructions: major opcode 0x7D (R341 to R347). -/

namespace Sys2Proof.Machine

open Host (Outcome)

/-! ### A knot as it lies in memory (R338) -/

/-- A knot: its descriptor, and the next rounds, accumulator and published value. -/
structure Knot where
  desc : BitVec 512
  next : List (BitVec 16)
  acc : List Word
  pub : List Word
  deriving DecidableEq, Repr

def kN (d : BitVec 512) : Nat := bitsAt d 0 7
def kK (d : BitVec 512) : Nat := bitsAt d 8 7
def kL (d : BitVec 512) : Nat := bitsAt d 16 4
def kW (d : BitVec 512) : Nat := bitsAt d 20 2
def kCombine (d : BitVec 512) : Nat := bitsAt d 22 2
def kFormat (d : BitVec 512) : Nat := bitsAt d 24 4
def kM (d : BitVec 512) : Nat := bitsAt d 32 7
def kColl (d : BitVec 512) : Bool := d.getLsbD 39
def kT (d : BitVec 512) : BitVec 16 := d.extractLsb' 48 16
def kOpen (d : BitVec 512) : Mask := d.extractLsb' 64 64
def kOpenWeight (d : BitVec 512) : Nat := bitsAt d 128 32
def kClosedWeight (d : BitVec 512) : Nat := bitsAt d 160 32
def kClosedTag (d : BitVec 512) : BitVec 16 := d.extractLsb' 192 16
def kOnTime (d : BitVec 512) : Nat := bitsAt d 208 7
def kStalled (d : BitVec 512) : Bool := d.getLsbD 215
def kOpenLab (d : BitVec 512) : Label := d.extractLsb' 216 2
def kClosedLab (d : BitVec 512) : Label := d.extractLsb' 218 2
def kShorts (d : BitVec 512) : Nat := bitsAt d 224 16
def kClosed (d : BitVec 512) : Mask := d.extractLsb' 256 64

/-- A descriptor with a field of n bits at bit i replaced. -/
def kSet (d : BitVec 512) (i n v : Nat) : BitVec 512 :=
  (d &&& ~~~(BitVec.ofNat 512 ((2 ^ n - 1) * 2 ^ i))) ||| BitVec.ofNat 512 (v % 2 ^ n * 2 ^ i)

/-- Words and halfwords of a byte list. -/
def halfAt (bs : List Byte) (o : Nat) : BitVec 16 := BitVec.ofNat 16 (leNat ((bs.drop o).take 2))
def wordOf (bs : List Byte) (o : Nat) : Word := BitVec.ofNat 32 (leNat ((bs.drop o).take 4))

/-- A knot read from its 1,088 bytes. -/
def knotOf (bs : List Byte) : Knot :=
  { desc := BitVec.ofNat 512 (leNat (bs.take 64))
    next := (List.range 64).map (fun j => halfAt bs (0x40 + 2 * j))
    acc := (List.range 64).map (fun e => wordOf bs (0xC0 + 4 * e))
    pub := (List.range 64).map (fun e => wordOf bs (0x1C0 + 4 * e)) }

/-- The bytes of a knot, the device's reserved area zero. -/
def Knot.bytes (k : Knot) : List Byte :=
  leBytes 64 k.desc.toNat ++ k.next.flatMap (fun h => leBytes 2 h.toNat) ++ k.acc.flatMap (fun w => leBytes 4 w.toNat)
    ++ k.pub.flatMap (fun w => leBytes 4 w.toNat) ++ List.replicate 384 0

/-! ### Arithmetic of contributions (R334) -/

/-- A number shifted right by d bits, halves to even. -/
def shiftEven (v : Int) (d : Nat) : Int :=
  let q := v.fdiv (2 ^ d)
  let r := v.fmod (2 ^ d)
  if 2 * r < 2 ^ d then q else if 2 * r = 2 ^ d then (if q % 2 = 0 then q else q + 1) else q + 1

/-- The combine of two FP32 words: 0 sum, 1 min, 2 max; NaN operands as R188 has them. -/
def combineF (op a b : Nat) : Nat :=
  if op = 0 then (f32.add .rne false a b).1
  else match f32.nanOf [a, b] with
    | some v => v.1
    | none => (f32.pick (decide (op = 2)) a b).1

/-- The combine of two 32-bit integers, signed or not. -/
def combineI (sg : Bool) (op a b : Nat) : Nat :=
  let n := fun v => numOf sg 32 (BitVec.ofNat 64 v)
  if op = 0 then (a + b) % 2 ^ 32
  else if op = 1 then (if n b < n a then b else a)
  else if n a < n b then b else a

/-- The combine of a partial and a value with lag d, in a format of the knot or binding (R334). -/
def combineLate (fmt op d a b : Nat) : Nat :=
  if fmt = 0xD ∨ fmt = 0xE then
    let sg := decide (fmt = 0xD)
    let v := if op = 0 then (shiftEven (numOf sg 32 (BitVec.ofNat 64 b)) d % 2 ^ 32).toNat else b
    combineI sg op a v
  else
    let v := if op = 0 ∧ d ≠ 0 then (f32.scale .rne false b (-(d : Int))).1 else b
    combineF op a v

/-- The identity of a combine (R339). -/
def identityOf (fmt op : Nat) : Word :=
  if op = 0 then 0
  else if fmt = 0xD then (if op = 1 then 0x7FFFFFFF else 0x80000000)
  else if fmt = 0xE then (if op = 1 then 0xFFFFFFFF else 0)
  else if op = 1 then 0x7F800000 else 0xFF800000

/-! ### Contributions (R339) -/

/-- The lag report a stalled close asks for: the open tag, the lowest lagging member and its next round (R340). -/
structure Lag where
  tag : BitVec 16
  member : Nat
  next : BitVec 16
  deriving DecidableEq, Repr

/-- With the accumulator at its identity. -/
def Knot.fresh (k : Knot) : Knot :=
  { k with acc := (List.range 64).map (fun e => if e < kM k.desc then identityOf (kFormat k.desc) (kCombine k.desc) else 0) }

/-- The lowest member whose lag would pass the limit. -/
def Knot.laggard (k : Knot) : Option Nat :=
  (List.range (kN k.desc)).find? (fun j => decide (kL k.desc < (kT k.desc + 1 - k.next.getD j 0).toNat)
    && above (kT k.desc + 1) (k.next.getD j 0))

/-- tryclose() (R339). -/
def Knot.tryClose (k : Knot) : Knot × Option Lag :=
  let d := k.desc
  if kOnTime d < kK d then (k, none)
  else
    match k.laggard with
    | some j =>
      if kStalled d then (k, none) else ({ k with desc := kSet d 215 1 1 }, some ⟨kT d, j, k.next.getD j 0⟩)
    | none =>
      let d1 := kSet (kSet (kSet (kSet d 256 64 (kOpen d).toNat) 160 32 (kOpenWeight d)) 218 2 (kOpenLab d).toNat) 192 16 (kT d).toNat
      let d2 := kSet (kSet (kSet (kSet (kSet (kSet d1 48 16 (kT d + 1).toNat) 64 64 0) 208 7 0) 128 32 0) 216 2 0) 215 1 0
      (({ k with desc := d2, pub := k.acc }).fresh, none)

/-- The FP32 weight 2^-d. -/
def weightOf (d : Nat) : Nat := (f32.scale .rne false 0x3F800000 (-(d : Int))).1

/-- add(x, w) (R339): a collective knot holds no element. -/
def Knot.add (k : Knot) (x : List Word) (d : Nat) : Knot :=
  let dsc := k.desc
  { k with
    acc := k.acc.mapIdx (fun e a => if e < kM dsc then
      BitVec.ofNat 32 (combineLate (kFormat dsc) (kCombine dsc) d a.toNat (x.getD e 0).toNat) else a)
    desc := kSet dsc 128 32 (f32.add .rne false (kOpenWeight dsc) (weightOf d)).1 }

/-- contribute(j, r, x, lb) (R339): the knot, the status and the lag report. -/
def Knot.contribute (k : Knot) (j : Nat) (r : BitVec 16) (x : List Word) (lb : Label) : Knot × Nat × Option Lag :=
  let d := k.desc
  if kN d ≤ j then (k, 5, none)
  else if above r (kT d) then (k, 3, none)
  else if r ≠ k.next.getD j 0 then (k, 4, none)
  else
    let lag := (kT d - r).toNat
    let mark := fun (k : Knot) => { k with desc := kSet k.desc 64 64 ((kOpen k.desc) ||| (1#64 <<< j)).toNat }
    let k1 := if lag = 0 then
        let q := mark (k.add x 0)
        { q with desc := kSet q.desc 208 7 (kOnTime q.desc + 1) }
      else if kW d = 2 then k
      else mark (k.add x (if kW d = 0 then 0 else lag))
    let st := if lag = 0 then 0 else if kW d = 2 then 2 else 1
    let k2 := { k1 with next := k1.next.set j (r + 1)
                        desc := kSet k1.desc 216 2 (lmax (kOpenLab k1.desc) lb).toNat }
    let q := k2.tryClose
    (q.1, st, q.2)

/-! ### Operations at the home -/

/-- Whether a configuration word breaks R343. -/
def badConfig (b : DWord) : Bool :=
  let d : BitVec 512 := b.setWidth 512
  [b.getLsbD 7, b.getLsbD 15, decide (bitsAt b 28 4 ≠ 0), decide (bitsAt b 40 8 ≠ 0), decide (kN d = 0 ∨ 64 < kN d),
   decide (kK d = 0 ∨ kN d < kK d), decide (kW d = 3 ∨ kCombine d = 3), decide (kColl d = true ↔ kM d ≠ 0),
   !kColl d && !([0, 0xD, 0xE].contains (kFormat d)), decide (64 < kM d)].any id

/-- A knot as knot.init leaves it (R343). -/
def knotStart (b : DWord) : Knot :=
  let d0 : BitVec 512 := b.setWidth 512
  let d := kSet d0 192 16 (kT d0 - 1).toNat
  ({ desc := d, next := (List.range 64).map (fun j => if j < kN d then kT d else 0), acc := List.replicate 64 0,
     pub := List.replicate 64 0 } : Knot).fresh

/-- What a knot operation gives: the knot after it, the bytes of its answer, the label of a value it published, and a lag
report. -/
structure KnotOut where
  knot : Knot
  data : List Byte
  lab : Label := 0
  lag : Option Lag := none
  deriving DecidableEq, Repr

/-- A lag report as an answer carries it: whether there is one, the tag, the member, its next round. -/
def lagBytes : Option Lag → List Byte
  | none => [0]
  | some l => 1 :: (leBytes 2 l.tag.toNat ++ [BitVec.ofNat 8 l.member] ++ leBytes 2 l.next.toNat)

/-- The label of a contribution (R344): the floor's, which comes first, and those of the lanes below m. -/
def Knot.labelOf (k : Knot) (labs : List Byte) : Label :=
  ((labs.take (1 + kM k.desc)).map (·.setWidth 2)).foldl lmax 0

/-- knot.put at the home (R344): the status and the report of a stall. -/
def Knot.put (k : Knot) (data labs : List Byte) : KnotOut :=
  if kColl k.desc then { knot := k, data := 6 :: lagBytes none }
  else
    let c := leNat (data.take 4)
    let x := (List.range 64).map (fun e => wordOf data (4 + 4 * e))
    let q := k.contribute (c / 65536 % 64) (BitVec.ofNat 16 c) x (k.labelOf labs)
    { knot := q.1, data := BitVec.ofNat 8 q.2.1 :: lagBytes q.2.2, lag := q.2.2 }

/-- knot.take at the home (R345): whether the round is closed, and the published value. -/
def Knot.take (k : Knot) (r : BitVec 16) : KnotOut :=
  if above r (kClosedTag k.desc) then { knot := k, data := [0] }
  else { knot := k, data := 1 :: (k.pub.mapIdx (fun e w => if e < kM k.desc then w else 0)).flatMap (fun w => leBytes 4 w.toNat),
         lab := kClosedLab k.desc }

/-- knot.query at the home (R346). -/
def Knot.query (k : Knot) (sel : Nat) : KnotOut :=
  let d := k.desc
  let v : Nat :=
    if sel = 0 then pack [(0, (kT d).toNat), (16, (kClosedTag d).toNat), (32, kOnTime d), (39, if kStalled d then 1 else 0),
      (48, kShorts d)]
    else if sel = 1 then (kOpen d).toNat
    else if sel = 2 then (kClosed d).toNat
    else if sel = 3 then pack [(0, kClosedWeight d), (32, kOpenWeight d)]
    else if 0x100 ≤ sel ∧ sel < 0x100 + kN d then
      let n := k.next.getD (sel - 0x100) 0
      pack [(0, n.toNat), (32, (((kT d - n).toInt) % 2 ^ 32).toNat)]
    else 0
  { knot := k, data := leBytes 8 v }

/-- A knot operation by its sub-opcode. -/
def Knot.run (k : Knot) (op : Nat) (data labs : List Byte) : KnotOut :=
  match op with
  | 0 => { knot := knotStart (BitVec.ofNat 64 (leNat (data.take 8))), data := [] }
  | 1 => k.put data labs
  | 2 => k.take (halfAt data 0)
  | _ => k.query (leNat (data.take 4))

/-- A request of another package performed on a knot here: only knot.init and knot.put write (R338). -/
def State.serveKnot (s : State) (r : Request) (q : Nat) : State :=
  let reads := decide (2 ≤ r.op.toNat)
  if s.scrubHeld (BitVec.ofNat 57 q) then s.holdBack r .scrub
  else if s.inSeal (BitVec.ofNat 57 q) ∨ (reads ∧ s.mem.label q = 3) then s.refuse r cPageProt
  else
  match s.awayIn q 1088 with
  | some a => (s.recallLine a).holdBack r .line
  | none =>
    if reads ∧ s.mem.poisonedIn q 1088 then s.refuse r cPoison
    else
    let m := s.mustHold r q (if reads ∧ s.mem.label q = 2 then unitsOf q 1088 else 0)
    match m.2 with
    | some why => m.1.holdBack r why
    | none =>
      let s1 := m.1.untake r
      let o := (knotOf (s1.bytesAt q 1088)).run r.op.toNat r.data r.data2
      let s2 := if r.op.toNat < 2 then s1.writeAt q o.knot.bytes r.label else s1
      let s3 := s2.reply r { data := o.data, label := o.lab }
      if reqWrites r then s3.ackTo r.src r.id else s3

/-- KNOT_REQUEST (R339): a knot operation of another package. -/
def execKnotRequest (r : Request) (s : State) : Outcome State Fault Refusal :=
  event (decide (r.kind = .knot)) (s.holder r State.serveKnot)

/-! ### The report of a stall (R340) -/

/-- A KNOT_LAG record. -/
def lagRecord (knot : Fab) (l : Lag) (launch die core : Nat) : List Byte :=
  leBytes 64 (pack [(8, cKnotLag.toNat), (22, die), (24, core), (64, launch), (192, l.member), (224, l.next.toNat),
    (240, l.tag.toNat), (256, knot.toNat)])

/-- The report an answer carries. -/
def lagOf (data : List Byte) : Option Lag :=
  if data.getD 1 0 = 1 then some ⟨halfAt data 2, (data.getD 4 0).toNat, halfAt data 5⟩ else none

/-- Reports as a verdict's answer carries them: 5 bytes each. -/
def lagsBytes (ls : List Lag) : List Byte :=
  ls.flatMap (fun l => leBytes 2 l.tag.toNat ++ [BitVec.ofNat 8 l.member] ++ leBytes 2 l.next.toNat)

/-- The reports such an answer carries. -/
def lagsOf (bs : List Byte) : List Lag :=
  (List.range (bs.length / 5)).map (fun k => ⟨halfAt bs (5 * k), (bs.getD (5 * k + 2) 0).toNat, halfAt bs (5 * k + 3)⟩)

/-- The report of a stall found by a launch's operation. -/
def State.reportLag (s : State) (i : Issuer) (knot : Fab) (data : List Byte) : State :=
  match lagOf data with
  | some l => s.report i.launch.fn { bytes := lagRecord knot l i.strand.launch i.strand.at_.die i.strand.at_.core }
  | none => s

/-! ### The instructions -/

/-- An operation under way on its one lane: performed here, in host memory, or by the home already; the answer's bytes and
the label of its value. -/
def State.knotPart (s : State) (i : Issuer) (y : Yarn) (op : Nat) (a : LaneAcc) : State × Yarn × List Byte × Label :=
  match a.parts with
  | (p, .here q) :: _ =>
    let o := (knotOf (s.bytesAt q.toNat 1088)).run op a.data a.data2
    if op < 2 then
      let s1 := s.launchWrite i.strand.launch p.page q o.knot.bytes
      ({ s1 with nextReq := s1.nextReq + 1 }, y.count i.g s1.nextReq p.page true p.dst, o.data, o.lab)
    else (s, y, o.data, o.lab)
  | (_, .host h) :: _ =>
    let o := (knotOf (s.hostRead h 1088)).run op a.data a.data2
    (if op < 2 then (s.bounceWrite i.launch.fn none h o.knot.bytes).unreplay i.strand.launch else s, y, o.data, o.lab)
  | (_, .got d lab) :: _ => (if op < 2 then s.unreplay i.strand.launch else s, y, d, lab)
  | _ => (s, y, [], 0)

/-- A yarn that has written to a part's origin (R305). -/
def Yarn.wroteTo (y : Yarn) (p : Peer) : Yarn := if y.wrote.contains p then y else { y with wrote := p :: y.wrote }

/-- A number taken on the knot timeline (R347). -/
def State.numberKnot (s : State) (x : Nat) : State × Nat :=
  let t := (s.strandAt x).submit 9
  let n := t.issuedOn 9
  (s.setStrand x { t with knotsOpen := t.knotsOpen ++ [n] }, n)

/-- A number given back: the last one is taken again by the next instruction; one with others above it is done (R347; log
entry 50). -/
def State.unnumber (s : State) (x : Nat) (n : Option Nat) : State :=
  let t := s.strandAt x
  match n with
  | none => s
  | some k =>
    let left := t.knotsOpen.filter (fun m => !decide (m = k))
    s.setStrand x (if t.issuedOn 9 = k then { t with knotsOpen := left, issued := Store.set 0 9 (k - 1) t.issued }
      else t.knotDone k)

/-- A numbered knot instruction done at once. -/
def State.endKnot (s : State) (x n : Nat) : State := s.setStrand x ((s.strandAt x).knotDone n)

/-- What a knot instruction writes in the lanes of G, from its answer's bytes and the label of its value (R344 to R346). -/
def Issuer.knotResults (i : Issuer) (x : Args) (op : Nat) (a : LaneAcc) (d : List Byte) (lab : Label) : List Res :=
  let G := i.lanes x
  let res := fun (l : Nat) (k : Nat) => match op with
    | 1 => (⟨l, (d.headD 0).setWidth 64, 0, 0⟩ : Res)
    | 2 => ⟨l, (wordOf d (1 + 4 * k)).setWidth 64, i.label [{ lab := lab }, { lab := a.lab }], 0⟩
    | _ => ⟨l, BitVec.ofNat 64 (leNat (d.take 8)), 0, 0⟩
  match x.dst with
  | .s _ => [res (G.headD 0) 0]
  | _ => G.map (fun l => res l (i.launch.laneNo l))

/-- A knot instruction's end in its acting lane: its results arrive later, and with them the timeline's done value; one
with nothing to write is done at once. `n` is the number a waiting take has already; one whose result the launch's ceiling does
not allow takes none (R347, R349). -/
def State.knotEnd (s : State) (i : Issuer) (o : Op) (x : Args) (op : Nat) (n : Option Nat) (a : LaneAcc) : State :=
  let G := i.lanes x
  let p := s.knotPart i i.yarn op a
  let d := p.2.2.1
  let home := a.parts.headD ({ page := {}, len := 0 }, .sent)
  let rs := i.knotResults x op a d p.2.2.2
  let high := if op = 0 then [] else overCeil i.ceil x.dst s.anyArg rs
  if high ≠ [] ∧ !(op = 2 ∧ d.headD 0 = 0) then
    (s.unnumber i.yarn.strand n).finish i G high (fun s1 =>
      (s1, i.killIn o x i.yarn (G.filter (fun l => !high.any (fun f => decide (f.lane = l))))))
  else
  let q := match n with | some k => (p.1, k) | none => p.1.numberKnot i.yarn.strand
  let y0 := if op < 2 then p.2.1.wroteTo home.1.dst else p.2.1
  let y1 := if op = 1 then y0 else y0.acquire q.1 a.domain
  let s1 := if op = 1 ∨ op = 2 then q.1.unreplay i.strand.launch else q.1
  let s2 := if op = 1 then s1.reportLag i home.1.page.fab d else s1
  if op = 2 ∧ d.headD 0 = 0 then
    let s3 := s2.setYarn i.y y1
    s3.stay (s3.again i) (some (.knot home.1.page.va (halfAt a.data 0) q.2))
  else
    let ps := (if op = 0 then [] else i.pendOf x.dst (decide (op = 3)) rs).map (fun c => { c with knot := some (BitVec.ofNat 64 q.2) })
    let s3 := if ps = [] then s2.endKnot i.yarn.strand q.2 else s2
    s3.done i ((i.killIn o x y1 G).push ps)

/-- Once the acting lane is accepted or has failed: a failing lane leaves alone (R341, R246), and a number it had is given
up. -/
def State.knotFin (s : State) (i : Issuer) (o : Op) (x : Args) (op : Nat) (ls : List LaneAcc) : State :=
  match ls with
  | a0 :: _ =>
    let a := a0.noAperture
    let n : Option Nat := if op = 2 ∧ a.data2.length = 9 then some (leNat (a.data2.drop 1)) else none
    match a.fault with
    | some f =>
      let G := i.lanes x
      let fs := (i.led G a.lane).map (fun l => { f with lane := l })
      (s.unnumber i.yarn.strand n).finish i G fs (fun s1 =>
        (s1, i.killIn o x i.yarn (G.filter (fun l => !fs.any (fun f => decide (f.lane = l))))))
    | none => s.knotEnd i o x op n a
  | [] => s

/-- The course of a knot instruction: `data` is what it sends, `labs` the labels of the floor and of its value's lanes, and `wl`
the label of its operands b and c, for step 5 of R244. -/
def State.knotOp (s : State) (i : Issuer) (o : Op) (x : Args) (op : Nat) (data labs : List Byte) (wl : Label) : State :=
  let G := i.lanes x
  let l := i.lead G (G.headD 0)
  let adr := i.operand s x.a true l
  let f : Form := { kind := .knot, write := decide (op < 2), read := decide (2 ≤ op), op := BitVec.ofNat 4 op }
  let w := fun (va : DWord) (data data2 : List Byte) =>
    ({ lane := l, va := va, width := 64, data := data, data2 := data2, lab := adr.lab,
       wlab := lmax wl (i.label [adr]) } : Want)
  match i.g.wait with
  | some (.knot va r n) =>
    s.pursue i f { kind := .knot, lanes := [s.laneAcc i f (w va (leBytes 2 r.toNat) (0 :: leBytes 8 n))] }
      (fun s1 j ls => s1.knotFin j o x op ls)
  | _ => s.access i f (decide (op < 2)) [w (i.gAddr s x l) data labs] (fun s1 j ls => s1.knotFin j o x op ls)

/-- knot.init (R343). -/
def execKnotInit (x : Args) (s : State) : Outcome State Fault Refusal :=
  issued s fun i => s.once i x fun G =>
    let b := i.first s G x.b true
    if badConfig b.val then s.trap i G cIllegalOp s.anyArg .here
    else s.knotOp i .knotInit x 0 (leBytes 8 b.val.toNat) [] (i.label [b])

/-- knot.put (R344): element k is operand b as lane k reads it, an inactive lane giving zero. -/
def execKnotPut (x : Args) (s : State) : Outcome State Fault Refusal :=
  issued s fun i => s.once i x fun G =>
    let c := i.first s G x.c false
    if bitsAt c.val 22 10 ≠ 0 then s.trap i G cReservedField s.anyArg .here
    else
      let m := (List.range i.launch.perYarn).map (fun k => i.laneFrom 0 k)
      if i.mustWait x.b false G m then s
      else
        let vs := m.map (i.across s x.b false)
        s.knotOp i .knotPut x 1 (leBytes 4 c.val.toNat ++ vs.flatMap (fun v => leBytes 4 v.val.toNat))
          (i.bank.floor.setWidth 8 :: vs.map (fun v => v.lab.setWidth 8)) (i.label (c :: vs))

/-- knot.take (R345). -/
def execKnotTake (x : Args) (s : State) : Outcome State Fault Refusal :=
  issued s fun i => s.once i x fun G =>
    let b := (i.first s G x.b false).val
    if i.g.wait = none ∧ bitsAt b 16 16 ≠ 0 then s.trap i G cReservedField s.anyArg .here
    else s.knotOp i .knotTake x 2 (leBytes 2 b.toNat) [] i.bank.floor

/-- knot.query (R346). -/
def execKnotQuery (x : Args) (s : State) : Outcome State Fault Refusal :=
  issued s fun i => s.once i x fun G =>
    s.knotOp i .knotQuery x 3 (leBytes 4 (i.first s G x.b false).val.toNat) [] i.bank.floor

end Sys2Proof.Machine
end

