-- ==== Sys2Proof/Machine/System.lean ====
section
/-! DEFINITION. The system instructions: major opcode 0x7E (R351 to R354). -/

namespace Sys2Proof.Machine

open Host (Outcome)

/-! ### Control and status registers (R352) -/

/-- GRANT (R352). -/
def Launch.grantWord (l : Launch) : Word :=
  match l.granted with
  | some g => BitVec.ofNat 32 (pack [(0, 1), (1, g)])
  | none => 0

/-- A trap register, by its number from 0x010 on (R113). -/
def Bank.trapReg (b : Bank) (n : Nat) : Word :=
  match n with
  | 0 => b.xcause
  | 1 => b.xindex
  | 2 => b.xpc.setWidth 32
  | 3 => b.xpc.extractLsb' 32 32
  | 4 => b.xarg.setWidth 32
  | 5 => b.xarg.extractLsb' 32 32
  | 6 => b.xmask.setWidth 32
  | _ => b.xmask.extractLsb' 32 32

/-- A trap register written: XINDEX keeps bits [3:0] and XPC bits [56:0]; the others ignore the write (R113). -/
def Bank.setTrapReg (b : Bank) (n : Nat) (w : Word) : Bank :=
  match n with
  | 1 => { b with xindex := w &&& 0xF }
  | 2 => { b with xpc := b.xpc.extractLsb' 32 32 ++ w }
  | 3 => { b with xpc := (w &&& 0x01FFFFFF) ++ b.xpc.setWidth 32 }
  | _ => b

/-- Whether a number names a register that only handler mode reaches. -/
def csrHandler (n : Nat) : Bool := decide (n = 1 ∨ 0x10 ≤ n ∧ n ≤ 0x17)

/-- Whether a number names a register. -/
def csrKnown (n : Nat) : Bool := decide (n ≤ 3) || csrHandler n

/-- What a register reads (R352). -/
def Issuer.csr (i : Issuer) (n : Nat) : Word :=
  match n with
  | 0 => i.bank.status
  | 1 => i.bank.ssw
  | 2 => i.launch.lblcnt
  | 3 => i.launch.grantWord
  | k => i.bank.trapReg (k - 0x10)

/-- A bank after a register write; LBLCNT and GRANT ignore it. -/
def Bank.setCsr (b : Bank) (n : Nat) (w : Word) : Bank :=
  match n with
  | 0 => { b with status := statusWrite b.status w }
  | 1 => { b with ssw := w }
  | 2 | 3 => b
  | k => b.setTrapReg (k - 0x10) w

/-- The checks both instructions make: an unknown number traps ILLEGAL_OP, a handler register outside handler mode PRIV. -/
def State.csrCheck (s : State) (i : Issuer) (G : List Nat) (n : Nat) (t : State) : State :=
  if !csrKnown n then s.trap i G cIllegalOp s.anyArg .here
  else if csrHandler n && !i.bank.handler then s.trap i G cPriv s.anyArg .here
  else t

/-- csrr (R352): the register with the label floor. -/
def execCsrr (x : Args) (s : State) : Outcome State Fault Refusal :=
  issued s fun i => s.once i x fun G =>
    let n := (i.first s G x.a false).val.toNat
    s.csrCheck i G n
      (s.compute i .csrr x (G.map (fun l => { lane := l, val := (i.csr n).setWidth 64, lab := i.bank.floor })))

/-- csrw (R352). -/
def execCsrw (x : Args) (s : State) : Outcome State Fault Refusal :=
  issued s fun i => s.once i x fun G =>
    let n := (i.first s G x.a false).val.toNat
    let w := (i.first s G x.b false).val.setWidth 32
    s.csrCheck i G n
      (s.done i ((i.killIn .csrw x i.yarn G).setBank i.g.fray (i.bank.setCsr n w)))

/-- lblset (R353): the floor never falls. -/
def execLblset (x : Args) (s : State) : Outcome State Fault Refusal :=
  issued s fun i => s.once i x fun G =>
    let a := (i.first s G x.a false).val.toNat
    if 3 < a then s.trap i G cIllegalOp s.anyArg .here
    else if i.ceil < a then s.trap i G cPriv s.anyArg .here
    else s.done i (i.yarn.setBank i.g.fray { i.bank with floor := lmax i.bank.floor (BitVec.ofNat 2 a) })

/-- With bytes charged to the grant a launch holds and to LBLCNT (R354). -/
def State.lower (s : State) (l fn slot n : Nat) : State :=
  let f := s.func fn
  (s.setFunc fn { f with grants := Store.modify slot (fun g => { g with used := g.used + n }) f.grants }).modLaunch l
    (fun L => { L with lblcnt := L.lblcnt + BitVec.ofNat 32 n })

/-- lbldn (R354). -/
def execLbldn (x : Args) (s : State) : Outcome State Fault Refusal :=
  issued s fun i => s.once i x fun G =>
    match i.launch.granted with
    | none => s.trap i G cPriv s.anyArg .here
    | some slot =>
      let a := fun l => i.operand s x.a false l
      let n := 4 * (G.filter (fun l => decide ((a l).lab = 3))).length
      let room := match Store.find slot (s.func i.launch.fn).grants with
        | some g => decide (g.used + n ≤ g.budget)
        | none => decide (n = 0)
      if !room then s.trap i G cPriv s.anyArg .here
      else
        let rs : List Res := G.map (fun l =>
          { lane := l, val := (a l).val, lab := if (a l).lab = 3 then 2 else lmax (a l).lab i.bank.floor })
        let fs := overCeil i.ceil x.dst s.anyArg rs
        let good := rs.filter (fun r => !fs.any (fun f => decide (f.lane = r.lane)))
        s.finish i G fs (fun s1 => (s1.lower i.strand.launch i.launch.fn slot n, i.computed .lbldn x false good))

end Sys2Proof.Machine
end

