-- ==== Sys2Proof/Machine/Clause.lean ====
section
/-! DEFINITION. The start of a clause: reading and checking its words (R23 to R31, R374), the rejoin wait and the merging of
frays (R101 to R103, R110), flags and the clause guard. -/

namespace Sys2Proof.Machine

open Host (Outcome)

/-! ### Reading a clause (R374) -/

/-- One word of code, read as the fetching yarn's load. -/
def State.fetchWord (s : State) (i : Issuer) (a : Nat) : Fetch Word :=
  s.codeWord (.fetch i.y i.g.id) i.launch.fn i.ceil i.yarn.elig a

/-- n words of code, in address order. -/
def State.fetchWords (s : State) (i : Issuer) : Nat → Nat → Fetch (List Word)
  | 0, _ => .ok []
  | n + 1, a => (s.fetchWord i a).bind fun w => (s.fetchWords i n (a + 4)).bind fun ws => .ok (w :: ws)

/-- The words of n instructions from an address on, and where they end (R23, R33). -/
def State.fetchCode (s : State) (i : Issuer) : Nat → Nat → Fetch (List (List Word) × Nat)
  | 0, a => .ok ([], a)
  | n + 1, a =>
    (s.fetchWord i a).bind fun w =>
      (s.fetchWords i (wordCount w - 1) (a + 4)).bind fun ws =>
        (s.fetchCode i n (a + 4 * wordCount w)).bind fun r => .ok ((w :: ws) :: r.1, r.2)

/-- A clause as read, with its padding word; none where no header stands there, nothing after it being read (R31). -/
def State.fetchClause (s : State) (i : Issuer) : Fetch (Option (Clause × Word)) :=
  let a := i.g.pc.toNat
  (s.fetchWords i 2 a).bind fun h =>
    let w0 := h.headD 0
    if !headerSigned w0 then .ok none
    else
      (s.fetchCode i (headerCount w0) (a + 8)).bind fun r =>
        let c : Clause := { w0 := w0, w1 := h.getD 1 0, code := r.1, next := BitVec.ofNat 57 ((r.2 + 7) / 8 * 8) }
        if r.2 % 8 = 0 then .ok (some (c, 0)) else (s.fetchWord i r.2).bind fun w => .ok (some (c, w))

/-! ### Rejoin (R103, R110) -/

/-- A fray ends: its fibres become ordinary fibres of the yarn, its entry is freed, sticky bits and flags are ORed, and
what is pending in it stands behind the yarn's flags; its scalars, those still to arrive too, are discarded (R55, R110).
DESIGN CHOICE (log 14): the label floor that holds for its fibres then is the yarn's. -/
def Yarn.endFray (y : Yarn) (e : Nat) : Yarn :=
  match Store.find e y.frays with
  | none => y
  | some f =>
    { y with
      bank := { y.bank.raise f.bank.status with flags := y.bank.flags ||| f.bank.flags }
      frays := Store.drop e y.frays
      groups := y.groups.map (fun g => if g.fray = some e then { g with fray := none } else g)
      pend := y.pend.map (fun p => if p.fray = some e then { p with fray := none, swrites := [] } else p) }

/-- The running frays with a group that stands at a clause header. -/
def Yarn.standing (y : Yarn) (pc : BitVec 57) : List Nat :=
  y.groups.filterMap (fun h =>
    match h.fray with
    | some e =>
      if h.pc = pc ∧ h.phase = .header ∧ (Store.find e y.frays).any (fun f => decide (f.state = .running)) then some e
      else none
    | none => none)

/-- A group of the yarn takes in every other that stands at its header (R101): their lanes join it, with the earliest
arrival. -/
def Yarn.gather (y : Yarn) (g : Nat) : Yarn :=
  match y.group g with
  | none => y
  | some G =>
    let joins := fun (h : Group) => decide (h.fray = G.fray) && decide (h.pc = G.pc) && decide (h.id ≠ g)
      && decide (y.inHandler h = y.inHandler G)
      && (decide (h.phase = .header) || decide (h.phase = .rejoin) || decide (h.phase = .flags))
    let hs := y.groups.filter joins
    let first := hs.foldl (fun (k : Group) h => if h.sooner k then h else k) G
    let G' := { G with lanes := hs.foldl (fun m h => m ||| h.lanes) G.lanes, arrival := first.arrival, rank := first.rank }
    { y with groups := y.groups.filterMap (fun h => if h.id = g then some G' else if joins h then none else some h) }

/-- At a rejoin clause: the frays that start it, or stand there, end, and the groups there are one (R101, R103, R110). -/
def Yarn.rejoinAt (y : Yarn) (g : Group) : Yarn :=
  let es := (match g.fray with | some e => [e] | none => []) ++ y.standing g.pc
  (es.foldl Yarn.endFray y).gather g.id

/-! ### The start of a clause (R27) -/

/-- A group past step 2: it waits at step 3, or takes steps 4 and 5 and issues (R26, R27). -/
def Yarn.pastRejoin (y : Yarn) (g : Group) : Yarn :=
  if y.flagsHeld g then y.setGroup { g with phase := .flags }
  else
    let b := y.bankOf g.fray
    let bit := fun (f : Option Nat) => match f with | some n => 1#12 <<< n | none => 0
    let fl := b.flags ||| bit (headerX g.clause.w0) ||| bit (headerY g.clause.w0)
    let m := maskOf ((lanesOf g.lanes).filter (fun l => (y.lane l).guarded (headerGuard g.clause.w1)))
    (y.setBank g.fray { b with flags := fl }).setGroup { g with phase := .issue, idx := 0, gmask := m, wait := none }

/-- A group back from a handler at instruction n: it re-reads the clause guard and sets the valid flags, with no wait
(R116). -/
def Yarn.resumeAt (y : Yarn) (g : Group) (n : Nat) : Yarn :=
  let b := y.bankOf g.fray
  let bit := fun (f : Option Nat) => match f with | some k => 1#12 <<< k | none => 0
  let fl := b.flags ||| bit (headerX g.clause.w0) ||| bit (headerY g.clause.w0)
  let m := maskOf ((lanesOf g.lanes).filter (fun l => (y.lane l).guarded (headerGuard g.clause.w1)))
  (y.setBank g.fray { b with flags := fl }).setGroup { g with phase := .issue, idx := n, gmask := m, wait := none }

/-- A clause's words cannot be read: every fibre of the group leaves as a fray of index 8 (R374). -/
def State.clauseFault (s : State) (i : Issuer) (cause : Byte) (addr : DWord) : State :=
  let ls := lanesOf i.g.lanes
  if i.bank.handler then s.terminate i.strand.launch cause
  else
    match s.freeEntries i.strand.core, s.splitWaits i 8 [cause] with
    | [], _ => s.trap i ls cFrayFull s.anyArg .clause
    | _, some s' => s'
    | _, none => s.splitOff i 8 (ls.map (fun l => ⟨l, cause, addr⟩)) i.yarn id

/-- A group starts its clause (R27, R30, R31). -/
def State.startClause (s : State) (i : Issuer) : State :=
  let who := Who.fetch i.y i.g.id
  match s.fetchClause i with
  | .wait s1 => s1
  | .fault c a => s.clauseFault i c a
  | .ok none => s.trap i (lanesOf i.g.lanes) cIllegalOp 8 .clause
  | .ok (some (c, pad)) =>
    let s1 := s.dropBufs who
    match clauseCheck c.w0 c.w1 c.code pad with
    | some (n, r) =>
      s.trap i (lanesOf i.g.lanes) (if r = .reservedField then cReservedField else cIllegalOp) (BitVec.ofNat 64 n) .clause
    | none =>
      let g : Group := { i.g with clause := c }
      match i.g.phase with
      | .resume n => s1.settleYarn i.y (i.yarn.resumeAt g n.toNat)
      | _ =>
        let y0 := i.yarn.setGroup g
        if headerRejoin c.w0 then
          let y1 := y0.rejoinAt g
          let y2 := (y1.setGroup { (y1.group g.id).getD g with phase := .rejoin }).releaseRejoins
          let g2 := (y2.group g.id).getD g
          s1.settleYarn i.y (if g2.phase = .rejoin then y2 else y2.pastRejoin g2)
        else
          let y1 := y0.gather g.id
          s1.settleYarn i.y (y1.pastRejoin ((y1.group g.id).getD g))

/-- Whether a group is one whose turn it is: no ready group of its yarn, or of its fray, reached its header earlier, ties
going to the lower PC, and none is inside a clause and free to issue (R102). -/
def Yarn.nextUp (y : Yarn) (g : Group) : Bool :=
  let peers := y.groups.filter (fun h => decide (h.fray = g.fray) && decide (h.id ≠ g.id))
  !(peers.any (fun h =>
    if h.phase = .issue then y.mayMove h && !h.stuck
    else y.ready h && (h.sooner g || (!g.sooner h && decide (h.pc.toNat < g.pc.toNat)))))

/-- The group an event names, as an issuer. -/
def State.issuerOf (s : State) (y g : Nat) : Option Issuer := State.issuer { s with cur := some (y, g) }

/-- With the quadrant of a yarn inside the clause of one of its groups (R102). -/
def State.holdQuad (s : State) (y g : Nat) : State :=
  match Store.find y s.yarns with
  | some v =>
    match v.slot with
    | some n =>
      let k := (s.strandAt v.strand).core
      s.setCore k { s.coreAt k with quads := Store.put (n / 12) (y, g) (s.coreAt k).quads }
    | none => s
  | none => s

/-- With the quadrant inside the clause a group has just started, if it has; what it yielded is over (R98). -/
def State.entersClause (s : State) (y g : Nat) : State :=
  match (Store.find y s.yarns).bind (fun v => (v.group g).map (fun G => (v, G))) with
  | some (v, G) =>
    if G.phase = .issue then (s.holdQuad y g).setYarn y (v.setTurns G.fray { v.turnsOf G.fray with yielded := none }) else s
  | none => s

/-- CLAUSE_START (R27, R102): a group at a header starts its clause, or one past step 3 goes on. -/
def execClauseStart (y g : Nat) (s : State) : Outcome State Fault Refusal :=
  match s.issuerOf y g with
  | none => .refused .notEnabled
  | some i =>
    let can := i.yarn.mayMove i.g && i.yarn.nextUp i.g && i.strand.place.isSome
    match i.g.phase with
    | .header | .resume _ => event (can && !s.asking (.fetch y g)) ((s.startClause i).entersClause y g)
    | .flags => event (can && !i.yarn.flagsHeld i.g) ((s.settleYarn y (i.yarn.pastRejoin i.g)).entersClause y g)
    | _ => .refused .notEnabled

/-- REJOIN_WAIT_END (R103): the group, with those that came to stand there, goes on to step 3, and with it every other whose
wait has ended. -/
def execRejoinWaitEnd (y g : Nat) (s : State) : Outcome State Fault Refusal :=
  match s.issuerOf y g with
  | none => .refused .notEnabled
  | some i =>
    let y1 := i.yarn.rejoinAt i.g
    event (decide (i.g.phase = .rejoin) && i.yarn.mayMove i.g && i.strand.place.isSome
        && !y1.rejoinHeld ((y1.group g).getD i.g))
      (s.settleYarn y y1.releaseRejoins)

end Sys2Proof.Machine
end

