-- ==== Sys2Proof/Machine/Launch.lean ====
section
/-! DEFINITION. Queues and packets (R155 to R164), the collective binding (R327 to R329), and grants at a launch's
start (R355). -/

namespace Sys2Proof.Machine

open Host (Outcome)

/-! ### Queues (R155, R156) -/

def State.queue (s : State) (fn q : Nat) : Queue := Store.get {} q (s.func fn).queues

/-- With a queue's state changed. -/
def State.setQueue (s : State) (fn q : Nat) (v : Queue) : State :=
  let f := s.func fn
  s.setFunc fn { f with queues := Store.set {} q v f.queues }

/-- Slots of its ring. -/
def Queue.slots (v : Queue) : Nat := 2 ^ bitsAt v.ctl 0 4

/-- Packets written and not taken. -/
def Queue.waiting (v : Queue) : Nat := (v.write - v.read).toNat

/-- Whether the queue is processed: enable 1, error 0. -/
def Queue.on (v : Queue) : Bool := v.ctl.getLsbD 4 && !v.ctl.getLsbD 5

/-- The queue stopped on an error. -/
def Queue.fail (v : Queue) : Queue := { v with ctl := v.ctl ||| 0x20 }

/-- QNOTIFY_WRITE (R156, R371): an index past the ring sets error and is discarded. -/
def execQnotifyWrite (fn q : Nat) (w : Word) (s : State) : Outcome State Fault Refusal :=
  let v : Queue := { s.queue fn q with write := w }
  .next (if !s.booted ∨ 8 ≤ fn ∨ 64 ≤ q then s
    else if v.slots < v.waiting then s.setQueue fn q (s.queue fn q).fail else s.setQueue fn q v)

/-- QCTL_WRITE (R155, R156): writing 1 to error clears it. A queue that runs with an index past its ring stops. -/
def execQctlWrite (fn q : Nat) (w : Word) (s : State) : Outcome State Fault Refusal :=
  let v := s.queue fn q
  let v1 : Queue := { v with ctl := (w &&& 0xDF) ||| (v.ctl &&& 0x20 &&& ~~~w) }
  .next (if 8 ≤ fn ∨ 64 ≤ q then s
    else s.setQueue fn q (if v1.on && decide (v1.slots < v1.waiting) then v1.fail else v1))

/-! ### The next packet of a queue (R156, R157) -/

/-- The reader of a queue's packets. -/
def queueWho (fn q : Nat) : Who := .queue fn q

/-- The next packet of a queue as the command processor reads it, when it may start: the queue runs, no barrier holds it
and every coil of the launch before it has been placed. -/
def State.packetRead (s : State) (fn q : Nat) : Option Got :=
  let v := s.queue fn q
  let placed := v.open_.all (fun c => match c.2 with
    | some l => (match Store.find l s.launches with | some L => decide (L.coils ≤ L.nextCoil) | none => true)
    | none => true)
  if !v.on || decide (v.waiting = 0) || v.held.isSome || !placed || s.asking (queueWho fn q) then none
  else
    let va := v.base.toNat / 64 * 64 + 64 * (v.read.toNat % v.slots)
    some (s.devRead (queueWho fn q) fn 3 {} (BitVec.ofNat 64 va) 64)

/-- A packet's type. -/
def packetType (p : BitVec 512) : Nat := recAt p 0 1

/-- A packet's priority. -/
def packetPriority (p : BitVec 512) : Nat := bitsAt p 10 2

/-- The packet a queue could start now (R157, R163): an acquire fence of a launch and a release fence of a signal wait for
every earlier packet of the queue to complete. -/
def State.offer (s : State) (fn q : Nat) : Option (BitVec 512) :=
  match s.packetRead fn q with
  | some (.ok bs _) =>
    let p := BitVec.ofNat 512 (leNat bs)
    let fenced := (decide (packetType p = 1) && p.getLsbD 8) || (decide (packetType p = 3) && p.getLsbD 9)
    if fenced && !(s.queue fn q).open_.isEmpty then none else some p
  | _ => none

/-- How far round from the queue last taken a queue stands, in queue number across functions (R157). -/
def State.turnOf (s : State) (fn q : Nat) : Nat := (q * 8 + fn + 511 - s.lastTaken) % 512

/-- Whether a queue's packet comes next: the highest priority among the packets that could start, then round-robin. -/
def State.first (s : State) (fn q : Nat) (p : BitVec 512) : Bool :=
  !(s.funcs.any (fun f => f.2.queues.any (fun v =>
    decide ((f.1, v.1) ≠ (fn, q)) && (match s.offer f.1 v.1 with
      | some r => decide (packetPriority p < packetPriority r)
          || (decide (packetPriority r = packetPriority p) && decide (s.turnOf f.1 v.1 < s.turnOf fn q))
      | none => false))))

/-- A packet taken: QREAD passes it, and what was read for it is forgotten. -/
def State.taken (s : State) (fn q : Nat) (launch : Option Nat) (keep : Bool) : State :=
  let v := s.queue fn q
  let s1 := (s.dropBufs (queueWho fn q)).setQueue fn q
    { v with read := v.read + 1, open_ := if keep then v.open_ ++ [(v.read.toNat, launch)] else v.open_ }
  { s1 with lastTaken := q * 8 + fn }

/-- A packet's place leaves the list of those not complete. -/
def State.closed (s : State) (fn q n : Nat) : State :=
  let v := s.queue fn q
  s.setQueue fn q { v with open_ := v.open_.filter (fun c => !decide (c.1 = n)) }

/-- A faulting slot read stops the queue and is counted (R156). -/
def State.slotFault (s : State) (fn q : Nat) : State :=
  let s1 := (s.dropBufs (queueWho fn q)).setQueue fn q (s.queue fn q).fail
  let f := s1.func fn
  s1.setFunc fn { f with tele := { f.tele with slotFaults := f.tele.slotFaults + 1 } }

/-! ### Completion words (R164) -/

/-- A completion word. -/
def completion (status cause killed discarded : Nat) : Nat :=
  pack [(0, status), (8, cause), (16, min discarded 65535), (32, min killed 65535), (63, 1)]

/-- The command processor's write of a 64-bit value with label 0 to a signal address; a fault sets the function's status
bit, and an address of 0 takes no write (R164). -/
def State.putSignal (s : State) (who : Who) (fn ceil sig v : Nat) : Put :=
  let bad := fun (s : State) =>
    let f := s.func fn
    s.setFunc fn { f with fstatus := f.fstatus ||| 1 }
  if sig = 0 then .ok s s.peer
  else if sig % 8 ≠ 0 then .ok (bad s) s.peer
  else
    let j : Job := { who := who, x := 0, l := s.nextLaunch, el := { trailing := false }
                     launch := { fn := fn, queue := 0, packet := BitVec.ofNat 512 (ceil * 2 ^ 24) } }
    match s.devWrite j sig (leBytes 8 v) 0 false with
    | .fault _ _ => .ok (bad s) s.peer
    | p => p

/-- A packet refused with a reason: completed at once (R160, R164). -/
def State.refusePacket (s : State) (fn q : Nat) (p : BitVec 512) (reason : Nat) : State :=
  match s.putSignal (queueWho fn q) fn 3 (recAt p 56 8) (completion 2 reason 0 0) with
  | .ok s1 _ => s1.taken fn q none false
  | .wait s1 => s1
  | .fault _ _ => s

/-! ### The checks of a launch packet (R160, R164, R348) -/

/-- The highest label ceiling of a security mode (R348). -/
def modeCeil (m : BitVec 2) : Nat := if m = 0 then 1 else if m = 1 then 2 else 3

/-- The reasons the packet itself gives to refuse it. -/
def Launch.reasons (l : Launch) (cap : Nat) (mode : BitVec 2) : List Nat :=
  let Y := l.yarnCount
  let F := l.fibres
  let roleBad := [0, 1, 2, 3].any (fun k => decide (l.stageYarns k ≠ 0) && decide (bitsAt l.packet (256 + 2 * k) 2 = 3))
  ([(decide (bitsAt l.packet 21 3 ≠ 0) || l.packet.getLsbD 255, 2),
    (decide (3 < l.ceil), 3),
    (decide (modeCeil mode < l.ceil), 0x0B),
    (decide (Y = 0 ∨ 16 < Y ∨ F = 0 ∨ 1024 < F ∨ F ≤ l.perYarn * (Y - 1) ∨ l.perYarn * Y < F) || roleBad, 4),
    (decide (l.gridX = 0 ∨ l.gridY = 0 ∨ l.gridZ = 0 ∨ 16 < l.coilSize), 5),
    (decide (l.alloc < 256 * F ∨ 524288 < l.alloc), 6),
    (decide (cap < l.priority), 7),
    (decide (l.entry % 8 ≠ 0 ∨ 2 ^ 57 ≤ l.entry), 8),
    (decide (l.argAddr % 64 ≠ 0 ∨ l.signal % 8 ≠ 0 ∨ l.handler % 8 ≠ 0), 9)].filter (fun r => r.1)).map Prod.snd

/-- One of several reasons, freely chosen (log entry 21). -/
def State.oneOf (s : State) (rs : List Nat) : Option Nat :=
  match rs with
  | [] => none
  | r :: t => (r :: t)[Config.freeChoice s.tick % (t.length + 1)]?

/-! ### Reads of the command processor -/

/-- Bytes read piece by piece. -/
def State.readPieces (s : State) (who : Who) (fn ceil : Nat) (el : Elig) (va : Nat) : List (Nat × Nat) → Fetch (List Byte)
  | [] => .ok []
  | p :: t =>
    match s.devRead who fn ceil el (BitVec.ofNat 64 (va + p.1)) p.2 with
    | .ok bs _ => (s.readPieces who fn ceil el va t).bind fun r => .ok (bs ++ r)
    | .fault c a => .fault c a
    | .wait s1 => .wait s1

/-- n bytes, cut where a page may end. -/
def pageCuts (va : Nat) : Nat → Nat → Nat → List (Nat × Nat)
  | 0, _, _ => []
  | k + 1, off, n =>
    let m := min n (4096 - (va + off) % 4096)
    if n = 0 then [] else (off, m) :: pageCuts va k (off + m) (n - m)

def State.readRange (s : State) (who : Who) (fn ceil : Nat) (el : Elig) (va n : Nat) : Fetch (List Byte) :=
  s.readPieces who fn ceil el va (pageCuts va (n / 4096 + 2) 0 n)

/-! ### The collective binding (R327 to R329) -/

def dCombine (d : BitVec 512) : Nat := bitsAt d 0 2
def dFormat (d : BitVec 512) : Nat := recAt d 1 1
def dN (d : BitVec 512) : Nat := recAt d 2 1
def dE (d : BitVec 512) : Nat := recAt d 4 4
def dStride (d : BitVec 512) : Nat := recAt d 8 4
def dC (d : BitVec 512) : Nat := recAt d 12 4
def dMembers (d : BitVec 512) : Nat := recAt d 16 8
def bSource (b : BitVec 512) : Nat := recAt b 8 8
def bResult (b : BitVec 512) : Nat := recAt b 16 8
def bKnot (b : BitVec 512) : Nat := recAt b 24 8
def bRound (b : BitVec 512) : Nat := recAt b 32 2
def bRule (b : BitVec 512) : Nat := bitsAt b 272 2

/-- Bits of an element of a descriptor's format, and whether it is narrow (R328). -/
def dWidth (d : BitVec 512) : Nat :=
  match dFormat d with
  | 0 | 0xD | 0xE => 32
  | 1 | 2 => 16
  | 5 | 6 | 9 | 0xA => 8
  | 7 | 8 => 6
  | _ => 4

def dNarrow (d : BitVec 512) : Bool := decide (5 ≤ dFormat d ∧ dFormat d ≤ 0xC)

/-- Bytes of a chunk: elements, and a scale for each 32 of a narrow format (R328). -/
def dChunk (d : BitVec 512) : Nat := dE d * dWidth d / 8 + (if dNarrow d then dE d / 32 else 0)

/-- A binding record breaks its layout. -/
def bindBad (b : BitVec 512) : Bool :=
  [decide (recAt b 35 29 ≠ 0), decide (bitsAt b 274 6 ≠ 0), decide (1 < bRule b), decide (recAt b 0 8 % 64 ≠ 0),
   decide (bKnot b = 0 ∧ bRound b ≠ 0), decide (bKnot b % 64 ≠ 0)].any id

/-- The format codes of a collective (R328). -/
def collFormats : List Nat := [0, 1, 2, 5, 6, 7, 8, 9, 0xA, 0xB, 0xC, 0xD, 0xE]

/-- A knot descriptor that breaks its layout, or that serves no collective of n members (R329, R338). -/
def knotBad (k : BitVec 512) (n : Nat) : Bool :=
  [badConfig (k.setWidth 64), !collFormats.contains (kFormat k), decide (bitsAt k 220 4 ≠ 0), decide (bitsAt k 240 16 ≠ 0),
   decide (bitsAt k 320 192 ≠ 0), !kColl k, decide (kN k ≠ n)].any id

/-- A descriptor breaks its layout, or its chunks are not the launch's strands. -/
def descBad (d : BitVec 512) (strands : Nat) : Bool :=
  [decide (dCombine d = 3), decide (bitsAt d 2 6 ≠ 0),
   !collFormats.contains (dFormat d),
   decide (dN d = 0 ∨ 64 < dN d), decide (recAt d 3 1 ≠ 0),
   decide (dE d % 32 ≠ 0 ∨ dE d < 32 ∨ 4194304 < dE d), decide (dStride d % 256 ≠ 0 ∨ dStride d < dChunk d),
   decide (dC d = 0 ∨ 2 ^ 24 < dC d), decide (recAt d 24 40 ≠ 0), decide (dC d ≠ strands)].any id

/-- The members of a table's bytes; none where a reserved bit is set. -/
def membersOf (bs : List Byte) (n : Nat) : Option (List Peer) :=
  let hs := (List.range n).map (fun j => halfAt bs (2 * j))
  if hs.any (fun h => decide (h.extractLsb' 12 4 ≠ 0)) then none else some (hs.map (fun h => h.extractLsb' 0 12))

/-- What reading a binding gives. -/
inductive Bound where
  | ok (c : Option Coll)
  | bad
  | wait (s : State)
  deriving DecidableEq, Repr

/-- A reading that a fault turns into a rejected binding. -/
def bound (r : Fetch (List Byte)) (f : List Byte → Bound) : Bound :=
  match r with
  | .ok bs => f bs
  | .fault _ _ => .bad
  | .wait s => .wait s

/-- R329: the record, the descriptor, the member table and the knot's descriptor, read and checked. -/
def State.binding (s : State) (who : Who) (l : Launch) : Bound :=
  if l.bindAddr = 0 then .ok none
  else if l.bindAddr % 64 ≠ 0 then .bad
  else
    let rd := fun (el : Elig) (va n : Nat) => s.readRange who l.fn l.ceil el va n
    bound (rd {} l.bindAddr 64) fun b0 =>
      let b := BitVec.ofNat 512 (leNat b0)
      if bindBad b then .bad
      else bound (rd {} (recAt b 0 8) 64) fun d0 =>
        let d := BitVec.ofNat 512 (leNat d0)
        if descBad d (l.coils * l.coilSize) then .bad
        else bound (rd {} (dMembers d) (2 * dN d)) fun m0 =>
          match membersOf m0 (dN d) with
          | none => .bad
          | some ms =>
            if (ms.filter (fun p => decide (p = s.peer))).length ≠ 1 then .bad
            else
              let c : Coll := { fn := l.fn, ceil := l.ceil, desc := d, bind := b, members := ms, me := ms.findIdx (fun p => decide (p = s.peer)) }
              if bKnot b = 0 then .ok (some c)
              else bound (rd { trailing := false } (bKnot b) 64) fun k0 =>
                let k := BitVec.ofNat 512 (leNat k0)
                match s.translate l.fn (BitVec.ofNat 64 (bKnot b)) with
                | .ok p => if knotBad k (dN d) then .bad else .ok (some { c with knot := some p.fab, kdesc := k })
                | .error _ => .bad

/-! ### Grants (R355) -/

/-- Whether every page of a range maps with its write bit clear. -/
def State.readOnly (s : State) (fn va n : Nat) : Bool :=
  (pageCuts va (n / 4096 + 2) 0 n).all (fun p => match s.translate fn (BitVec.ofNat 64 (va + p.1)) with
    | .ok g => !g.write
    | .error _ => false)

/-- The slot a launch holds, and the slots whose hash does not match. -/
def State.grantOf (s : State) (who : Who) (l : Launch) : List (Nat × Grant) → Fetch (Option Nat × List Nat)
  | [] => .ok (none, [])
  | (k, g) :: t =>
    if l.entry < g.base.toNat ∨ g.base.toNat + g.length ≤ l.entry ∨ !s.readOnly l.fn g.base.toNat g.length then
      s.grantOf who l t
    else
      match s.readRange who l.fn l.ceil {} g.base.toNat g.length with
      | .ok bs =>
        if Config.sha384 bs = g.hash then .ok (some k, [])
        else (s.grantOf who l t).bind fun r => .ok (r.1, k :: r.2)
      | .fault _ _ => s.grantOf who l t
      | .wait s1 => .wait s1

/-- Mismatched slots logged. -/
def State.logMismatch (s : State) (fn launch : Nat) : List Nat → State
  | [] => s
  | k :: t =>
    let h := match Store.find k (s.func fn).grants with | some g => g.hash.toNat | none => 0
    State.logMismatch (s.append 0x03 fn launch (pack [(0, k), (128, h)])) fn launch t

/-! ### Launch packets (R159 to R161) -/

/-- A launch taken up: it takes the next number, of 32 bits and no other launch's. -/
def State.takeUp (s : State) (fn q : Nat) (l : Launch) : State :=
  let n := s.nextLaunch
  { (s.taken fn q (some n) true) with
    launches := Store.put n l s.launches, nextLaunch := freeId (n :: Store.keys s.launches) (n + 1) }

/-- The round a binding contributes to. -/
def Coll.round (c : Coll) : BitVec 16 := BitVec.ofNat 16 (bRound c.bind)

/-- Whether two bindings are to one round of a knot. -/
def Coll.same (c d : Coll) : Bool := c.knot.isSome && decide (c.knot = d.knot) && decide (c.round = d.round)

/-- With a launch's binding; passes of its round that this member was asked to start become its own (R333). -/
def State.bindColl (s : State) (n : Nat) (c : Option Coll) : State :=
  match c with
  | some c =>
    match s.unbound.find? c.same with
    | some u => { s with colls := Store.put n { c with wanted := u.wanted, running := u.running } s.colls
                         unbound := s.unbound.filter (fun d => !c.same d) }
    | none => { s with colls := Store.put n c s.colls }
  | none => s

/-- A launch packet checked and taken up, or refused. -/
def State.takeLaunch (s : State) (fn q : Nat) (p : BitVec 512) : State :=
  let who := queueWho fn q
  let f := s.func fn
  let l : Launch := { fn := fn, queue := q, at_ := (s.queue fn q).read.toNat, packet := p, replayable := p.getLsbD 14 }
  match s.oneOf (l.reasons (bitsAt (s.queue fn q).ctl 6 2) f.secmode) with
  | some r => s.refusePacket fn q p r
  | none =>
    match s.target who fn l.ceil {} (BitVec.ofNat 64 l.entry) with
    | .wait s1 => s1
    | .bad => s.refusePacket fn q p 8
    | .fault c _ => s.takeUp fn q { l with ending := some { status := 1, cause := c }, nextCoil := l.coils }
    | .ok =>
      match s.binding who l with
      | .wait s1 => s1
      | .bad => s.refusePacket fn q p 0x0A
      | .ok c =>
        match s.grantOf who l f.grants with
        | .wait s1 => s1
        | .fault _ _ => s
        | .ok (g, mm) =>
          if s.logShort mm.length then s
          else ((s.takeUp fn q { l with granted := g }).bindColl s.nextLaunch c).logMismatch fn s.nextLaunch mm

/-- LAUNCH_PACKET (R156 to R161): also a packet of no known type, and a slot that cannot be read. -/
def execLaunchPacket (fn q : Nat) (s : State) : Outcome State Fault Refusal :=
  match s.packetRead fn q with
  | none => .refused .notEnabled
  | some (.wait s1) => .next s1
  | some (.fault _ _) => .next (s.slotFault fn q)
  | some (.ok bs _) =>
    let p := BitVec.ofNat 512 (leNat bs)
    if packetType p = 2 ∨ packetType p = 3 ∨ (s.offer fn q).isNone ∨ !s.first fn q p then .refused .notEnabled
    else if packetType p ≠ 1 then .next (s.refusePacket fn q p 1)
    else .next (s.takeLaunch fn q p)

/-! ### Barrier and signal packets (R163) -/

/-- The five addresses of a barrier-and packet. -/
def barrierAddrs (p : BitVec 512) : List Nat := (List.range 5).map (fun k => recAt p (8 + 8 * k) 8)

/-- The reasons to refuse a barrier-and or a signal packet (R163). DESIGN CHOICE (log 53): bytes 4 to 7, which the rule does not name,
are header fields that must be zero too. -/
def otherReasons (p : BitVec 512) (cap : Nat) : List Nat :=
  let barrier := decide (packetType p = 2)
  ([(decide (bitsAt p 12 20 ≠ 0 ∨ recAt p 4 4 ≠ 0)
      || (if barrier then decide (recAt p 48 8 ≠ 0) else decide (recAt p 16 40 ≠ 0)), 2),
    (decide (cap < packetPriority p), 7),
    (decide (recAt p 56 8 % 8 ≠ 0) || (barrier && (barrierAddrs p).any (fun a => decide (a % 8 ≠ 0))), 9)].filter
    (fun r => r.1)).map Prod.snd

/-- BARRIER_AND_PACKET (R163): the packet holds its queue. -/
def execBarrierAndPacket (fn q : Nat) (s : State) : Outcome State Fault Refusal :=
  match s.offer fn q with
  | none => .refused .notEnabled
  | some p =>
    if packetType p ≠ 2 ∨ !s.first fn q p then .refused .notEnabled
    else
      match s.oneOf (otherReasons p (bitsAt (s.queue fn q).ctl 6 2)) with
      | some r => .next (s.refusePacket fn q p r)
      | none =>
        let s1 := s.taken fn q none true
        .next (s1.setQueue fn q { s1.queue fn q with held := some p })

/-- What the words a barrier names say. -/
inductive Words where
  | set | unset
  | fault (cause : Byte)
  | wait (s : State)
  deriving DecidableEq, Repr

/-- Every named word read with an acquire at DOMAIN scope (R163). -/
def State.barrierWords (s : State) (fn q : Nat) : List Nat → Words
  | [] => .set
  | a :: t =>
    if a = 0 then s.barrierWords fn q t
    else
      match s.devRead (queueWho fn q) fn 3 { trailing := false } (BitVec.ofNat 64 a) 8 with
      | .ok bs _ => if (bs.getD 7 0).getLsbD 7 then s.barrierWords fn q t else .unset
      | .fault c _ => .fault c
      | .wait s1 => .wait s1

/-- A barrier complete: its word is written and its queue freed. -/
def State.barrierEnd (s : State) (fn q : Nat) (p : BitVec 512) (status cause : Nat) : State :=
  match s.putSignal (queueWho fn q) fn 3 (recAt p 56 8) (completion status cause 0 0) with
  | .ok s1 _ =>
    let v := s1.queue fn q
    (s1.dropBufs (queueWho fn q)).setQueue fn q { v with held := none, open_ := v.open_.filter (fun c => c.2.isSome) }
  | .wait s1 => s1
  | .fault _ _ => s

/-- BARRIER_AND_COMPLETE (R163). A word read outside and found clear is read anew. -/
def execBarrierAndComplete (fn q : Nat) (s : State) : Outcome State Fault Refusal :=
  let who := queueWho fn q
  match (s.queue fn q).held with
  | none => .refused .notEnabled
  | some p =>
    if s.asking who then .refused .notEnabled
    else
      match s.barrierWords fn q (barrierAddrs p) with
      | .wait s1 => .next s1
      | .fault c => .next (s.barrierEnd fn q p 1 c.toNat)
      | .set => .next (s.barrierEnd fn q p 0 0)
      | .unset => event (s.bufs.any (fun b => decide (b.who = who))) (s.dropBufs who)

/-- SIGNAL_PACKET (R163). -/
def execSignalPacket (fn q : Nat) (s : State) : Outcome State Fault Refusal :=
  match s.offer fn q with
  | none => .refused .notEnabled
  | some p =>
    if packetType p ≠ 3 ∨ !s.first fn q p then .refused .notEnabled
    else
      match s.oneOf (otherReasons p (bitsAt (s.queue fn q).ctl 6 2)) with
      | some r => .next (s.refusePacket fn q p r)
      | none =>
        .next (match s.putSignal (queueWho fn q) fn 3 (recAt p 56 8) (recAt p 8 8) with
          | .ok s1 _ => s1.taken fn q none false
          | .wait s1 => s1
          | .fault _ _ => s)

end Sys2Proof.Machine
end

