-- ==== Sys2Proof/Machine/Placer.lean ====
section
/-! DEFINITION. The placers: coils put onto cores, evicted and restored (R10, R120, R127, R165 to R171), the argument
block and spill queue header the command processor reads first (R128, R161), and the engines' steps, which a selected coil's stop
(R169, R217, R284, R294). -/

namespace Sys2Proof.Machine

open Host (Outcome)

/-! ### Room on a core (R165) -/

/-- What a strand takes of a core. -/
structure Need where
  size : Nat
  slots : Nat
  frags : Nat
  bins : Nat
  matrix : Bool
  deriving DecidableEq, Repr

/-- A strand's share of a core. -/
structure Share where
  core : Nat
  base : Nat
  need : Need
  deriving DecidableEq, Repr

/-- What a strand takes: its allocation, a slot for each yarn that has not retired, its fragment-table entries and its spawn
bins. -/
def State.needOf (s : State) (x : Nat) (t : Strand) : Need :=
  let l := s.launchOf t
  let ys := s.yarns.filter (fun c => decide (c.2.strand = x) && !c.2.retired)
  { size := l.alloc, slots := ys.length, frags := ys.foldl (fun n c => n + c.2.frays.length) 0
    bins := t.bins.length, matrix := l.matrix }

/-- The shares of the strands on a core, but for some. -/
def State.sharesOn (s : State) (ign : List Nat) (k : Nat) : List Share :=
  s.strands.filterMap (fun c =>
    match c.2.place with
    | some p => if c.2.core = k ∧ !ign.contains c.1 then some { core := k, base := p.base, need := s.needOf c.1 c.2 } else none
    | none => none)

/-- The shares of one list put in order of their base. -/
def insertShare (h : Share) : List Share → List Share
  | [] => [h]
  | g :: t => if h.base < g.base then h :: g :: t else g :: insertShare h t

/-- The lowest hole of a core's scratchpad that holds n bytes. -/
def lowestHole (n : Nat) : Nat → List Share → Option Nat
  | at_, [] => if at_ + n ≤ 524288 then some at_ else none
  | at_, h :: t => if at_ + n ≤ h.base then some at_ else lowestHole n (max at_ (h.base + h.need.size)) t

/-- Whether a core is in its die's map (R166). -/
def State.inMap (s : State) (k : Nat) : Bool := (Store.get 0 (k / 48) s.coreMap).getLsbD (k % 48)

/-- Where a core that holds some shares would put a strand, if it can take it: with the bins and fragment-table entries of a
restored strand it has no more of either than a core has (R104, R126). -/
def holeFor (hs : List Share) (n : Need) : Option Nat :=
  let slots := hs.foldl (fun m h => m + h.need.slots) 0
  let frags := hs.foldl (fun m h => m + h.need.frags) 0
  let bins := hs.foldl (fun m h => m + h.need.bins) 0
  if 16 ≤ hs.length ∨ 48 < slots + n.slots ∨ 32 < frags + n.frags ∨ 16 < bins + n.bins ∨ (n.matrix ∧ hs.any (fun h => h.need.matrix)) then none
  else lowestHole n.size 0 (hs.foldl (fun m h => insertShare h m) [])

/-- The first core of a list that takes a strand, with its place there. -/
def State.firstFit (s : State) (ign : List Nat) (extra : List Share) (n : Need) : List Nat → Option Share
  | [] => none
  | k :: t =>
    let hs := s.sharesOn ign k ++ extra.filter (fun h => decide (h.core = k))
    match (if s.inMap k then holeFor hs n else none) with
    | some b => some { core := k, base := b, need := n }
    | none => s.firstFit ign extra n t

/-- Cores for a coil's strands in ascending index, all or none: free cores first, then cores that hold strands, each in
ascending number; a strand with a core of its own goes there only (R165, R235). -/
def State.assign (s : State) (ign : List Nat) (die : Nat) : List (Need × Option Nat) → List Share → Option (List Share)
  | [], _ => some []
  | (n, own) :: t, extra =>
    let ks := match own with
      | some k => [k]
      | none =>
        let all := (List.range 48).map (coreKey die)
        let free := fun k => (s.sharesOn ign k).isEmpty && !extra.any (fun h => decide (h.core = k))
        all.filter free ++ all.filter (fun k => !free k)
    match s.firstFit ign extra n ks with
    | none => none
    | some h => (s.assign ign die t (extra ++ [h])).map (fun r => h :: r)

/-- The die a coil is sent to (R165). -/
def State.dieFor (s : State) : Nat :=
  let cores := fun d => ((List.range 48).map (coreKey d)).filter s.inMap
  let free := fun d => ((cores d).filter (fun k => (s.sharesOn [] k).isEmpty)).length
  let best := fun (f : Nat → Nat) => (List.range 4).foldl (fun b d => if f b < f d then d else b) 0
  if free (best free) ≠ 0 then best free else best (fun d => (cores d).length)

/-! ### An unstarted coil -/

/-- Where the next coil of a launch goes, with some strands left out of account; in a replay to the cores the coil held
before, where they are in the core map. -/
def State.planFor (s : State) (ign : List Nat) (l : Launch) : Option (List Share) :=
  let n : Need := { size := l.alloc, slots := l.yarnCount, frags := 0, bins := 0, matrix := l.matrix }
  let old := fun i => (l.cores.find? (fun c => decide (c.1 = l.nextCoil ∧ c.2.1 = i))).map (fun c => c.2.2)
  let olds := (List.range l.coilSize).map old
  let keep := olds.all (fun k => match k with | some c => s.inMap c | none => false)
  s.assign ign s.dieFor (olds.map (fun k => (n, if keep then k else none))) []

/-- Whether a launch has a coil to place. -/
def Launch.unplaced (l : Launch) : Bool := l.ending.isNone && l.argsRead && decide (l.nextCoil < l.coils)

/-- The placement of a launch's next coil, if nothing goes before it: no evicted coil of equal or higher priority, and no
unstarted coil of higher priority that fits (R157, R171). -/
def State.nextPlan (s : State) (l : Launch) : Option (List Share) :=
  let behind := s.launches.any (fun c =>
    (!c.2.evicted.isEmpty && decide (l.priority ≤ c.2.priority))
      || (c.2.unplaced && decide (l.priority < c.2.priority) && (s.planFor [] c.2).isSome))
  if !l.unplaced || behind then none else s.planFor [] l

/-- The fibres of yarn n of a strand: each one lane, or a pair in a protected launch (R57, R120, R229). -/
def Launch.lanes (l : Launch) (n : Nat) : Store Lane :=
  let fibre := fun (i : Nat) => ({ active := true, linear := some i, wbase := BitVec.ofNat 19 (256 * i) } : Lane)
  let is := (List.range l.perYarn).filter (fun k => decide (l.perYarn * n + k < l.fibres))
  if l.protd then is.flatMap (fun k => [(2 * k, fibre (l.perYarn * n + k)), (2 * k + 1, fibre (l.perYarn * n + k))])
  else is.map (fun k => (k, fibre (l.perYarn * n + k)))

/-- The stage of yarn n. -/
def Launch.stageOf (l : Launch) (n : Nat) : Nat :=
  ((List.range 4).find? (fun k => decide (n < l.firstYarn k + l.stageYarns k))).getD 0

/-- A launched yarn as it starts (R10, R120), placed at a cycle. -/
def Launch.yarn (l : Launch) (x n slot now since : Nat) : Yarn :=
  let lanes := l.lanes n
  { strand := x, num := n, stage := l.stageOf n, slot := some slot, turns := { last := since }, lanes := lanes, bank := l.bank0 (l.stageOf n)
    groups := [{ id := 0, lanes := maskOf (Store.keys lanes), pc := BitVec.ofNat 57 l.entry, arrival := now }]
    nextGroup := 1 }

/-- A free slot, in a quadrant where it has one. -/
def seat (used : List Nat) (quad : Nat) : Nat :=
  (freeIn used quad).headD (((List.range 48).find? (fun n => !used.contains n)).getD 0)

/-- The launched yarns of a strand from number n on put onto its core; q is the quadrant of yarn 0 (R165). An acquire fence is
their first acquire at DOMAIN scope (R163, R305). -/
def State.seatYarns (s : State) (x : Nat) (l : Launch) (k q : Nat) : Nat → Nat → State
  | 0, _ => s
  | m + 1, n =>
    let slot := seat (s.usedSlots k) ((q + n) % 4)
    let v : Yarn := { l.yarn x n slot (s.cycles k) s.now with acqEvent := if l.acqFence then s.routeEvent + 1 else 0 }
    State.seatYarns { s with yarns := Store.put s.nextYarn v s.yarns, nextYarn := s.nextYarn + 1 } x l k q m (n + 1)

/-- A core's matrix context as a new owner finds it (log entry 6). -/
def State.freshMatrix (s : State) (l : Launch) (k : Nat) : State :=
  if l.matrix then s.setCore k { s.coreAt k with slots := [], slice := [], sliceLab := 0 } else s

/-- With the core one of its strands stands on noted (R235). -/
def Launch.standsOn (l : Launch) (coil i k : Nat) : Launch :=
  { l with cores := l.cores.filter (fun c => !decide (c.1 = coil ∧ c.2.1 = i)) ++ [(coil, i, k)] }

/-- One strand of a coil put onto its core, under the next context id, which has 32 bits and no other strand (R172). -/
def State.putStrand (s : State) (l : Nat) (L : Launch) (coil i : Nat) (h : Share) : State :=
  let x := s.nextCtx
  let t : Strand := { launch := l, coil := coil, index := i, placedAt := s.tick
                      place := some { die := h.core / 48, core := h.core % 48, base := h.base } }
  let next := freeId (x :: Store.keys s.strands) (x + 1)
  let s0 := { s with strands := Store.put x t s.strands, nextCtx := next }.modLaunch l (fun M => M.standsOn coil i h.core)
  let s1 := s0.freshMatrix L h.core
  s1.seatYarns x L h.core (bestQuadrant (s1.usedSlots h.core)) L.yarnCount 0

/-- A coil's strands put onto their cores. -/
def State.putCoil (s : State) (l : Nat) (L : Launch) (coil : Nat) : Nat → List Share → State
  | _, [] => s
  | i, h :: t => State.putCoil (s.putStrand l L coil i h) l L coil (i + 1) t

/-! ### The argument block and the spill queue (R128, R161) -/

/-- What a spill queue's header says: a cause, or its fields. -/
def spillCheck (at_ : Nat) (h : BitVec 256) : Option Byte :=
  let cap := bitsAt h 64 32
  let base := bitsAt h 0 64
  if base % 64 ≠ 0 ∨ at_ % 64 ≠ 0 then some cMisalign
  else if bitsAt h 160 96 ≠ 0 ∨ 2 ^ 57 ≤ base ∨ cap = 0 ∨ 2 ^ 24 < cap ∨ 2 ^ Nat.log2 cap ≠ cap
      ∨ bitsAt h 96 32 ≠ bitsAt h 128 32 then some cReservedField
  else none

/-- The command processor's reads before the first yarn issues. -/
def State.readArgs (s : State) (l : Nat) (L : Launch) : State :=
  let who := Who.cp l
  match s.devRead who L.fn L.ceil {} (BitVec.ofNat 64 L.argAddr) 64 with
  | .wait s1 => s1
  | .fault c _ => (s.dropBufs who).terminate l c
  | .ok bs lab =>
    let a := BitVec.ofNat 512 (leNat bs)
    let L1 : Launch := { L with args := a, argLab := lab, argsRead := true }
    let q := recAt a 56 8
    if q = 0 then (s.dropBufs who).setLaunch l L1
    else if q % 64 ≠ 0 then (s.dropBufs who).terminate l cMisalign
    else
      match s.devRead who L.fn L.ceil {} (BitVec.ofNat 64 q) 32 with
      | .wait s1 => s1
      | .fault c _ => (s.dropBufs who).terminate l c
      | .ok hs _ =>
        let h := BitVec.ofNat 256 (leNat hs)
        match spillCheck q h with
        | some c => (s.dropBufs who).terminate l c
        | none => (s.dropBufs who).setLaunch l { L1 with
            spillAt := BitVec.ofNat 64 q, spillBase := h.extractLsb' 0 64, spillCap := bitsAt h 64 32
            spillW := bitsAt h 96 32, spillR := bitsAt h 128 32 }

/-- COIL_PLACE (R161, R165): the argument block read, or the next coil of a launch placed. -/
def execCoilPlace (l : Nat) (s : State) : Outcome State Fault Refusal :=
  match Store.find l s.launches with
  | none => .refused .notEnabled
  | some L =>
    if L.ending.isSome ∨ L.coils ≤ L.nextCoil then .refused .notEnabled
    else if !L.argsRead then event (!s.asking (.cp l)) (s.readArgs l L)
    else
      match s.nextPlan L with
      | none => .refused .notEnabled
      | some hs => .next ((s.setLaunch l { L with nextCoil := L.nextCoil + 1 }).putCoil l L L.nextCoil 0 hs)

/-! ### Eviction (R168 to R170) -/

/-- Whether a yarn's fibres let their strand be evicted: every active one blocked, parked or held at a rejoin clause, none in
handler mode (R168). -/
def Yarn.atRest (y : Yarn) : Bool :=
  y.retired || (!y.bank.handler && !y.frays.any (fun c => c.2.bank.handler)
    && y.groups.all (fun g => g.blocked || (decide (g.phase = .rejoin) && y.rejoinHeld g))
    && y.lanes.all (fun c => !c.2.active || c.2.parked || y.groups.any (fun g => g.lanes.getLsbD c.1)))

/-- Whether a yarn lets its strand's image be saved: at rest, with nothing pending and no write counted (R169, R254). -/
def Yarn.evictable (y : Yarn) : Bool := y.atRest && (y.retired || y.pend.isEmpty) && y.counted.isEmpty

/-- Whether a strand may be evicted now: its yarns let it, no write of a yarn that is gone is still counted (R183), no copy is
RUNNING and no operation stores (R169, R287), its bins are released. -/
def State.evictable (s : State) (x : Nat) (t : Strand) : Bool :=
  t.place.isSome && s.yarns.all (fun c => !decide (c.2.strand = x) || c.2.evictable)
    && t.copies.all (fun c => decide (c.run.state ≠ .running))
    && t.ops.all (fun o => !decide (o.stage = .stored) || (decide (o.run.state ≠ .running) && decide (o.srun.state ≠ .running)))
    && t.bins.all (fun b => b.released) && !(s.launchOf t).unacked.any (fun c => decide (c.strand = x))

/-- A coil on a die. -/
structure Placed where
  launch : Nat
  coil : Nat
  die : Nat
  priority : Nat
  at_ : Nat
  deriving DecidableEq

/-- The coils on the dies. -/
def State.placedCoils (s : State) : List Placed :=
  (s.strands.filterMap (fun c => c.2.place.map (fun p =>
    ({ launch := c.2.launch, coil := c.2.coil, die := p.die, priority := (s.launchOf c.2).priority, at_ := c.2.placedAt } : Placed)))
    ).eraseDups

/-- A coil put in its place in the order of selection: lowest priority first, most recently placed first. -/
def insertPlaced (p : Placed) : List Placed → List Placed
  | [] => [p]
  | q :: t => if p.priority < q.priority ∨ (p.priority = q.priority ∧ q.at_ < p.at_) then p :: q :: t else q :: insertPlaced p t

/-- The strands of a coil. -/
def State.strandsOf (s : State) (l coil : Nat) : List (Nat × Strand) :=
  s.strands.filter (fun c => decide (c.2.launch = l ∧ c.2.coil = coil))

/-- Coils taken in order until the room they free fits a launch's next coil. -/
def State.selectFrom (s : State) (l : Launch) : List Placed → List Placed → List Placed
  | [], _ => []
  | p :: t, got =>
    let got' := got ++ [p]
    if (s.planFor (got'.flatMap (fun q => (s.strandsOf q.launch q.coil).map Prod.fst)) l).isSome then got'
    else s.selectFrom l t got'

/-- The coils selected for a launch whose next coil cannot be placed. -/
def State.selectFor (s : State) (l : Launch) : List Placed :=
  if !l.unplaced || (s.planFor [] l).isSome then []
  else s.selectFrom l ((s.placedCoils.filter (fun p => decide (p.die = s.dieFor ∧ p.priority < l.priority))).foldl
    (fun m p => insertPlaced p m) []) []

/-- Whether a coil is selected: to make room, or because one of its strands stands on a core outside the core map (R166,
R169, R235). -/
def State.selected (s : State) (l coil : Nat) : Bool :=
  (s.strandsOf l coil).any (fun c => c.2.place.isSome && !s.inMap c.2.core)
    || s.launches.any (fun c => (s.selectFor c.2).any (fun p => decide (p.launch = l ∧ p.coil = coil)))

/-- Whether a coil is on its way out: it is selected, and every strand of it evictable in R168's sense. Its copies that have not begun
do not begin, and a running mma stops at its next boundary (R169). -/
def State.leaving (s : State) (l coil : Nat) : Bool :=
  s.selected l coil && (s.strandsOf l coil).all (fun c => s.yarns.all (fun d => !decide (d.2.strand = c.1) || d.2.atRest))

/-- Whether the coil of a strand is on its way out. -/
def State.leavingOf (s : State) (t : Strand) : Bool := s.leaving t.launch t.coil

/-- A strand's image saved and its core freed (R170). -/
def State.saveStrand (s : State) (x : Nat) (t : Strand) : State :=
  let k := t.core
  let c := s.coreAt k
  let L := s.launchOf t
  let img : Option Image := if L.matrix then some { slots := c.slots, slice := c.slice, lab := c.sliceLab } else none
  let s1 := s.setStrand x { t with place := none, former := some (t.at_.die, t.at_.core), image := img, frozenAt := s.cycles k }
  let s2 := if L.matrix then s1.setCore k { c with slots := [], slice := [], sliceLab := 0 } else s1
  { s2 with yarns := s2.yarns.map (fun d => if d.2.strand = x then (d.1, { d.2 with slot := none }) else d) }

/-- EVICT_COIL (R169). -/
def execEvictCoil (l coil : Nat) (s : State) : Outcome State Fault Refusal :=
  let xs := s.strandsOf l coil
  event (s.selected l coil && xs.all (fun c => s.evictable c.1 c.2))
    ((xs.foldl (fun t c => t.saveStrand c.1 c.2) s).modLaunch l (fun L => { L with evicted := L.evicted ++ [coil] }))

/-! ### The engines' steps, which a selection stops (R169, R221, R287) -/

/-- COPY_SECTOR (R284): the next step of the copy a channel works on for a strand, which has begun, or begins unless its coil is on
its way out (R169, R287). -/
def execCopySector (x ch : Nat) (s : State) : Outcome State Fault Refusal :=
  match s.moving x ch with
  | none => .refused .notEnabled
  | some (t, c) =>
    if tSize c.record ≤ c.run.off ∨ (c.run.state = .queued ∧ s.leavingOf t) then .refused .notEnabled
    else if tKind c.record = 3 ∧ c.idx.length < tRows c.record then .next (s.readIndex x t c)
    else .next (s.copyStep x t c)

/-- COPY_DONE (R294, R291): every sector is written and credited. The strand keeps the latest copy of a channel for its
aperture. The next of the channel's is the current one then, and RUNNING (R267), unless its coil is on its way out (R169). -/
def execCopyDone (x ch : Nat) (s : State) : Outcome State Fault Refusal :=
  match s.moving x ch with
  | none => .refused .notEnabled
  | some (t, c) =>
    let kept := t.copies.filter (fun d => !(decide (d.chan = ch) && decide (d.run.state = .done)))
    let t1 := ({ t with copies := kept }.setCopy { c with run := { c.run with state := .done } }).finish ch
    event (decide (tSize c.record ≤ c.run.off))
      ((s.closeRecords (s.launchOf t).fn t.launch).setStrand x (if s.leavingOf t then t1 else t1.beginNext ch))

/-- MMA_KSTEP (R217, R185). An operation of a coil on its way out stops at its boundary (R169, R221). An operation whose slot would take a label over the launch's ceiling faults (R349). -/
def execMmaKstep (x : Nat) (s : State) : Outcome State Fault Refusal :=
  match s.running x with
  | none => .refused .notEnabled
  | some (t, o) =>
    let n := pbSlot o.block
    let c := s.coreAt t.core
    let rows := (List.range 128).map (t.rowA o.fw o.block (o.progress + 1))
    let cols := (List.range 128).map (colB c.slice o.fw o.block (o.progress + 1))
    let r := (c.slot n).kStep o rows cols c.sliceLab
    let L := s.launchOf t
    let held := L.debug && (((s.func L.fn).session.map (·.ksteps)).getD []).contains (t.launch, o.progress + 1)
    event (decide (o.stage = .steps ∧ o.progress < pbSteps o.block ∧ o.run.state ≠ .faulted) && !o.hold
        && !s.leavingOf t && !s.slotBusy x n o.seq)
      (if L.ceil < r.1.lab.toNat then s.storeFault x o false cPageProt 0
      else (s.setCore t.core (c.setSlot n r.1)).setStrand x (t.setOp
        { o with progress := o.progress + 1, hold := held, nv := o.nv || r.2.getLsbD 0, of := o.of || r.2.getLsbD 2 }))

/-! ### Restore (R111, R145, R171, R173, R287) -/

/-- A cycle count carried from a frozen clock to a new one: the same time has passed since it. -/
def carry (frozen now since : Nat) : Nat := (now + 2 ^ 64 - elapsed frozen since) % 2 ^ 64

/-- How many groups of a yarn reached their headers before one of them. -/
def Yarn.rankOf (v : Yarn) (g : Group) : Nat := (v.groups.filter (fun h => h.sooner g)).length

/-- The fragment-table entries of a strand in ascending order of their ids, with their yarns. -/
def entriesOf (ys : List (Nat × Yarn)) : List (Nat × Nat) :=
  (List.range 32).flatMap (fun e => (ys.filter (fun c => (Store.find e c.2.frays).isSome)).map (fun c => (c.1, e)))

/-- A yarn as it stands on its new core: slot, monitors, fragment-table entries taken afresh, and every group's arrival the restore
cycle, in the groups' former order (R171). A monitor that has woken already is not read anew (R153). -/
def Yarn.moved (v : Yarn) (slot now : Nat) (frozen : Nat) (es : List (Nat × Nat × Byte)) : Yarn :=
  let new := fun (e : Nat) => match es.find? (fun p => decide (p.1 = e)) with | some p => p.2.1 | none => e
  let use := fun (e : Nat) (u : Byte) => match es.find? (fun p => decide (p.1 = e)) with | some p => p.2.2 | none => u
  let grp := fun (g : Group) =>
    ({ g with arrival := now, rank := v.rankOf g, fray := g.fray.map new } : Group)
  let lane := fun (c : Lane) =>
    ({ c with monitor := c.monitor.map (fun m =>
         { m with since := m.since.map (carry frozen now), reread := m.woken.isNone }) } : Lane)
  { v with
    slot := some slot
    groups := v.groups.map grp
    lanes := v.lanes.map (fun c => (c.1, lane c.2))
    frays := v.frays.foldl (fun m c => Store.put (new c.1) { c.2 with use := use c.1 c.2.use } m) []
    pend := v.pend.map (fun p => { p with fray := p.fray.map new }) }

/-- Yarns of a restored strand put onto its core, one after another; each parked fray of a repairable cause is reported
again. -/
def State.seatAgain (s : State) (x : Nat) (t : Strand) (k q now : Nat) (es : List (Nat × Nat × Nat × Byte)) : List (Nat × Yarn) → State
  | [] => s
  | (y, v) :: rest =>
    let used := s.usedSlots k
    let slot := if v.spawned then seat used (bestQuadrant used) else seat used ((q + v.num) % 4)
    let mine := (es.filter (fun p => decide (p.1 = y))).map Prod.snd
    let v1 := v.moved slot now t.frozenAt mine
    let s1 := s.setYarn y v1
    let s2 := v1.frays.foldl (fun s c =>
      if decide (c.2.state = .parked) && repairable c.2.cause then
        s.report (s.launchOf t).fn { bytes := frayRecord t.launch (k / 48) (k % 48) slot c.1 c.2 }
      else s) s1
    State.seatAgain s2 x t k q now es rest

/-- The use counts of entries taken on a core. -/
def State.takeEntries (s : State) (k : Nat) : List Nat → State
  | [] => s
  | e :: t =>
    let c := s.coreAt k
    (s.setCore k { c with uses := Store.set 0 e (Store.get 0 e c.uses + 1) c.uses }).takeEntries k t

/-- A faulted transfer's use count one higher. -/
def Run.again (r : Run) : Run := if r.state = .faulted then { r with use := r.use + 1 } else r

/-- A faulted transfer of a restored strand reported again (R287). -/
def State.reportRun (s : State) (x : Nat) (t : Strand) (chan num tmpl : Nat) (epi : Bool) (r : Run) : State :=
  if r.state = .faulted then
    s.report (s.launchOf t).fn { bytes := copyRecord x t chan num tmpl epi r }
  else s

/-- One strand of an evicted coil restored; its monitors are to be read anew (R153). -/
def State.restoreStrand (s : State) (x : Nat) (t : Strand) (h : Share) : State :=
  let k := h.core
  let now := s.cycles k
  let ys := s.yarns.filter (fun c => decide (c.2.strand = x) && !c.2.retired)
  let old := entriesOf ys
  let es := (old.zip (s.freeEntries k)).map (fun p =>
    (p.1.1, p.1.2, p.2, Store.get 0 p.2 (s.coreAt k).uses + 1))
  let point := fun (p : Point) => ({ p with first := carry t.frozenAt now p.first } : Point)
  let t1 : Strand := { t with
    place := some { die := k / 48, core := k % 48, base := h.base }, image := none, placedAt := s.tick
    points := t.points.map (fun c => (c.1, point c.2))
    copies := t.copies.map (fun c => { c with run := c.run.again })
    ops := t.ops.map (fun o => { o with run := o.run.again, srun := o.srun.again }) }
  let s1 := (s.takeEntries k (es.map (fun p => p.2.2.1))).setStrand x t1
  let s2 := match t.image with
    | some i => s1.setCore k { s1.coreAt k with slots := i.slots, slice := i.slice, sliceLab := i.lab }
    | none => s1
  let s3 := s2.seatAgain x t k (bestQuadrant (s2.usedSlots k)) now es ys
  let s4 := t1.copies.foldl (fun s c => s.reportRun x t1 c.chan c.num (bitsAt c.start 0 16) false c.run) s3
  let stale := fun (b : Buf) => match b.who with | .monitor y _ => ys.any (fun c => decide (c.1 = y)) | _ => false
  let s5 := t1.ops.foldl (fun s o => (s.reportRun x t1 0 o.num (pbStore o.block) true o.run).reportRun x t1 0 o.num
    (pbSStore o.block) true o.srun) s4
  { s5 with bufs := s5.bufs.filter (fun b => !stale b) }.modLaunch t.launch (fun M => M.standsOn t.coil t.index k)

/-- The placement of an evicted coil on its die, if its strands fit there and no unstarted coil of higher priority does
(R171). -/
def State.restorePlan (s : State) (l : Nat) (L : Launch) (coil : Nat) : Option (List (Nat × Strand) × List Share) :=
  let xs := s.strandsOf l coil
  let die := (xs.findSome? (fun c => c.2.former)).map Prod.fst
  if !L.evicted.contains coil
      || s.launches.any (fun c => c.2.unplaced && decide (L.priority < c.2.priority) && (s.planFor [] c.2).isSome) then none
  else (s.assign [] (die.getD 0) (xs.map (fun c => (s.needOf c.1 c.2, none))) []).map (fun hs => (xs, hs))

/-- RESTORE_COIL (R171). -/
def execRestoreCoil (l coil : Nat) (s : State) : Outcome State Fault Refusal :=
  match Store.find l s.launches with
  | none => .refused .notEnabled
  | some L =>
    match s.restorePlan l L coil with
    | none => .refused .notEnabled
    | some (xs, hs) =>
      .next (((xs.zip hs).foldl (fun t p => t.restoreStrand p.1.1 p.1.2 p.2) s).modLaunch l
        (fun L => { L with evicted := L.evicted.filter (fun c => !decide (c = coil)) }))

end Sys2Proof.Machine
end

