-- ==== Sys2Proof/Machine/Ends.lean ====
section
/-! DEFINITION. The end of strands and launches (R130, R163, R164, R354), the host's answers to parked frays (R108, R109), and
errors that a launch consumes or scrubbing finds (R232 to R235). -/

namespace Sys2Proof.Machine

open Host (Outcome)

/-! ### Strands -/

/-- The chunk of a strand (R330). -/
def Launch.chunkOf (l : Launch) (c : Coll) (t : Strand) : Nat :=
  if bRule c.bind = 0 then t.coil * l.coilSize + t.index else t.index * l.coils + t.coil

/-- Whether a strand has ended: every yarn retired, no record in its bins or in the spill queue (R130). -/
def State.strandOver (s : State) (x : Nat) (t : Strand) : Bool :=
  s.yarns.all (fun c => !decide (c.2.strand = x) || c.2.retired)
    && t.bins.all (fun b => b.recs.isEmpty) && (s.launchOf t).spilled.isEmpty

/-- Whether a strand's copies and matrix operations are done. -/
def Strand.quiet (t : Strand) : Bool :=
  t.copies.all (fun c => decide (c.run.state = .done)) && t.ops.all (fun o => decide (o.stage = .done))

/-- A strand's end as its launch sees it: one more has ended, and its yarns and points are gone (R130, R140). -/
def State.strandEnded (s : State) (x : Nat) (t : Strand) : State :=
  { s with strands := Store.put x { t with ended := true, points := [] } s.strands
           yarns := s.yarns.filter (fun c => !decide (c.2.strand = x)) }.modLaunch t.launch
    (fun l => { l with ended := l.ended + 1 })

/-- With a strand's state freed: its chunk is due, for every access of it is performed (R331). -/
def State.strandFreed (s : State) (x : Nat) (t : Strand) : State :=
  { s with strands := Store.drop x s.strands
           colls := Store.modify t.launch (fun c => { c with due := c.due ++ [(s.launchOf t).chunkOf c t] }) s.colls }

/-- STRAND_END (R130, R140): the strand ends, and its state is freed. DESIGN CHOICE (log 49): where a copy or a matrix
operation of it is not done, which holds only the launch's end (R270), its scratchpad and its place stay until it is, as the
state of no strand any access names. -/
def execStrandEnd (x : Nat) (s : State) : Outcome State Fault Refusal :=
  match Store.find x s.strands with
  | none => .refused .notEnabled
  | some t =>
    let s1 := if t.ended then s else s.strandEnded x t
    event ((t.ended || s.strandOver x t) && (!t.ended || t.quiet)) (if t.quiet then s1.strandFreed x t else s1)

/-! ### Launches -/

/-- Whether every chunk of a launch's binding is written or given up (R331). -/
def State.collOver (s : State) (n : Nat) : Bool :=
  match Store.find n s.colls with
  | some c => decide (dC c.desc ≤ c.written.length)
      && (c.due.isEmpty || (Store.find n s.launches).all (fun L => L.ending.isSome))
  | none => true

/-- Whether a launch has ended: early, or with every strand ended, its copies and matrix operations done and every chunk of
its binding written (R130, R270, R331). -/
def State.launchOver (s : State) (n : Nat) (l : Launch) : Bool :=
  l.ending.isSome
    || (decide (l.coils ≤ l.nextCoil) && decide (l.ended = l.coils * l.coilSize)
        && s.strands.all (fun c => !decide (c.2.launch = n)) && s.collOver n)

/-- Whether a launch's release fence holds its completion: a write of it is counted, or on its way to another package
(R163). -/
def State.fenced (s : State) (n : Nat) (l : Launch) : Bool :=
  l.relFence && (!l.unacked.isEmpty || s.reqs.any (fun r => decide (r.2.launch = some n) && reqWrites r.2.req))

/-- The lbldn entry of a launch that holds a grant (R354). -/
def State.logLowered (s : State) (n : Nat) (l : Launch) : State :=
  match l.granted with
  | some g =>
    if l.logged then s
    else (s.append 0x02 l.fn n (pack [(0, g), (32, l.lblcnt.toNat)])).modLaunch n (fun l => { l with logged := true })
  | none => s

/-- LAUNCH_COMPLETE (R163, R164, R354, R360): the completion word is written and the launch is gone. -/
def execLaunchComplete (l : Nat) (s : State) : Outcome State Fault Refusal :=
  match Store.find l s.launches with
  | none => .refused .notEnabled
  | some L =>
    if !s.launchOver l L || s.fenced l L || s.asking (.cp l) || (L.granted.isSome && !L.logged && s.logFull) then .refused .notEnabled
    else
      let s1 := s.logLowered l L
      let e := L.ending.getD { status := 0, cause := 0 }
      match s1.putSignal (.cp l) L.fn L.ceil L.signal (completion e.status.toNat e.cause.toNat L.killed L.discarded) with
      | .wait s2 => .next s2
      | .fault _ _ => .next s1
      | .ok s2 _ =>
        let s3 := (s2.dropBufs (.cp l)).closed L.fn L.queue L.at_
        .next { s3 with launches := Store.drop l s3.launches, colls := if s.collOver l then Store.drop l s3.colls else s3.colls }

/-! ### Replies to frays (R108, R109) -/

/-- The parked fray a reply names: its yarn and entry. -/
def State.repliedFray (s : State) (fn : Nat) (w : Word) : Option (Nat × Yarn × Nat × Fray) :=
  let e := bitsAt w 0 5
  if bitsAt w 16 6 ≠ 0 ∨ bitsAt w 5 3 ≠ 0 then none
  else
    s.yarns.findSome? (fun c =>
      let t := s.strandAt c.2.strand
      if t.place.isSome ∧ t.at_.die = bitsAt w 22 2 ∧ t.at_.core = bitsAt w 24 6 ∧ (s.launchOf t).fn = fn then
        match Store.find e c.2.frays with
        | some f =>
          if f.state = .parked ∧ repairable f.cause ∧ f.use = w.extractLsb' 8 8 then some (c.1, c.2, e, f) else none
        | none => none
      else none)

/-- A parked fray goes on: at its faulting instruction, the header's valid flags set in its own copy, or with the start of
its clause (R109). -/
def Yarn.repair (v : Yarn) (e : Nat) (f : Fray) (now : Nat) : Yarn :=
  let fresh := decide (f.index = 8)
  let bit := fun (x : Option Nat) => match x with | some n => 1#12 <<< n | none => 0
  let fl := if fresh then f.bank.flags else f.bank.flags ||| bit (headerX f.clause.w0) ||| bit (headerY f.clause.w0)
  let g : Group :=
    if fresh then { id := v.newGroup, lanes := f.lanes, fray := some e, pc := f.pc, arrival := now }
    else { id := v.newGroup, lanes := f.lanes, fray := some e, pc := f.pc, arrival := now, phase := .issue, clause := f.clause,
           idx := f.index.toNat, gmask := f.gmask }
  let v1 := v.mapLanes (fun _ x => { x with parked := false }) (lanesOf f.lanes)
  { v1 with
    frays := Store.put e { f with state := .running, bank := { f.bank with flags := fl } } v1.frays
    groups := v1.groups ++ [g], nextGroup := v1.newGroup + 1 }

/-- FAULT_REPLY_REPAIRED (R109). -/
def execFaultReplyRepaired (fn : Nat) (w : Word) (s : State) : Outcome State Fault Refusal :=
  if bitsAt w 30 2 ≠ 1 then .refused .notEnabled
  else
    match s.repliedFray fn w with
    | none => .next (s.ignoreReply fn)
    | some (y, v, e, f) => .next (s.settleYarn y (v.repair e f (s.cycles (s.strandAt v.strand).core)))

/-- The fibres of a fray retire as exited, and its entry is freed (R97, R108). -/
def Yarn.killFray (v : Yarn) (e : Nat) (f : Fray) : Yarn :=
  let v1 := v.retireLanes (lanesOf f.lanes) f.pc f.index.toNat
  { v1 with
    frays := Store.drop e v1.frays
    pend := v1.pend.map (fun p => if p.fray = some e then { p with fray := none, flag := none } else p) }

/-- FAULT_REPLY_KILL (R108). -/
def execFaultReplyKill (fn : Nat) (w : Word) (s : State) : Outcome State Fault Refusal :=
  if bitsAt w 30 2 ≠ 2 then .refused .notEnabled
  else
    match s.repliedFray fn w with
    | none => .next (s.ignoreReply fn)
    | some (y, v, e, f) =>
      let x := (s.strandAt v.strand).launch
      let n := (lanesOf f.lanes).length
      let s1 := s.modLaunch x (fun l => { l with killed := l.killed + (if l.protd then n / 2 else n) })
      .next (s1.settleYarn y (v.killFray e f))

/-! ### Errors (R232, R233) -/

/-- UNCORRECTABLE (R232 to R235): a launch uses data with an uncorrectable error, on a core and at a location. -/
def execUncorrectable (l core : Nat) (loc : BitVec 4) (addr : DWord) (s : State) : Outcome State Fault Refusal :=
  match Store.find l s.launches with
  | none => .refused .notEnabled
  | some L =>
    let code := if bitsAt (s.func L.fn).policy 4 2 = 2 then 2 else 1
    event (L.ending.isNone && decide (core < 192) && decide (loc.toNat < 8))
      (s.errorAct l (core / 48) (core % 48) cUncorrectable code loc.toNat 0 0 addr)

/-- ERROR_FOUND_BY_SCRUBBING (R233): counted and not recorded. -/
def execErrorFoundByScrubbing (_addr : Fab) (s : State) : Outcome State Fault Refusal :=
  .next { s with scrubFound := s.scrubFound + 1 }

end Sys2Proof.Machine
end

