-- ==== Sys2Proof/Machine/HostIf.lean ====
section
/-! DEFINITION. What the host does to a function: register writes (R155, R232, R239, R311, R324, R356, R368 to R370, R372),
fault queue records (R370, R146), translation invalidations (R239), the fence register (R235), the egress meter (R356), the
memory window (R350, R355, R357), what fid reads (R236, R266, R366), and power states (R367). -/

namespace Sys2Proof.Machine

open Host (Outcome)

/-! ### The host fault queue (R370) -/

/-- Units of the ring of a fault queue that accepts records; none where it accepts none. -/
def Func.ring (f : Func) : Option Nat :=
  let n := bitsAt f.fqctl 0 5
  if f.fqctl.getLsbD 5 ∧ 6 ≤ n ∧ n ≤ 20 then some (2 ^ n) else none

/-- Units free in a ring. -/
def Func.fqFree (f : Func) (ring : Nat) : Nat := ring - (f.fqwrite - f.fqread).toNat

/-- A filler unit. -/
def filler : List Byte := List.replicate 64 0

/-- Units written from a place of the ring on. -/
def State.putUnits (s : State) (base : Nat) (at_ : Nat) (bs : List Byte) : State := s.hostPut (base + 64 * at_) bs

/-- What a written record releases: a watchdog's policy acts on the launch (R146), whatever has become of the strand, unless
fid still holds it (R117). -/
def State.released (s : State) (r : FaultRec) : State :=
  match r.watchdog.bind (fun l => (Store.find l s.launches).map (fun L => (l, L))) with
  | some (l, L) =>
    if !L.heldPolicy && L.policyTerminate then s.terminate l cWatchdog else s
  | none => s

/-- FAULT_RECORD_WRITE (R370): the oldest waiting record is written, after fillers to the ring's end where it would wrap;
where it must wait the overflow bit is set. -/
def execFaultRecordWrite (fn : Nat) (s : State) : Outcome State Fault Refusal :=
  let f := s.func fn
  match f.waiting with
  | [] => .refused .notEnabled
  | r :: rest =>
    let u := r.bytes.length / 64
    let stall := event (!f.fstatus.getLsbD 1) (s.setFunc fn { f with fstatus := f.fstatus ||| 2 })
    match f.ring with
    | none => stall
    | some ring =>
      let at_ := f.fqwrite.toNat % ring
      let pad := if ring - at_ < u then ring - at_ else 0
      if f.fqFree ring < pad + u then stall
      else
        let base := f.fqbase.toNat
        let s1 := if pad = 0 then s else s.putUnits base at_ ((List.replicate pad filler).flatMap id)
        let s2 := s1.putUnits base (if pad = 0 then at_ else 0) r.bytes
        let s3 := s2.setFunc fn { f with waiting := rest, fqwrite := f.fqwrite + BitVec.ofNat 32 (pad + u) }
        .next (s3.released r)

/-! ### Invalidation of translations (R239) -/

/-- Whether an address lies in the range an XLINV word names. -/
def xlinvCovers (w : DWord) (va : DWord) : Bool :=
  let n := bitsAt w 10 2
  decide (n = 3) || decide (bitsAt va 0 57 / 2 ^ (12 + 9 * n) = bitsAt w 0 57 / 2 ^ (12 + 9 * n))

/-- XLINV (R239). -/
def execXlinv (fn : Nat) (w : DWord) (s : State) : Outcome State Fault Refusal :=
  let f := s.func fn
  .next (if fn < 8 then s.setFunc fn { f with xlpend := f.xlpend ++ [(w, s.nextReq)] } else s)

/-- Whether an access made under a translation of a range before a mark is still not performed. -/
def State.xlBusy (s : State) (fn : Nat) (w : DWord) (mark : Nat) : Bool :=
  let mine := fun (x : Nat) => decide ((s.launchOf (s.strandAt x)).fn = fn)
  s.yarns.any (fun c => mine c.2.strand && (c.2.counted.any (fun k => decide (k.id < mark))
      || c.2.groups.any (fun g => match g.wait with
        | some (.accept a) => a.lanes.any (fun l => l.parts.any (fun p => xlinvCovers w p.1.page.va))
        | _ => false)))
    || s.launches.any (fun c => decide (c.2.fn = fn) && c.2.unacked.any (fun k => decide (k.id < mark)))
    || s.reqs.any (fun c => decide (c.2.fn = fn) && decide (c.1 < mark) && (match c.2.who with | .relay _ _ => false | _ => true))

/-- XLINV_COMPLETE (R239): the oldest invalidation is done and XLDONE advances. -/
def execXlinvComplete (fn : Nat) (s : State) : Outcome State Fault Refusal :=
  let f := s.func fn
  match f.xlpend with
  | [] => .refused .notEnabled
  | (w, m) :: rest => event (!s.xlBusy fn w m) (s.setFunc fn { f with xlpend := rest, xldone := f.xldone + 1 })

/-! ### Fencing and the meter (R235, R356) -/

/-- FENCE_REGISTER_WRITE (R235): the die's core map follows it. -/
def execFenceRegisterWrite (die : Nat) (w : DWord) (s : State) : Outcome State Fault Refusal :=
  .next (if die < 4 then { s with fence := Store.put die (w.setWidth 48) s.fence }.remap die else s)

/-- A function with a meter register written (R356): 0 METBAL, 1 METFILL, 2 METCAP, 3 to 6 METREG0 to METREG3. -/
def Func.setMeter (f : Func) (reg : Nat) (w : DWord) : Func :=
  match reg with
  | 0 => { f with metbal := w &&& 0xFFFFFFFFFFFF }
  | 1 => { f with metfill := w &&& 0x1FFFFFFFFF }
  | 2 => { f with metcap := w &&& 0xFFFFFFFFFFFF }
  | k => { f with metreg := Store.set 0 (k - 3) w f.metreg }

/-- The offset of a meter register (R369). DESIGN CHOICE (log 25): METREG0 to METREG3 stand at 0x920 to 0x938, the end of the
range that the table gives the seven registers. -/
def meterAt (reg : Nat) : Nat := if reg < 3 then 0x900 + 8 * reg else 0x908 + 8 * reg

/-- EGRESS_METER_WRITE (R356, R359): the trusted firmware writes a meter register and logs it, by its offset. -/
def execEgressMeterWrite (fn reg : Nat) (w : DWord) (s : State) : Outcome State Fault Refusal :=
  event (decide (fn < 8) && decide (reg < 7) && !s.logFull)
    ((s.setFunc fn ((s.func fn).setMeter reg w)).append 0x0B fn 0 (pack [(0, meterAt reg), (64, w.toNat)]))

/-! ### The memory window (R350, R355, R357, R358) -/

/-- Whether a frame belongs to the code range of a granted launch that is resident (R355). -/
def State.grantedFrame (s : State) (fab : Fab) : Bool :=
  s.launches.any (fun c =>
    match c.2.granted with
    | none => false
    | some k =>
      match Store.find k (s.func c.2.fn).grants with
      | none => false
      | some g => (pageCuts g.base.toNat (g.length / 4096 + 2) 0 g.length).any (fun p =>
          match s.translate c.2.fn (g.base + BitVec.ofNat 64 p.1) with
          | .ok q => decide (q.fab.toNat / 4096 = fab.toNat / 4096)
          | .error _ => false))

/-- A host read's completion. -/
def State.windowReply (s : State) (fn : Nat) (ok : Bool) (data : List Byte) : State :=
  { s with outbox := s.outbox ++ [.windowData fn ok data] }

/-- The highest security mode of a function (R366). -/
def State.topMode (s : State) : Nat := s.funcs.foldl (fun m c => max m c.2.secmode.toNat) 0

/-- The highest label a read through the window may give: 2 (R350); for fid 1 while every function is OPEN (R366). -/
def State.readLimit (s : State) (fid : Bool) : Nat := if fid ∧ s.topMode = 0 then 1 else 2

/-- A read of n bytes through the window, by the host, or by fid at the origin (R236): a frame under scrub holds it (R364), data above the limit is refused, and units
that hold label 2 are charged to the function's meter one by one (R350, R357, R366). -/
def State.windowRead (s : State) (fn : Nat) (fid : Bool) (va : DWord) (n : Nat) (again : Instr) : State :=
  let who := Who.signal fn
  match s.translate fn va with
  | .error _ => s.windowReply fn false []
  | .ok p =>
    let lab := if peerOf p.fab = s.peer then lmax p.label (s.mem.label p.fab.toNat) else p.label
    let units := (va.toNat + n + 31) / 32 - va.toNat / 32
    if peerOf p.fab = s.peer ∧ s.scrubHeld p.fab then s.requeue again
    else if s.readLimit fid < lab.toNat ∨ (s.bounceOf fn p.fab).isSome then s.windowReply fn false []
    else
      match s.devReadBy who fn 3 (fun q => if fid then s.routeStore q else s.routeLoad q { trailing := false }) va n with
      | .fault _ _ => (s.dropBufs who).windowReply fn false []
      | .wait s1 => s1.requeue again
      | .ok bs _ =>
        let paid := if lab = 2 then s.toll fn (.window fn) units else (s, true)
        if paid.2 then ((paid.1.tollPaid (.window fn)).dropBufs who).windowReply fn true bs else paid.1.requeue again

/-- A host write through the window; one that may not be made is dropped. -/
def State.windowWrite (s : State) (fn : Nat) (va : DWord) (data : List Byte) (again : Instr) : State :=
  let who := Who.signal fn
  match s.translate fn va with
  | .error _ => s
  | .ok p =>
    if (s.bounceOf fn p.fab).isSome ∨ s.grantedFrame p.fab then s
    else
      let j : Job := { who := who, x := 0, l := s.nextLaunch, el := { trailing := false }
                       launch := { fn := fn, queue := 0, packet := BitVec.ofNat 512 (3 * 2 ^ 24) } }
      match s.devWrite j va.toNat data 0 false with
      | .ok s1 _ => s1.dropBufs who
      | .wait s1 => s1.requeue again
      | .fault _ _ => s.dropBufs who

/-! ### What fid shows (R266) -/

/-- Whether fid may look at a function's memory (R366): it is attached, and a launch of the function that runs allows debug. DEDUCED
(log 12): R266's own session reads memory once its launches are complete, so with none running the session is enough. -/
def State.fidReads (s : State) (fn : Nat) : Bool :=
  let mine := s.launches.filter (fun c => decide (c.2.fn = fn))
  s.attached fn && (mine.isEmpty || mine.any (fun c => c.2.debug))

/-- The strand of a launch of the function that fid may look at, where one of its yarns is stopped (R266). -/
def State.fidStrand (s : State) (fn x : Nat) : Option Strand :=
  (Store.find x s.strands).filter (fun t => let L := s.launchOf t
    s.attached fn && decide (L.fn = fn) && L.debug && s.yarns.any (fun c => decide (c.2.strand = x) && c.2.stopped))

/-- n bytes of a strand's scratchpad shown to fid: units above the limit are refused, and 32-byte units that hold label 2 are
charged one by one (R350, R357, R366). -/
def State.showPad (s : State) (fn : Nat) (t : Strand) (o n : Nat) (show_ : List Byte → List Byte) (again : Instr) : State :=
  let units := (List.range ((o + n + 7) / 8 - o / 8)).map (fun k => o / 8 + k)
  let labs := units.map (fun u => t.unitLabel (8 * u))
  if labs.any (fun l => decide (s.readLimit true < l.toNat)) then s.windowReply fn false []
  else
    let tolled := ((units.filter (fun u => decide (t.unitLabel (8 * u) = 2))).map (· / 4)).eraseDups
    let paid := s.toll fn (.window fn) tolled.length
    if paid.2 then (paid.1.tollPaid (.window fn)).windowReply fn true (show_ (t.padRead o n)) else paid.1.requeue again

/-- `win`: bytes of the window of a stopped yarn's lane. -/
def State.fidWin (s : State) (fn y l off n : Nat) (again : Instr) : State :=
  let no := s.windowReply fn false []
  match Store.find y s.yarns with
  | none => no
  | some v =>
    match s.fidStrand fn v.strand, Store.find l v.lanes with
    | some t, some c =>
      let w := c.window 0
      if !v.stopped ∨ badWindow (s.launchOf t).alloc w ∨ 256 < off + n then no else s.showPad fn t (w.toNat + off) n id again
    | _, _ => no

/-- A barrier's fields as `tb` shows them: phase, pending arrivals, reload count and pending sectors. -/
def barBytes (bs : List Byte) : List Byte :=
  let b := BitVec.ofNat 128 (leNat bs)
  [barPhase b, barArrivals b, barReload b, (barSectors b % 2 ^ 64).toNat].flatMap (leBytes 8)

/-- `tb`: the barrier at an offset of a stopped strand's scratchpad. -/
def State.fidTb (s : State) (fn x o : Nat) (again : Instr) : State :=
  match s.fidStrand fn x with
  | some t => if o % 16 ≠ 0 ∨ (s.launchOf t).alloc < o + 16 then s.windowReply fn false [] else s.showPad fn t o 16 barBytes again
  | none => s.windowReply fn false []

/-- `tl`: a timeline context of a stopped strand: issued, done, and of a copy channel its STATUS and write pointer. -/
def State.fidTl (s : State) (fn x c : Nat) : State :=
  match s.fidStrand fn x with
  | some t =>
    if 9 < c then s.windowReply fn false []
    else s.windowReply fn true (([t.issuedOn c, t.doneOn c]
      ++ (if c < 8 then [t.apRead c 16 8, t.apRead c 8 8] else [])).flatMap (leBytes 8))
  | none => s.windowReply fn false []

/-- HOST_WINDOW_ACCESS (R350): for a read, `data` gives how many bytes are asked for. An access that would cross a 4 KiB
boundary is none the link carries. Reads of fid (R11, R236, R266) are answered where fid is attached for the function (R366); of
`win`, `tb` and `tl` the address is the offset, or the context. -/
def execHostWindowAccess (fn : Nat) (kind : HostAccess) (va : DWord) (data : List Byte) (s : State) :
    Outcome State Fault Refusal :=
  let i := Instr.hostWindowAccess fn kind va data
  event (decide (fn < 8) && !s.recovery && decide (va.toNat % 4096 + data.length ≤ 4096) && !s.asking (.signal fn))
    (match kind with
      | .write => s.windowWrite fn va data i
      | .read => s.windowRead fn false va data.length i
      | .fid => if s.fidReads fn then s.windowRead fn true va data.length i else s.windowReply fn false []
      | .win y l => s.fidWin fn y l va.toNat data.length i
      | .tb x => s.fidTb fn x va.toNat i
      | .tl x => s.fidTl fn x va.toNat)

/-! ### Power states (R367) -/

/-- Whether a strand stands on a core. -/
def State.holdsStrand (s : State) (k : Nat) : Bool := s.strands.any (fun c => c.2.place.isSome && decide (c.2.core = k))

/-- A core out of the core map, its state lost once no strand stands on it; its B-store slice may be kept. -/
def State.gateCore (s : State) (k : Nat) (keep : Bool) : State :=
  let c := s.coreAt k
  if s.holdsStrand k then s.setCore k { c with gated := true }
  else
    s.setCore k { gated := true, resetAt := c.resetAt, cand := c.cand, slice := if keep then c.slice else []
                  sliceLab := if keep then c.sliceLab else 0 }

/-- CORE_POWER_GATED (R367): the core leaves the core map; until its strands are evicted the command waits. -/
def execCorePowerGated (die core : Nat) (s : State) : Outcome State Fault Refusal :=
  let k := coreKey die core
  if 4 ≤ die ∨ 48 ≤ core then .refused .notEnabled
  else
    let s1 := (s.gateCore k false).remap die
    .next (if s.holdsStrand k then s1.requeue (.corePowerGated die core) else s1)

/-- The cores of a die. -/
def coresOfDie (die : Nat) : List Nat := (List.range 48).map (coreKey die)

/-- DIE_RETENTION (R367): every core of the die leaves the core map; once its strands are evicted, its cores' state is lost,
but for the B stores. -/
def execDieRetention (die : Nat) (s : State) : Outcome State Fault Refusal :=
  if 4 ≤ die then .refused .notEnabled
  else
    let busy := (coresOfDie die).any s.holdsStrand
    let s1 := ((coresOfDie die).foldl (fun t k => t.gateCore k true) s).remap die
    .next (if busy then s1.requeue (.dieRetention die) else { s1 with retained := s1.retained ||| (1#4 <<< die) })

/-- A core back in the core map, its clock counted from now. -/
def State.ungate (s : State) (k : Nat) : State :=
  let c := s.coreAt k
  if c.gated then s.setCore k { c with gated := false, resetAt := s.now, uses := [], clock := true } else s

/-- The links that were up as the package went into standby train again, each under a key of a new exchange (R372). -/
def State.retrainLinks (s : State) : State :=
  let slept := s.links.filter (fun c => c.2.slept)
  { s with links := s.links.map (fun c => (c.1, { c.2 with slept := false }))
           inputs := s.inputs ++ slept.flatMap (fun c =>
             [.linkTraining c.1 (Config.exchangedKey c.1 s.tick), .portUp c.1 c.2.far c.2.trunk]) }

/-- POWER_ACTIVE (R367): the package leaves standby, and its links train again; or a die leaves retention; or a core is powered
again. -/
def execPowerActive (die core : Nat) (s : State) : Outcome State Fault Refusal :=
  if s.power = .standby then .next { s with power := .active }.retrainLinks
  else if 4 ≤ die ∨ 48 ≤ core then .refused .notEnabled
  else if s.retained.getLsbD die then
    .next { (((coresOfDie die).foldl State.ungate s).remap die) with retained := s.retained &&& ~~~(1#4 <<< die) }
  else .next ((s.ungate (coreKey die core)).remap die)

/-- PACKAGE_STANDBY (R367): once every launch has ended, clocks and links are lost. -/
def execPackageStandby (s : State) : Outcome State Fault Refusal :=
  if s.launches ≠ [] then .next (s.requeue .packageStandby)
  else
    let far := s.neighbours
    let s1 : State := { s with links := s.links.map (fun c => (c.1, { c.2 with up := false, slept := c.2.slept || c.2.up })), cores := s.cores.map (fun c =>
      (c.1, { gated := c.2.gated, resetAt := c.2.resetAt, cand := c.2.cand })), power := .standby }
    .next (far.foldl State.loseWay s1)

/-- What a meaning answers as a state; where it answers none, nothing changes. -/
def orSame (s : State) (r : Outcome State Fault Refusal) : State := match r with | .next t => t | _ => s

/-- A power command (R367, R369). DESIGN CHOICE (log 40): the states' codes follow R367's table from 0 on; a core's clock gating the
device does by itself. -/
def State.powerCommand (s : State) (w : Word) : State :=
  let die := bitsAt w 9 2
  let core := bitsAt w 3 6
  let s1 : State := { s with powerCmd := w &&& 0x7FF }
  match bitsAt w 0 3 with
  | 0 => orSame s1 (execPowerActive die core s1)
  | 2 => orSame s1 (execCorePowerGated die core s1)
  | 3 => orSame s1 (execDieRetention die s1)
  | 4 => orSame s1 (execPackageStandby s1)
  | _ => s1

/-! ### Register writes (R369) -/

/-- Whether an offset holds a 64-bit register. -/
def wideReg (o : Nat) : Bool :=
  (decide (o < 0x800) && decide (o % 32 = 0))
    || [0x800, 0x820, 0x840, 0x848, 0x860, 0x868, 0x1020, 0x1028, 0x1030, 0x1038].contains o

/-- A 64-bit register takes a value. -/
def State.setWide (s : State) (fn o : Nat) (w : DWord) : State :=
  let f := s.func fn
  if o < 0x800 then s.setQueue fn (o / 32) { s.queue fn (o / 32) with base := w }
  else
    match o with
    | 0x800 => s.setFunc fn { f with fqbase := w &&& ~~~63 }
    | 0x820 =>
      let c := bitsAt w 30 2
      if c = 1 then orSame s (execCopyReplyRepaired fn w s)
      else if c = 2 then orSame s (execCopyReplyKill fn w s)
      else s.ignoreReply fn
    | 0x840 => s.setFunc fn { f with ptroot := w &&& 0x01FFFFFFFFFFF001 }
    | 0x848 => orSame s (execXlinv fn w s)
    | 0x860 => s.setFunc fn { f with annwin := w }
    | 0x868 => s.setFunc fn { f with backwin := w }
    | k => if fn = 0 then orSame s (execFenceRegisterWrite ((k - 0x1020) / 8) w s) else s

/-- A link's error log with one of its counters cleared (R372). -/
def Link.clear (l : Link) (k : Nat) : Link :=
  match k with
  | 0 => { l with crcErr := 0 }
  | 1 => { l with retrains := 0 }
  | 2 => { l with authErr := 0 }
  | _ => l

/-- A 32-bit register takes a value; an offset that holds none ignores it. A write of the reliability policy is logged (R359). -/
def State.setNarrow (s : State) (fn o : Nat) (w : Word) : State :=
  let f := s.func fn
  if o < 0x800 then
    match o % 32 with
    | 8 => orSame s (execQctlWrite fn (o / 32) w s)
    | 0x10 => orSame s (execQnotifyWrite fn (o / 32) w s)
    | _ => s
  else if 0x1100 ≤ o ∧ o < 0x1220 then
    if fn = 0 ∧ w.getLsbD 0 then { s with links := Store.modify ((o - 0x1100) / 16) (fun l => l.clear (o % 16 / 4)) s.links }
    else s
  else
    match o with
    | 0x808 => s.setFunc fn { f with fqctl := w &&& 0x3F }
    | 0x810 => s.setFunc fn { f with fqread := w }
    | 0x818 =>
      let c := bitsAt w 30 2
      if c = 1 then orSame s (execFaultReplyRepaired fn w s)
      else if c = 2 then orSame s (execFaultReplyKill fn w s)
      else s.ignoreReply fn
    | 0x870 => (s.setFunc fn { f with policy := w &&& 0x3BC }).append 0x0B fn 0 (pack [(0, 0x870), (64, (w &&& 0x3BC).toNat)])
    | 0x878 => s.setFunc fn { f with injlim := w &&& 0xFFFF }
    | 0x880 => s.setFunc fn { f with fstatus := f.fstatus &&& ~~~(w &&& 3) }
    | 0x1040 => if fn = 0 then s.powerCommand w else s
    | 0x1048 => if fn = 0 then { s with pwrcap := w.setWidth 64 } else s
    | _ => s

/-- A 4-byte write: the low word of a 64-bit register is held until its high word arrives (R369). -/
def State.writeHalf (s : State) (fn o : Nat) (w : Word) : State :=
  let f := s.func fn
  if wideReg o then s.setFunc fn { f with low := Store.set 0 o w f.low }
  else if 4 ≤ o ∧ wideReg (o - 4) then s.setWide fn (o - 4) (w ++ Store.get 0 (o - 4) f.low)
  else s.setNarrow fn o w

/-- Whether a write reaches the reliability policy register, whose change is logged. -/
def policyWrite (fn offset : Nat) : Bool := decide (fn < 8 ∧ offset / 8 = 0x870 / 8)

/-- REGISTER_WRITE (R369). A write of the reliability policy is held while the log has no room for its entry (R360). -/
def execRegisterWrite (fn offset width : Nat) (w : DWord) (s : State) : Outcome State Fault Refusal :=
  event (!policyWrite fn offset || s.recovery || !s.logFull) (if 8 ≤ fn ∨ s.recovery then s
    else if width = 8 ∧ offset % 8 = 0 then
      (if wideReg offset then s.setWide fn offset w
       else (s.setNarrow fn offset (w.setWidth 32)).setNarrow fn (offset + 4) (w.extractLsb' 32 32))
    else if width = 4 ∧ offset % 4 = 0 then s.writeHalf fn offset (w.setWidth 32)
    else s)

/-! ### Register reads (R4, R369) -/

/-- The 64-bit register at an offset as it reads: one that is write-only reads zero, and a package register outside function 0
too. -/
def State.reg64 (s : State) (fn o : Nat) : Option DWord :=
  let f := s.func fn
  let pkg := fun (w : DWord) => some (if fn = 0 then w else 0)
  if o < 0x800 then if o % 32 = 0 then some (s.queue fn (o / 32)).base else none
  else if 0x1000 ≤ o ∧ o < 0x1020 then pkg ((Store.get 0 ((o - 0x1000) / 8) s.coreMap).setWidth 64)
  else if 0x1020 ≤ o ∧ o < 0x1040 then pkg ((Store.get 0 ((o - 0x1020) / 8) s.fence).setWidth 64)
  else if 0x920 ≤ o ∧ o < 0x940 then some (Store.get 0 ((o - 0x920) / 8) f.metreg)
  else
    match o with
    | 0x800 => some f.fqbase
    | 0x820 | 0x848 => some 0
    | 0x840 => some f.ptroot
    | 0x860 => some f.annwin
    | 0x868 => some f.backwin
    | 0x900 => some f.metbal
    | 0x908 => some f.metfill
    | 0x910 => some f.metcap
    | 0x1048 => pkg s.pwrcap
    | _ => none

/-- A word of a link's error log as it reads (R372). -/
def Link.logWord (l : Link) (k : Nat) : Word :=
  match k with
  | 0 => l.crcErr
  | 1 => l.retrains
  | 2 => l.authErr
  | _ => (l.authEpoch.setWidth 32 <<< 16) ||| l.authPeer.setWidth 32

/-- The 32-bit register at an offset as it reads: what a W1C field holds is its state; a write-only register, a reserved bit and
an offset with no register read zero. -/
def State.reg32 (s : State) (fn o : Nat) : Word :=
  let f := s.func fn
  if o < 0x800 then
    match o % 32 with
    | 8 => (s.queue fn (o / 32)).ctl
    | 0xC => (s.queue fn (o / 32)).read
    | _ => 0
  else if 0x1100 ≤ o ∧ o < 0x1220 then
    if fn = 0 then (Store.get ({} : Link) ((o - 0x1100) / 16) s.links).logWord (o % 16 / 4) else 0
  else
    match o with
    | 0x808 => f.fqctl
    | 0x80C => f.fqwrite
    | 0x810 => f.fqread
    | 0x850 => f.xldone
    | 0x870 => f.policy
    | 0x878 => f.injlim
    | 0x880 => f.fstatus
    | 0xA00 => f.secmode.setWidth 32
    | 0x1040 => if fn = 0 then s.powerCmd else 0
    | _ => 0

/-- What a host read of the aligned word at an offset of a function's register block returns (R4, R369). A read changes nothing;
while only the recovery mailbox is exposed no register is read (R371). -/
def State.readRegister (s : State) (fn o : Nat) : Word :=
  if 8 ≤ fn ∨ s.recovery ∨ o % 4 ≠ 0 then 0
  else
    match s.reg64 fn (o / 8 * 8) with
    | some w => w.extractLsb' (8 * (o % 8)) 32
    | none => s.reg32 fn o

end Sys2Proof.Machine
end

