-- ==== Sys2Proof/Machine/Link.lean ====
section
/-! DEFINITION. Links: flits, retries, keys and epochs (R321, R322, R372), the load field and the injection regulator
(R324). -/

namespace Sys2Proof.Machine

open Host (Outcome)

/-! ### Flits (R321) -/

/-- The 12 header bytes of a flit. -/
def flitHeader (f : Flit) : List Byte :=
  leBytes 12 (pack [(0, f.sequence.toNat), (32, f.acknowledged.toNat), (64, f.kind.toNat), (72, f.units.toNat),
    (80, f.epoch.toNat)])

/-- Bytes 0 to 251. -/
def flitCovered (f : Flit) : List Byte := flitHeader f ++ leBytes 224 f.body.toNat ++ leBytes 16 f.tag.toNat

/-- Whether a flit's CRC holds. -/
def flitSound (f : Flit) : Bool := decide (f.crc = Config.crc32 (flitCovered f))

/-- With the CRC of its bytes. -/
def flitClose (f : Flit) : Flit := { f with crc := Config.crc32 (flitCovered f) }

/-- The counter of a control flit: bytes 12 to 15. -/
def flitCounter (f : Flit) : Word := f.body.setWidth 32

/-- A GCM nonce: epoch, sending peer and port, whether the flit is a control flit, sequence or counter. -/
def flitNonce (epoch : BitVec 16) (peer : Peer) (port : BitVec 5) (ctl : Bool) (n : Word) : BitVec 96 :=
  BitVec.ofNat 96 (pack [(0, n.toNat), (62, if ctl then 1 else 0), (63, port.toNat), (68, peer.toNat), (80, epoch.toNat)])

/-- A data flit's tag. -/
def flitDataTag (f : Flit) (key : BitVec 256) (peer : Peer) (port : BitVec 5) : BitVec 128 :=
  Config.gcmTag key (flitNonce f.epoch peer port false f.sequence) (flitHeader f) (leBytes 224 f.body.toNat)

/-- A control flit's tag: no ciphertext, the header and bytes 12 to 235 as additional data. -/
def flitCtlTag (f : Flit) (key : BitVec 256) (peer : Peer) (port : BitVec 5) : BitVec 128 :=
  Config.gcmTag key (flitNonce f.epoch peer port true (flitCounter f)) (flitHeader f ++ leBytes 224 f.body.toNat) []

/-! ### Sending -/

/-- The 224 bytes of a flit's body. -/
def flitBytes (bs : List Byte) : BitVec 1792 := BitVec.ofNat 1792 (leNat bs)

/-- The highest data sequence a link has received in order: one below the next it expects. -/
def Link.ackd (l : Link) : Word := l.recvSeq - 1

/-- A control flit of a link, and the link with its counter advanced. -/
def Link.control (l : Link) (peer : Peer) (port : Nat) (kind : Byte) (seq : Word) : Link × Flit :=
  let f : Flit := { sequence := seq, acknowledged := l.ackd, kind := kind, epoch := l.epoch,
                    body := l.ctlOut.setWidth 1792 }
  ({ l with ctlOut := l.ctlOut + 1 }, flitClose { f with tag := flitCtlTag f l.key peer (BitVec.ofNat 5 port) })

/-- A data flit sealed under a link's key and epoch: its 224 payload bytes encrypted. -/
def Link.seal (l : Link) (peer : Peer) (port : Nat) (seq : Word) (units : Byte) (ack : Word) (plain : BitVec 1792) : Flit :=
  let p := BitVec.ofNat 5 port
  let f : Flit := { sequence := seq, acknowledged := ack, units := units, epoch := l.epoch,
                    body := flitBytes (Config.gcmSeal l.key (flitNonce l.epoch peer p false seq) (leBytes 224 plain.toNat)) }
  flitClose { f with tag := flitDataTag f l.key peer p }

/-- A link in its next key epoch: the stored flits are encrypted again under the new key with their same sequences (R322,
R372). -/
def Link.rekeyed (l : Link) (peer : Peer) (port : Nat) : Link :=
  let n : Link := { l with epoch := l.epoch + 1, key := Config.nextKey l.key, ctlOut := 0, ctlIn := none }
  let again := fun (f : Flit) =>
    n.seal peer port f.sequence f.units f.acknowledged
      (flitBytes (Config.gcmOpen l.key (flitNonce l.epoch peer (BitVec.ofNat 5 port) false f.sequence) (leBytes 224 f.body.toNat)))
  { n with stored := l.stored.map again }

/-- A link's record changed. -/
def State.setLink (s : State) (port : Nat) (l : Link) : State := { s with links := Store.put port l s.links }

/-- Flits sent on a port. -/
def State.sendFlits (s : State) (port : Nat) (fs : List Flit) : State :=
  { s with outbox := s.outbox ++ fs.map (Msg.flit port) }

/-- A retry request sent, naming the next sequence expected. -/
def State.askRetry (s : State) (port : Nat) (l : Link) : State :=
  let r := l.control s.peer port 2 l.recvSeq
  (s.setLink port r.1).sendFlits port [r.2]

/-- A link rekeys: a rekey flit under the old key names the next data sequence, and the new epoch begins. -/
def State.rekey (s : State) (port : Nat) (l : Link) : State :=
  let r := l.control s.peer port 3 l.sendSeq
  let n := r.1.rekeyed s.peer port
  (s.setLink port n).sendFlits port (r.2 :: n.stored)

/-! ### Receiving (R322) -/

/-- A counter that saturates (R372). -/
def satUp (w : Word) : Word := if w = BitVec.allOnes 32 then w else w + 1

/-- A flit that failed its CRC: a retry is asked for. Failures of the data flit that is next in order are counted, the first
and its retries; a flit that follows it, or a control flit, counts for none. -/
def State.badCrc (s : State) (port : Nat) (l : Link) (f : Flit) : State :=
  let next := decide (f.kind = 0) && decide (f.sequence = l.recvSeq)
  s.askRetry port { l with crcErr := satUp l.crcErr, retries := l.retries + if next then 1 else 0 }

/-- A flit whose tag fails: it is discarded, the link retrains and rekeys, and the failure is logged and reported to
function 0 (R322, R372). -/
def State.authFailure (s : State) (port : Nat) (l : Link) (f : Flit) : State :=
  let g := s.func 0
  let s1 := s.setFunc 0 { g with tele := { g.tele with auth := g.tele.auth + 1 } }
  s1.rekey port { l with authErr := satUp l.authErr, authPeer := l.far, authEpoch := f.epoch, retrains := satUp l.retrains,
                         retries := 0 }

/-- The stored flits the other end has not acknowledged. -/
def Link.trim (l : Link) (ack : Word) : Link := { l with stored := l.stored.filter (fun f => above f.sequence ack) }

/-- A data flit that passed its CRC and tag: taken if it is the next in order, discarded if it was taken before (R262), and
otherwise asked for again. -/
def State.takeData (s : State) (port : Nat) (l : Link) (f : Flit) : State :=
  if f.sequence = l.recvSeq then s.setLink port ({ l with recvSeq := l.recvSeq + 1, retries := 0 }.trim f.acknowledged)
  else if above l.recvSeq f.sequence then s.setLink port (l.trim f.acknowledged)
  else s.askRetry port l

/-- DATA_FLIT (R321, R322). A flit of a type that has no meaning is discarded. -/
def execDataFlit (port : Nat) (f : Flit) (s : State) : Outcome State Fault Refusal :=
  match Store.find port s.links with
  | none => .refused .notEnabled
  | some l =>
    if f.kind = 1 ∨ f.kind = 2 ∨ f.kind = 3 then .refused .notEnabled
    else if !flitSound f then .next (s.badCrc port l f)
    else if f.kind ≠ 0 then .next s
    else if f.tag ≠ flitDataTag f l.key l.far (Config.farPort port) then .next (s.authFailure port l f)
    else .next (s.takeData port l f)

/-- A control flit: its CRC, its counter above the last one accepted, its tag; then what it asks for. -/
def State.control (s : State) (port : Nat) (kind : Byte) (f : Flit) (act : State → Link → State) :
    Outcome State Fault Refusal :=
  match Store.find port s.links with
  | none => .refused .notEnabled
  | some l =>
    if f.kind ≠ kind then .refused .notEnabled
    else if !flitSound f then .next (s.badCrc port l f)
    else if (match l.ctlIn with | some c => decide ((flitCounter f).toNat ≤ c.toNat) | none => false) then .next s
    else if f.tag ≠ flitCtlTag f l.key l.far (Config.farPort port) then .next (s.authFailure port l f)
    else .next (act s { l with ctlIn := some (flitCounter f) })

/-- IDLE_FLIT (R321): it carries an acknowledgement. -/
def execIdleFlit (port : Nat) (f : Flit) (s : State) : Outcome State Fault Refusal :=
  s.control port 1 f (fun s1 l => s1.setLink port (l.trim f.acknowledged))

/-- RETRY_REQUEST (R322): the stored flits are sent again from the named sequence on, unchanged. -/
def execRetryRequest (port : Nat) (f : Flit) (s : State) : Outcome State Fault Refusal :=
  s.control port 2 f (fun s1 l =>
    (s1.setLink port l).sendFlits port (l.stored.filter (fun g => !above f.sequence g.sequence)))

/-- The last data sequence of an epoch's numbering (R322). -/
def lastSeq : Word := 0x7FFFFFFF

/-- REKEY_FLIT (R322): the link moves to the next key epoch. Where the other end's sequences are used up, they begin
again. -/
def execRekeyFlit (port : Nat) (f : Flit) (s : State) : Outcome State Fault Refusal :=
  s.control port 3 f (fun s1 l =>
    let n := (if l.recvSeq = lastSeq ∧ f.sequence = 0 then { l with recvSeq := 0 } else l).rekeyed s.peer port
    (s1.setLink port n).sendFlits port n.stored)

/-- LINK_RETRAIN (R322): after sixteen failed retries of one flit, its first failure not being one, the link trains anew and
resumes at the next expected sequence. -/
def execLinkRetrain (port : Nat) (s : State) : Outcome State Fault Refusal :=
  match Store.find port s.links with
  | none => .refused .notEnabled
  | some l => event (decide (17 ≤ l.retries)) (s.askRetry port { l with retrains := satUp l.retrains, retries := 0 })

/-- Whether a link's data sequence or control counter is at its end (R322). -/
def Link.exhausted (l : Link) : Bool :=
  (decide (l.sendSeq = lastSeq) && l.stored.isEmpty) || decide (lastSeq.toNat ≤ l.ctlOut.toNat + 1)

/-- SEQUENCE_EXHAUSTION (R322): the link rekeys. It comes before anything else (`State.due`), so that neither number reaches 2^31. -/
def execSequenceExhaustion (port : Nat) (s : State) : Outcome State Fault Refusal :=
  match Store.find port s.links with
  | none => .refused .notEnabled
  | some l =>
    event l.exhausted
      (s.rekey port (if l.sendSeq = lastSeq ∧ l.stored = [] then { l with sendSeq := 0 } else l))

/-- LINK_TRAINING (R372): the exchange yields the key of epoch 0. There are 18 ports (R1). -/
def execLinkTraining (port : Nat) (key : BitVec 256) (s : State) : Outcome State Fault Refusal :=
  let l := Store.get ({} : Link) port s.links
  event (decide (port < 18))
    (s.setLink port { l with key := key, epoch := 0, sendSeq := 0, recvSeq := 0, ctlOut := 0, ctlIn := none, stored := []
                             retries := 0 })

/-! ### Flits for the messages that leave (R320, R322) -/

/-- The peer a message goes to, if it goes to one. -/
def msgTo : Msg → Option Peer
  | .route d _ | .request d _ | .answer d _ _ | .acked d _ | .recall d _ _ | .grant d _ _
  | .writeBack d _ _ _
  | .signal d _ _ _ | .pass d _ | .verdict d _ _ _ | .published d _ | .startPass d _ => some d
  | .marks h _ => some (peerOf h)
  | _ => none

/-- The first hop toward a peer: the peer itself if a live port, or a relay, leads there, else the first of the path to its own
memory (R320). -/
def State.hopTo (s : State) (p : Peer) : Peer :=
  if s.liveHop p then p
  else
    match s.routeStore { fab := p ++ (0 : BitVec 45) } with
    | .ok (_, h) => h.path.headD p
    | .error _ => p

/-- The port toward a hop: its own, or one to the lowest pod peer that can relay (R320). -/
def State.portTo (s : State) (p : Peer) : Option Nat :=
  let upTo := fun (q : Peer) => (s.links.find? (fun c => c.2.up && decide (c.2.far = q))).map Prod.fst
  match upTo p with
  | some c => some c
  | none => if s.links.any (fun c => !c.2.trunk && decide (c.2.far = p)) then (s.relayFor p).bind upTo else Option.none

/-- The next message of the outbox put in a data flit on its port: a link keeps at most 256 unacknowledged flits, and uses
no sequence past the last of its numbering. A message to no peer needs none. -/
def State.frameNext (s : State) : State :=
  match s.outbox[s.framed]? with
  | none => s
  | some m =>
    match msgTo m with
    | none => { s with framed := s.framed + 1 }
    | some p =>
      match s.portTo (s.hopTo p) with
      | none => { s with framed := s.framed + 1 }
      | some port =>
        let l := Store.get ({} : Link) port s.links
        if 256 ≤ l.stored.length ∨ l.sendSeq = lastSeq then s
        else
          let f := l.seal s.peer port l.sendSeq ((Config.flitUnits s.framed).setWidth 8) l.ackd (Config.flitBody s.framed)
          ({ s with framed := s.framed + 1 }.setLink port { l with sendSeq := l.sendSeq + 1, stored := l.stored ++ [f] }).sendFlits
            port [f]

/-! ### The load field and the injection regulator (R324) -/

/-- LOAD_FIELD_DECAY (R324): a load field falls by one for every 65,536 cycles without a response. -/
def execLoadFieldDecay (p : Peer) (s : State) : Outcome State Fault Refusal :=
  let l := Store.get 0 p.toNat s.loads
  let t := Store.get 0 p.toNat s.loadAt
  event (decide (l ≠ 0) && decide (t + 65536 ≤ s.now))
    { s with loads := Store.set 0 p.toNat (l - 1) s.loads, loadAt := Store.put p.toNat (t + 65536) s.loadAt }

/-- Bytes the regulator of a function admits toward a holder in 65,536 cycles: INJLIM × (8 − L) / 8. -/
def State.injectionRoom (s : State) (fn : Nat) (p : Peer) : Nat :=
  let u := if (s.func fn).injlim = 0 then 800 else (s.func fn).injlim.toNat
  u * (8 - (Store.get 0 p.toNat s.loads).toNat) * 250 * 65536 / (8 * max s.clock 1)

/-- INJECTION_REGULATOR_ADMIT (R324): a held request goes out while the running period has room. -/
def execInjectionRegulatorAdmit (r : Nat) (s : State) : Outcome State Fault Refusal :=
  match Store.find r s.reqs with
  | none => .refused .notEnabled
  | some o =>
    let period := s.now / 65536
    let sent := if period = s.sentPeriod then s.sent else []
    let n := Store.get 0 o.dst.toNat sent + o.req.width
    event (decide (o.hold = .injection) && decide (n ≤ s.injectionRoom o.fn o.dst))
      { s with reqs := Store.put r { o with hold := .none } s.reqs, sent := Store.set 0 o.dst.toNat n sent
               sentPeriod := period, outbox := s.outbox ++ [.request o.dst o.req] }

end Sys2Proof.Machine
end

