-- ==== Sys2Proof/Machine/Collective.lean ====
section
/-! DEFINITION. Collective bindings: firing chunks (R331), ring passes (R332 to R335), verdicts and the broadcast path (R333,
R336, R337). -/

namespace Sys2Proof.Machine

open Host (Outcome)

/-! ### Elements of a chunk (R328, R334, R335) -/

/-- The type of a descriptor's format code. -/
def collTy (fmt : Nat) : Ty :=
  match fmt with
  | 0 => .f32 | 1 => .f16 | 2 => .bf16 | 5 => .t8e0 | 6 => .t8e1 | 7 => .t6e0 | 8 => .t6e1 | 9 => .s8 | 0xA => .n8
  | 0xB => .s4 | 0xC => .n4 | 0xD => .s32 | _ => .n32

/-- The elements of a chunk that is not narrow: FP32 words or integers. -/
def wideElems (d : BitVec 512) (bs : List Byte) : List Nat :=
  let n := dE d
  if dWidth d = 32 then (List.range n).map (fun e => (wordOf bs (4 * e)).toNat)
  else (List.range n).map (fun e => (convert (collTy (dFormat d)) .f32 .rne false (halfAt bs (2 * e)).toNat).1)

/-- A late value alone, weighted for a lag (R334). -/
def lateAlone (fmt op lag v : Nat) : Nat :=
  if op ≠ 0 ∨ lag = 0 then v
  else if fmt = 0xD ∨ fmt = 0xE then
    (shiftEven (numOf (decide (fmt = 0xD)) 32 (BitVec.ofNat 64 v)) lag % 2 ^ 32).toNat
  else (f32.scale .rne false v (-(lag : Int))).1

/-- A partial with a chunk's elements added (R334). -/
def addWide (d : BitVec 512) (lag : Nat) (part : List DWord) (xs : List Nat) : List DWord :=
  let f := dFormat d
  let o := dCombine d
  if part = [] then xs.map (fun v => BitVec.ofNat 64 (lateAlone f o lag v))
  else part.zipWith (fun a v => BitVec.ofNat 64 (combineLate f o lag a.toNat v)) xs

/-- The element codes of block b of a narrow chunk. -/
def blockCodes (d : BitVec 512) (bs : List Byte) (b : Nat) : List Nat :=
  let w := dWidth d
  let v := leNat ((bs.drop (4 * w * b)).take (4 * w))
  (List.range 32).map (fun e => v / 2 ^ (w * e) % 2 ^ w)

/-- The scale bytes of a narrow chunk, in block order. -/
def blockScales (d : BitVec 512) (bs : List Byte) : List Byte :=
  (List.range (dE d / 32)).map (fun b => bs.getD (dE d * dWidth d / 8 + b) 0)

/-- The larger scale of each block. -/
def maxScales (a b : List Byte) : List Byte :=
  if a = [] then b else a.zipWith (fun x y => if x.toNat < y.toNat then y else x) b

/-- An element in units of 2^(S - 167), halves to even; none for a NaR. -/
def inUnits (t : Ty) (sc S : Nat) (c : Nat) : Option Int :=
  match elemRead t c with
  | .fin neg m e => some (signed neg (roundShift .rne neg m (e + sc - S + 40)).1)
  | _ => none

/-- Two exact sums combined. -/
def combineExact (op : Nat) (a b : Int) : Int := if op = 0 then a + b else if op = 1 then min a b else max a b

/-- A partial of exact sums moved to coarser units. -/
def rescale (part : List DWord) (old new : List Byte) : List DWord :=
  part.mapIdx (fun e v => BitVec.ofInt 64 (shiftEven v.toInt ((new.getD (e / 32) 0).toNat - (old.getD (e / 32) 0).toNat)))

/-- A narrow chunk added to a partial of exact sums: the sums, and the scales with 0xFF where an element is NaR. -/
def addNarrow (d : BitVec 512) (lag : Nat) (scales : List Byte) (part : List DWord) (bs : List Byte) :
    List DWord × List Byte :=
  let t := collTy (dFormat d)
  let own := blockScales d bs
  let blocks := (List.range (dE d / 32)).map (fun b =>
    let S := scales.getD b 0
    let xs := (blockCodes d bs b).map (inUnits t (own.getD b 0).toNat S.toNat)
    if S = 0xFF ∨ xs.any Option.isNone then (List.replicate 32 (0 : Int), (0xFF : Byte), false)
    else (xs.map (fun x => if dCombine d = 0 then shiftEven (x.getD 0) lag else x.getD 0), S, true))
  let vs := blocks.flatMap (fun b => b.1)
  (if part = [] then vs.map (BitVec.ofInt 64)
   else part.zipWith (fun a v => BitVec.ofInt 64 (combineExact (dCombine d) a.toInt v)) vs, blocks.map (fun b => b.2.1))

/-- A narrow block quantised once from its exact sums (R335, R201): its codes and its scale. -/
def quantBlock (t : Ty) (S : Byte) (vs : List DWord) : List Nat × Byte :=
  if S = 0xFF then (vs.map (fun _ => narElem t), 0xFF)
  else
    let xs := vs.map (fun v => Num.fin (decide (v.toInt < 0)) v.toInt.natAbs ((S.toNat : Int) - 167))
    let sc := chooseScale t xs
    (xs.map (fun x => (quantElem t .rne sc x).1), BitVec.ofNat 8 sc)

/-- The combined chunk's bytes, as the last member makes them (R334, R335). -/
def passResult (p : Pass) : List Byte :=
  let d := p.desc
  let t := collTy (dFormat d)
  if dNarrow d then
    let bl := (List.range (dE d / 32)).map (fun b => quantBlock t (p.units.getD b 0) ((p.elems.drop (32 * b)).take 32))
    bl.flatMap (fun b => leBytes (4 * dWidth d) (packElems (dWidth d) b.1)) ++ bl.map Prod.snd
  else if dWidth d = 32 then p.elems.flatMap (fun v => leBytes 4 v.toNat)
  else p.elems.flatMap (fun v => leBytes 2 (convert .f32 t .rne false (v.toNat % 2 ^ 32)).1)

/-! ### Bindings and their passes -/

/-- The chunks whose reduce path starts at a member (R332). -/
def Coll.mine (c : Coll) : List Nat := (List.range (dC c.desc)).filter (fun k => decide (k % dN c.desc = c.me))

/-- Whether a member has fired all its chunks (R332). -/
def Coll.ready (c : Coll) : Bool := decide (dC c.desc ≤ c.fired.length)

/-- The binding here that a pass belongs to: by knot and round, or by its launch where there is no knot. -/
def State.collOf (s : State) (p : Pass) : Option (Nat × Coll) :=
  match p.knot with
  | some k => s.colls.find? (fun c => decide (c.2.knot = some k) && decide (c.2.round = p.round))
  | none => (Store.find p.launch s.colls).map (fun c => (p.launch, c))

/-- A binding changed. -/
def State.setColl (s : State) (l : Nat) (c : Coll) : State := { s with colls := Store.put l c s.colls }

/-- A pass's round as a binding that no launch has: its passes start here all the same (R332, R333). -/
def State.unboundOf (s : State) (p : Pass) : Coll :=
  let c : Coll := { fn := p.fn, ceil := 0, desc := p.desc, bind := BitVec.ofNat 512 (p.round.toNat * 2 ^ 256), members := p.members
                    me := p.members.findIdx (fun q => decide (q = s.peer)), knot := p.knot }
  (s.unbound.find? c.same).getD c

/-- What this member holds of a pass's round: a launch's binding, or the round alone. -/
def State.roundOf (s : State) (p : Pass) : Option Nat × Coll :=
  match s.collOf p with
  | some (l, c) => (some l, c)
  | none => (none, s.unboundOf p)

/-- That changed. -/
def State.setRound (s : State) (k : Option Nat) (c : Coll) : State :=
  match k with
  | some l => s.setColl l c
  | none => if c.knot.isNone then s else { s with unbound := s.unbound.filter (fun d => !c.same d) ++ [c] }

/-- Whether a chunk of a pass's round has been published here. -/
def State.closedHere (s : State) (p : Pass) : Bool :=
  s.lastRound.any (fun r => decide (some r.1 = p.knot) && !above p.round r.2)

/-- A binding whose launch is gone and whose chunks are all settled is forgotten. -/
def State.tidyColl (s : State) (l : Nat) : State :=
  if s.collOver l ∧ (Store.find l s.launches).isNone then { s with colls := Store.drop l s.colls } else s

/-- The peer of the member that a pass's hop number h names. -/
def passPeer (p : Pass) (h : Nat) : Peer :=
  let n := dN p.desc
  p.members.getD ((p.chunk + (if p.phase = 2 then h - 1 else h)) % n) 0

/-- Whether a peer can be reached (R244 step 6). -/
def State.reachable (s : State) (p : Peer) : Bool :=
  match s.routeStore { fab := p ++ (0 : BitVec 45) } with
  | .ok _ => true
  | .error _ => false

/-- A pass put aside here. -/
def State.keepPass (s : State) (p : Pass) : State := { s with passes := s.passes ++ [p] }

/-- The function whose meter a pass is charged to here: that of the launch bound to its round here; DESIGN CHOICE (log 24): where
there is none, the function of the number that the launch it started for had. -/
def State.passFn (s : State) (p : Pass) : Nat := ((s.collOf p).map (fun c => c.2.fn)).getD p.fn

/-- What a pass pays the meter under. -/
def passToll (p : Pass) : Toll := .pass p.launch p.knot p.chunk p.turn p.phase p.hop

/-- Whether the meter admits something of a pass that is to leave. -/
def State.passPays (s : State) (p : Pass) (dst : Peer) : Bool :=
  decide (dst = s.peer ∨ p.label ≠ 2) || s.admits (s.passFn p) 1

/-- Where a pass goes next: on, past members that cannot be reached (R333); it waits; or its path is at its end. -/
inductive Onward where
  | go (p : Pass) (dst : Peer)
  | hold
  | stop (p : Pass)
  deriving DecidableEq, Repr

/-- The next reachable member of a pass's path; `last` is its number of hops. -/
def State.onward (s : State) (last : Nat) : Nat → Pass → Onward
  | 0, p => .stop p
  | k + 1, p =>
    if last ≤ p.hop then .stop p
    else
      let d := passPeer p p.hop
      if decide (d = s.peer) || s.reachable d then .go p d
      else if p.knot.isNone ∧ p.phase ≠ 2 then .hold
      else s.onward last k { p with hop := p.hop + 1 }

/-- A pass sent to another package, once the meter has admitted what a METERED chunk takes out (R336, R357), and whether it
went. -/
def State.sendPass (s : State) (p : Pass) (dst : Peer) (m : Msg) : State × Bool :=
  if dst = s.peer then (s.keepPass p, true)
  else
    let t := if p.label = 2 then s.toll (s.passFn p) (passToll p) ((dChunk p.desc + 31) / 32) else (s, true)
    if t.2 then ({ t.1.tollPaid (passToll p) with outbox := t.1.outbox ++ [m] }, true) else t

/-- A pass sent, or put aside here until it may go. -/
def State.sendOrKeep (s : State) (p : Pass) (dst : Peer) : State :=
  let r := s.sendPass p dst (.pass dst p)
  if r.2 then r.1 else r.1.keepPass p

/-! ### Verdicts (R333) -/

/-- A partial published: it goes round the broadcast path, from the last member on. -/
def State.publish (s : State) (p : Pass) : State :=
  s.keepPass { p with phase := 2, hop := dN p.desc, bytes := passResult p, elems := [], sent := false, done := 0 }

/-- The member a chunk's reduce path starts at. -/
def passHead (p : Pass) : Peer := p.members.getD (p.chunk % dN p.desc) 0

/-- A partial that came back to its starting member waits there for the round's next pass. -/
def State.land (s : State) (b : Pass) : State :=
  let r := s.roundOf b
  (s.keepPass b).setRound r.1 { r.2 with running := r.2.running.erase b.chunk }

/-- A partial on its way back to its starting member. -/
def State.sendBack (s : State) (b : Pass) : State :=
  if passHead b = s.peer then s.land b else s.sendOrKeep b (passHead b)

/-- A partial that published nothing goes back to its starting member. -/
def State.giveBack (s : State) (p : Pass) : State := s.sendBack { p with hop := 0, back := true, turn := p.turn + 1 }

/-- The verdict's effect on one partial. -/
def State.decide_ (s : State) (close : Bool) (p : Pass) : State := if close then s.publish p else s.giveBack p

/-- The marks sent to the knot's home. -/
def State.sendMarks (s : State) (home : Fab) (p : Pass) : State :=
  let here := match s.routeStore { fab := home } with | .ok (_, h) => decide (h.peer = s.peer) | .error _ => false
  if here then { s with inputs := s.inputs ++ [.verdict home p] } else { s with outbox := s.outbox ++ [.marks home p] }

/-- Whether an answer is to a pass. -/
def Verdict.to (v : Verdict) (p : Pass) : Bool :=
  decide (p.knot = some v.knot) && decide (v.round = p.round) && decide (v.turn = p.turn)

/-- With an answer kept as long as partials of its pass may still end here: this member is the last of a path also where those
after it cannot be reached (R333). -/
def State.keepVerdict (s : State) (p : Pass) (v : Verdict) : State :=
  let rest := s.verdicts.filter (fun w => !w.to p)
  { s with verdicts := if v.left = [] then rest else rest ++ [v] }

/-- What is kept for passes of a chunk's round, once its pass `t` and those before it are over: nothing of them is to come here. -/
def State.passOver (s : State) (p : Pass) (t : Nat) : State :=
  let old := fun (knot : Option Fab) (round : BitVec 16) (turn : Nat) => decide (knot = p.knot) && decide (round = p.round) && decide (turn < t)
  { s with
    verdicts := (s.verdicts.map (fun v => if old (some v.knot) v.round v.turn then { v with left := v.left.erase p.chunk } else v)).filter
      (fun v => !v.left.isEmpty)
    fixedAt := (s.fixedAt.map (fun f => if old f.knot f.round f.turn && !f.seen.contains p.chunk then { f with seen := p.chunk :: f.seen }
      else f)).filter (fun f => decide (f.seen.length < dC p.desc) || !(decide (f.knot = p.knot) && decide (f.round = p.round))) }

/-- The end of a reduce path: the second traversal of a narrow format, or a verdict. -/
def State.pathEnd (s : State) (p : Pass) : State :=
  if p.phase = 0 then
    s.sendOrKeep { p with phase := 1, hop := 0, elems := rescale p.elems p.units p.scales } (passHead p)
  else
    let q : Pass := { p with units := p.scales, hop := dN p.desc }
    match p.knot with
    | none => s.publish q
    | some home =>
      match s.verdicts.find? (fun v => v.to q && v.left.contains q.chunk) with
      | some v => (s.keepVerdict q { v with left := v.left.erase q.chunk }).decide_ v.close q
      | none =>
        let s1 := s.keepPass q
        if p.chunk = 0 then s1.sendMarks home q else s1

/-- A pass sent on from here along its reduce path, or kept where it must wait. -/
def State.sendOn (s : State) (p : Pass) : State :=
  match s.onward (dN p.desc) (dN p.desc) p with
  | .stop q => s.pathEnd q
  | .hold => { (s.keepPass p) with ringWaits := if s.passes.contains p then s.ringWaits else s.ringWaits + 1 }
  | .go q d => s.sendOrKeep q d

/-! ### A member's part in a pass (R332) -/

/-- Launches of earlier rounds of a knot whose chunks, all fired, still wait in staging. A member that ended before it had fired
them all is never ready, and they stay (R337). -/
def State.lateLaunches (s : State) (p : Pass) : List Nat :=
  if p.knot.isNone then []
  else
    ((s.staged.filter (fun f => decide (f.knot = p.knot) && above p.round f.round && f.ready)).map (·.launch)).eraseDups

/-- Whether what a member adds was fixed for a pass. -/
def Fixed.to (f : Fixed) (p : Pass) : Bool := decide (f.knot = p.knot) && decide (f.round = p.round) && decide (f.turn = p.turn)

/-- What this member adds to a pass, fixed when its first chunk comes. A chunk that comes a second time is of another round of
that number, the knot begun anew. -/
def State.fixedFor (s : State) (p : Pass) : Fixed :=
  match s.fixedAt.find? (fun f => f.to p && !f.seen.contains p.chunk) with
  | some f => f
  | none =>
    { knot := p.knot, round := p.round, turn := p.turn, late := s.lateLaunches p
      own := match s.collOf p with | some (l, c) => if c.ready then some l else none | none => none }

/-- With that recorded, where there is a knot, until every chunk of the pass has been here. -/
def State.fixPass (s : State) (p : Pass) : State :=
  let f := s.fixedFor p
  let g := { f with seen := if p.phase = 0 then f.seen else p.chunk :: f.seen }
  let rest := s.fixedAt.filter (fun h => !h.to p)
  if p.knot.isNone then s else { s with fixedAt := if dC p.desc ≤ g.seen.length then rest else rest ++ [g] }

/-- A chunk in staging. -/
def State.stagedAt (s : State) (l chunk : Nat) : Option Staged :=
  s.staged.find? (fun f => decide (f.launch = l) && decide (f.chunk = chunk))

/-- A staged chunk added to a pass with a lag; under W = 2 a late chunk's data is not added. -/
def addChunk (p : Pass) (f : Staged) (lag : Nat) : Pass :=
  if lag ≠ 0 ∧ f.weight = 2 then p
  else
    let w := if f.weight = 0 then 0 else lag
    let lab := lmax p.label f.label
    if !dNarrow p.desc then { p with elems := addWide p.desc w p.elems (wideElems p.desc f.bytes), label := lab }
    else if p.phase = 0 then { p with scales := maxScales p.scales (blockScales p.desc f.bytes), label := lab }
    else
      let r := addNarrow p.desc w p.scales p.elems f.bytes
      { p with elems := r.1, scales := r.2, label := lab }

/-- With a member's mark in place of its earlier one of that round. -/
def markPass (p : Pass) (m : PassMark) : Pass :=
  { p with marks := p.marks.filter (fun k => !(decide (k.member = m.member) && decide (k.round = m.round))) ++ [m] }

/-- A staged chunk leaves staging once its last traversal has added it. -/
def State.unstage (s : State) (p : Pass) (l : Nat) : State :=
  if p.phase = 0 then s
  else { s with staged := s.staged.filter (fun f => !(decide (f.launch = l) && decide (f.chunk = p.chunk))) }

/-- This member's late chunks added after its own. -/
def State.addLate (s : State) (me : Nat) : List Nat → Pass → State × Pass
  | [], p => (s, p)
  | l :: t, p =>
    match s.stagedAt l p.chunk with
    | none => s.addLate me t p
    | some f =>
      let q := addChunk p f (p.round - f.round).toNat
      let q1 := if p.phase = 0 then q else markPass q ⟨me, f.round, true, true⟩
      (s.unstage p l).addLate me t q1

/-- A pass as this member leaves it. -/
def State.visit (s : State) (p : Pass) : State × Pass :=
  let me := p.members.findIdx (fun q => decide (q = s.peer))
  let f := s.fixedFor p
  let s1 := (s.fixPass p).passOver p p.turn
  let own := if p.present.getLsbD me then none else f.own.bind (fun l => s1.stagedAt l p.chunk)
  let r : State × Pass := match own with
    | some c =>
      let q := addChunk p c 0
      (s1.unstage p c.launch,
        if p.phase = 0 then q else { (markPass q ⟨me, p.round, true, false⟩) with present := p.present ||| (1#64 <<< me) })
    | none => (s1, if p.present.getLsbD me ∨ p.phase = 0 then p else markPass p ⟨me, p.round, false, false⟩)
  let t := r.1.addLate me f.late r.2
  (t.1, { t.2 with hop := p.hop + 1 })

/-- Whether a pass must wait here for this member (R332): there is no knot, and its chunks are not all fired. -/
def State.mustAwait (s : State) (p : Pass) : Bool :=
  p.knot.isNone && (match s.collOf p with | some (_, c) => !c.ready | none => true)

/-- A pass taken up here. -/
def State.takePass (s : State) (p : Pass) : State :=
  if passPeer p p.hop ≠ s.peer then s.sendOn p
  else if s.mustAwait p then s.keepPass p
  else
    let r := s.visit p
    r.1.sendOn r.2

/-- Whether a pass put aside here can go on now. -/
def State.passMoves (s : State) (p : Pass) : Bool :=
  if p.back then decide (passHead p ≠ s.peer) && s.passPays p (passHead p)
  else
    decide (p.phase ≠ 2) && decide (p.hop < dN p.desc)
      && (if passPeer p p.hop = s.peer then !s.mustAwait p
          else match s.onward (dN p.desc) (dN p.desc) p with
            | .hold => false
            | .go q d => s.passPays q d
            | .stop _ => true)

/-- PASS_ARRIVAL (R332 to R335): a pass comes, or one put aside here goes on. -/
def execPassArrival (p : Pass) (s : State) : Outcome State Fault Refusal :=
  if s.passes.contains p then
    let s1 : State := { s with passes := s.passes.erase p }
    event (s.passMoves p) (if p.back then s1.sendBack p else s1.takePass p)
  else if p.phase = 2 ∨ dN p.desc = 0 ∨ !p.members.contains s.peer then .refused .notEnabled
  else if p.back then .next (s.land p)
  else event (decide (p.hop < dN p.desc)) (s.takePass p)

/-! ### Firing (R331) -/

/-- A chunk's bytes and the highest label of its pages. -/
def State.readChunk (s : State) (who : Who) (fn ceil va : Nat) : List (Nat × Nat) → Fetch (List Byte × Label)
  | [] => .ok ([], 0)
  | p :: t =>
    match s.devRead who fn ceil { trailing := false } (BitVec.ofNat 64 (va + p.1)) p.2 with
    | .ok bs l => (s.readChunk who fn ceil va t).bind fun r => .ok (bs ++ r.1, lmax l r.2)
    | .fault c a => .fault c a
    | .wait s1 => .wait s1

/-- A pass of a binding's chunk as it begins. -/
def Coll.pass (c : Coll) (l chunk : Nat) : Pass :=
  { launch := l, fn := c.fn, knot := c.knot, round := c.round, desc := c.desc, members := c.members, chunk := chunk,
    phase := if dNarrow c.desc then 0 else 1 }

/-- With a member's wish for the next pass of every chunk whose path starts here and that is not settled. -/
def Coll.want (c : Coll) (m : Nat) : Coll :=
  let fresh := (c.mine.filter (fun k => !c.written.contains k)).map (fun k => (k, m))
  { c with wanted := c.wanted ++ fresh.filter (fun w => !c.wanted.contains w) }

/-- A member that has fired its last chunk: its own starting chunks are wanted, and with a knot every other starting member
hears of it, in a start message that names it present (R333). -/
def State.becomeReady (s : State) (l : Nat) : State :=
  match Store.find l s.colls with
  | none => s
  | some c =>
    if !c.ready then s
    else
      let s1 : State := { s.setColl l (c.want c.me) with
        staged := s.staged.map (fun f => if f.launch = l then { f with ready := true } else f) }
      if c.knot.isNone then s1
      else
        let far := (List.range (min (dN c.desc) (dC c.desc))).filter (fun j => decide (j ≠ c.me))
        { s1 with outbox := s1.outbox ++ far.map (fun j =>
            .startPass (c.members.getD j 0) { c.pass l j with present := 1#64 <<< c.me }) }

/-- Bytes of staging that a pass put aside takes: its partial and the scales with it (R332, R333); a published chunk lies there no
more. DESIGN CHOICE (log 24): an element of a partial takes 4 bytes, an exact sum 8. -/
def passHeld (p : Pass) : Nat :=
  if p.phase = 2 then 0 else (if dNarrow p.desc then 8 else 4) * p.elems.length + p.scales.length + p.units.length

/-- Bytes in staging: fired chunks, and passes and partials that wait. -/
def State.stagedBytes (s : State) : Nat :=
  s.staged.foldl (fun n f => n + f.bytes.length) 0 + s.passes.foldl (fun n p => n + passHeld p) 0

/-- Bytes the collective staging holds: 1 GB in each of the eight stacks (R1, R3). -/
def stagingRoom : Nat := 8 * 10 ^ 9

/-- CHUNK_FIRE (R330, R331, R231): a chunk whose strand has ended is read from its source into staging. Empty staging has
room for any chunk, and a chunk may lie in the staging of more than one stack (log entry 24). -/
def execChunkFire (l chunk : Nat) (s : State) : Outcome State Fault Refusal :=
  match Store.find l s.launches, Store.find l s.colls with
  | some L, some c =>
    let who := Who.chunk l chunk
    let n := dChunk c.desc
    let va := bSource c.bind + chunk * dStride c.desc
    if !c.due.contains chunk ∨ L.ending.isSome ∨ L.unacked ≠ [] ∨ s.asking who
        ∨ (s.stagedBytes ≠ 0 ∧ stagingRoom < s.stagedBytes + n) then .refused .notEnabled
    else
      match s.readChunk who c.fn c.ceil va (pageCuts va (n / 4096 + 2) 0 n) with
      | .wait s1 => .next s1
      | .fault k _ => .next ((s.dropBufs who).terminate l k)
      | .ok (bs, lab) =>
        let s1 := s.dropBufs who
        if lab = 3 then .next (s1.terminate l cLabelDown)
        else
          let f : Staged := { launch := l, chunk := chunk, knot := c.knot, round := c.round, weight := kW c.kdesc, desc := c.desc,
                              bytes := bs, label := lab }
          let s2 := { s1 with staged := s1.staged ++ [f] }.setColl l { c with due := c.due.erase chunk, fired := c.fired ++ [chunk] }
          .next ((s2.unreplay l).becomeReady l)
  | _, _ => .refused .notEnabled

/-! ### Starting a pass (R333) -/

/-- The partial a chunk's next pass starts from: the one returned here, or none yet. -/
def State.startFrom (s : State) (l chunk : Nat) (c : Coll) : Pass :=
  match s.passes.find? (fun p => p.back && decide (p.chunk = chunk) && decide (p.knot = c.knot) && decide (p.round = c.round)) with
  | some p => { p with back := false, phase := if dNarrow c.desc then 0 else 1, scales := p.units }
  | none => c.pass l chunk

/-- The round a wish is for: of a launch's binding, or one that no launch here is bound to, this member being cut through as
absent (R332). -/
def State.wishFor (s : State) (l : Nat) (w : PassWish) : Option (Option Nat × Coll) :=
  match w.of_ with
  | none => (Store.find l s.colls).map (fun c => (some l, c))
  | some p => if p.knot.isNone ∨ !p.members.contains s.peer then none else some (s.roundOf p)

/-- PASS_START (R332, R333): a chunk's pass starts here, or the start message of another member makes this member's chunks
wanted. Nothing starts for members that the partial holds already, and a start message of a round that has closed changes
nothing. -/
def execPassStart (l : Nat) (w : PassWish) (s : State) : Outcome State Fault Refusal :=
  let chunk := w.chunk
  let ask := w.ask
  match s.wishFor l w with
  | none => .refused .notEnabled
  | some (k, c) =>
    if k.isNone && w.of_.any s.closedHere then event ask.isSome s else
    let c1 : Coll := match ask with | some m => c.want m | none => c
    let mine : List (Nat × Nat) := c1.wanted.filter (fun w => decide (w.1 = chunk))
    let rest := c1.wanted.filter (fun w => !decide (w.1 = chunk))
    if chunk % max (dN c.desc) 1 ≠ c.me ∨ dC c.desc ≤ chunk ∨ c.written.contains chunk ∨ mine = []
        ∨ (c.knot.isNone ∧ ask.isSome) then .refused .notEnabled
    else if c.running.contains chunk then event ask.isSome (s.setRound k c1)
    else
      let p := s.startFrom (k.getD l) chunk c
      if mine.all (fun w => p.present.getLsbD w.2) then .next (s.setRound k { c1 with wanted := rest })
      else
        let s1 := s.setRound k { c1 with wanted := rest, running := c.running ++ [chunk] }
        let gone := fun (q : Pass) => q.back && decide (q.chunk = chunk) && decide (q.knot = c.knot) && decide (q.round = c.round)
        .next ({ s1 with passes := s1.passes.filter (fun q => !gone q) }.takePass p)

/-! ### The knot's home (R333, R339, R340) -/

/-- The marks of a pass in the order the home applies them: by member, earlier rounds first. -/
def orderedMarks (p : Pass) : List PassMark :=
  (List.range 64).flatMap (fun j =>
    let ms := p.marks.filter (fun m => decide (m.member = j) && m.added)
    ms.filter (·.late) ++ ms.filter (fun m => !m.late))

/-- Contributions applied one after another: the knot, and the reports of stalls. -/
def Knot.applyMarks (k : Knot) (lb : Label) : List PassMark → Knot × List Lag
  | [] => (k, [])
  | m :: t =>
    let r := k.contribute m.member m.round [] lb
    let q := r.1.applyMarks lb t
    (q.1, r.2.2.toList ++ q.2)

/-- An answer to the members of a pass; the one that asked takes the reports of stalls. -/
def State.tellAll (s : State) (p : Pass) (close : Bool) (lag : List Byte) : State :=
  let n := dN p.desc
  (List.range n).foldl (fun t j =>
    let d := p.members.getD j 0
    let g := if j = n - 1 then lag else []
    if d = s.peer then { t with inputs := t.inputs ++ [.verdictAnswer p close g] }
    else { t with outbox := t.outbox ++ [.verdict d p close g] }) s

/-- VERDICT (R333, R339): the home applies the contribution rule to the marks of a pass, and answers. -/
def execVerdict (home : Fab) (p : Pass) (s : State) : Outcome State Fault Refusal :=
  match s.routeStore { fab := home } with
  | .error _ => .refused .notEnabled
  | .ok (e, h) =>
    let q := backingOf e h home
    if h.peer ≠ s.peer ∨ s.inSeal (BitVec.ofNat 57 q) then .refused .notEnabled
    else if s.scrubHeld (BitVec.ofNat 57 q) then .next (s.requeue (.verdict home p))
    else match s.awayIn q 1088 with
    | some a => .next ((s.recallLine a).requeue (.verdict home p))
    | none =>
      let r := (knotOf (s.bytesAt q 1088)).applyMarks p.label (orderedMarks p)
      let close := !above p.round (kClosedTag r.1.desc)
      let k : Knot := if close then r.1 else { r.1 with desc := kSet r.1.desc 224 16 (kShorts r.1.desc + 1) }
      .next ((s.writeAt q k.bytes (s.mem.label q)).tellAll p close (lagsBytes r.2))

/-- The reports of stalls that an answer carries, for the launch whose verdict found them (R340). -/
def State.verdictLag (s : State) (p : Pass) (lag : List Byte) : State :=
  match p.knot with
  | some k =>
    let l := ((s.collOf p).map Prod.fst).getD p.launch
    (lagsOf lag).foldl (fun t g => t.report (s.passFn p) { bytes := lagRecord k g l 0 0 }) s
  | none => s

/-- VERDICT_ANSWER (R333): the partials of the pass whose path ends here are published or go back, those held and those still
to come, whether or not a launch here is bound to the round. -/
def execVerdictAnswer (p : Pass) (close : Bool) (lag : List Byte) (s : State) : Outcome State Fault Refusal :=
  match p.knot with
  | none => .refused .notEnabled
  | some k =>
    let n := dN p.desc
    let v : Verdict := { knot := k, round := p.round, turn := p.turn, close := close, left := [] }
    let mine := fun (q : Pass) => v.to q && decide (q.phase = 1) && decide (q.hop = n) && !q.back
    let held := s.passes.filter mine
    let left := (List.range (dC p.desc)).filter (fun c => !held.any (fun q => decide (q.chunk = c)))
    let s1 := (s.keepVerdict p { v with left := left }).verdictLag p lag
    .next (held.foldl (fun t q => t.decide_ close q) { s1 with passes := s1.passes.filter (fun q => !mine q) })

/-! ### The broadcast path (R333, R336, R337) -/

/-- Whether every part of a result range takes a write of a label; or the cause at which it does not. -/
def State.resultBad (s : State) (c : Coll) (va n : Nat) (lab : Label) : Option Byte :=
  (pageCuts va (n / 4096 + 2) 0 n).findSome? (fun p =>
    match s.judge { fn := c.fn, ceil := c.ceil, write := true, wlab := lab } (BitVec.ofNat 64 (va + p.1)) with
    | .error (k, _) => some k
    | .ok (_, .aper _, _) => some cPageProt
    | .ok _ => none)

/-- The parts of a chunk in aligned sectors of 32 bytes, written one after another from an offset on, until one must wait: the state and the bytes done. -/
def State.putSectors (s : State) (j : Job) (va : Nat) (bs : List Byte) (lab : Label) : Nat → Nat → State × Nat
  | 0, o => (s, o)
  | k + 1, o =>
    if bs.length ≤ o then (s, o)
    else
      let w := min (32 - (va + o) % 32) (bs.length - o)
      match s.devWrite j (va + o) ((bs.drop o).take w) lab true with
      | .ok s1 _ => State.putSectors s1 j va bs lab k (o + w)
      | .wait s1 => (s1, o)
      | .fault _ _ => (s, bs.length)

/-- A published chunk is settled at this member: written, or given up. -/
def State.settleChunk (s : State) (l : Nat) (c : Coll) (chunk : Nat) : State :=
  (s.setColl l { c with written := if c.written.contains chunk then c.written else c.written ++ [chunk]
                        wanted := c.wanted.filter (fun w => !decide (w.1 = chunk)), running := c.running.erase chunk }).tidyColl l

/-- A published chunk heard of here: every pass of it in its round is over, and the round has closed. -/
def State.hearClosed (s : State) (p : Pass) : State :=
  match p.knot with
  | none => s
  | some k =>
    let u := s.unboundOf p
    let s1 := s.passOver p (p.turn + 1)
    { s1 with
      unbound := s1.unbound.filter (fun d => !u.same d)
      lastRound := if s.closedHere p then s1.lastRound else s1.lastRound.filter (fun r => !decide (r.1 = k)) ++ [(k, p.round)] }

/-- A published chunk written here (R336): a page below its label, or one that takes no write, ends the launch and leaves the
region as it was. A launch that is gone writes what it had fired (R337). -/
def State.writeResult (s : State) (l : Nat) (c : Coll) (p : Pass) : State × Pass :=
  let full := { p with done := p.bytes.length }
  let va := bResult c.bind + p.chunk * dStride c.desc
  let live := (Store.find l s.launches).any (fun L => L.ending.isNone)
  if !live ∧ !c.fired.contains p.chunk then (s.settleChunk l c p.chunk, full)
  else
    match (if p.done = 0 then s.resultBad c va p.bytes.length p.label else none) with
    | some k => ((s.settleChunk l c p.chunk).terminate l k, full)
    | none =>
      let who := Who.chunk l p.chunk
      let j : Job := { who := who, x := 0, l := l, el := { trailing := false }
                       launch := { fn := c.fn, queue := 0, packet := BitVec.ofNat 512 (c.ceil * 2 ^ 24) } }
      let r := s.putSectors j va p.bytes p.label (p.bytes.length / 32 + 2) p.done
      let q := { p with done := r.2 }
      if p.bytes.length ≤ r.2 then ((r.1.dropBufs who).settleChunk l c p.chunk, q) else (r.1, q)

/-- A published chunk sent on to the next member of its path, if it has not been. -/
def State.passOn (s : State) (p : Pass) : State × Pass :=
  if p.sent then (s, p)
  else
    let last := 2 * dN p.desc
    match s.onward last last { p with hop := p.hop + 1 } with
    | .go q d =>
      if d = s.peer then (s, { p with sent := true })
      else
        let r := s.sendPass q d (.published d { q with sent := false, done := 0 })
        (r.1, { p with sent := r.2 })
    | _ => (s, { p with sent := true })

/-- BROADCAST_HOP (R333, R336, R337): a published chunk comes, or one that is here goes on: it is sent on, and written to
the result region of this member's launch, as far as it can be now. -/
def execBroadcastHop (p : Pass) (s : State) : Outcome State Fault Refusal :=
  if p.phase ≠ 2 ∨ dN p.desc = 0 ∨ !p.members.contains s.peer then .refused .notEnabled
  else
    let s0 : State := { s.hearClosed p with passes := s.passes.erase p }
    let a := s0.passOn p
    let b := match a.1.collOf p with
      | some (l, c) => if p.done < p.bytes.length then a.1.writeResult l c a.2 else (a.1, a.2)
      | none => (a.1, a.2)
    let t := if b.2.sent ∧ p.bytes.length ≤ b.2.done then b.1 else b.1.keepPass b.2
    .next t

end Sys2Proof.Machine
end

