-- ==== Sys2Proof/Machine/Trust.lean ====
section
/-! DEFINITION. The trusted firmware and the package: meters (R356, R357), scrub (R364), security modes (R348, R362), grants
(R355), seal windows (R358), the log (R359, R360), evidence (R361), bounce channels (R363), debug (R115, R366), the clock
and its limits (R367, R368) and bring-up (R365, R371). -/

namespace Sys2Proof.Machine

open Host (Outcome)

/-- An action that needs n log entries: held as a pending input while the log has no room for them (R360). -/
def State.logged (s : State) (n : Nat) (i : Instr) (t : State) : Outcome State Fault Refusal :=
  .next (if s.logShort n then s.requeue i else t)

/-- The log's function code for the package. -/
def wholePackage : Nat := 0xFF

/-! ### The meter (R356, R357) -/

/-- Cycles between refills of a function's meter. -/
def Func.period (f : Func) : Nat := 2 ^ (10 + bitsAt f.metfill 32 5)

/-- METER_REFILL (R357): the balance rises by the amount, at most to METCAP. -/
def execMeterRefill (fn : Nat) (s : State) : Outcome State Fault Refusal :=
  let f := s.func fn
  event (decide (fn < 8) && decide (f.metAt + f.period ≤ s.now))
    (s.setFunc fn { f with metbal := BitVec.ofNat 64 (min (f.metbal.toNat + bitsAt f.metfill 0 32) f.metcap.toNat)
                           metAt := f.metAt + f.period, metStalled := false })

/-! ### Scrub (R364) -/

/-- Memory with a range zero, its frames' labels 0 and its poison marks clear. -/
def Mem.clear (m : Mem) (a n : Nat) : Mem :=
  let out := fun (unit k : Nat) => !decide (a / unit ≤ k ∧ k ≤ (a + n - 1) / unit)
  { m with bytes := m.bytes.filter (fun c => !decide (a ≤ c.1 ∧ c.1 < a + n))
           labels := m.labels.filter (fun c => out 4096 c.1)
           poison := m.poison.filter (fun c => out 64 c.1) }

/-- A range of a prefix under scrub, from its start; its start is logged. -/
def State.startScrub (s : State) (fn : Nat) (r : Fab × Nat) : State :=
  let n := 2 ^ (57 - r.2)
  let v : Scrub := { base := r.1.toNat, len := n, fn := fn }
  { s with scrubs := s.scrubs ++ [v] }.append 0x06 fn 0 (pack [(0, r.1.toNat), (64, n)])

/-- SCRUB_STEP (R364): the pointer of one scrub advances 64 KiB, once no line there is owned by another package; at the range's
end the scrub is done and logged. -/
def execScrubStep (i : Nat) (s : State) : Outcome State Fault Refusal :=
  match s.scrubs[i]? with
  | none => .refused .notEnabled
  | some r =>
    let n := min 65536 (r.len - r.ptr)
    match s.awayWithin (r.base + r.ptr) n with
    | some a => event (!s.recalling.contains (a / 64)) (s.recallLine a)
    | none =>
    let s1 : State := { s with mem := if n = 0 then s.mem else s.mem.clear (r.base + r.ptr) n }
    if r.len ≤ r.ptr + n then
      event (!s.logFull) ({ s1 with scrubs := s1.scrubs.eraseIdx i }.append 0x07 r.fn 0 (pack [(0, r.base), (64, r.len)]))
    else .next { s1 with scrubs := s1.scrubs.set i ({ r with ptr := r.ptr + n } : Scrub) }

/-- Whether ranges lie on the package's own peer. -/
def State.ownRanges (s : State) (rs : List (Fab × Nat)) : Bool :=
  rs.all (fun r => decide (12 ≤ r.2 ∧ r.2 ≤ 57) && decide (peerOf r.1 = s.peer) && decide (r.1.toNat % 2 ^ (57 - r.2) = 0))

/-- RANGE_RELEASE (R364): a range is scrubbed on the host's command. -/
def execRangeRelease (fn : Nat) (pfx : Fab) (len : Nat) (s : State) : Outcome State Fault Refusal :=
  if !s.ownRanges [(pfx, len)] ∨ 8 ≤ fn then .refused .notEnabled
  else s.logged 1 (.rangeRelease fn pfx len) (s.startScrub fn (pfx, len))

/-! ### Security modes (R348, R362) -/

/-- A function takes a mode: the change is logged, a mode left takes its key with it, and a mode entered draws one; its TDISP
interface is in RUN above OPEN. -/
def State.setMode (s : State) (fn : Nat) (mode : BitVec 2) : State :=
  let f := s.func fn
  let s1 := s.setFunc fn { f with secmode := mode, key := if mode = 0 then none else some s.keyDraws, tdispRun := decide (mode ≠ 0) }
  { s1 with keyDraws := if mode = 0 then s1.keyDraws else s1.keyDraws + 1 }.append 0x0A fn 0
    (pack [(0, f.secmode.toNat), (8, mode.toNat)])

/-- SECURITY_MODE_CHANGE (R348, R362, R364): the TDISP interface is locked and brought to RUN, or unlocked. A mode above OPEN
needs IDE on the host link, and SEALED an egress meter region. A function that leaves a mode has its ranges scrubbed. -/
def execSecurityModeChange (fn : Nat) (mode : BitVec 2) (ranges : List (Fab × Nat)) (s : State) :
    Outcome State Fault Refusal :=
  let f := s.func fn
  if 8 ≤ fn ∨ mode = 3 ∨ mode = f.secmode ∨ !s.ownRanges ranges
      ∨ (mode ≠ 0 ∧ !s.ide) ∨ (mode = 2 ∧ !f.metreg.any (fun w => w.2.getLsbD 63)) then .refused .notEnabled
  else
    let rs := if f.secmode = 0 then [] else ranges
    s.logged (1 + rs.length) (.securityModeChange fn mode ranges)
      (rs.foldl (fun t r => t.startScrub fn r) (s.setMode fn mode))

/-! ### Grants and seal windows (R355, R358) -/

/-- Whether a grant's contents fit a slot. -/
def grantFits (g : Grant) : Bool := decide (g.base.toNat % 64 = 0) && decide (g.length % 64 = 0) && decide (g.length ≤ 2 ^ 20)

/-- GRANT_INSTALL (R355, R359): a slot is written, or emptied. -/
def execGrantInstall (fn slot : Nat) (g : Option Grant) (s : State) : Outcome State Fault Refusal :=
  let f := s.func fn
  let old := Store.find slot f.grants
  let bad : Bool := match g with | some v => !grantFits v | none => old.isNone
  if 8 ≤ fn ∨ 8 ≤ slot ∨ bad then .refused .notEnabled
  else
    let h := match g with | some v => v.hash.toNat | none => (match old with | some v => v.hash.toNat | none => 0)
    let new := match g with
      | some v => Store.put slot { v with used := 0 } f.grants
      | none => Store.drop slot f.grants
    s.logged 1 (.grantInstall fn slot g) ((s.setFunc fn { f with grants := new }).append 0x03 fn 0 (pack [(0, slot), (128, h)]))

/-- The tenant whose sealing key pair a SEALED function has (R358). -/
def Func.sealer (f : Func) : Option (BitVec 256) := if f.secmode = 2 then f.key.map Config.tenant else none

/-- SEAL_WINDOW_INSTALL (R358): once no line there is owned by another package, the ciphertext is hashed and the key unwrapped under
the owning function's key pair; a mismatch is refused, and logged. -/
def execSealWindowInstall (k : Nat) (win : SealWindow) (s : State) : Outcome State Fault Refusal :=
  if 16 ≤ k ∨ (Store.find k s.windows).isSome ∨ !s.ownRanges [(win.pfx, win.len)] ∨ 8 ≤ win.fn then .refused .notEnabled
  else match s.awayWithin win.pfx.toNat (2 ^ (57 - win.len)) with
  | some a => .next ((s.recallLine a).requeue (.sealWindowInstall k win))
  | none =>
    let ok := decide (Config.sha384 (s.bytesAt win.pfx.toNat (2 ^ (57 - win.len))) = win.hash)
    let s1 : State := match (if ok then (s.func win.fn).sealer.bind (fun t => Config.unwrapKey t win.wrapped) else none) with
      | some key => { s with windows := Store.put k { win := win, key := key } s.windows }
      | none => s
    s.logged 1 (.sealWindowInstall k win) (s1.append 0x08 win.fn 0 (pack [(0, k), (128, win.hash.toNat)]))

/-- SEAL_WINDOW_REMOVE (R358): its key-use entry is appended, then the removal's. -/
def execSealWindowRemove (k : Nat) (s : State) : Outcome State Fault Refusal :=
  match Store.find k s.windows with
  | none => .refused .notEnabled
  | some w =>
    s.logged 2 (.sealWindowRemove k)
      (({ s with windows := Store.drop k s.windows }.append 0x01 w.win.fn 0 (pack [(0, k), (64, w.used)])).append 0x08 w.win.fn 0
        (pack [(0, k), (128, w.win.hash.toNat)]))

/-! ### The log and evidence (R359 to R361) -/

/-- A response of the firmware mailbox, in function 0. -/
def State.respond (s : State) (bs : List Byte) : State := { s with outbox := s.outbox ++ [.mailbox 0 bs] }

/-- LOG_ACKNOWLEDGE (R360): entries up to a sequence may be overwritten; meter stalls counted while the log was full are
appended as one entry once there is room. -/
def execLogAcknowledge (seq : Nat) (s : State) : Outcome State Fault Refusal :=
  let s1 : State := { s with logAcked := BitVec.ofNat 64 (seq + 1) }
  event (decide (seq < s.logSeq.toNat) && decide (s.logAcked.toNat ≤ seq))
    (if 0 < s1.stallsHeld ∧ !s1.logFull then
      { s1 with stallsHeld := 0 }.append 0x05 wholePackage 0 (pack [(64, s1.stallsHeld)])
    else s1)

/-- LOG_SIGN_REQUEST (R359): the latest sequence and its entry's hash, signed twice. -/
def execLogSignRequest (s : State) : Outcome State Fault Refusal :=
  event (decide (s.logSeq ≠ 0)) (s.signLog.respond s.signLog.logSig)

/-- The security modes with the meter and grant configuration, as the fifth measurement covers them. -/
def State.modesBytes (s : State) : List Byte :=
  (List.range 8).flatMap (fun k =>
    let f := s.func k
    [f.secmode.setWidth 8] ++ leBytes 8 f.metfill.toNat ++ leBytes 8 f.metcap.toNat
      ++ (List.range 4).flatMap (fun n => leBytes 8 (Store.get 0 n f.metreg).toNat)
      ++ f.grants.flatMap (fun g => leBytes 8 g.1 ++ leBytes 8 g.2.base.toNat ++ leBytes 8 g.2.length ++ leBytes 48 g.2.hash.toNat
        ++ leBytes 8 g.2.budget))

/-- GET_MEASUREMENTS (R361): five measurements, the sealing public keys of the SEALED functions (R358) and the nonce, signed
twice. -/
def execGetMeasurements (nonce : List Byte) (s : State) : Outcome State Fault Refusal :=
  let body := (List.range 4).flatMap (fun k => leBytes 48 (Store.get 0 k s.measures).toNat)
    ++ leBytes 48 (Config.sha384 s.modesBytes).toNat
    ++ (List.range 8).flatMap (fun k => ((s.func k).sealer.map Config.sealingPublic).getD []) ++ nonce
  .next (s.respond (body ++ Config.ecdsaSign body ++ Config.lmsSign body))

/-! ### Bounce channels (R363) -/

/-- BOUNCE_RECORD (R363): a sealed record of the host, for a place of the channel's range. One that fails authentication
puts the channel in RESYNC_REQUIRED, where records are dropped. -/
def execBounceRecord (fn chan at_ : Nat) (data : List Byte) (tag : BitVec 128) (s : State) : Outcome State Fault Refusal :=
  let f := s.func fn
  match Store.find chan f.bounce with
  | none => .refused .notEnabled
  | some b =>
    let n := bounceNonce chan false b.inSeq
    if 4096 < data.length ∨ 2 ^ (57 - b.len) < at_ + data.length then .refused .notEnabled
    else if b.resync then .next s
    else if tag = Config.gcmTag b.key n [] data then
      .next ((s.setFunc fn { f with bounce := Store.put chan { b with inSeq := b.inSeq + 1 } f.bounce }).hostPut (b.host + at_)
        ((Config.gcmOpen b.key n data).take data.length))
    else .next (s.setFunc fn { f with bounce := Store.put chan { b with resync := true, part := [], by_ := none } f.bounce })

/-- BOUNCE_RESYNC (R363): a fresh key exchange opens a channel over a range; both sequences start at 0. -/
def execBounceResync (fn chan : Nat) (key : BitVec 256) (pfx : Fab) (len host : Nat) (s : State) :
    Outcome State Fault Refusal :=
  let f := s.func fn
  if 8 ≤ fn ∨ 4 ≤ chan ∨ len < 12 ∨ 57 < len then .refused .notEnabled
  else
    s.logged 1 (.bounceResync fn chan key pfx len host)
      ((s.setFunc fn { f with bounce := Store.put chan { pfx := pfx, len := len, host := host, key := key } f.bounce }).append
        Config.resyncKind.toNat fn 0 (pack [(0, chan)]))

/-! ### Debug (R115, R117, R366) -/

/-- The debug mode's code in the log. -/
def userMode : Nat := 1
def vendorMode : Nat := 2

/-- DEBUG_ATTACH (R115, R366): a fid session attaches, or changes what it asks to be stopped at. There is no debug in standby, nor
of a core that is power-gated or in retention (R367). -/
def execDebugAttach (fn core : Nat) (c : Session) (s : State) : Outcome State Fault Refusal :=
  let f := s.func fn
  if 8 ≤ fn ∨ s.debug ≠ .user ∨ s.power = .standby ∨ (s.coreAt core).gated then .refused .notEnabled
  else if f.session.isSome then .next (s.setFunc fn { f with session := some c })
  else
    s.logged 1 (.debugAttach fn core c)
      ((s.setFunc fn { f with session := some c }).append 0x04 fn 0 (pack [(0, userMode), (32, core)]))

/-- DEBUG_DETACH (R359): from now on brk traps; what was stopped goes on only when fid continues it. -/
def execDebugDetach (fn core : Nat) (s : State) : Outcome State Fault Refusal :=
  let f := s.func fn
  if f.session.isNone then .refused .notEnabled
  else
    s.logged 1 (.debugDetach fn core)
      ((s.setFunc fn { f with session := none }).append 0x04 fn 0 (pack [(0, userMode), (32, core)]))

/-- Yarns of some strands resumed, and their matrix contexts released. -/
def State.resumeStrands (s : State) (ok : Nat → Bool) : State :=
  { s with yarns := s.yarns.map (fun c => if ok c.2.strand then (c.1, { c.2 with stopped := false }) else c)
           strands := s.strands.map (fun c => if ok c.1 then
             (c.1, { c.2 with ops := c.2.ops.map (fun o => { o with hold := false }) }) else c) }

/-- A held watchdog policy let act (R117): at once, or, where its record still waits for the fault queue, once that is written
(R370). -/
def State.actHeld (s : State) (l : Nat) (L : Launch) : State :=
  let s1 := s.setLaunch l { L with heldPolicy := false }
  let waits := (s.func L.fn).waiting.any (fun r => decide (r.watchdog = some l))
  if L.policyTerminate && !waits then s1.terminate l cWatchdog else s1

/-- DEBUG_CONTINUE (R115, R117, R185, R236): every stopped yarn of the function's launches, or those of one strand, goes on;
held matrix contexts are released, and held watchdog policies act. -/
def execDebugContinue (fn : Nat) (x : Option Nat) (s : State) : Outcome State Fault Refusal :=
  let mine := fun (k : Nat) => decide ((s.launchOf (s.strandAt k)).fn = fn) && (match x with | some n => decide (n = k) | none => true)
  let s1 := s.resumeStrands mine
  .next (if x.isSome then s1
    else (s1.launches.filter (fun c => decide (c.2.fn = fn) && c.2.heldPolicy)).foldl (fun t c => t.actHeld c.1 c.2) s1)

/-- VENDOR_DEBUG_ENTRY (R366): where a function is in a mode above OPEN, every launch ends, tenant keys are destroyed, modes
go to OPEN and ranges are scrubbed, first. DEDUCED (log 12): the debug mode is vendor from then on, until a reset. -/
def execVendorDebugEntry (ranges : List (Fab × Nat)) (s : State) : Outcome State Fault Refusal :=
  let fns := (List.range 8).filter (fun k => decide ((s.func k).secmode ≠ 0))
  let rs := if fns = [] then [] else ranges
  if !s.ownRanges ranges then .refused .notEnabled
  else
    let s1 := if fns = [] then s else s.launches.foldl (fun t c => t.terminate c.1 (s.anyArg.setWidth 8)) s
    let s2 := fns.foldl (fun t k => t.setMode k 0) s1
    let s3 := rs.foldl (fun t r => t.startScrub wholePackage r) s2
    s.logged (1 + fns.length + rs.length) (.vendorDebugEntry ranges)
      ({ s3 with debug := .vendor }.append 0x04 wholePackage 0 (pack [(0, vendorMode)]))

/-! ### Power (R367, R368) -/

/-- Whether a core holds a ready yarn. -/
def State.readyOn (s : State) (k : Nat) : Bool :=
  s.strands.any (fun c => c.2.place.isSome && decide (c.2.core = k) && s.anyReady c.1)

/-- CORE_CLOCK_GATED (R367): a core with no ready yarn stops its clock, and starts it again when a yarn is ready. -/
def execCoreClockGated (core : Nat) (s : State) : Outcome State Fault Refusal :=
  let c := s.coreAt core
  event (decide (core < 192) && decide (c.clock ≠ s.readyOn core)) (s.setCore core { c with clock := !c.clock })

/-- POWER_CAP_STEP (R368): the arithmetic clock goes one step of 100 MHz up or down, from 1.0 to 2.1 GHz. -/
def execPowerCapStep (up : Bool) (s : State) : Outcome State Fault Refusal :=
  event (if up then decide (s.clock + 100 ≤ 2100) else decide (1100 ≤ s.clock))
    { s with clock := if up then s.clock + 100 else s.clock - 100 }

/-! ### Reset and bring-up (R365, R368, R371) -/

/-- The package after its clocks stopped and before bring-up: what always-on storage, and memory that is not the
package's, still hold. -/
def State.dark (s : State) : State :=
  { State.reset with
    peer := s.peer, inc := s.inc, booted := false, boot := .dark, images := s.images, recovery := false, hostMem := s.hostMem, table := [], maxSeq := [], issues := []
    log := s.log, logHead := s.logHead, logSeq := s.logSeq, logAcked := s.logAcked, logSigned := s.logSigned, logSig := s.logSig
    scrubs := s.scrubs, keyDraws := s.keyDraws, tick := s.tick, now := s.now, inputs := s.inputs, outbox := s.outbox
    framed := s.framed, nextCtx := s.nextCtx, nextYarn := s.nextYarn, nextReq := s.nextReq, nextChange := s.nextChange
    nextLaunch := s.nextLaunch, nextBin := s.nextBin
    cores := (List.range 192).map (fun k => (k, { resetAt := s.now })) }

/-- THERMAL_TRIP (R368): at 105 degrees the package throttles, as under a cap; at 115 it stops its clocks and resets, and bring-up
follows from the images it holds. -/
def execThermalTrip (celsius : Nat) (s : State) : Outcome State Fault Refusal :=
  if 115 ≤ celsius then .next { s.dark with inputs := .powerOnReset s.images :: s.inputs }
  else event (decide (105 ≤ celsius)) { s with clock := if 1100 ≤ s.clock then s.clock - 100 else s.clock }

/-- A firmware image measured, and the measurement logged (R359, R371). -/
def State.measure (s : State) (k : Nat) (bs : List Byte) : State :=
  { s with measures := Store.put k (Config.sha384 bs) s.measures }.append 0x09 wholePackage 0
    (pack [(0, k), (128, (Config.sha384 bs).toNat)])

/-- Bring-up steps 5 and 6 (R371): the incarnation advances, and the package's own /12 is announced to every neighbour. -/
def State.announceSelf (s : State) : State :=
  let n := s.inc + 1
  let p : Fab := s.peer ++ (0 : BitVec 45)
  let e := State.ownEntry s.peer n
  let others := fun (l : List (Fab × Nat × Word)) => l.filter (fun c => !decide (c.1 = p ∧ c.2.1 = 12))
  let s1 : State := { s with
    inc := n, table := e :: s.table.filter (fun d => !decide (d.pfx = p ∧ d.len = 12)), maxSeq := (p, 12, 1) :: others s.maxSeq
    issues := [(p, 12, 1)], boot := .announcing s.nextChange, nextChange := s.nextChange + 1
    changes := Store.put s.nextChange { pfx := p, len := 12, issue := 1, kind := 0 } s.changes }
  ((e.holders.foldl (fun t h => t.spread (h.note p 12 0) []) s1)).settleRoutes

/-- Bring-up goes on by itself (R371): step 4 ends at a freely chosen moment, since which ports have a far end is not the package's to
know (DESIGN CHOICE, log 40); step 6 once its announcement has converged (R310), and scrubs then go on at their pointers. -/
def State.bootOn (s : State) : State :=
  match s.boot with
  | .links => if Config.freeChoice s.tick % 2 = 1 then s.announceSelf else s
  | .announcing k => if (Store.find k s.changes).isNone then { s with boot := .up, booted := true } else s
  | _ => s

/-- A read of the service firmware: through a translation whose ceiling is 1, so a page of label 2 or 3 faults (R365). The rule
does not say whose tables it walks; `fn` names the function. No event of the spec makes such a read: what the firmware does
with it is policy (log 52). -/
def State.serviceRead (s : State) (fn : Nat) (va : DWord) (n : Nat) : Got := s.devRead .firmware fn 1 {} va n

/-- POWER_ON_RESET (R365, R371): steps 1 to 3 of bring-up; the links train from then on. A trusted core that does not verify leaves
only the recovery mailbox; service firmware that does not verify is not loaded. -/
def execPowerOnReset (im : Images) (s : State) : Outcome State Fault Refusal :=
  let d : State := { s.dark with images := im }
  if !Config.signaturesVerify im.trusted then .next { d with recovery := true }
  else
    let s1 := ((d.measure 0 im.rom).measure 1 im.trusted).measure 3 im.fuses
    let s2 := if Config.signaturesVerify im.service then s1.measure 2 im.service else s1
    s.logged 4 (.powerOnReset im) { s2 with boot := .links, pkgKey := s2.keyDraws, keyDraws := s2.keyDraws + 1 }

end Sys2Proof.Machine
end

