-- ==== Sys2Proof/Machine/Dispatch.lean ====
section
/-! DEFINITION. From each constructor to its meaning: one arm, one call. -/

namespace Sys2Proof.Machine

open Host (Outcome)

/-- What an instruction or event does. -/
def exec (i : Instr) (s : State) : Host.Outcome State Fault Refusal :=
  match i with
  | .add x => Sys2Proof.Machine.execAdd x s
  | .sub x => Sys2Proof.Machine.execSub x s
  | .mulLo x => Sys2Proof.Machine.execMulLo x s
  | .mulHi x => Sys2Proof.Machine.execMulHi x s
  | .mad x => Sys2Proof.Machine.execMad x s
  | .madWide x => Sys2Proof.Machine.execMadWide x s
  | .minI x => Sys2Proof.Machine.execMinI x s
  | .maxI x => Sys2Proof.Machine.execMaxI x s
  | .absI x => Sys2Proof.Machine.execAbsI x s
  | .negI x => Sys2Proof.Machine.execNegI x s
  | .andB x => Sys2Proof.Machine.execAndB x s
  | .orB x => Sys2Proof.Machine.execOrB x s
  | .xorB x => Sys2Proof.Machine.execXorB x s
  | .andn x => Sys2Proof.Machine.execAndn x s
  | .notB x => Sys2Proof.Machine.execNotB x s
  | .shl x => Sys2Proof.Machine.execShl x s
  | .shr x => Sys2Proof.Machine.execShr x s
  | .sar x => Sys2Proof.Machine.execSar x s
  | .rot x => Sys2Proof.Machine.execRot x s
  | .shf x => Sys2Proof.Machine.execShf x s
  | .popc x => Sys2Proof.Machine.execPopc x s
  | .clz x => Sys2Proof.Machine.execClz x s
  | .ctz x => Sys2Proof.Machine.execCtz x s
  | .brev x => Sys2Proof.Machine.execBrev x s
  | .bext x => Sys2Proof.Machine.execBext x s
  | .bins x => Sys2Proof.Machine.execBins x s
  | .cmp x => Sys2Proof.Machine.execCmp x s
  | .sel x => Sys2Proof.Machine.execSel x s
  | .mov x => Sys2Proof.Machine.execMov x s
  | .movi x => Sys2Proof.Machine.execMovi x s
  | .lea x => Sys2Proof.Machine.execLea x s
  | .dp4 x => Sys2Proof.Machine.execDp4 x s
  | .cvt x => Sys2Proof.Machine.execCvt x s
  | .perm x => Sys2Proof.Machine.execPerm x s
  | .lut16 x => Sys2Proof.Machine.execLut16 x s
  | .lprev x => Sys2Proof.Machine.execLprev x s
  | .shfl x => Sys2Proof.Machine.execShfl x s
  | .vote x => Sys2Proof.Machine.execVote x s
  | .bcast x => Sys2Proof.Machine.execBcast x s
  | .scan x => Sys2Proof.Machine.execScan x s
  | .redux x => Sys2Proof.Machine.execRedux x s
  | .matchL x => Sys2Proof.Machine.execMatchL x s
  | .fadd x => Sys2Proof.Machine.execFadd x s
  | .fsub x => Sys2Proof.Machine.execFsub x s
  | .fmul x => Sys2Proof.Machine.execFmul x s
  | .ffma x => Sys2Proof.Machine.execFfma x s
  | .fmin x => Sys2Proof.Machine.execFmin x s
  | .fmax x => Sys2Proof.Machine.execFmax x s
  | .fcmp x => Sys2Proof.Machine.execFcmp x s
  | .fsel x => Sys2Proof.Machine.execFsel x s
  | .frcp x => Sys2Proof.Machine.execFrcp x s
  | .frsq x => Sys2Proof.Machine.execFrsq x s
  | .fsqrt x => Sys2Proof.Machine.execFsqrt x s
  | .fexp2 x => Sys2Proof.Machine.execFexp2 x s
  | .flog2 x => Sys2Proof.Machine.execFlog2 x s
  | .fsin x => Sys2Proof.Machine.execFsin x s
  | .fcos x => Sys2Proof.Machine.execFcos x s
  | .fscale x => Sys2Proof.Machine.execFscale x s
  | .ffrac x => Sys2Proof.Machine.execFfrac x s
  | .fround x => Sys2Proof.Machine.execFround x s
  | .fcvt x => Sys2Proof.Machine.execFcvt x s
  | .qnt x => Sys2Proof.Machine.execQnt x s
  | .dqnt x => Sys2Proof.Machine.execDqnt x s
  | .bmax x => Sys2Proof.Machine.execBmax x s
  | .pack x => Sys2Proof.Machine.execPack x s
  | .unpack x => Sys2Proof.Machine.execUnpack x s
  | .mma x => Sys2Proof.Machine.execMma x s
  | .accLd x => Sys2Proof.Machine.execAccLd x s
  | .accSt x => Sys2Proof.Machine.execAccSt x s
  | .accZero x => Sys2Proof.Machine.execAccZero x s
  | .mmchk x => Sys2Proof.Machine.execMmchk x s
  | .bra x => Sys2Proof.Machine.execBra x s
  | .braConditional x => Sys2Proof.Machine.execBraConditional x s
  | .brx x => Sys2Proof.Machine.execBrx x s
  | .call x => Sys2Proof.Machine.execCall x s
  | .ret x => Sys2Proof.Machine.execRet x s
  | .exitF x => Sys2Proof.Machine.execExitF x s
  | .nop x => Sys2Proof.Machine.execNop x s
  | .yieldI x => Sys2Proof.Machine.execYieldI x s
  | .trapI x => Sys2Proof.Machine.execTrapI x s
  | .tret x => Sys2Proof.Machine.execTret x s
  | .brk x => Sys2Proof.Machine.execBrk x s
  | .pand x => Sys2Proof.Machine.execPand x s
  | .por x => Sys2Proof.Machine.execPor x s
  | .pxor x => Sys2Proof.Machine.execPxor x s
  | .pnot x => Sys2Proof.Machine.execPnot x s
  | .pmov x => Sys2Proof.Machine.execPmov x s
  | .frayq x => Sys2Proof.Machine.execFrayq x s
  | .lds x => Sys2Proof.Machine.execLds x s
  | .sts x => Sys2Proof.Machine.execSts x s
  | .ldw x => Sys2Proof.Machine.execLdw x s
  | .stw x => Sys2Proof.Machine.execStw x s
  | .atoms x => Sys2Proof.Machine.execAtoms x s
  | .rinit x => Sys2Proof.Machine.execRinit x s
  | .arrive x => Sys2Proof.Machine.execArrive x s
  | .rwait x => Sys2Proof.Machine.execRwait x s
  | .arwait x => Sys2Proof.Machine.execArwait x s
  | .ringPutAcq x => Sys2Proof.Machine.execRingPutAcq x s
  | .ringPutRel x => Sys2Proof.Machine.execRingPutRel x s
  | .ringTakeAcq x => Sys2Proof.Machine.execRingTakeAcq x s
  | .ringTakeRel x => Sys2Proof.Machine.execRingTakeRel x s
  | .spawn x => Sys2Proof.Machine.execSpawn x s
  | .endF x => Sys2Proof.Machine.execEndF x s
  | .monw x => Sys2Proof.Machine.execMonw x s
  | .mwait x => Sys2Proof.Machine.execMwait x s
  | .ld x => Sys2Proof.Machine.execLd x s
  | .st x => Sys2Proof.Machine.execSt x s
  | .atom x => Sys2Proof.Machine.execAtom x s
  | .red x => Sys2Proof.Machine.execRed x s
  | .ldAcq x => Sys2Proof.Machine.execLdAcq x s
  | .stRel x => Sys2Proof.Machine.execStRel x s
  | .fenceAcq x => Sys2Proof.Machine.execFenceAcq x s
  | .fenceRel x => Sys2Proof.Machine.execFenceRel x s
  | .fenceAr x => Sys2Proof.Machine.execFenceAr x s
  | .prefetch x => Sys2Proof.Machine.execPrefetch x s
  | .cwb x => Sys2Proof.Machine.execCwb x s
  | .cinv x => Sys2Proof.Machine.execCinv x s
  | .shape x => Sys2Proof.Machine.execShape x s
  | .tbinit x => Sys2Proof.Machine.execTbinit x s
  | .tbarrive x => Sys2Proof.Machine.execTbarrive x s
  | .tbexpect x => Sys2Proof.Machine.execTbexpect x s
  | .tbwait x => Sys2Proof.Machine.execTbwait x s
  | .tlwait x => Sys2Proof.Machine.execTlwait x s
  | .tlread x => Sys2Proof.Machine.execTlread x s
  | .annc x => Sys2Proof.Machine.execAnnc x s
  | .wdrw x => Sys2Proof.Machine.execWdrw x s
  | .prom x => Sys2Proof.Machine.execProm x s
  | .rtq x => Sys2Proof.Machine.execRtq x s
  | .rtsync x => Sys2Proof.Machine.execRtsync x s
  | .knotInit x => Sys2Proof.Machine.execKnotInit x s
  | .knotPut x => Sys2Proof.Machine.execKnotPut x s
  | .knotTake x => Sys2Proof.Machine.execKnotTake x s
  | .knotQuery x => Sys2Proof.Machine.execKnotQuery x s
  | .csrr x => Sys2Proof.Machine.execCsrr x s
  | .csrw x => Sys2Proof.Machine.execCsrw x s
  | .lblset x => Sys2Proof.Machine.execLblset x s
  | .lbldn x => Sys2Proof.Machine.execLbldn x s
  | .clauseStart y g => Sys2Proof.Machine.execClauseStart y g s
  | .rejoinWaitEnd y g => Sys2Proof.Machine.execRejoinWaitEnd y g s
  | .longLatencyComplete y k => Sys2Proof.Machine.execLongLatencyComplete y k s
  | .requestAccepted r ans => Sys2Proof.Machine.execRequestAccepted r ans s
  | .holderRequest r => Sys2Proof.Machine.execHolderRequest r s
  | .writeAcknowledged r => Sys2Proof.Machine.execWriteAcknowledged r s
  | .ownershipRequest r => Sys2Proof.Machine.execOwnershipRequest r s
  | .recall p line => Sys2Proof.Machine.execRecall p line s
  | .writeBack p d release => Sys2Proof.Machine.execWriteBack p d release s
  | .ownershipGrant p d => Sys2Proof.Machine.execOwnershipGrant p d s
  | .qnotifyWrite fn q w => Sys2Proof.Machine.execQnotifyWrite fn q w s
  | .qctlWrite fn q w => Sys2Proof.Machine.execQctlWrite fn q w s
  | .launchPacket fn q => Sys2Proof.Machine.execLaunchPacket fn q s
  | .barrierAndPacket fn q => Sys2Proof.Machine.execBarrierAndPacket fn q s
  | .barrierAndComplete fn q => Sys2Proof.Machine.execBarrierAndComplete fn q s
  | .signalPacket fn q => Sys2Proof.Machine.execSignalPacket fn q s
  | .coilPlace l => Sys2Proof.Machine.execCoilPlace l s
  | .evictCoil l coil => Sys2Proof.Machine.execEvictCoil l coil s
  | .restoreCoil l coil => Sys2Proof.Machine.execRestoreCoil l coil s
  | .strandEnd x => Sys2Proof.Machine.execStrandEnd x s
  | .launchComplete l => Sys2Proof.Machine.execLaunchComplete l s
  | .watchdog x pt => Sys2Proof.Machine.execWatchdog x pt s
  | .spawnBinTimer bin => Sys2Proof.Machine.execSpawnBinTimer bin s
  | .binYarnStart bin => Sys2Proof.Machine.execBinYarnStart bin s
  | .spawnRecordPlaced y g => Sys2Proof.Machine.execSpawnRecordPlaced y g s
  | .spillReadback x => Sys2Proof.Machine.execSpillReadback x s
  | .monitorWake y lane => Sys2Proof.Machine.execMonitorWake y lane s
  | .mwaitLimit y lane => Sys2Proof.Machine.execMwaitLimit y lane s
  | .copySector x ch => Sys2Proof.Machine.execCopySector x ch s
  | .copyDone x ch => Sys2Proof.Machine.execCopyDone x ch s
  | .remoteCompletionSignal inc x offset => Sys2Proof.Machine.execRemoteCompletionSignal inc x offset s
  | .mmaKstep x => Sys2Proof.Machine.execMmaKstep x s
  | .mmaEpilogue x => Sys2Proof.Machine.execMmaEpilogue x s
  | .epilogueStore x => Sys2Proof.Machine.execEpilogueStore x s
  | .uncorrectable l core loc addr => Sys2Proof.Machine.execUncorrectable l core loc addr s
  | .faultReplyRepaired fn w => Sys2Proof.Machine.execFaultReplyRepaired fn w s
  | .faultReplyKill fn w => Sys2Proof.Machine.execFaultReplyKill fn w s
  | .copyReplyRepaired fn w => Sys2Proof.Machine.execCopyReplyRepaired fn w s
  | .copyReplyKill fn w => Sys2Proof.Machine.execCopyReplyKill fn w s
  | .faultRecordWrite fn => Sys2Proof.Machine.execFaultRecordWrite fn s
  | .xlinv fn w => Sys2Proof.Machine.execXlinv fn w s
  | .xlinvComplete fn => Sys2Proof.Machine.execXlinvComplete fn s
  | .fenceRegisterWrite die w => Sys2Proof.Machine.execFenceRegisterWrite die w s
  | .announce m => Sys2Proof.Machine.execAnnounce m s
  | .withdraw m => Sys2Proof.Machine.execWithdraw m s
  | .ack m => Sys2Proof.Machine.execAck m s
  | .portUp port far trunk => Sys2Proof.Machine.execPortUp port far trunk s
  | .trunkPortDown port => Sys2Proof.Machine.execTrunkPortDown port s
  | .podPortDown port => Sys2Proof.Machine.execPodPortDown port s
  | .dataFlit port f => Sys2Proof.Machine.execDataFlit port f s
  | .idleFlit port f => Sys2Proof.Machine.execIdleFlit port f s
  | .retryRequest port f => Sys2Proof.Machine.execRetryRequest port f s
  | .rekeyFlit port f => Sys2Proof.Machine.execRekeyFlit port f s
  | .linkRetrain port => Sys2Proof.Machine.execLinkRetrain port s
  | .sequenceExhaustion port => Sys2Proof.Machine.execSequenceExhaustion port s
  | .linkTraining port key => Sys2Proof.Machine.execLinkTraining port key s
  | .loadFieldDecay p => Sys2Proof.Machine.execLoadFieldDecay p s
  | .extentRevoke p pfx len => Sys2Proof.Machine.execExtentRevoke p pfx len s
  | .revocationComplete p pfx len => Sys2Proof.Machine.execRevocationComplete p pfx len s
  | .chunkFire l chunk => Sys2Proof.Machine.execChunkFire l chunk s
  | .passArrival p => Sys2Proof.Machine.execPassArrival p s
  | .verdict home p => Sys2Proof.Machine.execVerdict home p s
  | .verdictAnswer p close lag => Sys2Proof.Machine.execVerdictAnswer p close lag s
  | .broadcastHop p => Sys2Proof.Machine.execBroadcastHop p s
  | .passStart l w => Sys2Proof.Machine.execPassStart l w s
  | .knotRequest r => Sys2Proof.Machine.execKnotRequest r s
  | .meterRefill fn => Sys2Proof.Machine.execMeterRefill fn s
  | .scrubStep k => Sys2Proof.Machine.execScrubStep k s
  | .securityModeChange fn mode ranges => Sys2Proof.Machine.execSecurityModeChange fn mode ranges s
  | .grantInstall fn slot g => Sys2Proof.Machine.execGrantInstall fn slot g s
  | .sealWindowInstall k win => Sys2Proof.Machine.execSealWindowInstall k win s
  | .sealWindowRemove k => Sys2Proof.Machine.execSealWindowRemove k s
  | .logAcknowledge seq => Sys2Proof.Machine.execLogAcknowledge seq s
  | .logSignRequest => Sys2Proof.Machine.execLogSignRequest s
  | .getMeasurements nonce => Sys2Proof.Machine.execGetMeasurements nonce s
  | .bounceRecord fn chan at_ data tag => Sys2Proof.Machine.execBounceRecord fn chan at_ data tag s
  | .bounceResync fn chan key pfx len host => Sys2Proof.Machine.execBounceResync fn chan key pfx len host s
  | .hostWindowAccess fn kind va data => Sys2Proof.Machine.execHostWindowAccess fn kind va data s
  | .vendorDebugEntry ranges => Sys2Proof.Machine.execVendorDebugEntry ranges s
  | .debugAttach fn core c => Sys2Proof.Machine.execDebugAttach fn core c s
  | .powerActive die core => Sys2Proof.Machine.execPowerActive die core s
  | .corePowerGated die core => Sys2Proof.Machine.execCorePowerGated die core s
  | .dieRetention die => Sys2Proof.Machine.execDieRetention die s
  | .packageStandby => Sys2Proof.Machine.execPackageStandby s
  | .coreClockGated core => Sys2Proof.Machine.execCoreClockGated core s
  | .powerCapStep up => Sys2Proof.Machine.execPowerCapStep up s
  | .thermalTrip celsius => Sys2Proof.Machine.execThermalTrip celsius s
  | .powerOnReset im => Sys2Proof.Machine.execPowerOnReset im s
  | .registerWrite fn offset width w => Sys2Proof.Machine.execRegisterWrite fn offset width w s
  | .debugContinue fn x => Sys2Proof.Machine.execDebugContinue fn x s
  | .debugDetach fn core => Sys2Proof.Machine.execDebugDetach fn core s
  | .rangeRelease fn pfx len => Sys2Proof.Machine.execRangeRelease fn pfx len s
  | .egressMeterWrite fn reg w => Sys2Proof.Machine.execEgressMeterWrite fn reg w s
  | .wakeThatNamesNoWrite y lane => Sys2Proof.Machine.execWakeThatNamesNoWrite y lane s
  | .injectionRegulatorAdmit r => Sys2Proof.Machine.execInjectionRegulatorAdmit r s
  | .errorFoundByScrubbing addr => Sys2Proof.Machine.execErrorFoundByScrubbing addr s

end Sys2Proof.Machine
end

