-- ==== Sys2Proof/Machine/Schedule.lean ====
section
/-! DEFINITION. What may move next: what is due at this cycle, the group each quadrant chooses, events of the package whose
condition holds, and pending inputs (R29, R101, R102, R131 to R133, R167); breakpoints and catches of fid (R11, R117, R185); the
passing of time. -/

namespace Sys2Proof.Machine

open Host (Outcome)

/-! ### fid (R11, R185) -/

/-- The session that watches a strand: its function's, where fid is attached and its launch allows debug. -/
def State.watcher (s : State) (x : Nat) : Option Session :=
  let L := s.launchOf (s.strandAt x)
  if L.debug && s.attached L.fn then (s.func L.fn).session else none

/-- Whether a breakpoint names an instruction of a group of a yarn of a strand. -/
def breakHits (b : Break) (t : Strand) (v : Yarn) (g : Group) : Bool :=
  decide (b.pc = g.pc) && decide (b.idx = g.idx) && b.launch.all (fun n => decide (n = t.launch))
    && b.coil.all (fun n => decide (n = t.coil)) && b.strand.all (fun n => decide (n = t.index))
    && b.yarn.all (fun n => decide (n = v.num))

/-- Whether a breakpoint stops a group that is about to issue its instruction. -/
def State.breaksAt (s : State) (y g : Nat) : Bool :=
  match Store.find y s.yarns with
  | none => false
  | some v =>
    match v.group g with
    | none => false
    | some G =>
      !G.brk && G.wait.isNone && G.drained.isNone
        && (s.watcher v.strand).any (fun c => c.breaks.any (fun b => breakHits b (s.strandAt v.strand) v G))

/-- The yarn stopped at a breakpoint. -/
def State.stopAt (s : State) (y g : Nat) : State :=
  { s with yarns := Store.modify y (fun v =>
      { v with stopped := true, groups := v.groups.map (fun h => if h.id = g then { h with brk := true } else h) }) s.yarns
           turn := none }

/-- Whether a fray of one list is in another: the same entry in the same use of it (R106). -/
def hasFray (fs : Store Fray) (c : Nat × Fray) : Bool :=
  fs.any (fun d => decide (d.1 = c.1) && decide (d.2.use = c.2.use))

/-- Whether a yarn has a fray that it had not: one split off. -/
def frayMade (old new : Yarn) : Bool := new.frays.any (fun c => !hasFray old.frays c)

/-- Whether a fray of a yarn has merged: it is gone, and its fibres go on in no fray. Fibres that exited, or were killed, have
not merged. -/
def frayMerged (old new : Yarn) : Bool :=
  old.frays.any (fun c => !hasFray new.frays c
    && new.lanes.any (fun d => c.2.lanes.getLsbD d.1 && d.2.active && !new.frays.any (fun e => e.2.lanes.getLsbD d.1)))

/-- Whether fid stops a yarn for what a step did: a fray of it split or merged, or its strand was evicted or restored. -/
def State.caught (old new : State) (y : Nat) (v : Yarn) : Bool :=
  match new.watcher v.strand with
  | none => false
  | some c =>
    (c.catchFray && (match Store.find y old.yarns with
      | some u => u.slot.isSome && (frayMade u v || frayMerged u v)
      | none => false))
      || (c.catchEvict && (match Store.find v.strand old.strands with
        | some t => decide (t.place.isSome ≠ (new.strandAt v.strand).place.isSome)
        | none => false))

/-- The state after a step, with what fid catches stopped. -/
def State.watched (new old : State) : State :=
  if new.funcs.any (fun f => f.2.session.any (fun c => c.catchFray || c.catchEvict)) then
    { new with yarns := new.yarns.map (fun c =>
        if old.caught new c.1 c.2 then (c.1, { c.2 with stopped := true }) else c) }
  else new

/-! ### A turn -/

/-- The instruction a group issues, read from its clause as buffered (R27 step 6); none where it does not decode. -/
def State.fetched (s : State) (y g : Nat) : Option Instr :=
  match Store.find y s.yarns with
  | none => none
  | some v =>
    match v.group g with
    | none => none
    | some G =>
      match decodeAt G.clause.w1 G.clause.code.length G.idx (G.clause.code.getD G.idx []) with
      | .ok i => some i
      | .error _ => none

/-- A group whose buffered words do not decode: ILLEGAL_OP at its clause (R30). -/
def execUndecoded (s : State) : Outcome State Fault Refusal :=
  issued s fun i => s.trap i (lanesOf i.g.lanes) cIllegalOp (BitVec.ofNat 64 i.g.idx) .clause

/-- A yarn, or its running fray, issues now, unless its group only waits (R132, R167). -/
def Yarn.issues (v : Yarn) (g now : Nat) : Yarn :=
  match v.group g with
  | some G => if G.wait.isNone ∧ G.drained.isNone then v.setTurns G.fray { v.turnsOf G.fray with last := now } else v
  | none => v

/-- The state in which a group issues: its quadrant is inside the group's clause, and the time is noted. -/
def State.issuing (s : State) (y g : Nat) : State :=
  { s.holdQuad y g with yarns := Store.modify y (fun v => v.issues g s.now) s.yarns, turn := none, cur := some (y, g) }

/-- The state in which an event acts. -/
def State.idle (s : State) : State := { s with turn := none, cur := none }

/-- A turn taken: a group's instruction, unless a breakpoint stops it; an event; or an input, which is pending no more. -/
def runTurn (s : State) (t : Turn) : Outcome State Fault Refusal :=
  match t with
  | .issue y g =>
    if s.breaksAt y g then .next (s.stopAt y g)
    else
      match s.fetched y g with
      | some i => exec i (s.issuing y g)
      | none => execUndecoded (s.issuing y g)
  | .event i => exec i s.idle
  | .input k =>
    match s.inputs[k]? with
    | some i => exec i { s.idle with inputs := s.inputs.eraseIdx k }
    | none => .refused .notEnabled

/-- Whether a turn can be taken. -/
def State.able (s : State) (t : Turn) : Bool := match runTurn s t with | .next _ => true | _ => false

/-- Whether a turn can be taken and changes something: a group that waits on changes nothing. -/
def State.moves (s : State) (t : Turn) : Bool :=
  match runTurn s t, t with
  | .next u, .issue y g => decide (u ≠ s.issuing y g)
  | .next _, _ => true
  | _, _ => false

/-! ### Quadrants (R102, R132, R167) -/

/-- A yarn or a running fray that holds a group which can go on, with what that group may do. -/
structure Contender where
  slot : Nat
  fray : Option Nat
  priority : Nat
  turns : Turns
  moves : List Turn
  deriving DecidableEq, Repr

/-- What a group does next: it issues, or starts or goes on with its clause. -/
def groupTurns (y : Nat) (g : Group) : List Turn :=
  match g.phase with
  | .issue => [.issue y g.id]
  | .rejoin => [.event (.rejoinWaitEnd y g.id)]
  | _ => [.event (.clauseStart y g.id)]

/-- A yarn's contenders. -/
def State.contendersOf (s : State) (y : Nat) (v : Yarn) : List Contender :=
  ((none :: (Store.keys v.frays).map some).map (fun f =>
    ({ slot := v.slot.getD 0, fray := f, priority := (s.launchOf (s.strandAt v.strand)).priority, turns := v.turnsOf f
       moves := ((v.groups.filter (fun g => decide (g.fray = f) && v.mayMove g)).flatMap (groupTurns y)).filter s.moves }
      : Contender))).filter (fun c => !c.moves.isEmpty)

/-- The yarns of a quadrant of a core. -/
def State.quadYarns (s : State) (k q : Nat) : List (Nat × Yarn) :=
  s.yarns.filter (fun c =>
    let t := s.strandAt c.2.strand
    t.place.isSome && decide (t.core = k) && c.2.slot.any (fun n => decide (n / 12 = q)))

/-- Whether a contender goes before another: the higher launch priority, then the one that issued least recently, which of those
that have not issued for 64 cycles is the one that has waited longest, then the lower slot and the lower fray id (R132,
R167). DEDUCED (log 2): a yarn's own groups come before its frays'. -/
def Contender.before (a b : Contender) : Bool :=
  let id := fun (c : Contender) => match c.fray with | none => 0 | some e => e + 1
  let rest := decide (a.slot < b.slot) || (decide (a.slot = b.slot) && decide (id a < id b))
  decide (b.priority < a.priority)
    || (decide (a.priority = b.priority)
        && (decide (a.turns.last < b.turns.last) || (decide (a.turns.last = b.turns.last) && rest)))

/-- Whether a contender that has yielded lets another of its priority level go first: one that has not issued since (R98, R132). Each
of those issues before it starts its next clause, and no other; one of a lower level never comes before it (R167). -/
def Contender.passes (c : Contender) (cs : List Contender) : Bool :=
  c.turns.yielded.any (fun t => cs.any (fun d => decide (d ≠ c) && decide (d.priority = c.priority) && decide (d.turns.last ≤ t)))

/-- The contender a quadrant chooses (R167). -/
def chosen (cs : List Contender) : Option Contender :=
  let us := cs.filter (fun c => !c.passes cs)
  (if us = [] then cs else us).foldl (fun b c => match b with
    | some d => if c.before d then some c else some d
    | none => some c) none

/-- What a quadrant may do: within a clause, the group that is inside it while it can go on and its yarn is not stopped (R102, R117); else what its choice among
the contenders does. The yield hint of R29, which a device may ignore, has no effect. -/
def State.quadTurns (s : State) (k q : Nat) : List Turn :=
  let within := match Store.find q (s.coreAt k).quads with
    | some (y, g) =>
      match (Store.find y s.yarns).bind (fun v => (v.group g).map (fun G => (v, G))) with
      | some (v, G) => if G.phase = .issue ∧ v.mayMove G ∧ s.moves (.issue y g) then [Turn.issue y g] else []
      | none => []
    | none => []
  let ys := s.quadYarns k q
  if within ≠ [] ∧ ys.any (fun c => within.any (fun t => match t with | .issue y _ => decide (y = c.1) | _ => false)) then within
  else ((chosen (ys.flatMap (fun c => s.contendersOf c.1 c.2))).map (fun c => c.moves)).getD []

/-- What the quadrants of a core may do while its clock runs. -/
def State.coreTurns (s : State) (k : Nat) : List Turn :=
  if (s.coreAt k).clock then (List.range 4).flatMap (s.quadTurns k) else []

/-! ### What may move -/

/-- Whether a monitor has something to do of itself: it is to be read anew, or this package has counted a write. -/
def State.monitorStirs (s : State) (c : Lane) : Bool :=
  c.monitor.any (fun m => m.reread || decide (s.stampOf m ≠ m.seen))

/-- Turns of a yarn beside its groups' own: spawn records placed, results that arrive, monitors. A write in another package's
memory wakes a monitor as an input. -/
def State.yarnTurns (s : State) (y : Nat) (v : Yarn) : List Turn :=
  v.groups.flatMap (fun g => match g.wait with
      | some (.spawn _ _ _) => [Turn.event (.spawnRecordPlaced y g.id)]
      | _ => [])
    ++ (List.range v.pend.length).map (fun k => Turn.event (.longLatencyComplete y k))
    ++ (v.lanes.filter (fun c => s.monitorStirs c.2)).map (fun c => Turn.event (.monitorWake y c.1))
    ++ (v.lanes.filter (fun c => c.2.monitor.isSome)).map (fun c => Turn.event (.wakeThatNamesNoWrite y c.1))

/-- Turns of a strand: its bins, engines and end. -/
def strandTurns (x : Nat) (t : Strand) : List Turn :=
  let chans := (t.copies.map (·.chan)).eraseDups
  (t.bins.map (fun b => Turn.event (.binYarnStart b.id))
    ++ chans.flatMap (fun c => [Turn.event (.copySector x c), .event (.copyDone x c)])
    ++ [.event (.spillReadback x), .event (.mmaKstep x), .event (.mmaEpilogue x), .event (.epilogueStore x),
        .event (.strandEnd x)])

/-- Turns of a launch: its coils, chunks and end. -/
def State.launchTurns (s : State) (l : Nat) (L : Launch) : List Turn :=
  let placed := ((s.strands.filter (fun c => decide (c.2.launch = l) && c.2.place.isSome)).map (fun c => c.2.coil)).eraseDups
  let due := match Store.find l s.colls with | some c => c.due | none => []
  [Turn.event (.coilPlace l), .event (.launchComplete l)] ++ placed.map (fun c => Turn.event (.evictCoil l c))
    ++ L.evicted.map (fun c => Turn.event (.restoreCoil l c)) ++ due.map (fun c => Turn.event (.chunkFire l c))

/-- Turns of a function: its queues, fault queue and invalidations. -/
def funcTurns (fn : Nat) (f : Func) : List Turn :=
  f.queues.flatMap (fun q => [Turn.event (.launchPacket fn q.1), .event (.barrierAndPacket fn q.1),
      .event (.barrierAndComplete fn q.1), .event (.signalPacket fn q.1)])
    ++ [.event (.faultRecordWrite fn), .event (.xlinvComplete fn)]

/-- Turns of passes put aside here. -/
def State.passTurn (s : State) (p : Pass) : List Turn :=
  if p.phase = 2 then
    match s.collOf p with
    | some (l, _) => if s.asking (.chunk l p.chunk) then [] else [.event (.broadcastHop p)]
    | none => if p.sent then [] else [.event (.broadcastHop p)]
  else [.event (.passArrival p)]

/-- A request of another package taken up again. -/
def retry (r : Request) : Turn :=
  if r.kind = .knot then .event (.knotRequest r)
  else if r.owned && reqWrites r then .event (.ownershipRequest r)
  else .event (.holderRequest r)

/-- The cores that strands stand on. -/
def State.busyCores (s : State) : List Nat :=
  ((s.strands.filter (fun c => c.2.place.isSome)).map (fun c => c.2.core)).eraseDups

/-- Whether the package's clocks run (R367, R368, R371). -/
def State.awake (s : State) : Bool := decide (s.power ≠ .standby) && decide (s.boot ≠ .dark)

/-- What is due at this very cycle, before anything else: bins, watchdogs, monitors of a restored strand, limits of monitors,
refills of meters, decays of load fields, and a link that must rekey before its numbers run out (R126, R145, R153, R322, R324,
R357). -/
def State.due (s : State) : List Turn :=
  if !s.awake then []
  else
    (s.links.map (fun c => Turn.event (.sequenceExhaustion c.1)) ++ s.strands.flatMap (fun c => c.2.bins.map (fun b => Turn.event (.spawnBinTimer b.id))
        ++ c.2.points.map (fun p => Turn.event (.watchdog c.1 p.1)))
      ++ s.yarns.flatMap (fun c => (c.2.lanes.filter (fun d => d.2.monitor.isSome)).flatMap (fun d =>
          (if d.2.monitor.any (·.reread) then [Turn.event (.monitorWake c.1 d.1)] else [])
            ++ [Turn.event (.mwaitLimit c.1 d.1)]))
      ++ s.funcs.map (fun c => Turn.event (.meterRefill c.1))
      ++ s.loads.map (fun c => Turn.event (.loadFieldDecay (BitVec.ofNat 12 c.1)))).filter s.able

/-- The cycles, counted as `now` is, at which something may fall due. -/
def State.deadlines (s : State) : List Nat :=
  let at_ := fun (t : Strand) (since n : Nat) => s.now + (n - elapsed (s.cycles t.core) since)
  (s.strands.filter (fun c => c.2.place.isSome)).flatMap (fun c =>
      let L := s.launchOf c.2
      (c.2.bins.filter (fun b => !b.released)).map (fun b => at_ c.2 b.opened L.binTimer)
        ++ (c.2.points.filter (fun p => decide (0 < p.2.arr) && !p.2.fired)).map (fun p =>
          at_ c.2 p.2.first (2 ^ (16 + L.exponent))))
    ++ s.yarns.flatMap (fun c => c.2.lanes.filterMap (fun d => d.2.monitor.bind (fun m =>
        m.since.bind (fun t => if m.limit = 0 then none else some (at_ (s.strandAt c.2.strand) t m.limit)))))
    ++ s.funcs.map (fun c => c.2.metAt + c.2.period) ++ s.loadAt.map (fun c => c.2 + 65536)

/-- Everything of the package's own that may move. -/
def State.ownTurns (s : State) : List Turn :=
  if !s.awake then []
  else
    s.yarns.flatMap (fun c => s.yarnTurns c.1 c.2) ++ s.strands.flatMap (fun c => strandTurns c.1 c.2)
      ++ s.launches.flatMap (fun c => s.launchTurns c.1 c.2) ++ s.funcs.flatMap (fun c => funcTurns c.1 c.2)
      ++ s.links.flatMap (fun c => [Turn.event (.linkRetrain c.1)])
      ++ s.reqs.map (fun c => Turn.event (.injectionRegulatorAdmit c.1))
      ++ (if s.boot = .up then (List.range s.scrubs.length).map (fun k => Turn.event (.scrubStep k)) else [])
      ++ s.colls.flatMap (fun c => (c.2.wanted.map Prod.fst).eraseDups.map (fun k => Turn.event (.passStart c.1 { chunk := k })))
      ++ s.unbound.flatMap (fun c => (c.wanted.map Prod.fst).eraseDups.map (fun k =>
        Turn.event (.passStart 0 { chunk := k, of_ := some (c.pass 0 k) })))
      ++ s.passes.flatMap s.passTurn ++ s.held.map (fun h => retry h.req)
      ++ (s.strands.map (fun c => c.2.core) ++ s.cores.map Prod.fst).eraseDups.map (fun k => Turn.event (.coreClockGated k))
      ++ [.event (.powerCapStep true), .event (.powerCapStep false)]

/-- Whether the package takes a pending input as it stands (R368, R371): while its clocks stand only bring-up, whose measurements may
wait for room in the log; and in recovery nothing but a reset. -/
def State.takes (s : State) (k : Nat) : Bool :=
  match s.inputs[k]? with
  | some (.powerOnReset _) => true
  | some (.thermalTrip _) => s.recovery || decide (s.boot ≠ .dark)
  | some (.logAcknowledge _) => !s.recovery
  | _ => decide (s.boot ≠ .dark)

/-- The first pending input that can be taken. -/
def State.inputTurn (s : State) : List Turn :=
  ((((List.range s.inputs.length).filter s.takes).map Turn.input).find? s.able).toList

/-- What may move next where nothing is due. -/
def State.candidates (s : State) : List Turn :=
  s.inputTurn ++ (if !s.awake then [] else s.busyCores.flatMap s.coreTurns) ++ s.ownTurns.filter s.able

/-- How often a candidate has been passed over. -/
def State.ageOf (s : State) (t : Turn) : Nat := ((s.ages.find? (fun c => decide (c.1 = t))).map Prod.snd).getD 0

/-- The candidate passed over most often, if its patience is at an end: no candidate is passed over for ever (R131). -/
def State.overdue (s : State) (cs : List Turn) : Option Turn :=
  cs.foldl (fun b t => if Config.patience ≤ s.ageOf t ∧ b.all (fun u => decide (s.ageOf u < s.ageOf t)) then some t else b) none

/-- Which of several candidates moves next: one that was passed over too often, else a freely chosen one (log entry 2). -/
def State.choose (s : State) (cs : List Turn) : Option Turn :=
  match s.overdue cs with
  | some t => some t
  | none => cs[Config.freeChoice s.tick % cs.length]?

/-- What moves next: what the state names, what is due, or one of the candidates. -/
def State.nextTurn (s : State) : Option Turn :=
  match s.turn with
  | some t => some t
  | none =>
    match s.due with
    | t :: _ => some t
    | [] => s.choose s.candidates

/-- The ages of the candidates once one of them has moved. -/
def State.passedOver (s : State) (t : Turn) : List (Turn × Nat) :=
  if s.turn.isSome then s.ages else (s.candidates.filter (fun u => decide (u ≠ t))).map (fun u => (u, s.ageOf u + 1))

/-- The state when one more step is counted and time has passed, not past a cycle at which something falls due (log entry 3); the
next message on its way takes its flit, a way that has no relay any more is lost (R320), and bring-up goes on (R371). -/
def State.elapse (s : State) : State :=
  { s with tick := s.tick + 1
           now := (s.deadlines.filter (fun t => decide (s.now < t))).foldl min (s.now + 1 + Config.freeElapsed s.tick)
           }.frameNext.loseRelays.bootOn

/-- The state after a turn: for what was due, one more step is counted and no time passes. -/
def State.after (new old : State) (t : Turn) : State :=
  if old.turn.isNone ∧ old.due ≠ [] then { new with tick := new.tick + 1 }
  else { new with ages := old.passedOver t }.elapse

end Sys2Proof.Machine
end

