-- ==== Sys2Proof/Machine/Step.lean ====
section
/-! DEFINITION. One step of the package, and the placing of an instruction where the next step issues it. -/

namespace Sys2Proof.Machine

open Host (Outcome)

/-- One step: the turn that comes next, after which the step is counted and time has passed. Where nothing can move, only
time passes. -/
def step (s : State) : Outcome State Fault Refusal :=
  match s.nextTurn with
  | none => .next s.elapse
  | some t =>
    match runTurn s t with
    | .next u => .next ((u.watched s).after s t)
    | .fault f => .fault f
    | .refused r => .refused r

/-- The state with an instruction's words placed in the clause buffer of a group whose turn is next (log entry 5). -/
def State.withFetchWord (s : State) (nbits w : Nat) : State := s.placeWords (tableWords nbits w)

end Sys2Proof.Machine
end

