-- ==== Sys2Proof/Safety.lean ====
section
/-! DEFINITION. The terms in which claims speak of the machine: what a state holds of a yarn, when an instruction issues
normally, what a step leaves alone, and the form every run keeps. -/

namespace Sys2Proof.Machine

open Host (Outcome)

/-! ### Reading a state -/

/-- A yarn by its number, or an empty one where the state has none. -/
def State.yarnAt (s : State) (y : Nat) : Yarn := (Store.find y s.yarns).getD { strand := 0 }

/-- A fibre: a lane of a yarn (R49). -/
def State.fibre (s : State) (y l : Nat) : Lane := (s.yarnAt y).lane l

/-- The bank of scalar registers, status word and trap registers that an issuer's group uses, in a later state. -/
def State.bankFor (s : State) (i : Issuer) : Bank := (s.yarnAt i.y).bankOf i.g.fray

/-- What a destination holds in a lane of the issuer's yarn. -/
def State.destVal (s : State) (i : Issuer) (d : Dest) (wide : Bool) (l : Nat) : Val :=
  match d with
  | .none => {}
  | .v n => (s.fibre i.y l).read n.toNat wide
  | .s n => (s.bankFor i).read n.toNat wide
  | .p n => { val := bit ((s.fibre i.y l).pred n) }

/-- The register values still to arrive in a register of a lane, oldest first (R26). -/
def State.coming (s : State) (y l n : Nat) : List RegVal :=
  (s.yarnAt y).pend.flatMap (fun p => (p.writes.filter (fun w => decide (w.1 = l ∧ w.2.1 = n))).map (·.2.2))

/-! ### When an instruction issues -/

/-- A group of a yarn that still has fibres issues an instruction. -/
structure Issues (s : State) (i : Issuer) : Prop where
  issuer : s.issuer = some i
  fibres : i.g.lanes ≠ 0
  alive : ∃ l, (i.yarn.lane l).active = true
  entry : ∀ e, i.g.fray = some e → (Store.find e i.yarn.frays).isSome = true

/-- The lanes in which an instruction's result can be read back: every executing lane for a register or a predicate other
than p7, whose writes are discarded; the lowest executing lane, whose value stands, for a scalar (R34, R54). -/
def Issuer.shows (i : Issuer) (x : Args) (l : Nat) : Prop :=
  match x.dst with
  | .none => False
  | .v _ => l ∈ i.lanes x
  | .s _ => (i.lanes x).head? = some l
  | .p n => n ≠ 7 ∧ l ∈ i.lanes x

/-! ### What a step leaves alone -/

/-- Nothing of the state differs but the record of one yarn. -/
def OnlyYarn (s t : State) (y : Nat) : Prop :=
  { t with yarns := s.yarns } = s ∧ ∀ z, z ≠ y → Store.find z t.yarns = Store.find z s.yarns

/-- A fibre after an instruction that writes registers or predicates of its executing lanes: in other lanes nothing changes,
and in those lanes nothing but the destination and the registers whose last-read bit is set, which die (R51, R63); `win`
gives the window base of a lane that the instruction moves, `mon` the monitor of one that it arms or disarms. -/
def FibreFrame (i : Issuer) (o : Op) (x : Args) (t : State) (win : Nat → BitVec 19 := fun l => (i.yarn.lane l).wbase)
    (mon : Nat → Option Monitor := fun l => (i.yarn.lane l).monitor) : Prop :=
  ∀ l, (l ∉ i.lanes x → t.fibre i.y l = i.yarn.lane l) ∧
    (l ∈ i.lanes x →
      let v := i.yarn.lane l
      let w := t.fibre i.y l
      (∀ n, (∀ k, x.dst = .v k → n ≠ k.toNat ∧ (o.dWide x.ty x.sub x.mods = true → n ≠ k.toNat + 1)) →
        w.reg n = if n ∈ i.killed o x then {} else v.reg n)
      ∧ (∀ p, x.dst ≠ .p p → w.pred p = v.pred p)
      ∧ w.active = v.active ∧ w.exited = v.exited ∧ w.parked = v.parked ∧ w.wbase = win l ∧ w.linear = v.linear
      ∧ w.monitor = mon l)

/-- A bank after such an instruction: the scalars but the destination, the floor and the trap registers are as before, and
the status word has at most sticky bits more (R61, R66). -/
def BankFrame (i : Issuer) (o : Op) (x : Args) (t : State) : Prop :=
  let b := t.bankFor i
  (∀ n, (∀ k, x.dst = .s k → n ≠ k.toNat ∧ (o.dWide x.ty x.sub x.mods = true → n ≠ k.toNat + 1)) →
    b.scalar n = i.bank.scalar n)
    ∧ b.status &&& ~~~(0x7F : Word) = i.bank.status &&& ~~~(0x7F : Word)
    ∧ i.bank.status &&& b.status = i.bank.status
    ∧ b.ssw = i.bank.ssw ∧ b.floor = i.bank.floor ∧ b.xcause = i.bank.xcause ∧ b.xindex = i.bank.xindex
    ∧ b.xpc = i.bank.xpc ∧ b.xarg = i.bank.xarg ∧ b.xmask = i.bank.xmask

/-! ### Where groups stand -/

/-- A lane of a yarn stands at a clause header, its clause not started (R101). -/
def Yarn.stands (y : Yarn) (l : Nat) (pc : BitVec 57) : Prop :=
  ∃ h ∈ y.groups, h.lanes.getLsbD l = true ∧ h.pc = pc ∧ (h.phase = .header ∨ h.phase = .rejoin ∨ h.phase = .flags)

/-- A lane of a yarn is past a group's instruction: at the next one of its clause, or at the header that follows (R27,
R101). -/
def Yarn.pastIn (y : Yarn) (g : Group) (l : Nat) : Prop :=
  if g.last then y.stands l g.clause.next
  else ∃ h ∈ y.groups, h.lanes.getLsbD l = true ∧ h.pc = g.pc ∧ h.clause = g.clause
    ∧ h.phase = g.phase ∧ h.idx = g.idx + 1 ∧ h.wait = none

def State.stands (t : State) (y l : Nat) (pc : BitVec 57) : Prop := (t.yarnAt y).stands l pc

def State.pastIn (t : State) (i : Issuer) (l : Nat) : Prop := (t.yarnAt i.y).pastIn i.g l

/-! ### An instruction that only computes -/

/-- What an instruction's destination may be read as: a value and, but for predicates, a label. -/
structure Result where
  val : State → Issuer → Args → Nat → DWord → Prop    -- what is required of the value in a lane
  lab : State → Issuer → Args → Nat → Label           -- the label in a lane
  bits : State → Issuer → Args → Nat → Word := fun _ _ _ _ => 0   -- the sticky bits it raises there

/-- An instruction that only computes: where the labels of its results do not exceed the launch's ceiling (above it R349
refuses them) and it need not wait (R83), it completes: its destination holds the results, the status word takes the sticky
bits of every executing lane, every lane of the group goes on, to the next instruction of the clause or the next header, and
nothing else changes. -/
def Computes (o : Op) (r : Result) (free : State → Issuer → Args → Prop := fun _ _ _ => True) : Prop :=
  ∀ (s : State) (i : Issuer) (x : Args), x.wf o = true → Issues s i → free s i x →
    (∀ l, i.shows x l → (∀ p, x.dst ≠ .p p) → (r.lab s i x l).toNat ≤ i.ceil) →
    ∃ t, exec (o.mk x) s = .next t ∧ OnlyYarn s t i.y ∧ FibreFrame i o x t ∧ BankFrame i o x t ∧
      (t.bankFor i).status = i.bank.status ||| ((i.lanes x).foldl (fun b l => b ||| r.bits s i x l) 0 &&& 0x7F) ∧
      (∀ l ∈ lanesOf i.g.lanes, t.pastIn i l) ∧
      ∀ l, i.shows x l →
        let v := t.destVal i x.dst (o.dWide x.ty x.sub x.mods) l
        r.val s i x l v.val ∧ ((∀ p, x.dst ≠ .p p) → v.lab = r.lab s i x l)

/-- An operand's value in a lane, at the width of its position (R64). -/
def opA (o : Op) (s : State) (i : Issuer) (x : Args) (l : Nat) : Val := i.operand s x.a (o.aWide x.ty x.src x.mods) l
def opB (o : Op) (s : State) (i : Issuer) (x : Args) (l : Nat) : Val := i.operand s x.b (o.bWide x.ty) l
def opC (o : Op) (s : State) (i : Issuer) (x : Args) (l : Nat) : Val := i.operand s x.c (o.cWide x.ty) l

/-- The label of a result that reads its own lane: the highest of its operands' and the floor (R59). -/
def ownLabel (o : Op) (s : State) (i : Issuer) (x : Args) (l : Nat) : Label :=
  i.label [opA o s i x l, opB o s i x l, opC o s i x l]

/-- A result computed from the three operands of its own lane, with the sticky bits it raises. -/
def own (o : Op) (f : Args → DWord → DWord → DWord → DWord → Prop)
    (bits : Args → DWord → DWord → DWord → Word := fun _ _ _ _ => 0) : Result where
  val s i x l r := f x (opA o s i x l).val (opB o s i x l).val (opC o s i x l).val r
  lab := ownLabel o
  bits s i x l := bits x (opA o s i x l).val (opB o s i x l).val (opC o s i x l).val

/-! ### Numbers in words -/

/-- Element e of w bits of a value. -/
def elemBits (w e : Nat) (v : DWord) : BitVec w := v.extractLsb' (w * e) w

/-- The number some bits hold under a type: signed or unsigned (R41). -/
def number (t : Ty) {w : Nat} (b : BitVec w) : Int := if tySigned t then b.toInt else b.toNat

/-- A number held to the range of a type where saturation is asked for (R66). -/
def saturated (t : Ty) (sat : Bool) (v : Int) : Int := if sat then max (tyLo t) (min v (tyHi t)) else v

/-- ISAT, where saturation is asked for and some of the exact numbers lies outside the type's range (R66). -/
def isatOf (t : Ty) (sat : Bool) (vs : List Int) : Word :=
  if sat && vs.any (fun v => decide (saturated t sat v ≠ v)) then 0x20 else 0

/-- Elements a word of a type holds (R65). -/
def elemCount (t : Ty) : Nat := if tyPacked t then 32 / tyBits t else 1

/-- Element e of an operand: of the word it reads, or, of an inline integer under a packed type, the integer itself (R65). -/
def elemOf (t : Ty) (a : Operand) (v : DWord) (e : Nat) : BitVec (tyBits t) :=
  match a with
  | .int k => if tyPacked t then BitVec.ofInt _ k.toInt else elemBits _ e v
  | _ => elemBits _ e v

/-! ### What stays, and what is to come -/

/-- Nothing of the state differs but the record of one yarn and the answers its fetches had waited for. -/
def OnlyYarnAndFetches (s t : State) (y : Nat) : Prop :=
  { t with yarns := s.yarns, bufs := s.bufs } = s ∧ ∀ z, z ≠ y → Store.find z t.yarns = Store.find z s.yarns

/-- Every fibre of a yarn is as before. -/
def SameFibres (i : Issuer) (t : State) : Prop := ∀ l, t.fibre i.y l = i.yarn.lane l

/-- A bank as before but for its flags. -/
def SameBank (i : Issuer) (t : State) : Prop := { t.bankFor i with flags := 0 } = { i.bank with flags := 0 }

/-- The scalar values still to arrive in a register of a copy of the scalars, oldest first (R26). -/
def State.comingScalar (s : State) (y : Nat) (fray : Option Nat) (n : Nat) : List RegVal :=
  (s.yarnAt y).pend.flatMap (fun p =>
    if p.fray = fray then (p.swrites.filter (fun w => decide (w.1 = n))).map (·.2) else [])

/-- An instruction is over for its group: its own results apart, its fibres lose nothing but their last-read registers, its
bank is as before, and every lane of the group goes on. -/
structure GoesOn (s t : State) (i : Issuer) (o : Op) (x : Args)
    (mon : Nat → Option Monitor := fun l => (i.yarn.lane l).monitor) : Prop where
  fibres : FibreFrame i o { x with dst := .none } t (mon := mon)
  bank : SameBank i t
  past : ∀ l ∈ lanesOf i.g.lanes, t.pastIn i l

/-- A yarn has this copy of the scalar registers: its own, or a fray's that has not ended (R55, R110). -/
def State.hasCopy (t : State) (y : Nat) (fray : Option Nat) : Prop :=
  ∀ e, fray = some e → (Store.find e (t.yarnAt y).frays).isSome = true

/-- Nothing more is to arrive in a yarn's registers than before. -/
def NothingComes (s t : State) (i : Issuer) : Prop :=
  (∀ l n, t.coming i.y l n = s.coming i.y l n)
    ∧ ∀ f n, t.hasCopy i.y f → t.comingScalar i.y f n = s.comingScalar i.y f n

/-- The words a value puts into a register, or a pair, that begins at register k. -/
def wordsOf (wide : Bool) (k n : Nat) (v : Val) : List RegVal :=
  (if n = k then [⟨v.val.setWidth 32, v.lab⟩] else [])
    ++ (if wide = true ∧ n = k + 1 then [⟨v.val.extractLsb' 32 32, v.lab⟩] else [])

/-- A result has been sent off: in each executing lane the destination is to receive it, behind what was to arrive there
before (R26); of a scalar destination, the lowest executing lane's (R54). -/
def Comes (s t : State) (i : Issuer) (x : Args) (wide : Bool) (v : Nat → Val) : Prop :=
  match x.dst with
  | .v k => (∀ l n, t.coming i.y l n = s.coming i.y l n ++ (if l ∈ i.lanes x then wordsOf wide k.toNat n (v l) else []))
      ∧ ∀ f n, t.hasCopy i.y f → t.comingScalar i.y f n = s.comingScalar i.y f n
  | .s k => (∀ l n, t.coming i.y l n = s.coming i.y l n)
      ∧ ∀ f n, t.hasCopy i.y f → t.comingScalar i.y f n = s.comingScalar i.y f n
        ++ (match i.lanes x with
            | l :: _ => if f = i.g.fray then wordsOf wide k.toNat n (v l) else []
            | [] => [])
  | _ => NothingComes s t i

/-- Nothing of the state differs but the record of one yarn and the scratchpads of strands: their bytes, labels and counts
of writes. -/
def OnlyYarnAndPads (s t : State) (y : Nat) : Prop :=
  { t with yarns := s.yarns, strands := s.strands } = s ∧ (∀ z, z ≠ y → Store.find z t.yarns = Store.find z s.yarns)
    ∧ ∀ z, { t.strandAt z with
        pad := (s.strandAt z).pad, padLab := (s.strandAt z).padLab, padStamp := (s.strandAt z).padStamp } = s.strandAt z

/-- Nothing of the state differs but one yarn's record, one rendezvous point, and, where its phase moved, the waits at it. -/
def OnlyYarnAndPoint (s t : State) (y z pt : Nat) : Prop :=
  let moved := decide (((t.strandAt z).point pt).phase ≠ ((s.strandAt z).point pt).phase)
  { t with yarns := s.yarns, strands := s.strands } = s
    ∧ (∀ n, { t.strandAt n with points := (s.strandAt n).points } = s.strandAt n)
    ∧ (∀ n q, n ≠ z ∨ q ≠ pt → (t.strandAt n).point q = (s.strandAt n).point q)
    ∧ ∀ n, n ≠ y → Store.find n t.yarns = (Store.find n s.yarns).map (fun v =>
        { v with groups := v.groups.map (fun g =>
          if moved = true ∧ g.wait = some (.rdv z pt false) then { g with wait := some (.rdv z pt true) } else g) })

/-- In a protected launch both lanes of each pair execute, or neither, and the two agree (R230). -/
def PairsAgree {α : Type} (i : Issuer) (x : Args) (f : Nat → α) : Prop :=
  i.protd = true → ∀ l ∈ i.lanes x, twin l ∈ i.lanes x ∧ f l = f (twin l)

/-! ### Global accesses -/

/-- n bytes from an address pass R244's checks for the issuer and are served by this package's own memory, at once: their page
and their first byte of backing, which a record of the routing table gives; `origin` where the access goes to the prefix's
origin (R338). -/
structure Served (s : State) (i : Issuer) (write read : Bool) (wlab : Label) (va : DWord) (n : Nat) (p : Page) (q : Fab)
    (origin : Bool := false) : Prop where
  judged : ∃ pfx len d, s.judge ⟨i.launch.fn, i.ceil, { i.yarn.elig with trailing := true }, write, origin, wlab⟩ va
      = .ok (p, .here q pfx len, d)
    ∧ s.holds (write || origin || decide (p.cls = 1)) { page := p, len := n, pfx := pfx, plen := len } q = true
  clean : read = true → s.mem.poisonedIn q.toNat n = false
  free : s.awayIn q.toNat n = none ∧ s.scrubHeld q = false

/-- The parts of an access: place and length of each, cut at aligned 8-byte units (R249). -/
def partsAt (va : DWord) (w : Nat) : List (Nat × Nat) := pieces va.toNat w 0 w

/-- Nothing of the state differs but one yarn's record, memory, what the launch keeps to be replayed (R231), and numbers. -/
def OnlyYarnAndMemory (s t : State) (i : Issuer) : Prop :=
  { t with yarns := s.yarns, mem := s.mem, launches := s.launches, funcs := s.funcs, nextReq := s.nextReq } = s
    ∧ (∀ z, z ≠ i.y → Store.find z t.yarns = Store.find z s.yarns)
    ∧ (∀ l, l ≠ i.strand.launch → Store.find l t.launches = Store.find l s.launches)
    ∧ (∀ L M, Store.find i.strand.launch s.launches = some L → Store.find i.strand.launch t.launches = some M →
      { M with replayable := L.replayable, snap := L.snap, snapLabs := L.snapLabs, snapPages := L.snapPages } = L)
    ∧ (∀ f, { t.func f with tele := (s.func f).tele } = s.func f)
    ∧ t.mem.poison = s.mem.poison

/-! ### The form every run keeps -/

/-- Memory, and what launches saved of it, in canonical form. -/
def State.canonical (s : State) : Bool :=
  s.mem.wf && s.launches.all (fun c => Store.wf emptyByte c.2.snap && Store.wf 0 c.2.snapLabs)

/-- The numbered tables of a state stand in rising order of their keys. -/
def State.ordered (s : State) : Bool :=
  Store.rising s.launches && Store.rising s.strands && Store.rising s.yarns && Store.rising s.changes

end Sys2Proof.Machine
end

