-- ==== Sys2Proof/Certificates/Slice0/Obligations.lean ====
section
/-! DEFINITION. The statements about this machine, for the provers. -/

open Sys2Proof Sys2Proof.Machine Host

/-! ### Integer, logic and predicate instructions -/

/-- R70: each element of the result is f of the operands' elements, computed exactly and, under saturate, held to the type's
range, which sets ISAT where it changes one. -/
def elementwise (o : Op) (f : Int → Int → Int → Int) : Result :=
  let exact := fun (x : Args) (a b c : DWord) (e : Nat) =>
    f (number x.ty (elemOf x.ty x.a a e)) (number x.ty (elemOf x.ty x.b b e)) (number x.ty (elemOf x.ty x.c c e))
  own o (fun x a b c r => ∀ e, e < elemCount x.ty →
      elemBits (tyBits x.ty) e r = BitVec.ofInt _ (saturated x.ty x.sat (exact x a b c e)))
    (fun x a b c => isatOf x.ty x.sat ((List.range (elemCount x.ty)).map (exact x a b c)))

/-- The instructions of R70 complete, with the exact result of each element reduced or saturated, and change nothing else. -/
def Obligations.IntegerArithmeticResults : Prop :=
  Computes .add (elementwise .add fun x y _ => x + y)
  ∧ Computes .sub (elementwise .sub fun x y _ => x - y)
  ∧ Computes .mulLo (elementwise .mulLo fun x y _ => x * y)
  ∧ Computes .mad (elementwise .mad fun x y z => x * y + z)
  ∧ Computes .minI (elementwise .minI fun x y _ => min x y)
  ∧ Computes .maxI (elementwise .maxI fun x y _ => max x y)
  ∧ Computes .absI (elementwise .absI fun x _ _ => |x|)
  ∧ Computes .negI (elementwise .negI fun x _ _ => -x)
  ∧ Computes .mulHi (own .mulHi fun x a b _ r =>
    elemBits (tyBits x.ty) 0 r = BitVec.ofInt _
      (number x.ty (elemBits (tyBits x.ty) 0 a) * number x.ty (elemBits (tyBits x.ty) 0 b) / 2 ^ tyBits x.ty))

/-- R71, R80, R81, R82: mad.wide, lea, dp4 and cvt complete with the values their entries give, and change nothing else. -/
def WideAddressDotConvertResults : Prop :=
  Computes .madWide (own .madWide fun x a b c r =>
    let ext := fun (v : DWord) => if x.ty = .s32 then (v.setWidth 32).signExtend 64 else (v.setWidth 32).setWidth 64
    r = ext a * ext b + c)
  ∧ Computes .lea (own .lea fun x a b _ r =>
    let k : DWord := if x.ty = .n64 then (b.setWidth 32).setWidth 64
      else if x.ty = .s64 then (b.setWidth 32).signExtend 64 else b
    r = a + (k <<< x.mods.toNat) + x.off.signExtend 64)
  ∧ (let word := fun (x : Args) => if tySigned x.ty then Ty.s32 else Ty.n32
    let exact := fun (x : Args) (a b c : DWord) =>
      let w := tyBits x.ty
      number (word x) (c.setWidth 32)
        + ((List.range (32 / w)).map (fun k => number x.ty (elemBits w k a) * number x.ty (elemBits w k b))).sum
    Computes .dp4 (own .dp4 (fun x a b c r => r.setWidth 32 = BitVec.ofInt 32 (saturated (word x) x.sat (exact x a b c)))
      (fun x a b c => isatOf (word x) x.sat [exact x a b c])))
  ∧ Computes .cvt (own .cvt (fun x a _ _ r =>
      let v : BitVec (tyBits x.ty) :=
        BitVec.ofInt _ (saturated x.ty x.sat (number x.src (a.setWidth (tyBits x.src))))
      if tySigned x.ty ∧ tyBits x.ty < 32 then r.setWidth 32 = v.signExtend 32 else r = v.setWidth 64)
    (fun x a _ _ => isatOf x.ty x.sat [number x.src (a.setWidth (tyBits x.src))]))

/-- R72, R78, R79: the bitwise instructions, sel, mov and movi complete with their values, and change nothing else. -/
def LogicSelectMoveResults : Prop :=
  Computes .andB (own .andB fun x a b _ r => r.setWidth (tyBits x.ty) = (a &&& b).setWidth (tyBits x.ty))
  ∧ Computes .orB (own .orB fun x a b _ r => r.setWidth (tyBits x.ty) = (a ||| b).setWidth (tyBits x.ty))
  ∧ Computes .xorB (own .xorB fun x a b _ r => r.setWidth (tyBits x.ty) = (a ^^^ b).setWidth (tyBits x.ty))
  ∧ Computes .andn (own .andn fun x a b _ r => r.setWidth (tyBits x.ty) = (a &&& ~~~b).setWidth (tyBits x.ty))
  ∧ Computes .notB (own .notB fun x a _ _ r => r.setWidth (tyBits x.ty) = (~~~a).setWidth (tyBits x.ty))
  ∧ Computes .sel
    { val := fun s i x l r => match x.c with
        | .pred p => r = (if (i.yarn.lane l).pred p then opA .sel s i x l else opB .sel s i x l).val
        | _ => False,
      lab := fun s i x l => i.label [opA .sel s i x l, opB .sel s i x l] }
  ∧ Computes .mov (own .mov fun _ a _ _ r => r = a)
  ∧ Computes .movi (own .movi fun _ a _ _ r => r = a)

/-- The results of R71, R72, R78 to R82. -/
def Obligations.WideConvertLogicAndMoveResults : Prop := WideAddressDotConvertResults ∧ LogicSelectMoveResults

/-- R73, R74: a shift's count is operand b's low 32 bits, and a count of the width or more leaves zeros, the sign, or a
rotation by the count modulo the width; shf takes 32 bits of a pair. They change nothing else. -/
def ShiftResults : Prop :=
  let n := fun (b : DWord) => (b.setWidth 32).toNat
  Computes .shl (own .shl fun x a b _ r =>
    r.setWidth (tyBits x.ty) = if n b < tyBits x.ty then a.setWidth (tyBits x.ty) <<< n b else 0)
  ∧ Computes .shr (own .shr fun x a b _ r =>
    r.setWidth (tyBits x.ty) = if n b < tyBits x.ty then a.setWidth (tyBits x.ty) >>> n b else 0)
  ∧ Computes .sar (own .sar fun x a b _ r => ∀ k, k < tyBits x.ty →
    r.getLsbD k = a.getLsbD (if n b + k < tyBits x.ty then n b + k else tyBits x.ty - 1))
  ∧ Computes .rot (own .rot fun x a b _ r => ∀ k, k < tyBits x.ty →
    r.getLsbD ((k + n b) % tyBits x.ty) = a.getLsbD k)
  ∧ Computes .shf (own .shf fun _ a b c r =>
    r.setWidth 32 = ((b.setWidth 32 ++ a.setWidth 32 : DWord) >>> (c.toNat % 64)).setWidth 32)

/-- R75, R76: counts of bits, reversal, extraction and insertion of a field complete with their values, and change nothing
else. -/
def BitFieldResults : Prop :=
  Computes .popc (own .popc fun x a _ _ r => r.toNat = ((List.range (tyBits x.ty)).filter a.getLsbD).length)
  ∧ Computes .clz (own .clz fun x a _ _ r => let w := tyBits x.ty
    r.toNat ≤ w ∧ (∀ k, k < r.toNat → a.getLsbD (w - 1 - k) = false) ∧ (r.toNat < w → a.getLsbD (w - 1 - r.toNat) = true))
  ∧ Computes .ctz (own .ctz fun x a _ _ r => let w := tyBits x.ty
    r.toNat ≤ w ∧ (∀ k, k < r.toNat → a.getLsbD k = false) ∧ (r.toNat < w → a.getLsbD r.toNat = true))
  ∧ Computes .brev (own .brev fun x a _ _ r => ∀ k, k < tyBits x.ty → r.getLsbD k = a.getLsbD (tyBits x.ty - 1 - k))
  ∧ Computes .bext (own .bext fun x a b _ r =>
    let w := tyBits x.ty
    let pos := (b.extractLsb' 0 8).toNat
    let len := min (b.extractLsb' 8 8).toNat w
    let bit := fun k => if k < w then a.getLsbD k else tySigned x.ty && a.getLsbD (w - 1)
    ∀ k, k < w → r.getLsbD k =
      if k < len then bit (pos + k) else tySigned x.ty && decide (0 < len) && bit (pos + len - 1))
  ∧ Computes .bins (own .bins fun x a b c r =>
    let pos := (b.extractLsb' 0 8).toNat
    let len := min (b.extractLsb' 8 8).toNat (tyBits x.ty)
    ∀ k, k < tyBits x.ty → r.getLsbD k = if pos ≤ k ∧ k < pos + len then c.getLsbD (k - pos) else a.getLsbD k)

/-- The results of R73 to R76; that popc's result has 32 bits under b64 too is the model's choice (log 53). -/
def Obligations.ShiftAndBitFieldResults : Prop := ShiftResults ∧ BitFieldResults

/-- The condition a cmp sub-opcode names (R77). -/
def compares (sub : BitVec 4) (a b : Int) : Bool :=
  match sub.toNat with
  | 0 => decide (a = b)
  | 1 => decide (a ≠ b)
  | 2 => decide (a < b)
  | 3 => decide (a ≤ b)
  | 4 => decide (b < a)
  | _ => decide (b ≤ a)

/-- R77, R99: cmp and the predicate instructions complete, the destination true or 1 exactly where their condition holds,
and change nothing else. -/
def Obligations.CompareAndPredicateResults : Prop :=
  let truth := fun (o : Op) (f : Bool → Bool → Bool) => Computes o
    { val := fun _ i x l r => match x.a, x.b with
        | .pred p, .pred q => r = bit (f ((i.yarn.lane l).pred p) ((i.yarn.lane l).pred q))
        | .pred p, _ => r = bit (f ((i.yarn.lane l).pred p) false)
        | _, _ => False,
      lab := fun _ _ _ _ => 0 }
  Computes .cmp (own .cmp fun x a b _ r =>
    r = bit (compares x.sub (number x.ty (a.setWidth (tyBits x.ty))) (number x.ty (b.setWidth (tyBits x.ty)))))
  ∧ truth .pand (fun a b => a && b) ∧ truth .por (fun a b => a || b) ∧ truth .pxor (fun a b => a != b)
  ∧ truth .pnot (fun a _ => !a) ∧ truth .pmov (fun a _ => a)

/-- R84, R85: perm and lut16 complete with each byte picked as their entries say, and change nothing else. -/
def Obligations.BytePickResults : Prop :=
  Computes .perm (own .perm fun _ a b c r => ∀ k, k < 4 →
    let n := (elemBits 4 k c).toNat
    elemBits 8 k r = if 8 ≤ n then 0 else elemBits 8 n (b.setWidth 32 ++ a.setWidth 32 : DWord))
  ∧ Computes .lut16
    { val := fun s i x l r => match x.b with
        | .s b => ∀ k, k < 4 →
          let n := (elemBits 8 k (opA .lut16 s i x l).val).toNat % 16
          elemBits 8 k r = elemBits 8 (n % 4) ((i.bank.scalar (b.toNat + n / 4)).val.setWidth 64)
        | _ => False,
      lab := fun s i x l => match x.b with
        | .s b => i.label (opA .lut16 s i x l
            :: [0, 1, 2, 3].map (fun j => { val := 0, lab := (i.bank.scalar (b.toNat + j)).lab }))
        | _ => 0 }

/-! ### Cross-lane instructions (R83 to R91) -/

/-- The lanes whose values a lane's combination counts: in a protected launch those of its own side of each pair (R229). -/
def sameSide (i : Issuer) (l m : Nat) : Bool := !i.protd || decide (m % 2 = l % 2)

/-- A result read from one other lane, which `src` gives (R83). -/
def readsLane (o : Op) (src : State → Issuer → Args → Nat → Nat) : Result where
  val s i x l r := r = (i.across s x.a x.ty.wide (src s i x l)).val
  lab s i x l := i.label [i.across s x.a x.ty.wide (src s i x l), opB o s i x l]

/-- No write to operand a's register in an active source lane outside G is still pending, so the instruction need not wait
(R83). -/
def settledSources (src : State → Issuer → Args → Nat → List Nat) (s : State) (i : Issuer) (x : Args) : Prop :=
  ∀ n, x.a = .v n → ∀ l ∈ i.lanes x, ∀ m ∈ src s i x l, m ∉ i.lanes x → (i.yarn.lane m).active = true →
    i.yarn.pendingAt m n.toNat = false ∧ (x.ty.wide = true → i.yarn.pendingAt m (n.toNat + 1) = false)

/-- The lane number shfl reads, in a segment of `z` lanes (R87). -/
def shflSource (sub z n k : Nat) : Nat :=
  match sub with
  | 0 => n - n % z + k % z
  | 1 => if n % z < k then n else n - k
  | 2 => if n % z + k < z then n + k else n
  | _ => n - n % z + (n % z ^^^ k % z)

/-- R86, R87, R89: lprev, shfl and bcast complete with the value their source lane holds, and change nothing else. The model's
choices: lprev takes b at lane 0 of G only, and bcast's selector counts modulo 32 in a protected launch (log 48); there shfl's
segments count pairs (log 29). -/
def Obligations.LaneReadResults : Prop :=
  let back := fun (_ : State) (i : Issuer) (_ : Args) (l : Nat) => i.laneFrom l (i.launch.laneNo l - 1)
  let seg := fun (s : State) (i : Issuer) (x : Args) (l : Nat) =>
    i.laneFrom l (shflSource x.sub.toNat ((if i.protd then 32 else 64) / 2 ^ x.mods.toNat) (i.launch.laneNo l)
      ((opB .shfl s i x l).val.setWidth 32).toNat)
  let named := fun (s : State) (i : Issuer) (x : Args) (l : Nat) =>
    i.laneFrom l ((opB .bcast s i x l).val.toNat % (if i.protd then 32 else 64))
  Computes .lprev
    { val := fun s i x l r => r = if i.launch.laneNo l = 0 then (i.operand s x.b x.ty.wide l).val
        else (i.across s x.a x.ty.wide (back s i x l)).val,
      lab := fun s i x l => i.label [if i.launch.laneNo l = 0 then i.operand s x.b x.ty.wide l
        else i.across s x.a x.ty.wide (back s i x l)] }
    (settledSources fun s i x l => if i.launch.laneNo l = 0 then [] else [back s i x l])
  ∧ Computes .shfl (readsLane .shfl seg) (settledSources fun s i x l => [seg s i x l])
  ∧ Computes .bcast (readsLane .bcast named) (settledSources fun s i x l => [named s i x l])

/-- One step of scan and redux, in w bits (R90). -/
def combine (t : Ty) (sub : Nat) (sat : Bool) (x y : BitVec (tyBits t)) : BitVec (tyBits t) :=
  match sub with
  | 0 => BitVec.ofInt _ (saturated t sat (number t x + number t y))
  | 1 => BitVec.ofInt _ (min (number t x) (number t y))
  | 2 => BitVec.ofInt _ (max (number t x) (number t y))
  | 3 => x &&& y
  | 4 => x ||| y
  | _ => x ^^^ y

/-- Its identity (R90). -/
def combineUnit (t : Ty) (sub : Nat) : BitVec (tyBits t) :=
  match sub with
  | 1 => BitVec.ofInt _ (tyHi t)
  | 2 => BitVec.ofInt _ (tyLo t)
  | 3 => BitVec.allOnes _
  | _ => 0

/-- Operand a combined over some lanes, in order. -/
def combined (o : Op) (s : State) (i : Issuer) (x : Args) (ls : List Nat) : BitVec (tyBits x.ty) :=
  ls.foldl (fun acc m => combine x.ty x.sub.toNat x.sat acc ((opA o s i x m).val.setWidth _))
    (combineUnit x.ty x.sub.toNat)

/-- The combination over some lanes, its label, and ISAT where a lane's own step is held to the range. -/
def combination (o : Op) (pickLanes : Issuer → Args → Nat → List Nat) : Result where
  val s i x l r := r.setWidth (tyBits x.ty) = combined o s i x (pickLanes i x l)
  lab s i x l := i.label ((pickLanes i x l).map (opA o s i x))
  bits s i x l := if x.sub = 0 then isatOf x.ty x.sat
      [number x.ty (combined o s i x ((i.lanes x).filter (fun m => sameSide i l m && decide (m < l))))
        + number x.ty ((opA o s i x l).val.setWidth (tyBits x.ty))] else 0

/-- R88, R90, R91: vote, scan, redux and match complete with what their entries compute over the executing lanes, and change
nothing else. That vote counts primaries and shadows of a protected launch apart is the model's choice (log 29). -/
def LaneCombineResults : Prop :=
  Computes .vote
    { val := fun s i x l r =>
        let side := (i.lanes x).filter (sameSide i l)
        let yes := side.filter (fun m => (opA .vote s i x m).val == 1)
        if x.sub = 0 then r = bit (!yes.isEmpty)
        else if x.sub = 1 then r = bit (decide (yes = side))
        else ∀ k, k < 64 → r.getLsbD k = yes.any (fun m => i.launch.laneNo m == k),
      lab := fun _ i _ _ => i.bank.floor }
  ∧ Computes .scan (combination .scan fun i x l => (i.lanes x).filter (fun m =>
      sameSide i l m && if x.mods.getLsbD 0 then decide (m < l) else decide (m ≤ l)))
  ∧ Computes .redux (combination .redux fun i x l => (i.lanes x).filter (sameSide i l))
  ∧ Computes .matchL
    { val := fun s i x l r => ∀ k, k < 64 → r.getLsbD k = (i.lanes x).any (fun m =>
        i.launch.laneNo m == k && sameSide i l m && (opA .matchL s i x m).val == (opA .matchL s i x l).val),
      lab := fun s i x _ => i.label ((i.lanes x).map (opA .matchL s i x)) }

/-! ### Float instructions (R204 to R208) -/

/-- A yarn of matrix or vector role issues, which float instructions need (R123, R204). -/
def floatRole (_ : State) (i : Issuer) (_ : Args) : Prop := i.bank.role ≠ 0

/-- An operand of a float type in a lane: an inline integer stands for the float nearest to it (R38, R204). -/
def floatIn (s : State) (i : Issuer) (t : Ty) (a : Operand) (l : Nat) : DWord := (i.operand s (floatOperand t a) t.wide l).val

/-- A result computed by a function of codes on element 0, or, where `packed` and the type has 16 bits, on both elements. -/
def floatResult (o : Op) (packed : Bool) (g : Args → Nat → Nat → Nat → Nat × Word) : Result :=
  let n := fun (x : Args) => if packed && tyBits x.ty == 16 then 2 else 1
  let at_ := fun (s : State) (i : Issuer) (x : Args) (l e : Nat) =>
    let code := fun (a : Operand) => (elemBits (tyBits x.ty) e (floatIn s i x.ty a l)).toNat
    g x (code x.a) (code x.b) (code x.c)
  { val := fun s i x l r =>
      if n x = 2 then ∀ e, e < 2 → elemBits 16 e r = BitVec.ofNat 16 (at_ s i x l e).1
      else r = BitVec.ofNat 64 (at_ s i x l 0).1,
    lab := ownLabel o,
    bits := fun s i x l => (List.range (n x)).foldl (fun b e => b ||| (at_ s i x l e).2) 0 }

/-- R204, R205, R206: the arithmetic, minimum, maximum, comparison and selection of floats complete, each element on its own
with its sticky bits, and change nothing else. -/
def Obligations.FloatArithmeticResults : Prop :=
  Computes .fadd (floatResult .fadd true fun x a b _ => (fmtOf x.ty).add x.rnd x.sat a b) floatRole
  ∧ Computes .fsub (floatResult .fsub true fun x a b _ => (fmtOf x.ty).sub x.rnd x.sat a b) floatRole
  ∧ Computes .fmul (floatResult .fmul true fun x a b _ => (fmtOf x.ty).mul x.rnd x.sat a b) floatRole
  ∧ Computes .ffma (floatResult .ffma true fun x a b c => (fmtOf x.ty).fma x.rnd x.sat a b c) floatRole
  ∧ Computes .fmin (floatResult .fmin true fun x a b _ => (fmtOf x.ty).pick false a b) floatRole
  ∧ Computes .fmax (floatResult .fmax true fun x a b _ => (fmtOf x.ty).pick true a b) floatRole
  ∧ Computes .fcmp (floatResult .fcmp false fun x a b _ =>
      let r := (fmtOf x.ty).compares x.sub a b
      ((bit r.1).toNat, r.2)) floatRole
  ∧ Computes .fscale
    { val := fun s i x l r => r = BitVec.ofNat 64 ((fmtOf x.ty).scale x.rnd x.sat (floatIn s i x.ty x.a l).toNat
        ((opB .fscale s i x l).val.setWidth 32).toInt).1,
      lab := ownLabel .fscale,
      bits := fun s i x l => ((fmtOf x.ty).scale x.rnd x.sat (floatIn s i x.ty x.a l).toNat
        ((opB .fscale s i x l).val.setWidth 32).toInt).2 } floatRole
  ∧ Computes .fsel
    { val := fun s i x l r => match x.c with
        | .pred p => r = if (i.yarn.lane l).pred p then floatIn s i x.ty x.a l else floatIn s i x.ty x.b l
        | _ => False,
      lab := fun s i x l => i.label [opA .fsel s i x l, opB .fsel s i x l] } floatRole

/-- R207, R208: the functions of one operand and fcvt complete with a value that depends on their operand alone, and change
nothing else. -/
def Obligations.FloatFunctionResults : Prop :=
  let fn := fun (o : Op) (g : Args → Nat → Nat × Word) => Computes o (floatResult o false fun x a _ _ => g x a) floatRole
  fn .frcp (fun x a => (fmtOf x.ty).recip x.rnd x.sat a)
  ∧ fn .fsqrt (fun x a => (fmtOf x.ty).sqrt x.rnd x.sat a)
  ∧ fn .ffrac (fun x a => (fmtOf x.ty).frac a)
  ∧ fn .fround (fun x a => (fmtOf x.ty).integral x.rnd a)
  ∧ fn .frsq (fun _ a => rsqrt32 a) ∧ fn .fexp2 (fun _ a => exp232 a) ∧ fn .flog2 (fun _ a => log232 a)
  ∧ fn .fsin (fun _ a => sin32 a) ∧ fn .fcos (fun _ a => cos32 a)
  ∧ Computes .fcvt
    { val := fun s i x l r => r = BitVec.ofNat 64 (convert x.src x.ty x.rnd x.sat (floatIn s i x.src x.a l).toNat).1,
      lab := ownLabel .fcvt,
      bits := fun s i x l => (convert x.src x.ty x.rnd x.sat (floatIn s i x.src x.a l).toNat).2 } floatRole

/-! ### Narrow formats (R209 to R213) -/

/-- What a segment's lane m, counted from its first, holds of operand a: a lane that is not active gives zero (R209). In a
protected launch a primary's segment is the primaries, a shadow's the shadows: the model's choice (log 48). -/
def segmentWord (s : State) (i : Issuer) (x : Args) (l m : Nat) : Val := i.across s x.a false (i.segAt l m)

/-- The words of a lane's segment, and operand b of the lowest executing lane of the segment. -/
def segmentWords (s : State) (i : Issuer) (x : Args) (l : Nat) : List Nat :=
  (List.range 32).map (fun m => (segmentWord s i x l m).val.toNat)
def segmentB (s : State) (i : Issuer) (x : Args) (l : Nat) : Val :=
  i.operand s x.b false (((i.lanes x).filter (fun m => (i.segment l).contains m)).headD l)

/-- A result of a segment instruction: its label counts a in every lane of the segment, b and the floor (R209). -/
def segmentResult (val : State → Issuer → Args → Nat → DWord → Prop) (bits : State → Issuer → Args → Nat → Word) : Result where
  val := val
  lab s i x l := i.label (segmentB s i x l :: (List.range 32).map (segmentWord s i x l))
  bits := bits

/-- No write to operand a in an active lane of an acting segment outside G is pending (R83), and the role computes. -/
def segmentReady (s : State) (i : Issuer) (x : Args) : Prop :=
  floatRole s i x ∧ settledSources (fun _ i _ l => i.segment l) s i x

/-- R210 to R213: qnt, dqnt, bmax, pack and unpack complete with the block's scale and elements in the executing lanes of each
segment, and change nothing else. -/
def Obligations.NarrowFormatResults : Prop :=
  let forced := fun (s : State) (i : Issuer) (x : Args) (l : Nat) =>
    if x.mods.getLsbD 0 then some ((segmentB s i x l).val.toNat % 256) else none
  let q := fun (s : State) (i : Issuer) (x : Args) (l : Nat) =>
    quantise x.ty x.rnd (forced s i x l) (segmentWords s i x l)
  let own := fun (s : State) (i : Issuer) (x : Args) (l : Nat) => (segmentWord s i x l (i.seat l)).val
  Computes .qnt (segmentResult
    (fun s i x l r => (elemBits 8 1 r).toNat = (q s i x l).1 ∧ (elemBits 8 0 r).toNat = (q s i x l).2.1.getD (i.seat l) 0
      ∧ r.toNat < 65536)
    (fun s i x l => (q s i x l).2.2)) segmentReady
  ∧ Computes .bmax (segmentResult
    (fun s i x l r => r.toNat = chooseScale x.ty ((segmentWords s i x l).map (fmtOf .f32).read)) (fun _ _ _ _ => 0)) segmentReady
  ∧ Computes .pack (segmentResult
    (fun s i x l r => ∀ k, k < 32 →
      let p := 32 * i.seat l + k
      r.getLsbD k = (decide (p / tyBits x.ty < 32) && (segmentWord s i x l (p / tyBits x.ty)).val.getLsbD (p % tyBits x.ty)))
    (fun _ _ _ _ => 0)) segmentReady
  ∧ Computes .unpack (segmentResult
    (fun s i x l r => ∀ k, k < 32 →
      let p := tyBits x.ty * i.seat l + k
      r.getLsbD k = (decide (k < tyBits x.ty) && (segmentWord s i x l (p / 32)).val.getLsbD (p % 32)))
    (fun _ _ _ _ => 0)) segmentReady
  ∧ (let conv := fun (s : State) (i : Issuer) (x : Args) (l : Nat) =>
      dequant x.ty x.rnd x.sat ((own s i x l).toNat % 2 ^ tyBits x.ty)
        (if x.mods.getLsbD 0 then (segmentB s i x l).val.toNat % 256 else (elemBits 8 1 (own s i x l)).toNat)
    Computes .dqnt (segmentResult (fun s i x l r => r.toNat = (conv s i x l).1) (fun s i x l => (conv s i x l).2)) segmentReady)

/-! ### Control flow (R94 to R98, R112 to R116, R130) -/

/-- A header that can be read stands at each target, and in a protected launch the two lanes of a pair go to one place, a lane
that does not execute going to the next header (R31, R94, R230). -/
def goodTargets (s : State) (i : Issuer) (x : Args) (tgt : Nat → DWord) : Prop :=
  let goes := fun (l : Nat) => if l ∈ i.lanes x then tgt l else i.g.clause.next.setWidth 64
  (∀ l ∈ i.lanes x, s.target (.fetch i.y i.g.id) i.launch.fn i.ceil i.yarn.elig (tgt l) = .ok)
    ∧ (i.protd = true → ∀ l ∈ lanesOf i.g.lanes, l ∈ i.lanes x ∨ twin l ∈ i.lanes x →
      twin l ∈ lanesOf i.g.lanes ∧ goes l = goes (twin l))

/-- A control transfer: the executing lanes stand at their targets, the group's others at the next header, and nothing else
changes but the destination, `win` the window bases, and dead registers. -/
def Transfers (o : Op) (s : State) (i : Issuer) (x : Args) (tgt : Nat → DWord)
    (win : Nat → BitVec 19 := fun l => (i.yarn.lane l).wbase) : Prop :=
  ∃ t, exec (o.mk x) s = .next t ∧ OnlyYarnAndFetches s t i.y ∧ FibreFrame i o x t win ∧ BankFrame i o x t
    ∧ (t.bankFor i).status = i.bank.status
    ∧ (∀ l ∈ i.lanes x, t.stands i.y l ((tgt l).setWidth 57))
    ∧ (∀ l ∈ lanesOf i.g.lanes, l ∉ i.lanes x → t.stands i.y l i.g.clause.next)

/-- The address a target offset names, in 8-byte units from the clause's header (R92). -/
def offsetFrom (i : Issuer) (x : Args) : DWord := i.g.pc.setWidth 64 + 8 * x.off.signExtend 64

/-- R94: bra, the conditional bra and brx move each executing lane to its own target and the rest of the group to the next
header. -/
def BranchesMove : Prop :=
  ∀ (s : State) (i : Issuer) (x : Args), Issues s i →
    (x.wf .bra = true → goodTargets s i x (fun _ => offsetFrom i x) → Transfers .bra s i x (fun _ => offsetFrom i x))
    ∧ (x.wf .braConditional = true → ∀ p, x.a = .pred p →
      let tgt := fun l => if (i.yarn.lane l).pred p != x.mods.getLsbD 0 then offsetFrom i x else i.g.clause.next.setWidth 64
      goodTargets s i x tgt → Transfers .braConditional s i x tgt)
    ∧ (x.wf .brx = true → goodTargets s i x (fun l => (opA .brx s i x l).val) →
      Transfers .brx s i x (fun l => (opA .brx s i x l).val))

/-- A window base after a step, and whether it leaves the strand's allocation or its alignment (R95). -/
def windowAfter (i : Issuer) (l : Nat) (d : Int) : Int := (i.yarn.lane l).wbase.toNat + d
def windowFits (i : Issuer) (l : Nat) (d : Int) : Prop :=
  windowAfter i l d % 256 = 0 ∧ 0 ≤ windowAfter i l d ∧ windowAfter i l d + 256 ≤ i.launch.alloc

/-- R95, R96: call writes the link, the header after its clause, with the label floor, and moves to its target; ret moves to
the address it reads; each moves the window base by its step where it has one and the new base fits. -/
def CallAndReturnMove : Prop :=
  ∀ (s : State) (i : Issuer) (x : Args), Issues s i →
    (x.wf .call = true → goodTargets s i x (fun _ => offsetFrom i x) →
      let d := fun l => if x.mods.getLsbD 0 then ((opA .call s i x l).val.setWidth 32).toInt else 0
      (x.mods.getLsbD 0 = true → ∀ l ∈ i.lanes x, windowFits i l (d l)) →
      Transfers .call s i x (fun _ => offsetFrom i x) (fun l => BitVec.ofInt 19 (windowAfter i l (d l)))
        ∧ ∀ t, exec (.call x) s = .next t → ∀ l, i.shows x l →
          t.destVal i x.dst true l = ⟨i.g.clause.next.setWidth 64, i.bank.floor⟩)
    ∧ (x.wf .ret = true → goodTargets s i x (fun l => (opA .ret s i x l).val) →
      let d := fun l => if x.mods.getLsbD 0 then -((opB .ret s i x l).val.setWidth 32).toInt else 0
      (x.mods.getLsbD 0 = true → ∀ l ∈ i.lanes x, windowFits i l (d l)) →
      Transfers .ret s i x (fun l => (opA .ret s i x l).val) (fun l => BitVec.ofInt 19 (windowAfter i l (d l))))

/-- The control transfers of R94 to R96. -/
def Obligations.BranchesCallsAndReturnsMove : Prop := BranchesMove ∧ CallAndReturnMove

/-- R97, R130: exit and end retire the executing fibres, which keep their predicates and lose their registers and what was
to arrive in them; no other fibre changes, the rest of the group goes on, and scratchpad, memory and all other state stand. A
yarn with no active fibre left may be retired, or, made from a bin, be gone: its launch then keeps the writes it still waits to
have acknowledged. -/
def ExitRetiresFibres : Prop :=
  ∀ (s : State) (i : Issuer) (x : Args), Issues s i →
    let retired := fun (t : State) => { t with yarns := s.yarns, launches := s.launches } = s
      ∧ (∀ z, z ≠ i.y → Store.find z t.yarns = Store.find z s.yarns)
      ∧ (∀ n, n ≠ i.strand.launch → Store.find n t.launches = Store.find n s.launches)
      ∧ (∀ L, Store.find i.strand.launch s.launches = some L → ∃ more, (more = [] ∨ more = i.yarn.counted)
        ∧ Store.find i.strand.launch t.launches = some { L with unacked := L.unacked ++ more })
      ∧ ((∃ l, l ∉ i.lanes x ∧ (i.yarn.lane l).active = true) ∨ i.yarn.spawned = false →
        (∀ l ∈ i.lanes x, let w := t.fibre i.y l
          w.active = false ∧ w.exited = true ∧ w.preds = (i.yarn.lane l).preds ∧ (∀ n, w.reg n = {})
            ∧ w.lastPc = i.g.pc ∧ (∀ n, t.coming i.y l n = []))
        ∧ (∀ l, l ∉ i.lanes x → t.fibre i.y l = i.yarn.lane l ∧ ∀ n, t.coming i.y l n = s.coming i.y l n)
        ∧ ∀ l ∈ lanesOf i.g.lanes, l ∉ i.lanes x → t.pastIn i l)
    (∃ t, exec (.exitF x) s = .next t ∧ retired t) ∧ ∃ t, exec (.endF x) s = .next t ∧ retired t

/-- R98: nop and yield change no architectural state; the group goes on. -/
def NopAndYieldGoOn : Prop :=
  ∀ (s : State) (i : Issuer) (x : Args), Issues s i →
    let same := fun (t : State) => OnlyYarn s t i.y ∧ SameFibres i t ∧ SameBank i t
      ∧ (∀ l n, t.coming i.y l n = s.coming i.y l n) ∧ ∀ l ∈ lanesOf i.g.lanes, t.pastIn i l
    (∃ t, exec (.nop x) s = .next t ∧ same t)
      ∧ ∃ t, exec (.yieldI x) s = .next t ∧ same t ∧ ((t.yarnAt i.y).turnsOf i.g.fray).yielded = some s.now

/-- R98: among those that could issue next in a quadrant, one that has yielded is chosen only where every other has issued since,
or has yielded too and waits for the rest likewise. -/
def YieldLetsOthersFirst : Prop :=
  ∀ (cs : List Contender) (c : Contender), chosen cs = some c → c ∈ cs ∧ (c.passes cs = true → ∀ d ∈ cs, d.passes cs = true)

/-- R97, R98 and R130. -/
def Obligations.ExitsAndNopsComplete : Prop := ExitRetiresFibres ∧ NopAndYieldGoOn ∧ YieldLetsOthersFirst

/-- The launch's handler can be entered: the mode is not the handler's, and the handler's address is a header that can be
read (R112). -/
def handlerReady (s : State) (i : Issuer) : Prop :=
  i.bank.status.getLsbD 15 = false ∧ BitVec.ofNat 64 i.launch.handler ≠ 0
    ∧ s.target (.fetch i.y i.g.id) i.launch.fn i.ceil i.yarn.elig (BitVec.ofNat 64 i.launch.handler) = .ok

/-- Trap entry (R112, R113): SSW takes the status word, the handler bit is set, the trap registers hold the cause, the resume
point, the argument and the trapping lanes, which stand at the handler; the rest of the group goes on, and no register,
predicate, window or other state changes. -/
def Traps (s : State) (i : Issuer) (e : Instr) (G : List Nat) (cause : Byte) (arg : DWord → Prop)
    (pc : BitVec 57) (index : Nat) : Prop :=
  ∃ t, exec e s = .next t ∧ OnlyYarnAndFetches s t i.y ∧ SameFibres i t
    ∧ (let b := t.bankFor i
      b.ssw = i.bank.status ∧ b.status = i.bank.status ||| 0x8000 ∧ b.xcause = cause.setWidth 32
        ∧ b.xpc = pc.setWidth 64 ∧ b.xindex = BitVec.ofNat 32 index ∧ arg b.xarg
        ∧ (∀ l, l < 64 → b.xmask.getLsbD l = G.contains l) ∧ b.scalars = i.bank.scalars ∧ b.floor = i.bank.floor)
    ∧ (∀ l ∈ G, t.stands i.y l (BitVec.ofNat 57 i.launch.handler))
    ∧ ∀ l ∈ lanesOf i.g.lanes, l ∉ G → t.pastIn i l

/-- R113: the resume point of a trap that resumes after its instruction. -/
def afterPc (i : Issuer) : BitVec 57 := if i.g.last then i.g.clause.next else i.g.pc
def afterIndex (i : Issuer) : Nat := if i.g.last then 8 else i.g.idx + 1

/-- R115: trap raises TRAP_INSTR on G with operand a as XARG; brk raises BREAKPOINT on G, or, where fid is attached, the debug
mode is user and the launch allows debug, stops the yarn with nothing else changed. That the lowest lane's operand is XARG is
the model's choice (log 48). -/
def TrapAndBreakpointEntry : Prop :=
  ∀ (s : State) (i : Issuer) (x : Args), Issues s i → i.lanes x ≠ [] →
    (x.wf .trapI = true → handlerReady s i →
      Traps s i (.trapI x) (i.lanes x) 0x40 (fun v => ∀ l, (i.lanes x).head? = some l → v = (opA .trapI s i x l).val)
        (afterPc i) (afterIndex i))
    ∧ (x.wf .brk = true → handlerReady s i →
      (s.func i.launch.fn).session = none ∨ s.debug ≠ .user ∨ i.launch.packet.getLsbD 15 = false →
      Traps s i (.brk x) (i.lanes x) 0x41 (fun _ => True) (afterPc i) (afterIndex i))
    ∧ (x.wf .brk = true → (s.func i.launch.fn).session ≠ none → s.debug = .user → i.launch.packet.getLsbD 15 = true →
      ∃ t, exec (.brk x) s = .next t ∧ OnlyYarn s t i.y ∧ SameFibres i t ∧ SameBank i t
        ∧ (t.yarnAt i.y).stopped = true ∧ ∀ l ∈ lanesOf i.g.lanes, t.pastIn i l)

/-- An instruction ends its launch with status 1 and a cause, unless it had ended already: none of its yarns and strands is left,
and memory, cores and the functions stand (R112, R162). -/
def EndsLaunch (s : State) (i : Issuer) (e : Instr) (cause : Byte) : Prop :=
  ∀ L, Store.find i.strand.launch s.launches = some L → ∃ t M, exec e s = .next t
    ∧ Store.find i.strand.launch t.launches = some M ∧ M.ending = some (L.ending.getD ⟨1, cause⟩)
    ∧ (∀ c ∈ t.strands, c.2.launch ≠ i.strand.launch)
    ∧ (∀ c ∈ t.yarns, (s.strandAt c.2.strand).launch ≠ i.strand.launch)
    ∧ t.mem = s.mem ∧ t.hostMem = s.hostMem ∧ t.cores = s.cores
    ∧ ∀ fn, { t.func fn with bounce := (s.func fn).bounce } = s.func fn

/-- R112, R162: a trap in handler mode, or with a zero handler, ends the launch with the trap's cause. -/
def TrapInHandlerEndsLaunch : Prop :=
  ∀ (s : State) (i : Issuer) (x : Args), Issues s i → i.lanes x ≠ [] →
    i.bank.status.getLsbD 15 = true ∨ i.launch.handler = 0 → EndsLaunch s i (.trapI x) 0x40

/-- Traps inside and outside handler mode (R112 to R115, R162). -/
def Obligations.TrapsEnterOrEndLaunches : Prop := TrapAndBreakpointEntry ∧ TrapInHandlerEndsLaunch

/-- R62, R116: outside handler mode tret traps TRET_OUTSIDE; with a reserved bit of SSW set it traps SSW_RESERVED, and where XPC fails
R31 or XINDEX is neither 8 nor below the count there, BRANCH_MIDCLAUSE, which in handler mode end the launch (R112); else, where XPC
is a header that can be read, it leaves handler mode: the status word takes SSW's sticky bits, and the executing lanes stand at
XPC, or are about to resume there at instruction XINDEX. That lanes of T that do not execute it go on as an ordinary group is the
model's choice (log 14). With no lane executing it does nothing but go on. -/
def Obligations.TrapReturn : Prop :=
  (∀ (s : State) (i : Issuer) (x : Args), Issues s i → i.lanes x = [] →
    ∃ t, exec (.tret x) s = .next t ∧ OnlyYarn s t i.y ∧ SameFibres i t ∧ SameBank i t
      ∧ ∀ l ∈ lanesOf i.g.lanes, t.pastIn i l)
  ∧ ∀ (s : State) (i : Issuer) (x : Args), Issues s i → i.lanes x ≠ [] →
    let pc := i.bank.xpc &&& 0x01FFFFFFFFFFFFFF
    let index := (i.bank.xindex.extractLsb' 0 4).toNat
    let who := Who.fetch i.y i.g.id
    let target := s.target who i.launch.fn i.ceil i.yarn.elig pc
    let word := s.codeWord who i.launch.fn i.ceil i.yarn.elig pc.toNat
    (i.bank.status.getLsbD 15 = false → handlerReady s i →
      Traps s i (.tret x) (i.lanes x) 0x13 (fun _ => True) i.g.pc i.g.idx)
    ∧ (i.bank.status.getLsbD 15 = true → i.bank.ssw &&& 0xFFFF0F80 ≠ 0 → EndsLaunch s i (.tret x) 0x14)
    ∧ (i.bank.status.getLsbD 15 = true → i.bank.ssw &&& 0xFFFF0F80 = 0 →
      target = .bad ∨ (target = .ok ∧ index ≠ 8 ∧ ∃ w, word = .ok w ∧ headerCount w ≤ index) → EndsLaunch s i (.tret x) 0x15)
    ∧ (i.bank.status.getLsbD 15 = true → i.bank.ssw &&& 0xFFFF0F80 = 0 →
      target = .ok → (∀ w, word = .ok w → index = 8 ∨ index < headerCount w) →
      ∃ t, exec (.tret x) s = .next t ∧ OnlyYarnAndFetches s t i.y ∧ SameFibres i t
        ∧ (let b := t.bankFor i
          b.status = (i.bank.status &&& 0xFFFF7F80) ||| (i.bank.ssw &&& 0x7F) ∧ b.ssw = i.bank.ssw
            ∧ b.scalars = i.bank.scalars ∧ b.xpc = i.bank.xpc ∧ b.xmask = i.bank.xmask ∧ b.floor = i.bank.floor)
        ∧ (∀ l ∈ i.lanes x, if index = 8 then t.stands i.y l (pc.setWidth 57)
          else ∃ h ∈ (t.yarnAt i.y).groups, h.lanes.getLsbD l = true ∧ h.pc = pc.setWidth 57
            ∧ h.phase = .resume (BitVec.ofNat 4 index))
        ∧ ∀ l ∈ lanesOf i.g.lanes, l ∉ i.lanes x → t.pastIn i l)

/-! ### Scratchpad, rendezvous and rings (R134 to R150) -/

/-- R100: frayq completes with its table's answer about the issuing yarn's frays, labelled with the floor; in a protected
launch a mask has one bit for each pair (R229). That the lowest executing lane's selector counts is the model's choice
(log 48). -/
def FrayQueryAnswers : Prop :=
  Computes .frayq
    { val := fun s i x _ r => ∀ l0, (i.lanes x).head? = some l0 →
        let sel := (opA .frayq s i x l0).val.toNat
        let mask := fun (f : Nat → Bool) => ∀ k, k < 64 → r.getLsbD k =
          ((List.range 64).any (fun l => f l && i.launch.laneNo l == k))
        match Store.find sel i.yarn.frays, x.mods.getLsbD 0 with
        | some f, false => sel < 32 → mask f.lanes.getLsbD
        | some f, true => sel < 32 → elemBits 8 0 r = BitVec.ofNat 8 sel ∧ elemBits 8 1 r = f.cause
            ∧ elemBits 8 2 r = (match f.state with | .parked => 0 | .running => 1 | .handler => 2)
            ∧ elemBits 8 3 r = f.use ∧ elemBits 32 1 r = 0
        | none, m => if sel = 64 then
              (if m then ∀ k, k < 64 → r.getLsbD k = (decide (k < 32) && (Store.find k i.yarn.frays).isSome)
              else mask fun l => (i.yarn.lane l).parked)
            else r = 0,
      lab := fun _ i _ _ => i.bank.floor }

/-- The results of R88, R90, R91 and R100; the model's choices in them are frayq's selector lane (log 48) and vote's two sides
(log 29). -/
def Obligations.LaneCombinesAndFrayQueries : Prop := LaneCombineResults ∧ FrayQueryAnswers

/-- The strand and the byte a lane accesses: the bounds of R134, then the swizzle of R44. -/
def padSpot (s : State) (i : Issuer) (x : Args) (win : Bool) (l : Nat) : Option (Nat × Nat) :=
  (s.locate i win (i.spAddr s x win l) (tyBits x.ty / 8)).map (fun p => (p.1, swizzled x.swz.toNat p.2))

/-- Every access lies in its bounds and is aligned (R134), and no acc.ld or acc.st of the yarn still has scratchpad to read or
write (R138, R181); `who` gives the lane that makes it. -/
def padReady (s : State) (i : Issuer) (x : Args) (win : Bool) (who : Nat → Nat) : Prop :=
  ∀ l ∈ i.lanes x, (padSpot s i x win (who l)).isSome = true ∧ i.spAddr s x win (who l) % (tyBits x.ty / 8) = 0
    ∧ i.yarn.padPending = false

/-- R134, R137: lds and ldw send off the value at each lane's address, extended as the type says, with the highest label of its
unit, the address operand and the floor; in a protected launch a pair's access is its primary's. Nothing else changes. -/
def ScratchpadLoads : Prop :=
  ∀ (s : State) (i : Issuer) (x : Args), Issues s i → ∀ c ∈ [(Op.lds, false), (Op.ldw, true)], x.wf c.1 = true →
    let who := i.lead (i.lanes x)
    padReady s i x c.2 who →
    ∃ t, exec (c.1.mk x) s = .next t ∧ OnlyYarn s t i.y ∧ GoesOn s t i c.1 x
      ∧ Comes s t i x x.ty.wide (fun l => match padSpot s i x c.2 (who l) with
        | some (z, q) =>
          let n := leNat ((s.strandAt z).padRead q (tyBits x.ty / 8))
          { val := if tyBits x.ty < 32 then (BitVec.ofInt 32 (number x.ty (BitVec.ofNat (tyBits x.ty) n))).setWidth 64
              else BitVec.ofNat 64 n,
            lab := i.label [{ val := 0, lab := (s.strandAt z).unitLabel q }, i.operand s x.a false (who l)] }
        | none => {})

/-- R137, R138: sts and stw write the low bytes of operand b at each lane's address, the highest lane's remaining where several
write one byte; a store of 8 bytes sets its unit's label to the register's, a narrower one raises it, and no label is above
the ceiling (R349); a pair of a protected launch stores once. No other byte, label or other state changes. -/
def ScratchpadStores : Prop :=
  ∀ (s : State) (i : Issuer) (x : Args), Issues s i → ∀ c ∈ [(Op.sts, false), (Op.stw, true)], x.wf c.1 = true →
    let w := tyBits x.ty / 8
    let val := fun l => i.operand s x.b x.ty.wide l
    padReady s i x c.2 id → PairsAgree i x (fun l => (i.spAddr s x c.2 l, (val l).val.toNat % 2 ^ (8 * w))) →
    (∀ l ∈ i.lanes x, (val l).lab.toNat ≤ i.ceil) →
    ∃ t, exec (c.1.mk x) s = .next t ∧ OnlyYarnAndPads s t i.y ∧ GoesOn s t i c.1 x ∧ NothingComes s t i
      ∧ (∀ z q, (t.strandAt z).padByte q =
        match ((i.acting (i.lanes x)).filter (fun l => match padSpot s i x c.2 l with
          | some (z', q') => decide (z' = z ∧ q' ≤ q ∧ q < q' + w)
          | none => false)).getLast? with
        | some l => elemBits 8 (q - ((padSpot s i x c.2 l).getD (0, 0)).2) (val l).val
        | none => (s.strandAt z).padByte q)
      ∧ ∀ z q, (t.strandAt z).unitLabel q = ((i.acting (i.lanes x)).filter (fun l => match padSpot s i x c.2 l with
          | some (z', q') => decide (z' = z ∧ q' / 8 = q / 8)
          | none => false)).foldl
        (fun m l => if w = 8 then (val l).lab else lmax m (val l).lab) ((s.strandAt z).unitLabel q)

/-- R134, R137 and R138. -/
def Obligations.ScratchpadLoadsAndStores : Prop := ScratchpadLoads ∧ ScratchpadStores

/-- The new value of an atomic operation (R139). -/
def newValue (sub : BitVec 4) (t : Ty) {w : Nat} (old b c : BitVec w) : BitVec w :=
  match sub.toNat with
  | 0 => old + b
  | 1 => if number t b < number t old then b else old
  | 2 => if number t old < number t b then b else old
  | 3 => old &&& b
  | 4 => old ||| b
  | 5 => old ^^^ b
  | 6 => b
  | _ => if old = b then c else old

/-- The bytes and unit labels of every strand's scratchpad. -/
structure Pads where
  byte : Nat → Nat → Byte
  lab : Nat → Nat → Label

/-- R139's loop: each lane in turn reads its bytes, writes the new value and the unit's label, and takes the old value with
the old label and the floor. A lane stands with its strand, its byte and its operands b and c. -/
def atomLoop (i : Issuer) (x : Args) : List (Nat × Nat × Nat × Val × Val) → Pads → Pads × List (Nat × Val)
  | [], p => (p, [])
  | (l, z, q, b, c) :: rest, p =>
    let w := tyBits x.ty
    let old : BitVec w := BitVec.ofNat w (leNat ((List.range (w / 8)).map (fun k => p.byte z (q + k))))
    let new := newValue x.sub x.ty old (b.val.setWidth w) (c.val.setWidth w)
    let u := p.lab z (q / 8)
    let p' : Pads :=
      { byte := fun z' q' => if z' = z ∧ q ≤ q' ∧ q' < q + w / 8 then elemBits 8 (q' - q) (new.setWidth 64) else p.byte z' q',
        lab := fun z' u' => if z' = z ∧ u' = q / 8 then
            (if x.sub = 6 then i.label [b] else if x.sub = 7 then i.label [{ val := 0, lab := u }, b, c]
              else i.label [{ val := 0, lab := u }, b])
          else p.lab z' u' }
    let r := atomLoop i x rest p'
    (r.1, (l, { val := old.setWidth 64, lab := i.label [{ val := 0, lab := u }] }) :: r.2)

/-- R139: atoms performs the lanes' read-modify-writes in ascending order and sends off the old values; no other byte, label
or other state changes. -/
def Obligations.ScratchpadAtomics : Prop :=
  ∀ (s : State) (i : Issuer) (x : Args), Issues s i → x.wf .atoms = true → padReady s i x false id →
    let b := fun l => i.operand s x.b x.ty.wide l
    let c := fun l => i.operand s x.c x.ty.wide l
    PairsAgree i x (fun l => (i.spAddr s x false l, (b l).val, (c l).val)) →
    (∀ l ∈ i.lanes x, (i.label [b l, if x.sub = 7 then c l else {}]).toNat ≤ i.ceil) →
    let r := atomLoop i x ((i.acting (i.lanes x)).map (fun l =>
        let p := (padSpot s i x false l).getD (0, 0)
        (l, p.1, p.2, b l, c l)))
      { byte := fun z q => (s.strandAt z).padByte q, lab := fun z u => Store.get 0 u (s.strandAt z).padLab }
    ∃ t, exec (.atoms x) s = .next t ∧ OnlyYarnAndPads s t i.y ∧ GoesOn s t i .atoms x
      ∧ (∀ z q, (t.strandAt z).padByte q = r.1.byte z q ∧ (t.strandAt z).unitLabel q = r.1.lab z (q / 8))
      ∧ Comes s t i x x.ty.wide (fun l => ((r.2.find? (fun e => e.1 == i.lead (i.lanes x) l)).map Prod.snd).getD {})

/-- A point with arrivals added and, where it is armed, its full phases completed (R142). -/
def pointAfter (p q : Point) (n : Nat) : Prop :=
  q.armed = p.armed ∧ q.exp = p.exp
    ∧ if p.armed = true ∧ p.exp ≠ 0 then q.arr = (p.arr + n) % p.exp ∧ q.phase = p.phase + BitVec.ofNat 16 ((p.arr + n) / p.exp)
      else q.arr = p.arr + n ∧ q.phase = p.phase

/-- R141: rinit arms the point its operand names with the count of fibres, and completes the phases that held arrivals fill;
on a point already armed, or for a count outside 1 to 16,384, it traps ILLEGAL_OP. -/
def RendezvousArms : Prop :=
  ∀ (s : State) (i : Issuer) (x : Args) (l z pt : Nat), Issues s i → x.wf .rinit = true → (i.lanes x).head? = some l →
    s.pointOf i (opA .rinit s i x l).val.toNat = some (z, pt) →
    let b := (opB .rinit s i x l).val.toNat
    let p := (s.strandAt z).point pt
    (p.armed = false → 1 ≤ b → b ≤ 16384 →
      ∃ t, exec (.rinit x) s = .next t ∧ OnlyYarnAndPoint s t i.y z pt ∧ GoesOn s t i .rinit x ∧ NothingComes s t i
        ∧ pointAfter { p with armed := true, exp := b } ((t.strandAt z).point pt) 0)
    ∧ (p.armed = true ∨ b = 0 ∨ 16384 < b → handlerReady s i →
      Traps s i (.rinit x) (i.lanes x) 0x10 (fun _ => True) i.g.pc i.g.idx)

/-- R142, R143: arrive counts the fibres that execute it (a pair once) and gives each the phase it arrived in; arwait counts
them and goes on where that moved the phase, and waits otherwise; rwait goes on where the phase differs from the token in
every lane, or has moved since it began to wait, and waits otherwise. -/
def RendezvousArriveAndWait : Prop :=
  ∀ (s : State) (i : Issuer) (x : Args) (l z pt : Nat), Issues s i → (i.lanes x).head? = some l →
    s.pointOf i (i.operand s x.a false l).val.toNat = some (z, pt) →
    let p := (s.strandAt z).point pt
    let n := (i.acting (i.lanes x)).length
    let waits := fun (t : State) => SameFibres i t ∧ SameBank i t ∧ NothingComes s t i
      ∧ ∀ m ∈ lanesOf i.g.lanes, ∃ h ∈ (t.yarnAt i.y).groups, h.lanes.getLsbD m = true ∧ h.pc = i.g.pc ∧ h.idx = i.g.idx
        ∧ h.phase = i.g.phase ∧ h.wait = some (.rdv z pt false)
    (i.g.wait = none → i.yarn.padPending = false → p.armed = true ∨ p.arr + n ≤ 65535 →
      (x.wf .arrive = true → ∃ t, exec (.arrive x) s = .next t ∧ OnlyYarnAndPoint s t i.y z pt ∧ FibreFrame i .arrive x t
        ∧ BankFrame i .arrive x t ∧ NothingComes s t i ∧ pointAfter p ((t.strandAt z).point pt) n
        ∧ (∀ m, i.shows x m → t.destVal i x.dst false m = ⟨p.phase.setWidth 64, 0⟩)
        ∧ ∀ m ∈ lanesOf i.g.lanes, t.pastIn i m)
      ∧ (x.wf .arwait = true → ∃ t, exec (.arwait x) s = .next t ∧ OnlyYarnAndPoint s t i.y z pt
        ∧ pointAfter p ((t.strandAt z).point pt) n
        ∧ if ((t.strandAt z).point pt).phase = p.phase then waits t else GoesOn s t i .arwait x ∧ NothingComes s t i))
    ∧ (x.wf .rwait = true → i.g.wait = none →
      ∃ t, exec (.rwait x) s = .next t ∧ OnlyYarn s t i.y
        ∧ if ∀ m ∈ i.lanes x, (opB .rwait s i x m).val.setWidth 16 ≠ p.phase then GoesOn s t i .rwait x ∧ NothingComes s t i
          else waits t)
    ∧ (i.g.wait = some (.rdv z pt true) → ∀ c ∈ [Op.rwait, Op.arwait], x.wf c = true →
      ∃ t, exec (c.mk x) s = .next t ∧ OnlyYarn s t i.y ∧ GoesOn s t i c x ∧ NothingComes s t i)

/-- R141 to R143. -/
def Obligations.RendezvousArmAndMeet : Prop := RendezvousArms ∧ RendezvousArriveAndWait

/-- A ring's header in the issuing strand's scratchpad (R149). -/
def ringHeader (t : State) (i : Issuer) (a : Nat) : BitVec 256 := (t.strandAt i.yarn.strand).ring a

/-- Nothing of the scratchpads but one ring header changes, and of it only what `f` says. -/
def OnlyRing (s t : State) (i : Issuer) (a : Nat) (f : BitVec 256) : Prop :=
  OnlyYarnAndPads s t i.y ∧ ringHeader t i a = f
    ∧ ∀ z q, z ≠ i.yarn.strand ∨ q < a ∨ a + 32 ≤ q → (t.strandAt z).padByte q = (s.strandAt z).padByte q

/-- R150, R138: put.acq and take.acq, once no scratchpad access of the yarn is still to come, take the next reservation and, where its slot stands empty or full with the phase of its round,
send off the slot's address with label 0, else wait; a waiting one goes on once the slot stands so. -/
def RingReservations : Prop :=
  ∀ (s : State) (i : Issuer) (x : Args) (l : Nat), Issues s i → (i.lanes x).head? = some l →
    ∀ c ∈ [(Op.ringPutAcq, false), (Op.ringTakeAcq, true)], x.wf c.1 = true →
    let a := (i.operand s x.a false l).val.toNat
    let h := ringHeader s i a
    let addr := fun k => ringBase h + k * ringStride h
    let gives := fun (t : State) (k : Nat) => GoesOn s t i c.1 x
      ∧ Comes s t i x false (fun _ => { val := BitVec.ofNat 64 (addr k), lab := 0 })
    (let n := if c.2 then ringTakeIx h else ringPutIx h
      let k := n % ringSlots h
      let r := decide (n / ringSlots h % 2 = 1)
      let up : BitVec 16 := BitVec.ofNat 16 n + 1
      i.g.wait = none → i.yarn.padPending = false → a % 32 = 0 → a + 32 ≤ i.launch.alloc → ringBad h = false → addr k + ringStride h ≤ i.launch.alloc →
      ∃ t, exec (c.1.mk x) s = .next t
        ∧ OnlyRing s t i a (if c.2 then h.extractLsb' 32 224 ++ up ++ h.extractLsb' 0 16 else h.extractLsb' 16 240 ++ up)
        ∧ if ringFull h k = c.2 ∧ ringPhase h k = r then gives t k
          else SameFibres i t ∧ NothingComes s t i ∧ ∃ g ∈ (t.yarnAt i.y).groups, g.lanes = i.g.lanes ∧ g.pc = i.g.pc
            ∧ g.idx = i.g.idx ∧ g.wait = some (.ring k r c.2))
    ∧ (∀ k r, i.g.wait = some (.ring k r c.2) → ringFull h k = c.2 → ringPhase h k = r →
      ∃ t, exec (c.1.mk x) s = .next t ∧ OnlyYarn s t i.y ∧ gives t k)

/-- R150: put.rel sets its slot's full bit, which must be clear; take.rel clears it, which must be set, and inverts the phase
bit. A slot in the other state traps ILLEGAL_OP, an address that is no slot's EXTENT_BOUNDS. -/
def RingReleases : Prop :=
  ∀ (s : State) (i : Issuer) (x : Args) (l : Nat), Issues s i → (i.lanes x).head? = some l →
    ∀ c ∈ [(Op.ringPutRel, false), (Op.ringTakeRel, true)], x.wf c.1 = true →
    let a := (i.operand s x.a false l).val.toNat
    let b := (i.operand s x.b false l).val.toNat
    let h := ringHeader s i a
    i.yarn.padPending = false → a % 32 = 0 → a + 32 ≤ i.launch.alloc → ringBad h = false →
    (∀ k, k < ringSlots h → b = ringBase h + k * ringStride h →
      (ringFull h k = c.2 → ∃ t, exec (c.1.mk x) s = .next t ∧ GoesOn s t i c.1 x ∧ NothingComes s t i
        ∧ ∃ f, OnlyRing s t i a f ∧ ∀ n, n < 256 → f.getLsbD n =
          (h.getLsbD n != (decide (n = 192 + k) || (c.2 && decide (n = 128 + k)))))
      ∧ (ringFull h k ≠ c.2 → handlerReady s i →
        Traps s i (c.1.mk x) (i.lanes x) 0x10 (fun _ => True) i.g.pc i.g.idx))
    ∧ ((∀ k, k < ringSlots h → b ≠ ringBase h + k * ringStride h) → handlerReady s i →
      Traps s i (c.1.mk x) (i.lanes x) 0x21 (fun _ => True) i.g.pc i.g.idx)

/-- R150, both sides of a ring. -/
def Obligations.RingsReserveAndRelease : Prop := RingReservations ∧ RingReleases

/-! ### Monitors, spawn and global memory (R151 to R153, R244 to R256) -/

/-- The lanes that make a global access: the lowest executing one under a scalar destination (R246); of a pair, its primary. -/
def accessLanes (i : Issuer) (x : Args) : List Nat := i.acting (i.forDest x.dst (i.lanes x))

/-- Every part of every lane's access is served here, aligned unless `u`; `at_` gives each part's page and backing byte. -/
def allServed (s : State) (i : Issuer) (x : Args) (u write read : Bool) (wlab : Nat → Label) (at_ : Nat → Nat → Page × Fab) : Prop :=
  ∀ l ∈ accessLanes i x, let va := i.gAddr s x l
    (u = true ∨ va.toNat % (tyBits x.ty / 8) = 0)
    ∧ ∀ c ∈ partsAt va (tyBits x.ty / 8),
      Served s i write read (wlab l) (va + BitVec.ofNat 64 c.1) c.2 (at_ l c.1).1 (at_ l c.1).2

/-- Nothing holds a lane's access: the group has not begun it, the counters have room, and the writes counted before it are
acknowledged and the scratchpad accesses before it made where a page is STRONG, the ordered writes where it is a release
(R178, R253, R254). -/
def mayStart (s : State) (i : Issuer) (x : Args) (release : Bool) (at_ : Nat → Nat → Page × Fab) : Prop :=
  i.g.wait = none ∧ i.g.drained = none ∧ i.yarn.counted.length + 128 ≤ 65535
    ∧ ((∃ l ∈ accessLanes i x, ∃ c ∈ partsAt (i.gAddr s x l) (tyBits x.ty / 8), (at_ l c.1).1.cls = 1) →
      i.yarn.counted = [] ∧ i.yarn.padPending = false)
    ∧ (release = true → ∀ c ∈ i.yarn.counted, c.ordered = false)

/-- What a load gives in a lane: its parts' bytes, extended as the type says, with the highest label of its pages, its address
operand and the floor (R247). -/
def loaded (s : State) (i : Issuer) (x : Args) (at_ : Nat → Nat → Page × Fab) (l : Nat) : Val :=
  let ps := partsAt (i.gAddr s x l) (tyBits x.ty / 8)
  let n := leNat (ps.flatMap (fun c => s.bytesAt (at_ l c.1).2.toNat c.2))
  { val := if tyBits x.ty < 32 then (BitVec.ofInt 32 (number x.ty (BitVec.ofNat (tyBits x.ty) n))).setWidth 64
      else BitVec.ofNat 64 n,
    lab := i.label (i.operand s x.a true l :: ps.map (fun c => { val := 0, lab := (at_ l c.1).1.label })) }

/-- R246, R247, R249: ld, unaligned or not, and ld.acq, where memory here serves every part, send off the bytes read, and change
nothing else; ld.acq marks its yarn as an acquire where a page has DOMAIN scope (R305). -/
def Obligations.GlobalLoads : Prop :=
  ∀ (s : State) (i : Issuer) (x : Args) (at_ : Nat → Nat → Page × Fab), Issues s i →
    ∀ c ∈ [(Op.ld, x.mods.getLsbD 2), (Op.ldAcq, false)], x.wf c.1 = true →
    allServed s i x c.2 false true (fun _ => 0) at_ → mayStart s i x false at_ →
    ∃ t, exec (c.1.mk x) s = .next t ∧ OnlyYarn s t i.y ∧ GoesOn s t i c.1 x
      ∧ Comes s t i x x.ty.wide (fun l => loaded s i x at_ (i.lead (i.lanes x) l))
      ∧ (t.yarnAt i.y).acqEvent = if c.1 = .ldAcq ∧ ∃ l ∈ accessLanes i x, ∃ c ∈ partsAt (i.gAddr s x l) (tyBits x.ty / 8),
          (at_ l c.1).1.scope = 3 then s.routeEvent + 1 else i.yarn.acqEvent

/-- The write label of a lane (R244). -/
def writeLabel (s : State) (i : Issuer) (x : Args) (l : Nat) : Label :=
  i.label [i.operand s x.a true l, i.operand s x.b x.ty.wide l, i.operand s x.c x.ty.wide l]

/-- R248, R249: st, unaligned or not, and st.rel, where memory here serves every part, write the low bytes of operand b, the
highest lane's remaining where several write one byte, and set each written frame's label to its page's; no other byte or
label of memory changes. -/
def Obligations.GlobalStores : Prop :=
  ∀ (s : State) (i : Issuer) (x : Args) (at_ : Nat → Nat → Page × Fab), Issues s i →
    ∀ c ∈ [(Op.st, x.mods.getLsbD 2), (Op.stRel, false)], x.wf c.1 = true →
    let w := tyBits x.ty / 8
    let val := fun l => (i.operand s x.b x.ty.wide l).val
    let parts := (accessLanes i x).flatMap (fun l => (partsAt (i.gAddr s x l) w).map (fun c => (l, c.1, c.2)))
    allServed s i x c.2 true false (writeLabel s i x) at_ → mayStart s i x (decide (c.1 = .stRel)) at_ →
    PairsAgree i x (fun l => (i.gAddr s x l, (val l).toNat % 2 ^ (8 * w))) →
    ∃ t, exec (c.1.mk x) s = .next t ∧ OnlyYarnAndMemory s t i ∧ GoesOn s t i c.1 x ∧ NothingComes s t i
      ∧ (∀ a, t.mem.byte a =
        match (parts.filter (fun p => let q := (at_ p.1 p.2.1).2.toNat; decide (q ≤ a ∧ a < q + p.2.2))).getLast? with
        | some p => elemBits 8 (p.2.1 + (a - (at_ p.1 p.2.1).2.toNat)) (val p.1)
        | none => s.mem.byte a)
      ∧ ∀ a, t.mem.label a = match (parts.filter (fun p => (at_ p.1 p.2.1).2.toNat / 4096 == a / 4096)).getLast? with
        | some p => (at_ p.1 p.2.1).1.label
        | none => s.mem.label a

/-- Read-modify-writes of w bits at fabric addresses, each seeing the one before it: memory afterwards and the old values. -/
def rmwLoop (x : Args) : List (Nat × Nat × DWord × DWord) → (Nat → Byte) → (Nat → Byte) × List (Nat × DWord)
  | [], m => (m, [])
  | (l, q, b, c) :: rest, m =>
    let w := tyBits x.ty
    let old : BitVec w := BitVec.ofNat w (leNat ((List.range (w / 8)).map (fun k => m (q + k))))
    let new := newValue x.sub x.ty old (b.setWidth w) (c.setWidth w)
    let r := rmwLoop x rest (fun a => if q ≤ a ∧ a < q + w / 8 then elemBits 8 (a - q) (new.setWidth 64) else m a)
    (r.1, (l, old.setWidth 64) :: r.2)

/-- R250 to R252: atom and red, where memory here serves every lane, perform the operation in ascending lane order; atom sends
off the old values with the label of a load, red nothing. No other byte of memory changes. -/
def Obligations.GlobalAtomics : Prop :=
  ∀ (s : State) (i : Issuer) (x : Args) (at_ : Nat → Nat → Page × Fab), Issues s i →
    ∀ c ∈ [(Op.atom, true), (Op.red, false)], x.wf c.1 = true →
    let w := tyBits x.ty / 8
    let b := fun l => (i.operand s x.b x.ty.wide l).val
    let d := fun l => (i.operand s x.c x.ty.wide l).val
    let release := x.mods.getLsbD 1
    allServed s i x false true c.2 (writeLabel s i x) at_ → mayStart s i x release at_ →
    PairsAgree i x (fun l => (i.gAddr s x l, (b l).toNat % 2 ^ (8 * w), (d l).toNat % 2 ^ (8 * w))) →
    let r := rmwLoop x ((accessLanes i x).map (fun l => (l, (at_ l 0).2.toNat, b l, d l))) s.mem.byte
    ∃ t, exec (c.1.mk x) s = .next t ∧ OnlyYarnAndMemory s t i ∧ GoesOn s t i c.1 x ∧ (∀ a, t.mem.byte a = r.1 a)
      ∧ if c.2 = true then Comes s t i x x.ty.wide (fun l =>
          { val := ((r.2.find? (fun e => e.1 == i.lead (i.lanes x) l)).map Prod.snd).getD 0,
            lab := (loaded s i x at_ (i.lead (i.lanes x) l)).lab })
        else NothingComes s t i

/-- R178, R253, R254: with no scratchpad access of its yarn still to come, fence.acq lets its group go on; fence.rel and
fence.ar do so where both counters have acknowledged every write counted before the fence, and hold it where they have not. With one
to come each waits. A fence changes no register and no memory. That the fence counts the scratchpad accesses of its whole yarn,
and fence.acq too, is the model's reading (log 30). -/
def FencesOrder : Prop :=
  ∀ (s : State) (i : Issuer) (x : Args), Issues s i → i.lanes x ≠ [] →
    let acked := ∀ k ∈ i.yarn.counted, i.g.drained.getD s.nextReq ≤ k.id
    let ends := fun (o : Op) (t : State) => OnlyYarn s t i.y ∧ GoesOn s t i o x ∧ NothingComes s t i
    let holds := fun (t : State) => OnlyYarn s t i.y ∧ SameFibres i t ∧ SameBank i t
      ∧ ∃ g ∈ (t.yarnAt i.y).groups, g = { i.g with drained := some (i.g.drained.getD s.nextReq) }
    (i.yarn.padPending = false →
      (x.wf .fenceAcq = true → ∃ t, exec (.fenceAcq x) s = .next t ∧ ends .fenceAcq t)
      ∧ (x.wf .fenceRel = true → acked → ∃ t, exec (.fenceRel x) s = .next t ∧ ends .fenceRel t)
      ∧ (x.wf .fenceAr = true → acked → ∃ t, exec (.fenceAr x) s = .next t ∧ ends .fenceAr t)
      ∧ (x.wf .fenceRel = true → ¬ acked → ∃ t, exec (.fenceRel x) s = .next t ∧ holds t)
      ∧ (x.wf .fenceAr = true → ¬ acked → ∃ t, exec (.fenceAr x) s = .next t ∧ holds t))
    ∧ (i.yarn.padPending = true → exec (.fenceAcq x) s = .next s ∧ exec (.fenceRel x) s = .next s ∧ exec (.fenceAr x) s = .next s)

/-- A lane names a line that this package owns: its address passes R244's steps 1, 3, 4 and 6 (R256). -/
def namesLine (s : State) (i : Issuer) (x : Args) (k : Nat) (o : Owned) : Prop :=
  ∃ l ∈ i.lanes x, ∃ p, s.translate i.launch.fn (i.gAddr s x l) = .ok p ∧ p.label.toNat ≤ i.ceil ∧ p.cls ≠ 3
    ∧ s.inSeal p.fab = false ∧ (∃ r, s.routeLoad p i.yarn.elig = .ok r) ∧ s.lineOf p.fab = some o ∧ p.fab.toNat / 64 = k

/-- R256, R264: prefetch changes nothing but the group's place; cwb and cinv send each line that this package owns and a lane
names back to its origin, cwb where it was written, and cinv gives it up; then they wait until its origin has written it, and go
on. None faults, and no register or memory of this package changes. Lines of label 2 pay the meter first (R357). -/
def CacheControl : Prop :=
  ∀ (s : State) (i : Issuer) (x : Args), Issues s i →
    let sends := fun (gives : Bool) (k : Nat) (o : Owned) => namesLine s i x k o ∧ (gives = true ∨ o.lab ≠ none)
    let sent := fun (o : Op) (gives : Bool) (t : State) => NothingComes s t i
      ∧ { t with yarns := s.yarns, outbox := s.outbox, ownedHere := s.ownedHere, reqs := s.reqs, nextReq := s.nextReq,
                 tolls := s.tolls } = s
      ∧ (∀ z, z ≠ i.y → Store.find z t.yarns = Store.find z s.yarns)
      ∧ (∀ k w, sends gives k w → Store.find k t.ownedHere = if gives then none else some { w with lab := none })
      ∧ (∀ k, (∀ w, ¬ sends gives k w) → Store.find k t.ownedHere = Store.find k s.ownedHere)
      ∧ (∃ ms, t.outbox = s.outbox ++ ms
        ∧ (∀ m ∈ ms, ∃ k w q, sends gives k w ∧ m = .writeBack w.origin q ⟨BitVec.ofNat 57 (64 * k), w.bytes, w.lab⟩ gives)
        ∧ ∀ k w, sends gives k w → ∃ q, Msg.writeBack w.origin q ⟨BitVec.ofNat 57 (64 * k), w.bytes, w.lab⟩ gives ∈ ms)
      ∧ ((∀ k w, ¬ sends gives k w) → GoesOn s t i o x)
      ∧ ((∃ k w, sends gives k w) → SameFibres i t ∧ SameBank i t ∧ ∃ g ∈ (t.yarnAt i.y).groups, g.lanes = i.g.lanes
        ∧ g.pc = i.g.pc ∧ g.idx = i.g.idx ∧ ∃ a, g.wait = some (.accept a) ∧ a.lanes.all t.laneReady = false)
    let ends := fun (o : Op) (t : State) => OnlyYarn s t i.y ∧ GoesOn s t i o x ∧ NothingComes s t i
    let free := fun (gives : Bool) => i.g.wait = none ∧ ∀ k w, sends gives k w → w.hot = false
    let written := i.lanes x ≠ [] ∧ ∃ a, i.g.wait = some (.accept a) ∧ a.lanes.all s.laneReady = true
    (x.wf .prefetch = true → ∃ t, exec (.prefetch x) s = .next t ∧ ends .prefetch t)
    ∧ (x.wf .cwb = true → free false → ∃ t, exec (.cwb x) s = .next t ∧ sent .cwb false t)
    ∧ (x.wf .cinv = true → free true → ∃ t, exec (.cinv x) s = .next t ∧ sent .cinv true t)
    ∧ (x.wf .cwb = true → written → ∃ t, exec (.cwb x) s = .next t ∧ ends .cwb t)
    ∧ (x.wf .cinv = true → written → ∃ t, exec (.cinv x) s = .next t ∧ ends .cinv t)

/-- R253, R254, R256 and R264's hand-off; which scratchpad accesses a fence waits for is log 30's reading. -/
def Obligations.FencesAndCacheControl : Prop := FencesOrder ∧ CacheControl

/-- R152: monw loads as lds or ld.acq does, and arms the monitor of each lane that loads with the address, the width and the value;
it watches the 64-byte block for writes from now on. -/
def MonitorsArm : Prop :=
  ∀ (s : State) (i : Issuer) (x : Args) (at_ : Nat → Nat → Page × Fab), Issues s i → x.wf .monw = true →
    let who := i.lead (i.lanes x)
    let w := tyBits x.ty / 8
    (x.mods.getLsbD 0 = true → padReady s i x false who →
      let spot := fun l => (padSpot s i x false (who l)).getD (0, 0)
      let v := fun l => BitVec.ofNat 64 (leNat ((s.strandAt (spot l).1).padRead (spot l).2 w))
      ∃ t, exec (.monw x) s = .next t ∧ OnlyYarn s t i.y
        ∧ GoesOn s t i .monw x (fun l => some
          { glob := false, addr := BitVec.ofNat 64 (spot l).2, place := (spot l).1, width := w, value := v l,
            seen := Store.get 0 ((spot l).2 / 64) (s.strandAt (spot l).1).padStamp })
        ∧ Comes s t i x x.ty.wide (fun l =>
          ⟨v l, i.label [{ val := 0, lab := (s.strandAt (spot l).1).unitLabel (spot l).2 }, i.operand s x.a false (who l)]⟩))
    ∧ (x.mods.getLsbD 0 = false → allServed s i x false false true (fun _ => 0) at_ → mayStart s i x false at_ →
      ∃ t, exec (.monw x) s = .next t ∧ OnlyYarn s t i.y
        ∧ GoesOn s t i .monw x (fun l => if who l ∈ accessLanes i x then some
          { glob := true, addr := i.gAddr s x (who l), place := (at_ (who l) 0).2.toNat, width := w,
            value := (loaded s i x at_ (who l)).val, seen := Store.get 0 ((at_ (who l) 0).2.toNat / 64) s.mem.stamps }
          else (i.yarn.lane l).monitor)
        ∧ Comes s t i x x.ty.wide (fun l => loaded s i x at_ (who l)))

/-- R153: mwait ends where every lane's monitor has woken or none was armed: the monitors are disarmed, and d takes each
lane's reason, 3 where none was armed, with label 0. Where some monitor is armed and has not woken, the group waits. -/
def MonitorWaits : Prop :=
  ∀ (s : State) (i : Issuer) (x : Args), Issues s i → x.wf .mwait = true → i.lanes x ≠ [] →
    let waiting := i.g.wait = some .mwait
    let reason := fun (l : Nat) => ((i.yarn.lane l).monitor.bind (·.woken)).getD 3
    let ended := ∀ l ∈ i.lanes x, ∀ m, (i.yarn.lane l).monitor = some m → m.woken ≠ none
    (ended → ∃ t, exec (.mwait x) s = .next t ∧ OnlyYarn s t i.y ∧ FibreFrame i .mwait x t (mon := fun _ => none)
      ∧ BankFrame i .mwait x t ∧ (∀ l, i.shows x l → t.destVal i x.dst false l = ⟨(reason l).setWidth 64, 0⟩)
      ∧ ∀ l ∈ lanesOf i.g.lanes, t.pastIn i l)
    ∧ (¬ ended → ∃ t, exec (.mwait x) s = .next t ∧ OnlyYarn s t i.y ∧ SameBank i t
      ∧ (∀ l n, (t.fibre i.y l).reg n = (i.yarn.lane l).reg n)
      ∧ (∀ l ∈ i.lanes x, ∀ m, (i.yarn.lane l).monitor = some m → ¬ waiting →
        (t.fibre i.y l).monitor = some { m with
          since := some (i.cycles s), limit := (i.first s (i.lanes x) x.a false).val.toNat })
      ∧ ∃ g ∈ (t.yarnAt i.y).groups, g = { i.g with wait := some .mwait })

/-- No group of any yarn holds records of a spawn that issued before (R129). -/
def noSpawnHeld (s : State) : Prop :=
  ∀ c ∈ s.yarns, ∀ g ∈ c.2.groups, ∀ n r rs bad, g.wait ≠ some (.spawn n (r :: rs) bad)

/-- R151, R126: spawn with a good entry, windows in the allocation, room for its records and no spawn held places one record for each lane (a
pair once), with the lane's predicates, window, arguments and their highest label; the fibres go on. -/
def Obligations.SpawnPlacesRecords : Prop :=
  ∀ (s : State) (i : Issuer) (x : Args) (l0 : Nat) (k : BitVec 7) (n : BitVec 5), Issues s i → x.wf .spawn = true →
    (i.lanes x).head? = some l0 → i.g.wait = none → x.b = .v k → x.c = .int n → k.toNat + n.toNat ≤ 128 →
    let entry := (opA .spawn s i x l0).val
    let win := fun l => windowAfter i l x.off.toInt
    let arg := fun l j => (i.yarn.lane l).reg (k.toNat + j)
    s.target (.fetch i.y i.g.id) i.launch.fn i.ceil i.yarn.elig entry = .ok → x.off.toInt % 256 = 0 →
    (∀ l ∈ i.lanes x, windowFits i l x.off.toInt) → i.launch.alloc ≤ 2 ^ 19 →
    PairsAgree i x (fun l => (List.range n.toNat).map (fun j => (arg l j).val)) →
    i.launch.spillAt = 0 → i.launch.spilled = [] → i.strand.place ≠ none → noSpawnHeld s → s.binsOn i.strand.core + (i.lanes x).length ≤ 16 →
    ∃ t, exec (.spawn x) s = .next t ∧ GoesOn s t i .spawn x ∧ NothingComes s t i
      ∧ { t with yarns := s.yarns, strands := s.strands, bufs := s.bufs, nextBin := s.nextBin } = s
      ∧ (∀ z, z ≠ i.y → Store.find z t.yarns = Store.find z s.yarns)
      ∧ (∀ z, z ≠ i.yarn.strand → Store.find z t.strands = Store.find z s.strands)
      ∧ { t.strandAt i.yarn.strand with bins := i.strand.bins } = i.strand
      ∧ ((t.strandAt i.yarn.strand).bins.map (·.recs.length)).sum
        = (i.strand.bins.map (·.recs.length)).sum + (i.acting (i.lanes x)).length
      ∧ ∀ l ∈ i.acting (i.lanes x), ∃ b ∈ (t.strandAt i.yarn.strand).bins, b.stage = i.yarn.stage
        ∧ b.entry = entry.setWidth 57 ∧ ∃ r ∈ b.recs, recEntry r = entry.setWidth 57
          ∧ recPreds r = (i.yarn.lane l).preds ∧ recWindow r = (win l).toNat ∧ bitsAt r 71 3 = 1
          ∧ recLabel r = i.label ((List.range n.toNat).map (fun j => { val := 0, lab := (arg l j).lab }))
          ∧ ∀ j, j < 13 → recArg r j = if j < n.toNat then (arg l j).val else 0

/-! ### Matrix operations and accumulators (R214 to R226) -/

/-- Nothing of the state differs but one yarn's record, one strand's, and the answers that its requests had waited for. -/
def OnlyYarnAndStrand (s t : State) (y x : Nat) : Prop :=
  { t with yarns := s.yarns, strands := s.strands, bufs := s.bufs } = s
    ∧ (∀ z, z ≠ y → Store.find z t.yarns = Store.find z s.yarns) ∧ ∀ z, z ≠ x → Store.find z t.strands = Store.find z s.strands

/-- R216: in matrix role, with one valid format word in every lane, a parameter block that passes its checks, templates that can
serve, no scratchpad access of the yarn still to come (R177), and fewer than 4 operations not done, mma gives every lane the next number with the floor's label and enqueues the
operation with its copy of the block. -/
def MatrixOperationIssues : Prop :=
  ∀ (s : State) (i : Issuer) (x : Args) (l0 : Nat) (tm sm : BitVec 512), Issues s i → x.wf .mma = true →
    (i.lanes x).head? = some l0 → i.bank.role = 1 → i.bank.floor.toNat ≤ i.ceil →
    let fw : Word := (opB .mma s i x l0).val.setWidth 32
    let pb := i.spAddr s x false l0
    let o := pb % 2 ^ 19
    let blk := BitVec.ofNat 1024 (leNat (i.strand.padRead o 128))
    let store := pbStore blk ≠ 0xFFFF
    let n := i.strand.issuedOn 8 + 1
    i.yarn.padPending = false →
    (∀ l ∈ i.lanes x, (opB .mma s i x l).val = (opB .mma s i x l0).val) → fwValid fw = true → pb % 64 = 0 →
    (s.locate i true pb 128).isSome = true → pbReserved blk = none → pbRange blk = none →
    pbExtent i.launch.alloc fw blk = none →
    (if store then s.opTemplate i l0 (pbStore blk) (tileBytes fw) = .ok tm else tm = 0) →
    (if store ∧ fwNarrow fw = true then s.opTemplate i l0 (pbSStore blk) 512 = .ok sm else pbSStore blk = 0 ∧ sm = 0) →
    i.strand.ops.length < 4 →
    ∃ t, exec (.mma x) s = .next t ∧ OnlyYarnAndStrand s t i.y i.yarn.strand ∧ FibreFrame i .mma x t ∧ BankFrame i .mma x t
      ∧ (∀ l, i.shows x l → t.destVal i x.dst true l = ⟨BitVec.ofNat 64 n, i.bank.floor⟩)
      ∧ (∀ l ∈ lanesOf i.g.lanes, t.pastIn i l)
      ∧ let u := t.strandAt i.yarn.strand
        u.issuedOn 8 = n ∧ (∀ c, c ≠ 8 → u.issuedOn c = i.strand.issuedOn c) ∧ u.pad = i.strand.pad
        ∧ ∃ op, u.ops = i.strand.ops ++ [op] ∧ op.num = n ∧ op.block = blk ∧ op.fw = fw ∧ op.yarn = i.y
          ∧ op.fray = i.g.fray.map (fun e => ((Store.find e i.yarn.frays).getD default).num)
          ∧ op.progress = 0 ∧ op.stage = .steps ∧ op.tmpl = tm ∧ op.stmpl = sm
          ∧ op.lab = i.label (((i.lanes x).map (fun l => opB .mma s i x l))
            ++ (List.range 16).map (fun k => { val := 0, lab := i.strand.unitLabel (o + 8 * k) }))

/-- R123, R216: mma outside the matrix role traps ROLE; lanes whose format words differ trap FORMAT_DIVERGE, and an invalid one
ILLEGAL_OP with the word as its argument: no number is taken. -/
def MatrixIssueTraps : Prop :=
  ∀ (s : State) (i : Issuer) (x : Args) (l0 : Nat), Issues s i → x.wf .mma = true → (i.lanes x).head? = some l0 →
    handlerReady s i →
    let w := fun l => (opB .mma s i x l).val
    (i.bank.role ≠ 1 → Traps s i (.mma x) (i.lanes x) 0x24 (fun _ => True) (afterPc i) (afterIndex i))
    ∧ (i.bank.role = 1 → (∃ l ∈ i.lanes x, w l ≠ w l0) →
      Traps s i (.mma x) (i.lanes x) 0x20 (fun _ => True) i.g.pc i.g.idx)
    ∧ (i.bank.role = 1 → (∀ l ∈ i.lanes x, w l = w l0) → fwValid ((w l0).setWidth 32) = false →
      Traps s i (.mma x) (i.lanes x) 0x10 (fun v => v = ((w l0).setWidth 32).setWidth 64) i.g.pc i.g.idx)

/-- R123 and R216. -/
def Obligations.MatrixOperationsIssueOrTrap : Prop := MatrixOperationIssues ∧ MatrixIssueTraps

/-- The slot of a strand's core. -/
def slotOf (s : State) (x n : Nat) : Slot := (s.coreAt (s.strandAt x).core).slot n

/-- An accumulator instruction goes on at issue; nothing stands before it in slot order, no scratchpad access of its yarn is
still to come, and nothing is pending in a fray that has ended, so it can take effect at once, in the yarn's last instruction
under way: `eff` says what that leaves (R177, R223). -/
def takesEffect (s : State) (i : Issuer) (o : Op) (x : Args) (n : Nat) (eff : State → Prop) : Prop :=
  i.strand.place ≠ none → (∀ k, s.slotBusy i.yarn.strand n k = false) → (∀ p ∈ i.strand.ops, pbSlot p.block ≠ n) →
    (∀ l ∈ i.lanes x, (i.yarn.lane l).active = true) → i.yarn.padPending = false → i.yarn.tidy.pend = i.yarn.pend →
    ∃ t u, exec (o.mk x) s = .next t ∧ GoesOn s t i o x ∧ NothingComes s t i ∧ OnlyYarnAndStrand s t i.y i.yarn.strand
      ∧ exec (.longLatencyComplete i.y i.yarn.pend.length) t = .next u ∧ (u.yarnAt i.y).pend = i.yarn.pend
      ∧ (∀ z, z ≠ i.y → Store.find z u.yarns = Store.find z s.yarns) ∧ eff u

/-- Only one slot of one core changes, from s to u. -/
def OnlySlot (s : State) (x n : Nat) (u : State) : Prop :=
  ∀ c m, c ≠ (s.strandAt x).core ∨ m ≠ n → (u.coreAt c).slot m = (s.coreAt c).slot m

/-- R134, R223 to R226, R349: an accumulator instruction that its yarn may issue, that names a slot 0 to 3 and elements, a region or
a half that exist, and that in no lane puts down a label above the ceiling, completes: its group goes on, and it takes its place
in slot order, one instruction more of its yarn being under way. -/
def AccumulatorsGoOn : Prop :=
  ∀ (s : State) (i : Issuer) (x : Args) (l0 : Nat), Issues s i → (i.lanes x).head? = some l0 →
    let b := fun l => i.operand s x.b false l
    let computing := i.bank.role = 1 ∨ (i.bank.role = 2 ∧ i.launch.matrix = true)
    let places := if x.mods.getLsbD 0 = true
      then ∃ z o, s.locate i false (((b l0).val + x.off.signExtend 64).toNat % 2 ^ 32) 65536 = some (z, o) ∧ o % 256 = 0
      else ∀ l ∈ i.lanes x, (b l).val.toNat < 16384
    let fits := fun (c : Nat → Label) => ∀ l ∈ i.lanes x, (c l).toNat ≤ i.ceil
    let goes := fun (o : Op) (t : State) => OnlyYarnAndStrand s t i.y i.yarn.strand ∧ GoesOn s t i o x ∧ NothingComes s t i
      ∧ t.strandAt i.yarn.strand = { i.strand with seq := i.strand.seq + 1 }
      ∧ (t.yarnAt i.y).pend.length = i.yarn.pend.length + 1 ∧ ∃ p ∈ (t.yarnAt i.y).pend, p.seq = i.strand.seq
    (i.operand s x.a false l0).val.toNat ≤ 3 →
    (x.wf .accLd = true → computing → places → (x.mods.getLsbD 0 = false → fits fun l => i.label [b l]) →
      ∃ t, exec (.accLd x) s = .next t ∧ goes .accLd t)
    ∧ (x.wf .accSt = true → computing → places →
      (x.mods.getLsbD 0 = false → fits fun l => lmax (b l).lab (i.operand s x.c false l).lab) →
      ∃ t, exec (.accSt x) s = .next t ∧ goes .accSt t)
    ∧ (x.wf .accZero = true → i.bank.role = 1 → i.bank.floor.toNat ≤ i.ceil → ∃ t, exec (.accZero x) s = .next t ∧ goes .accZero t)
    ∧ (x.wf .mmchk = true → computing → (b l0).val.toNat ≤ 1 → ∃ t, exec (.mmchk x) s = .next t ∧ goes .mmchk t)

/-- R223 to R226: the accumulator instructions that name slots 0 to 3 take effect in slot order: acc.ld gives elements to registers
or the slot to scratchpad, acc.st the reverse with the checksum cleared, acc.zero zeroes the slot, and mmchk gives the checksum
vector where it stands. Each where the label it would put down is not above the ceiling (R349). -/
def AccumulatorsTakeEffect : Prop :=
  ∀ (s : State) (i : Issuer) (x : Args) (l0 : Nat), Issues s i → (i.lanes x).head? = some l0 →
    let n := (i.operand s x.a false l0).val.toNat
    let X := i.yarn.strand
    let k := slotOf s X n
    let ix := fun l => i.operand s x.b false l
    let others := fun (u : State) (o : Op) (d : BitVec 7) => ∀ l m, l ∉ i.lanes x ∨ m ≠ d.toNat →
      (u.fibre i.y l).reg m = if l ∈ i.lanes x ∧ m ∈ i.killed o x then {} else (i.yarn.lane l).reg m
    let region := fun (z o : Nat) =>
      let a := ((ix l0).val + x.off.signExtend 64).toNat % 2 ^ 32
      s.locate i false a 65536 = some (z, o) ∧ o % 256 = 0
    let computing := i.bank.role = 1 ∨ (i.bank.role = 2 ∧ i.launch.matrix = true)
    let fits := fun (c : Label) => c.toNat ≤ i.ceil
    n ≤ 3 →
    (x.wf .accLd = true → computing →
      (x.mods.getLsbD 0 = false → (∀ l ∈ i.lanes x, (ix l).val.toNat < 16384) →
        (∀ l ∈ i.lanes x, fits (lmax (lmax k.lab (ix l).lab) i.bank.floor)) →
        takesEffect s i .accLd x n fun u => OnlySlot s X 4 u ∧ u.strandAt X = { i.strand with seq := i.strand.seq + 1 }
          ∧ ∀ d, x.dst = .v d → others u .accLd d ∧ ∀ l ∈ i.lanes x, (u.fibre i.y l).reg d.toNat =
            ⟨Store.get 0 (ix l).val.toNat k.acc, lmax (lmax k.lab (ix l).lab) i.bank.floor⟩)
      ∧ (x.mods.getLsbD 0 = true → fits k.lab → ∀ z o, region z o →
        takesEffect s i .accLd x n fun u => OnlySlot s X 4 u
          ∧ (∀ e, e < 16384 → (u.strandAt z).padRead (o + 4 * e) 4 = leBytes 4 (Store.get 0 e k.acc).toNat)
          ∧ (∀ b, b < 8192 → (u.strandAt z).unitLabel (o + 8 * b) = k.lab)
          ∧ ∀ q, q < o ∨ o + 65536 ≤ q → (u.strandAt z).padByte q = (s.strandAt z).padByte q))
    ∧ (x.wf .accSt = true → computing →
      (x.mods.getLsbD 0 = false → (∀ l ∈ i.lanes x, (ix l).val.toNat < 16384) →
        fits ((i.lanes x).foldl (fun m l => lmax m (lmax (ix l).lab (i.operand s x.c false l).lab)) k.lab) →
        takesEffect s i .accSt x n fun u => OnlySlot s X n u
          ∧ (∀ e, Store.get 0 e (slotOf u X n).acc =
            match ((i.lanes x).filter (fun l => (ix l).val.toNat == e)).getLast? with
            | some l => (i.operand s x.c false l).val.setWidth 32
            | none => Store.get 0 e k.acc)
          ∧ (slotOf u X n).lab = (i.lanes x).foldl
            (fun m l => lmax m (lmax (ix l).lab (i.operand s x.c false l).lab)) k.lab
          ∧ (slotOf u X n).ckLive = false)
      ∧ (x.mods.getLsbD 0 = true → ∀ z o, region z o →
        fits ((List.range 8192).foldl (fun m b => lmax m ((s.strandAt z).unitLabel (o + 8 * b))) i.bank.floor) →
        takesEffect s i .accSt x n fun u => OnlySlot s X n u
          ∧ (∀ e, e < 16384 → (Store.get 0 e (slotOf u X n).acc).toNat = leNat ((s.strandAt z).padRead (o + 4 * e) 4))
          ∧ (slotOf u X n).lab = (List.range 8192).foldl (fun m b => lmax m ((s.strandAt z).unitLabel (o + 8 * b)))
            i.bank.floor
          ∧ (slotOf u X n).ckLive = false))
    ∧ (x.wf .accZero = true → i.bank.role = 1 → fits i.bank.floor → takesEffect s i .accZero x n fun u => OnlySlot s X n u
        ∧ (∀ e, Store.get 0 e (slotOf u X n).acc = 0) ∧ (slotOf u X n).lab = i.bank.floor ∧ (slotOf u X n).ckLive = false)
    ∧ (x.wf .mmchk = true → computing → (ix l0).val.toNat ≤ 1 → (k.ckLive = true → fits k.lab) → takesEffect s i .mmchk x n fun u => OnlySlot s X 4 u
        ∧ ∀ d, x.dst = .v d → others u .mmchk d ∧ ∀ l ∈ i.lanes x, (u.fibre i.y l).reg d.toNat =
          if k.ckLive = true then ⟨Store.get 0 (64 * (ix l0).val.toNat + l) k.ck, k.lab⟩ else {})

/-- R223 to R226. -/
def Obligations.AccumulatorInstructions : Prop := AccumulatorsGoOn ∧ AccumulatorsTakeEffect

/-! ### Engine instructions (R283, R289, R292) -/

/-- R283, R230: shape checks the record in 16 scalars and, where memory here serves its eight units and the lowest executing
lane's pair names one address, stores it; each written frame's label is its page's (R248), and no other byte or label of memory
changes. -/
def Obligations.ShapeStoresTemplate : Prop :=
  ∀ (s : State) (i : Issuer) (x : Args) (l0 : Nat) (b : BitVec 6) (at_ : Nat → Page × Fab), Issues s i → x.wf .shape = true →
    (i.lanes x).head? = some l0 → x.b = .s b →
    let va := i.gAddr s x l0
    let word := fun j => i.bank.scalar (b.toNat + j)
    let rec_ := i.bank.record b.toNat
    let lab := i.label (opA .shape s i x l0 :: (List.range 16).map (fun j => { val := 0, lab := (word j).lab }))
    tCheck i.launch none rec_.1 = none → va.toNat % 64 = 0 → i.g.wait = none → i.g.drained = none →
    i.yarn.counted.length + 8 ≤ 65535 →
    ((∃ c ∈ partsAt va 64, (at_ c.1).1.cls = 1) → i.yarn.counted = [] ∧ i.yarn.padPending = false) →
    (i.protd = true → twin l0 ∈ i.lanes x ∧ i.gAddr s x l0 = i.gAddr s x (twin l0)) →
    (∀ c ∈ partsAt va 64, Served s i true false lab (va + BitVec.ofNat 64 c.1) c.2 (at_ c.1).1 (at_ c.1).2) →
    (∀ j, j < 8 → (at_ (8 * j)).2.toNat = (at_ 0).2.toNat + 8 * j) →
    (∀ j, j < 16 → rec_.1.extractLsb' (32 * j) 32 = (word j).val)
    ∧ ∃ t, exec (.shape x) s = .next t ∧ OnlyYarnAndMemory s t i ∧ GoesOn s t i .shape x ∧ NothingComes s t i
      ∧ (∀ a, t.mem.byte a = if (at_ 0).2.toNat ≤ a ∧ a < (at_ 0).2.toNat + 64
        then rec_.1.extractLsb' (8 * (a - (at_ 0).2.toNat)) 8 else s.mem.byte a)
      ∧ ∀ a, t.mem.label a = match ((partsAt va 64).filter (fun c => (at_ c.1).2.toNat / 4096 == a / 4096)).getLast? with
        | some c => (at_ c.1).1.label
        | none => s.mem.label a

/-- Nothing changes but one yarn's record, the bytes of one barrier, and, where its phase moved, the waits at it. -/
def OnlyYarnAndBar (s t : State) (y z o : Nat) : Prop :=
  let moved := decide (barPhase ((t.strandAt z).bar o) ≠ barPhase ((s.strandAt z).bar o))
  { t with yarns := s.yarns, strands := s.strands, bufs := s.bufs } = s
    ∧ (∀ n, { t.strandAt n with
        pad := (s.strandAt n).pad, padLab := (s.strandAt n).padLab, padStamp := (s.strandAt n).padStamp } = s.strandAt n)
    ∧ (∀ n q, n ≠ z ∨ q < o ∨ o + 16 ≤ q → (t.strandAt n).padByte q = (s.strandAt n).padByte q)
    ∧ ∀ n, n ≠ y → Store.find n t.yarns = (Store.find n s.yarns).map (fun v =>
        { v with groups := v.groups.map (fun g =>
          if moved = true ∧ g.wait = some (.tb z o false) then { g with wait := some (.tb z o true) } else g) })

/-- A barrier's fields, complete(bar) applied (R289). -/
def barHolds (b : BitVec 128) (phase arrivals reload : Nat) (sectors : Int) : Prop :=
  if arrivals = 0 ∧ sectors = 0 then
    barPhase b = (phase + 1) % 16 ∧ barArrivals b = reload ∧ barReload b = reload ∧ barSectors b = 0
  else barPhase b = phase ∧ barArrivals b = arrivals ∧ barReload b = reload ∧ barSectors b = sectors

/-- Every access its yarn issued before is visible: its writes are acknowledged, its scratchpad accesses made (R178). -/
def earlierDone (s : State) (i : Issuer) : Prop :=
  i.yarn.padPending = false ∧ ∀ c ∈ i.yarn.counted, i.g.drained.getD s.nextReq ≤ c.id

/-- R289: on a barrier in bounds with its reserved bits zero, and with no scratchpad access of the yarn still to come (R177),
tbinit sets it up, tbarrive takes the fibres of G (a pair once, the model's
reading, log 31) off its arrivals and gives each the phase, tbexpect adds sectors, given or a template's, and tbwait goes on where the phase
differs from its operand in every lane, or has moved since it began to wait, and every earlier access is visible (R178), else
waits. -/
def BarrierInstructions : Prop :=
  ∀ (s : State) (i : Issuer) (x : Args) (l0 z o : Nat), Issues s i → (i.lanes x).head? = some l0 →
    s.locate i false (i.spAddr s x false l0) 16 = some (z, o) → o % 16 = 0 →
    let b := (s.strandAt z).bar o
    let n := (i.acting (i.lanes x)).length
    let v := (i.operand s x.b false l0).val.toNat
    let bar := fun (t : State) => (t.strandAt z).bar o
    bitsAt b 88 40 = 0 → i.yarn.padPending = false →
    (x.wf .tbinit = true → 0 < v → v ≤ 1048575 → ∃ t, exec (.tbinit x) s = .next t ∧ OnlyYarnAndBar s t i.y z o
      ∧ GoesOn s t i .tbinit x ∧ NothingComes s t i ∧ barPhase (bar t) = 0 ∧ barArrivals (bar t) = v ∧ barReload (bar t) = v
      ∧ barSectors (bar t) = 0 ∧ (t.strandAt z).unitLabel o = 0 ∧ (t.strandAt z).unitLabel (o + 8) = 0)
    ∧ (x.wf .tbarrive = true → n ≤ barArrivals b → ∃ t, exec (.tbarrive x) s = .next t ∧ OnlyYarnAndBar s t i.y z o
      ∧ FibreFrame i .tbarrive x t ∧ BankFrame i .tbarrive x t ∧ NothingComes s t i
      ∧ (∀ l, i.shows x l → t.destVal i x.dst false l = ⟨BitVec.ofNat 64 (barPhase b), 0⟩)
      ∧ (∀ l ∈ lanesOf i.g.lanes, t.pastIn i l)
      ∧ barHolds (bar t) (barPhase b) (barArrivals b - n) (barReload b) (barSectors b))
    ∧ (x.wf .tbexpect = true → ∀ q : Nat, (x.mods.getLsbD 0 = false → q = v) →
      (x.mods.getLsbD 0 = true → ∃ r, s.record i l0 v = .ok r ∧ tCheck i.launch (some 0) r = none ∧ q = tSize r / 32) →
      barSectors b + q < 2 ^ 43 → ∃ t, exec (.tbexpect x) s = .next t ∧ OnlyYarnAndBar s t i.y z o
      ∧ GoesOn s t i .tbexpect x ∧ NothingComes s t i
      ∧ barHolds (bar t) (barPhase b) (barArrivals b) (barReload b) (barSectors b + q))
    ∧ (x.wf .tbwait = true → i.g.wait = none → earlierDone s i → ∃ t, exec (.tbwait x) s = .next t ∧ OnlyYarn s t i.y
      ∧ if ∀ l ∈ i.lanes x, (i.operand s x.b false l).val.toNat % 16 ≠ barPhase b then GoesOn s t i .tbwait x ∧ NothingComes s t i
        else SameFibres i t ∧ SameBank i t ∧ ∃ g ∈ (t.yarnAt i.y).groups, g = { i.g with wait := some (.tb z o false) })
    ∧ (x.wf .tbwait = true → i.g.wait = some (.tb z o true) → earlierDone s i →
      ∃ t, exec (.tbwait x) s = .next t ∧ OnlyYarn s t i.y ∧ GoesOn s t i .tbwait x ∧ NothingComes s t i)

/-- R292, R178: tlwait goes on once the context has done the number named and every earlier access is visible, and waits until
then; tlread gives the issued count, the done
value or the context id with the floor's label. A context above 9, or a number not submitted, traps ILLEGAL_OP. -/
def TimelineInstructions : Prop :=
  ∀ (s : State) (i : Issuer) (x : Args) (l0 : Nat), Issues s i → (i.lanes x).head? = some l0 →
    let c := (i.operand s x.a false l0).val.toNat
    let n := (i.operand s x.b true l0).val
    (x.wf .tlwait = true → i.g.wait = none → earlierDone s i → c ≤ 9 → n.toNat ≤ i.strand.issuedOn c →
      ∃ t, exec (.tlwait x) s = .next t ∧ OnlyYarn s t i.y
        ∧ if n.toNat ≤ i.strand.doneOn c then GoesOn s t i .tlwait x ∧ NothingComes s t i
          else SameFibres i t ∧ SameBank i t ∧ ∃ g ∈ (t.yarnAt i.y).groups, g = { i.g with wait := some (.timeline c n) })
    ∧ (x.wf .tlwait = true → earlierDone s i → ∀ d m, i.g.wait = some (.timeline d m) → m.toNat ≤ i.strand.doneOn d →
      ∃ t, exec (.tlwait x) s = .next t ∧ OnlyYarn s t i.y ∧ GoesOn s t i .tlwait x ∧ NothingComes s t i)
    ∧ (x.wf .tlread = true → i.bank.floor.toNat ≤ i.ceil → x.mods.getLsbD 1 = true ∨ c ≤ 9 →
      ∃ t, exec (.tlread x) s = .next t ∧ OnlyYarn s t i.y ∧ FibreFrame i .tlread x t ∧ BankFrame i .tlread x t
        ∧ (∀ l ∈ lanesOf i.g.lanes, t.pastIn i l)
        ∧ ∀ l, i.shows x l → t.destVal i x.dst (Op.dWide .tlread x.ty x.sub x.mods) l =
          ⟨if x.mods.getLsbD 1 then BitVec.ofNat 64 (i.yarn.strand % 2 ^ 32)
            else BitVec.ofNat 64 (if x.mods.getLsbD 0 then i.strand.doneOn c else i.strand.issuedOn c), i.bank.floor⟩)
    ∧ (∀ e ∈ [Op.tlwait, Op.tlread], x.wf e = true → i.g.wait = none → (e = .tlread → x.mods.getLsbD 1 = false) →
      9 < c ∨ (e = .tlwait ∧ i.strand.issuedOn c < n.toNat) → handlerReady s i → Traps s i (e.mk x) (i.lanes x) 0x10 (fun _ => True) i.g.pc i.g.idx)

/-- R289 and R292; that a pair of a protected launch arrives once is the model's reading (log 31). -/
def Obligations.BarriersAndTimelines : Prop := BarrierInstructions ∧ TimelineInstructions

/-! ### Routing instructions (R311 to R318) -/

/-- What routing instructions leave alone: memory, strands, cores and queues, and every yarn but the issuer's. -/
def OnlyRoutes (s t : State) (y : Nat) : Prop :=
  t.mem = s.mem ∧ t.hostMem = s.hostMem ∧ t.strands = s.strands ∧ t.cores = s.cores ∧ t.reqs = s.reqs
    ∧ ∀ z, z ≠ y → Store.find z t.yarns = Store.find z s.yarns

/-- R314 to R316: annc and prom, their checks passed and room in the entry, make the package's own record of the prefix, with the
kind, the next issue, the backing, its label as ceiling and, for an ORIGIN, a sequence above every one recorded; wdrw, once
every write that passed its checks under the prefix is performed (R309), removes it, and does nothing where there is none. -/
def RouteInstructions : Prop :=
  ∀ (s : State) (i : Issuer) (x : Args) (l0 : Nat) (p : Fab) (len : Nat), Issues s i → (i.lanes x).head? = some l0 →
    prefixOf (i.operand s x.a true l0).val = some (p, len) →
    let b := (i.operand s x.b true l0).val
    let fresh := ∀ o, s.mine p len = some o → o.issue + 1 = (s.nextIssue p len).2
    let room := s.table.length < 16384 ∧ ∀ e, s.entryOf p len = some e →
      (e.holders.filter (fun h => !decide (h.peer = s.peer))).length < 4
    let made := fun (t : State) (k : BitVec 2) (back : Fab) => ∃ r, t.mine p len = some r ∧ r.kind = k ∧ r.path = []
      ∧ r.inc = s.inc ∧ r.backing = back ∧ r.ceiling = s.backingLabel back len ∧ r.issue = (s.nextIssue p len).2
      ∧ (k = 0 → r.origin = s.peer ∧ r.seq = s.nextSeq p len)
      ∧ (k ≠ 0 → ∀ o, s.coverOrigin p len = some o → r.origin = o.peer ∧ r.seq = o.seq)
    (x.wf .annc = true → s.anncBad i (i.operand s x.a true l0).val b (x.mods.extractLsb' 0 2) = none → fresh → room →
      ∃ t, exec (.annc x) s = .next t ∧ OnlyRoutes s t i.y ∧ GoesOn s t i .annc x ∧ NothingComes s t i
        ∧ made t (x.mods.extractLsb' 0 2) (b.setWidth 57))
    ∧ (x.wf .wdrw = true → len ≠ 12 → prefixIn (s.func i.launch.fn).annwin p len = true →
      (∀ c ∈ s.checked, c.req.pfx = p → c.req.len ≠ len) →
      ∃ t, exec (.wdrw x) s = .next t ∧ OnlyRoutes s t i.y ∧ GoesOn s t i .wdrw x ∧ NothingComes s t i ∧ t.mine p len = none
        ∧ (s.mine p len = none → t.table = s.table ∧ t.outbox = s.outbox))
    ∧ (x.wf .prom = true → prefixIn (s.func i.launch.fn).annwin p len = true → fresh → room →
      ∀ h, s.mine p len = some h → h.kind ≠ 0 → s.backingIn i.launch.fn (h.backing.setWidth 64) len = true →
      (∀ e o, s.entryOf p len = some e → e.origin = some o → o.peer ≠ s.peer → above (s.nextSeq p len) o.seq = true) →
      ∃ t, exec (.prom x) s = .next t ∧ OnlyRoutes s t i.y ∧ GoesOn s t i .prom x ∧ NothingComes s t i ∧ made t 0 h.backing)

/-- R317, R318: rtq completes with the holder a load, or with .store a store, would go to, or with the cause where none would
serve; rtsync goes on once every route change of its yarn has converged, and waits until then. -/
def RouteQueriesAndSync : Prop :=
  Computes .rtq
    { val := fun s i x l r =>
        let store := x.mods.getLsbD 0
        let va := i.gAddr s x l
        (∀ c, s.translate i.launch.fn va = .error c → r = BitVec.ofNat 64 (c.toNat * 2 ^ 24 + 2 ^ 31))
        ∧ ∀ p, s.translate i.launch.fn va = .ok p →
          let reach := p.label.toNat ≤ i.ceil ∧ (store = true → p.write = true) ∧ p.cls ≠ 3 ∧ s.inSeal p.fab = false
          (¬ reach → r = BitVec.ofNat 64 (2 * 2 ^ 24 + 2 ^ 31))
          ∧ (reach → match (if store then s.routeStore p else s.routeLoad p i.yarn.elig) with
            | .error c => r = BitVec.ofNat 64 (c.toNat * 2 ^ 24 + 2 ^ 31)
            | .ok (e, h) =>
              r = BitVec.ofNat 64 (h.peer.toNat + h.path.length * 2 ^ 12 + e.len * 2 ^ 16 + h.kind.toNat * 2 ^ 22)),
      lab := fun _ i _ _ => i.bank.floor }
  ∧ ∀ (s : State) (i : Issuer) (x : Args), Issues s i → x.wf .rtsync = true → i.lanes x ≠ [] →
    let ids := match i.g.wait with
      | some (.rtsync ids) => ids
      | _ => i.yarn.changes
    ∃ t, exec (.rtsync x) s = .next t ∧ OnlyYarn s t i.y
      ∧ if ∀ k ∈ ids, Store.find k s.changes = none then GoesOn s t i .rtsync x ∧ NothingComes s t i
        else SameFibres i t ∧ SameBank i t ∧ ∃ g ∈ (t.yarnAt i.y).groups, ∃ left, left ≠ []
          ∧ (∀ k ∈ left, k ∈ ids ∧ Store.find k s.changes ≠ none) ∧ g = { i.g with wait := some (.rtsync left) }

/-- R314 to R318. -/
def Obligations.RoutesChangeAndAnswer : Prop := RouteInstructions ∧ RouteQueriesAndSync

/-! ### Knots (R338 to R347) -/

/-- The knot whose bytes stand at an address served here. -/
def knotAt (s : State) (q : Fab) : Knot := knotOf (s.bytesAt q.toNat 1088)

/-- R339: a member outside the knot answers 5, a round above the open tag 3, one that is not the member's next 4, and a
collective knot 6, with the knot as it was. The member's next round with lag 0, below the quorum, answers 0: it is
combined into the accumulator and marked, and the member's next round advances; a late one under the drop rule answers 2
and changes no element, and else answers 1, folded in with its weight. A contribution's label is the highest of the floor's, which
comes first, and of the lanes below m (R344). The contribution that meets the quorum closes the round: the accumulator is
published with the open mask, weight, label and tag, and the next round opens empty; where a member would lag by more than the
limit, the round stalls instead, and the first time the lowest such member is reported. -/
def KnotContributions : Prop :=
  ∀ (k : Knot) (data labs : List Byte),
    let lb := ((labs.take (1 + kM k.desc)).map (·.setWidth 2)).foldl lmax (0 : Label)
    let c := leNat (data.take 4)
    let j := c / 65536 % 64
    let r := BitVec.ofNat 16 c
    let d := k.desc
    let word := fun e => wordOf data (4 + 4 * e)
    let out := k.put data labs
    let folded := fun (lag : Nat) => k.acc.mapIdx (fun e a => if e < kM d then
      BitVec.ofNat 32 (combineLate (kFormat d) (kCombine d) lag a.toNat (word e).toNat) else a)
    let next := k.next.set j (r + 1)
    let lags := fun (n : Nat) => n < kN d ∧ kL d < (kT d + 1 - next.getD n 0).toNat ∧ above (kT d + 1) (next.getD n 0) = true
    let meets := kColl d = false ∧ j < kN d ∧ r = kT d ∧ r = k.next.getD j 0 ∧ kOnTime d < 127 ∧ kK d ≤ kOnTime d + 1
    let same := fun (st : Byte) => out.knot = k ∧ out.data.headD 0 = st
    (kColl d = true → same 6)
    ∧ (kColl d = false → kN d ≤ j → same 5)
    ∧ (kColl d = false → j < kN d → above r (kT d) = true → same 3)
    ∧ (kColl d = false → j < kN d → above r (kT d) = false → r ≠ k.next.getD j 0 → same 4)
    ∧ (kColl d = false → j < kN d → r = kT d → r = k.next.getD j 0 → kOnTime d + 1 < kK d →
      out.data.headD 1 = 0 ∧ kT out.knot.desc = kT d ∧ kOnTime out.knot.desc = kOnTime d + 1
        ∧ kOpen out.knot.desc = kOpen d ||| (1#64 <<< j) ∧ out.knot.next = next ∧ out.knot.acc = folded 0
        ∧ kOpenLab out.knot.desc = lmax (kOpenLab d) lb ∧ out.knot.pub = k.pub)
    ∧ (kColl d = false → j < kN d → r = k.next.getD j 0 → above r (kT d) = false → r ≠ kT d → kW d = 2 →
      kOnTime d < kK d → out.data.headD 1 = 2 ∧ out.knot.acc = k.acc ∧ kOpen out.knot.desc = kOpen d
        ∧ out.knot.next = next)
    ∧ (kColl d = false → j < kN d → r = k.next.getD j 0 → above r (kT d) = false → r ≠ kT d → kW d ≠ 2 →
      kOnTime d < kK d → out.data.headD 0 = 1 ∧ out.knot.acc = folded (if kW d = 0 then 0 else (kT d - r).toNat)
        ∧ kOpen out.knot.desc = kOpen d ||| (1#64 <<< j) ∧ kOnTime out.knot.desc = kOnTime d ∧ out.knot.next = next)
    ∧ (meets → (∀ n, ¬ lags n) → out.data.headD 1 = 0 ∧ out.lag = none ∧ out.knot.pub = folded 0 ∧ out.knot.next = next
      ∧ (let u := out.knot.desc
        kClosed u = kOpen d ||| (1#64 <<< j) ∧ kClosedTag u = kT d ∧ kClosedLab u = lmax (kOpenLab d) lb
          ∧ BitVec.ofNat 32 (kClosedWeight u) = BitVec.ofNat 32 (f32.add .rne false (kOpenWeight d) 0x3F800000).1
          ∧ kT u = kT d + 1 ∧ kOpen u = 0 ∧ kOnTime u = 0 ∧ kOpenWeight u = 0 ∧ kOpenLab u = 0 ∧ kStalled u = false)
      ∧ ∀ e, e < 64 → out.knot.acc.getD e 0 = if e < kM d then identityOf (kFormat d) (kCombine d) else 0)
    ∧ (meets → ∀ n, lags n → (∀ m, m < n → ¬ lags m) → out.data.headD 1 = 0 ∧ out.knot.pub = k.pub ∧ out.knot.acc = folded 0
      ∧ out.knot.next = next ∧ kT out.knot.desc = kT d ∧ kClosedTag out.knot.desc = kClosedTag d
      ∧ kStalled out.knot.desc = true ∧ out.lag = if kStalled d then none else some ⟨kT d, n, next.getD n 0⟩)

/-- R341 to R347: the knot instructions, on a knot whose memory is here and with no write outstanding, complete: init writes the
configured knot, put contributes each lane's element and sends off the status, take sends off a closed round's published
elements or waits, and query sends off its selector's value. Each takes one number of the knot timeline. -/
def KnotInstructions : Prop :=
  ∀ (s : State) (i : Issuer) (x : Args) (l0 : Nat) (p : Page) (q : Fab), Issues s i → (i.lanes x).head? = some l0 →
    let va := i.gAddr s x (i.lead (i.lanes x) l0)
    let adr := i.operand s x.a true (i.lead (i.lanes x) l0)
    let b := i.operand s x.b false l0
    let numbered := fun (t : State) => (t.strandAt i.yarn.strand).issuedOn 9 = i.strand.issuedOn 9 + 1
    let quiet := fun (t : State) => t.mem = s.mem ∧ t.outbox = s.outbox
    i.g.wait = none → i.g.drained = none → i.yarn.counted = [] → va.toNat % 64 = 0 → va.toNat % 4096 + 1088 ≤ 4096 →
    q.toNat % 4096 = va.toNat % 4096 → adr.lab.toNat ≤ i.ceil → i.bank.floor.toNat ≤ i.ceil →
    (p.cls = 1 → i.yarn.padPending = false) →
    (x.wf .knotInit = true → let w := i.operand s x.b true l0
      badConfig w.val = false → Served s i true false (lmax (i.label [w]) (i.label [adr])) va 1088 p q (origin := true) →
      ∃ t, exec (.knotInit x) s = .next t ∧ GoesOn s t i .knotInit x ∧ NothingComes s t i ∧ numbered t
        ∧ knotAt t q = knotStart w.val ∧ ∀ a, a < q.toNat ∨ q.toNat + 1088 ≤ a → t.mem.byte a = s.mem.byte a)
    ∧ (x.wf .knotPut = true → let c := i.operand s x.c false l0
      let from_ := (List.range i.launch.perYarn).map (fun k => i.laneFrom 0 k)
      let vs := from_.map (i.across s x.b false)
      let out := (knotAt s q).put (leBytes 4 c.val.toNat ++ vs.flatMap (fun v => leBytes 4 v.val.toNat))
        (i.bank.floor.setWidth 8 :: vs.map (fun v => v.lab.setWidth 8))
      bitsAt c.val 22 10 = 0 → i.mustWait x.b false (i.lanes x) from_ = false →
      Served s i true false (lmax (i.label (c :: vs)) (i.label [adr])) va 1088 p q (origin := true) →
      ∃ t, exec (.knotPut x) s = .next t ∧ GoesOn s t i .knotPut x ∧ numbered t
        ∧ Comes s t i x false (fun _ => { val := (out.data.headD 0).setWidth 64, lab := 0 })
        ∧ t.bytesAt q.toNat 1088 = out.knot.bytes ∧ ∀ a, a < q.toNat ∨ q.toNat + 1088 ≤ a → t.mem.byte a = s.mem.byte a)
    ∧ (x.wf .knotTake = true → bitsAt b.val 16 16 = 0 → Served s i false true (lmax i.bank.floor (i.label [adr])) va 1088 p q (origin := true) →
      let k := knotAt s q
      let r : BitVec 16 := b.val.setWidth 16
      (kClosedLab k.desc).toNat ≤ i.ceil →
      ∃ t, exec (.knotTake x) s = .next t ∧ numbered t ∧ quiet t
        ∧ if above r (kClosedTag k.desc) = true then SameFibres i t ∧ ∃ g ∈ (t.yarnAt i.y).groups, ∃ n,
            g.pc = i.g.pc ∧ g.lanes = i.g.lanes ∧ g.wait = some (.knot va r n)
          else GoesOn s t i .knotTake x ∧ Comes s t i x false (fun l =>
            let e := match x.dst with
              | .s _ => 0
              | _ => i.launch.laneNo l
            { val := if e < kM k.desc then (k.pub.getD e 0).setWidth 64 else 0,
              lab := i.label [{ val := 0, lab := kClosedLab k.desc }, adr] }))
    ∧ (x.wf .knotQuery = true → Served s i false true (lmax i.bank.floor (i.label [adr])) va 1088 p q (origin := true) →
      ∃ t, exec (.knotQuery x) s = .next t ∧ numbered t ∧ quiet t ∧ GoesOn s t i .knotQuery x
        ∧ Comes s t i x true (fun _ =>
          { val := BitVec.ofNat 64 (leNat (((knotAt s q).query (b.val.toNat % 2 ^ 32)).data)), lab := 0 }))

/-- R338 to R347. -/
def Obligations.KnotsContributeAndAnswer : Prop := KnotContributions ∧ KnotInstructions

/-! ### System instructions (R352 to R354) -/

/-- A control register's value (R61, R62, R113, R352). -/
def csrValue (i : Issuer) (n : Nat) : Word :=
  if n = 0x000 then i.bank.status
  else if n = 0x001 then i.bank.ssw
  else if n = 0x002 then i.launch.lblcnt
  else if n = 0x003 then (match i.launch.granted with
    | some g => BitVec.ofNat 32 (1 + 2 * g)
    | none => 0)
  else if n = 0x010 then i.bank.xcause
  else if n = 0x011 then i.bank.xindex
  else
    let d := if n / 2 = 0x012 / 2 then i.bank.xpc else if n / 2 = 0x014 / 2 then i.bank.xarg else i.bank.xmask
    if n % 2 = 0 then d.setWidth 32 else d.extractLsb' 32 32

/-- A bank after a control register is written (R61, R113, R352). -/
def csrWritten (i : Issuer) (n : Nat) (w : Word) : Bank :=
  let b := i.bank
  if n = 0x000 then { b with status := b.status &&& ~~~(w &&& 0x7F) }
  else if n = 0x001 then { b with ssw := w }
  else if n = 0x011 then { b with xindex := w &&& 0xF }
  else if n = 0x012 then { b with xpc := b.xpc.extractLsb' 32 32 ++ w }
  else if n = 0x013 then { b with xpc := (w &&& 0x01FFFFFF) ++ b.xpc.setWidth 32 }
  else b

/-- R352: csrr reads and csrw writes the registers of the table; SSW and the trap registers trap PRIV outside handler mode, and any
other number traps ILLEGAL_OP. -/
def Obligations.ControlRegisters : Prop :=
  ∀ (s : State) (i : Issuer) (x : Args) (l0 : Nat), Issues s i → (i.lanes x).head? = some l0 →
    let n := (i.operand s x.a false l0).val.toNat
    let w : Word := (i.operand s x.b false l0).val.setWidth 32
    let handlers := n = 0x001 ∨ (0x010 ≤ n ∧ n ≤ 0x017)
    let reach := n ≤ 0x003 ∨ (0x010 ≤ n ∧ n ≤ 0x017)
    let allowed := reach ∧ (handlers → i.bank.status.getLsbD 15 = true)
    (x.wf .csrr = true → allowed → i.bank.floor.toNat ≤ i.ceil →
      ∃ t, exec (.csrr x) s = .next t ∧ OnlyYarn s t i.y ∧ FibreFrame i .csrr x t ∧ BankFrame i .csrr x t
        ∧ (∀ l ∈ lanesOf i.g.lanes, t.pastIn i l)
        ∧ ∀ l, i.shows x l → t.destVal i x.dst false l = ⟨(csrValue i n).setWidth 64, i.bank.floor⟩)
    ∧ (x.wf .csrw = true → allowed →
      ∃ t, exec (.csrw x) s = .next t ∧ OnlyYarn s t i.y ∧ FibreFrame i .csrw x t
        ∧ { t.bankFor i with flags := 0 } = { csrWritten i n w with flags := 0 } ∧ ∀ l ∈ lanesOf i.g.lanes, t.pastIn i l)
    ∧ (∀ c ∈ [Op.csrr, Op.csrw], x.wf c = true → handlerReady s i →
      (¬ reach → Traps s i (c.mk x) (i.lanes x) 0x10 (fun _ => True) i.g.pc i.g.idx)
      ∧ (handlers → Traps s i (c.mk x) (i.lanes x) 0x12 (fun _ => True) i.g.pc i.g.idx))

/-- R353: lblset raises the floor to the higher of itself and its operand, which must not exceed 3 (ILLEGAL_OP) nor the ceiling
(PRIV). -/
def LabelFloorRises : Prop :=
  ∀ (s : State) (i : Issuer) (x : Args) (l0 : Nat), Issues s i → x.wf .lblset = true → (i.lanes x).head? = some l0 →
    let a := (opA .lblset s i x l0).val.toNat
    (a ≤ 3 → a ≤ i.ceil → ∃ t, exec (.lblset x) s = .next t ∧ OnlyYarn s t i.y ∧ SameFibres i t
      ∧ { t.bankFor i with flags := 0 } = { i.bank with flags := 0, floor := lmax i.bank.floor (BitVec.ofNat 2 a) }
      ∧ ∀ l ∈ lanesOf i.g.lanes, t.pastIn i l)
    ∧ (handlerReady s i → (3 < a → Traps s i (.lblset x) (i.lanes x) 0x10 (fun _ => True) i.g.pc i.g.idx)
      ∧ (a ≤ 3 → i.ceil < a → Traps s i (.lblset x) (i.lanes x) 0x12 (fun _ => True) i.g.pc i.g.idx))

/-- R354: lbldn gives each lane its value, lowered from label 3 to 2, charges 4 bytes for each lowered lane to the launch's grant and
to LBLCNT, and traps PRIV, with nothing lowered, without a grant or beyond its budget. -/
def LabelLoweringIsMetered : Prop :=
  ∀ (s : State) (i : Issuer) (x : Args), Issues s i → x.wf .lbldn = true → i.lanes x ≠ [] →
    let a := fun l => opA .lbldn s i x l
    let n := 4 * ((i.lanes x).filter (fun l => (a l).lab == 3)).length
    let grant := fun (u : State) (k : Nat) => Store.find k (u.func i.launch.fn).grants
    (∀ k G L, i.launch.granted = some k → grant s k = some G → G.used + n ≤ G.budget →
      Store.find i.strand.launch s.launches = some L →
      (∀ l ∈ i.lanes x, (a l).lab ≠ 3 → (lmax (a l).lab i.bank.floor).toNat ≤ i.ceil) → 2 ≤ i.ceil →
      ∃ t, exec (.lbldn x) s = .next t ∧ FibreFrame i .lbldn x t ∧ BankFrame i .lbldn x t
        ∧ (∀ l ∈ lanesOf i.g.lanes, t.pastIn i l)
        ∧ (∀ l, i.shows x l → t.destVal i x.dst false l =
          ⟨(a l).val, if (a l).lab = 3 then 2 else lmax (a l).lab i.bank.floor⟩)
        ∧ { t with yarns := s.yarns, funcs := s.funcs, launches := s.launches } = s
        ∧ grant t k = some { G with used := G.used + n } ∧ (∀ j, j ≠ k → grant t j = grant s j)
        ∧ Store.find i.strand.launch t.launches = some { L with lblcnt := L.lblcnt + BitVec.ofNat 32 n })
    ∧ (handlerReady s i →
      (i.launch.granted = none ∨ ∃ k G, i.launch.granted = some k ∧ grant s k = some G ∧ G.budget < G.used + n) →
      Traps s i (.lbldn x) (i.lanes x) 0x12 (fun _ => True) i.g.pc i.g.idx)

/-- R353 and R354. -/
def Obligations.LabelsRiseAndLower : Prop := LabelFloorRises ∧ LabelLoweringIsMetered

/-! ### The start of a clause (R23 to R31, R101 to R103, R374) -/

/-- A word of code, as a group reads it (R374). -/
def codeAt (s : State) (i : Issuer) (a : Nat) : Option Word :=
  match s.codeWord (.fetch i.y i.g.id) i.launch.fn i.ceil i.yarn.elig a with
  | .ok w => some w
  | _ => none

/-- A clause stands at a group's header and can be read: header, instruction words, padding word (R23, R24). -/
structure ReadsClause (s : State) (i : Issuer) (c : Clause) (pad : Word) : Prop where
  words : ∀ k w, (c.w0 :: c.w1 :: c.code.flatten)[k]? = some w → codeAt s i (i.g.pc.toNat + 4 * k) = some w
  signed : headerSigned c.w0 = true
  count : c.code.length = headerCount c.w0
  each : ∀ ws ∈ c.code, ws.length = wordCount (ws.headD 0)
  next : c.next = BitVec.ofNat 57 ((i.g.pc.toNat + 8 + 4 * c.code.flatten.length + 7) / 8 * 8)
  pad : if (i.g.pc.toNat + 8 + 4 * c.code.flatten.length) % 8 = 0 then pad = 0
    else codeAt s i (i.g.pc.toNat + 8 + 4 * c.code.flatten.length) = some pad

/-- A group's turn has come at its header: it may move, no earlier group of its yarn or fray is before it (R102), and no
other group stands there. -/
structure AtHeader (s : State) (y g : Nat) (i : Issuer) : Prop where
  issuer : s.issuerOf y g = some i
  lanes : i.g.lanes ≠ 0
  alive : ∃ l, (i.yarn.lane l).active = true
  may : i.yarn.mayMove i.g = true
  next : i.yarn.nextUp i.g = true
  placed : i.strand.place.isSome = true
  alone : ∀ h ∈ i.yarn.groups, h.id ≠ g → h.pc ≠ i.g.pc
  fetches : ∀ b ∈ s.bufs, b.who ≠ .fetch y g
  entry : ∀ e, i.g.fray = some e → (Store.find e i.yarn.frays).isSome = true

/-- A group with the same lanes stands in a clause in some phase. -/
def inClause (t : State) (i : Issuer) (c : Clause) (p : Phase) (q : Group → Prop := fun _ => True) : Prop :=
  ∃ h ∈ (t.yarnAt i.y).groups, h.id = i.g.id ∧ h.lanes = i.g.lanes ∧ h.pc = i.g.pc ∧ h.clause = c ∧ h.phase = p ∧ q h

/-- Nothing of the state differs but one yarn's record and, on its core, which clauses the quadrants are inside. -/
def OnlyYarnAndQuad (s t : State) (i : Issuer) : Prop :=
  { t with yarns := s.yarns, cores := s.cores } = s ∧ (∀ z, z ≠ i.y → Store.find z t.yarns = Store.find z s.yarns)
    ∧ ∀ k, { t.coreAt k with quads := (s.coreAt k).quads } = s.coreAt k
      ∧ (k ≠ i.strand.core → (t.coreAt k).quads = (s.coreAt k).quads)

/-- Every flag that covers an instruction of a clause from n on is set (R26, R27). -/
def flagsUp (b : Bank) (c : Clause) (n : Nat) : Prop :=
  ∀ f m, f < 12 → n ≤ m → m < c.code.length → coverFlag c m = some f → b.flags.getLsbD f = true

/-- It issues instruction n next, in the lanes whose clause guard is true, with the flags set that cover what is left (R27
steps 4 and 5, R28, R116), and its quadrant is inside its clause (R102). -/
def goesIn (t : State) (i : Issuer) (c : Clause) (n : Nat) : Prop :=
  flagsUp (t.bankFor i) c n ∧
  (∀ q, i.yarn.slot = some q → Store.find (q / 12) (t.coreAt i.strand.core).quads = some (i.y, i.g.id)) ∧
  inClause t i c .issue fun h => h.idx = n ∧ h.wait = none
    ∧ ∀ l, l < 64 → h.gmask.getLsbD l = (i.g.lanes.getLsbD l && (i.yarn.lane l).guarded (headerGuard c.w1))

/-- R27, R30, R31, R102, R103, R110, R374: a group whose turn has come reads its clause and checks it; at a rejoin clause it
waits for the yarn's other fibres, and a fray that starts one ends; then it waits for the flags the header names; then it sets
X and Y, whether it had to wait or not, and issues instruction 0; one that a handler's return resumes inside the clause sets
those that cover what is left. A failed check traps, and words that cannot be read make the group a fray of index 8. -/
def Obligations.ClauseStarts : Prop :=
  ∀ (s : State) (y g : Nat) (i : Issuer), AtHeader s y g i →
    (i.g.phase = .header → ∀ c pad, ReadsClause s i c pad → clauseCheck c.w0 c.w1 c.code pad = none →
      (headerRejoin c.w0 = true → i.g.fray = none ∧ i.yarn.frays = []) →
      ∃ t, exec (.clauseStart y g) s = .next t ∧ OnlyYarnAndQuad s t i ∧ SameFibres i t
        ∧ if headerRejoin c.w0 = true ∧ i.yarn.rejoinHeld i.g = true then inClause t i c .rejoin
          else if i.bank.flags &&& c.named ≠ 0 then inClause t i c .flags
          else goesIn t i c 0 ∧ ∀ f, headerX c.w0 = some f ∨ headerY c.w0 = some f → (t.bankFor i).flags.getLsbD f = true)
    ∧ (∀ e f c pad, i.g.phase = .header → i.g.fray = some e → Store.find e i.yarn.frays = some f → ReadsClause s i c pad →
      clauseCheck c.w0 c.w1 c.code pad = none → headerRejoin c.w0 = true →
      ∃ t, exec (.clauseStart y g) s = .next t ∧ OnlyYarnAndQuad s t i ∧ SameFibres i t
        ∧ Store.find e (t.yarnAt y).frays = none ∧ (∀ h ∈ (t.yarnAt y).groups, h.fray ≠ some e)
        ∧ f.bank.status &&& 0x7F &&& ~~~(t.yarnAt y).bank.status = 0)
    ∧ (∀ n c pad, i.g.phase = .resume n → ReadsClause s i c pad → clauseCheck c.w0 c.w1 c.code pad = none →
      ∃ t, exec (.clauseStart y g) s = .next t ∧ OnlyYarnAndQuad s t i ∧ SameFibres i t ∧ goesIn t i c n.toNat)
    ∧ (i.g.phase = .flags → i.bank.flags &&& i.g.clause.named = 0 →
      ∃ t, exec (.clauseStart y g) s = .next t ∧ OnlyYarnAndQuad s t i ∧ SameFibres i t ∧ goesIn t i i.g.clause 0
        ∧ ∀ pad, clauseCheck i.g.clause.w0 i.g.clause.w1 i.g.clause.code pad = none → ∀ f,
          headerX i.g.clause.w0 = some f ∨ headerY i.g.clause.w0 = some f → (t.bankFor i).flags.getLsbD f = true)
    ∧ (i.g.phase = .rejoin → i.g.fray = none → i.yarn.rejoinHeld i.g = false →
      ∃ t, exec (.rejoinWaitEnd y g) s = .next t ∧ OnlyYarn s t y ∧ SameFibres i t ∧ inClause t i i.g.clause .flags)
    ∧ (i.g.phase = .header → handlerReady s i →
      (∀ w0 w1, codeAt s i i.g.pc.toNat = some w0 → codeAt s i (i.g.pc.toNat + 4) = some w1 → headerSigned w0 = false →
        Traps s i (.clauseStart y g) (lanesOf i.g.lanes) 0x10 (fun v => v = 8) i.g.pc 8)
      ∧ ∀ c pad n r, ReadsClause s i c pad → clauseCheck c.w0 c.w1 c.code pad = some (n, r) →
        Traps s i (.clauseStart y g) (lanesOf i.g.lanes) (if r = .reservedField then 0x11 else 0x10)
          (fun v => v = BitVec.ofNat 64 n) i.g.pc 8)
    ∧ (∀ c a e es, i.g.phase = .header → i.bank.handler = false → s.freeEntries i.strand.core = e :: es → repairable c = true →
      s.codeWord (.fetch y g) i.launch.fn i.ceil i.yarn.elig i.g.pc.toNat = .fault c a →
      ∃ t f, exec (.clauseStart y g) s = .next t ∧ Store.find e (t.yarnAt y).frays = some f
        ∧ f.lanes = i.g.lanes ∧ f.pc = i.g.pc ∧ f.index = 8 ∧ f.cause = c ∧ f.state = .parked
        ∧ (∀ l, i.g.lanes.getLsbD l = true → (t.fibre y l).parked = true) ∧ t.mem = s.mem)

/-! ### Results, answers and wakes that arrive (R26, R153, R223 to R226, R245, R254, R265, R324, R347) -/

/-- A register once some writes have landed, the last of them standing. -/
def landed (ws : List (Nat × Nat × RegVal)) (v : Lane) (l n : Nat) : RegVal :=
  ((ws.filter (fun w => decide (w.1 = l ∧ w.2.1 = n))).getLast?.map (·.2.2)).getD (v.reg n)

/-- An accumulator slot of the core a strand stands on. -/
def accSlot (s : State) (x k : Nat) : Slot := (s.coreAt (s.strandAt x).core).slot k

/-- A fibre's registers hold what has landed, and it has not changed otherwise. -/
def Lands (s t : State) (y : Nat) (ws : List (Nat × Nat × RegVal)) : Prop :=
  ∀ l, { t.fibre y l with regs := [] } = { s.fibre y l with regs := [] }
    ∧ ∀ n, (t.fibre y l).reg n = if (s.fibre y l).active then landed ws (s.fibre y l) l n else (s.fibre y l).reg n

/-- What an accumulator instruction does when it completes (R223 to R226): element stores and zeroing to its slot, whose check
they clear; a load or a check to registers; a tile to or from scratchpad, with its labels. -/
def accDone (s t : State) (y x : Nat) (kept : List (Nat × Nat × RegVal) → List (Nat × Nat × RegVal)) : PendAct → Prop
  | .none => True
  | .accLd n d els fl => Lands s t y (kept (els.map (fun e =>
      (e.1, d, ⟨Store.get 0 e.2.1 (accSlot s x n).acc, lmax (lmax (accSlot s x n).lab e.2.2) fl⟩))))
  | .accSt n els => (∀ e, Store.get 0 e (accSlot t x n).acc =
        ((els.filter (fun v => decide (v.1 = e))).getLast?.map (·.2.val)).getD (Store.get 0 e (accSlot s x n).acc))
      ∧ (accSlot t x n).ckLive = false ∧ ∀ m, m ≠ n → accSlot t x m = accSlot s x m
  | .accZero n fl => accSlot t x n = { lab := fl } ∧ ∀ m, m ≠ n → accSlot t x m = accSlot s x m
  | .accOut n z o => (∀ e, e < 16384 → leNat ((t.strandAt z).padRead (o + 4 * e) 4) = (Store.get 0 e (accSlot s x n).acc).toNat)
      ∧ ∀ b, b < 8192 → o % 8 = 0 → (t.strandAt z).unitLabel (o + 8 * b) = (accSlot s x n).lab
  | .accIn n z o _ => (∀ e, e < 16384 → (Store.get 0 e (accSlot t x n).acc).toNat = leNat ((s.strandAt z).padRead (o + 4 * e) 4))
      ∧ (accSlot t x n).ckLive = false ∧ ∀ m, m ≠ n → accSlot t x m = accSlot s x m
  | .mmchk n h d m => Lands s t y (kept ((lanesOf m).map (fun l =>
      (l, d, if (accSlot s x n).ckLive then ⟨Store.get 0 (64 * h + l) (accSlot s x n).ck, (accSlot s x n).lab⟩ else {}))))

/-- R26, R223 to R226: a long-latency instruction that may complete does: its results land in the fibres still active and in its
scalars, and its flag is free once nothing else it covers is left. A result whose label is above the launch's ceiling does not
land, and a slot or scratchpad takes none (R349, log 30). -/
def Obligations.ResultsArrive : Prop :=
  ∀ (s : State) (y k : Nat) (v : Yarn) (p : Pend), Store.find y s.yarns = some v → v.pend[k]? = some p →
    let ceil := (s.launchOf (s.strandAt v.strand)).ceil
    let kept := fun (ws : List (Nat × Nat × RegVal)) => ws.filter (fun w => decide (w.2.2.lab.toNat ≤ ceil))
    s.mayComplete v.strand p = true → v.padTurn k = true → p.knot = none → (∃ l, (v.lane l).active = true) →
    v.tidy.pend = v.pend →
    ∃ t, exec (.longLatencyComplete y k) s = .next t ∧ (t.yarnAt y).pend = v.pend.eraseIdx k
      ∧ (∀ z, z ≠ y → Store.find z t.yarns = Store.find z s.yarns) ∧ t.mem = s.mem ∧ t.launches = s.launches
      ∧ (p.act = .none → OnlyYarn s t y ∧ Lands s t y (kept p.writes))
      ∧ (p.writes = [] → if ceil < (s.accLabel v.strand p.act).toNat then OnlyYarn s t y
          else accDone s t y v.strand kept p.act)
      ∧ (p.fray = none → ∀ n, (t.yarnAt y).bank.scalar n =
        ((p.swrites.filter (fun w => decide (w.1 = n))).getLast?.map Prod.snd).getD (v.bank.scalar n))
      ∧ ∀ f, f < 12 → p.flag = some f → p.fray = none → v.bank.flags.getLsbD f = true →
        (t.yarnAt y).bank.flags.getLsbD f = ((v.pend.eraseIdx k).any (fun q => decide (q.fray = none ∧ q.flag = some f))
          || v.groups.any (fun g => decide (g.fray = none ∧ g.lanes ≠ 0) && g.covers f))

/-- How a part of a lane's access stands. -/
def partStands (t : State) (y g l p : Nat) : Option PartState :=
  match Store.find y t.yarns with
  | some v => match v.group g with
    | some { wait := some (.accept a), .. } => ((a.lanes.find? (·.lane == l)).bind (·.parts[p]?)).map Prod.snd
    | _ => none
  | none => none

/-- What answers and acknowledgements leave alone: memory but for the marks monitors go by, strands, launches, cores and the
registers of every fibre. -/
def AnswerFrame (s t : State) : Prop :=
  { t.mem with stamps := s.mem.stamps } = s.mem ∧ t.strands = s.strands ∧ t.cores = s.cores ∧ ∀ y l, t.fibre y l = s.fibre y l

/-- R245, R254, R265, R324: a holder's answer ends the wait of the part it is for, with the bytes or the cause, or, of a write
that is only checked, tells that it may go ahead (log 32); an accepted write is counted, a STRONG one kept until its
acknowledgement; bytes read for the package wait for their reader, and a relayed request's answer goes back. A write whose checks
have passed and whose holder is lost fails no lane: it is counted as lost, and what it reads is a free value (log 32). An
acknowledgement takes a write from the counters, ends the wait of a STRONG one, marks an engine's as visible, or goes back to who
relayed it. Either, where it names a past incarnation of its sender or another of this package, is dropped and counted (R263). -/
def Obligations.AnswersArrive : Prop :=
  (∀ (s : State) (r : Nat) (ans : Answer), s.stale ans.src ans.srcInc = true ∨ ans.dstInc ≠ s.inc →
    exec (.requestAccepted r ans) s = .next { s with packetsDropped := s.packetsDropped + 1 })
  ∧ (∀ (s : State) (a : Ack), s.stale a.src a.srcInc = true ∨ a.dstInc ≠ s.inc →
    exec (.writeAcknowledged a) s = .next { s with packetsDropped := s.packetsDropped + 1 })
  ∧ (∀ (s : State) (r : Nat) (o : OutReq) (ans : Answer), Store.find r s.reqs = some o → o.accepted = false → o.passed = false → o.hold = .none →
    s.incOf ans.src = some ans.srcInc → ans.dstInc = s.inc → o.req.stage ≠ .go ∨ ans.ok = true ∨ ans.cause = 0x06 →
    ∃ t, exec (.requestAccepted r ans) s = .next t ∧ AnswerFrame s t ∧ t.launches = s.launches
      ∧ (s.inPod o.dst = false → Store.get 0 o.dst.toNat t.loads = ans.load)
      ∧ (∀ y g l p part, o.who = .lane y g l p → s.partOfReq r y g l p = some part →
        (∀ b ∈ s.bufs, b.req ≠ r) →
        (ans.ok = false → o.req.stage = .go → Store.find r t.reqs = none
          ∧ (t.func o.fn).tele.lost = (s.func o.fn).tele.lost + 1
          ∧ ∃ bs, bs.length = part.len ∧ partStands t y g l p = some (.got bs 0))
        ∧ (ans.ok = false → o.req.stage ≠ .go → Store.find r t.reqs = none ∧ partStands t y g l p = some (.fault ans.cause
          (if virtualCause ans.cause then part.page.va else part.page.fab.setWidth 64)))
        ∧ (ans.ok = true → o.req.stage = .ask →
          Store.find r t.reqs = some { o with passed := true } ∧ partStands t y g l p = some (.passed o.dst o.req))
        ∧ (ans.ok = true → o.req.stage ≠ .ask → o.req.strong = true → reqWrites o.req = true →
          Store.find r t.reqs = some { o with accepted := true } ∧ partStands t y g l p = some (.taken ans.data ans.label))
        ∧ (ans.ok = true → o.req.stage ≠ .ask → o.req.strong = false ∨ reqWrites o.req = false →
          Store.find r t.reqs = none ∧ partStands t y g l p = some (.got ans.data ans.label)
            ∧ ∃ G, (s.yarnAt y).group g = some G ∧ (t.yarnAt y).counted = (s.yarnAt y).counted ++ (if reqWrites o.req then
              [{ id := r, ordered := decide (part.page.cls ≠ 2), here := false, dst := o.dst, addr := part.page.fab,
                 va := part.page.va, pc := G.pc, idx := G.idx, strand := (s.yarnAt y).strand }] else [])))
      ∧ (∀ src id, o.who = .relay src id →
        Msg.answer src id { ans with src := s.peer, srcInc := s.inc, dstInc := (s.incOf src).getD 0 } ∈ t.outbox)
      ∧ ((∀ y g l p, o.who ≠ .lane y g l p) → (∀ src id, o.who ≠ .relay src id) →
        Store.find r t.reqs = (if reqWrites o.req = true ∧ ans.ok = true then some { o with accepted := true } else none)
        ∧ ∀ b ∈ s.bufs, b.req = r → b.ans = none → { b with ans := some ans } ∈ t.bufs))
  ∧ ∀ (s : State) (a : Ack), s.incOf a.src = some a.srcInc → a.dstInc = s.inc →
    let r := a.id
    (Store.find r s.reqs = none →
      ∃ t, exec (.writeAcknowledged a) s = .next t ∧ { t with yarns := s.yarns, launches := s.launches } = s
        ∧ (∀ y l, t.fibre y l = s.fibre y l)
        ∧ (∀ y, (t.yarnAt y).counted = (s.yarnAt y).counted.filter (fun k => decide (k.id ≠ r)))
        ∧ ∀ l, Store.find l t.launches = (Store.find l s.launches).map (fun L =>
          { L with unacked := L.unacked.filter (fun k => decide (k.id ≠ r)) }))
    ∧ ∀ o, Store.find r s.reqs = some o → o.accepted = true →
      ∃ t, exec (.writeAcknowledged a) s = .next t ∧ AnswerFrame s t ∧ Store.find r t.reqs = none
        ∧ (∀ y g l p d lab, o.who = .lane y g l p → partStands s y g l p = some (.taken d lab) →
          partStands t y g l p = some (.got d lab))
        ∧ (∀ src id, o.who = .relay src id → t.outbox = s.outbox
          ++ [.acked src { id := id, src := s.peer, srcInc := s.inc, dstInc := (s.incOf src).getD 0 }])
        ∧ ((∀ y g l p, o.who ≠ .lane y g l p) → (∀ src id, o.who ≠ .relay src id) →
          ∀ b ∈ s.bufs, b.req = r → b.write = true → { b with acked := true } ∈ t.bufs)

/-- R153: a waiting monitor whose block was written, whose cycle limit has passed, or that wakes without a write, notes its reason,
0, 2 or 4; one that was restored reads its scratchpad bytes anew and notes 1 where they differ. Nothing else changes. -/
def MonitorsWake : Prop :=
  ∀ (s : State) (y l : Nat) (v : Yarn) (m : Monitor), Store.find y s.yarns = some v → v.slot.isSome = true →
    (v.lane l).monitor = some m →
    (m.reread = true → m.glob = false → (∀ b ∈ s.bufs, b.who ≠ .monitor y l) →
      let now := leNat ((s.strandAt m.place).padRead m.addr.toNat m.width)
      let kept : Monitor := { m with reread := false, seen := Store.get 0 (m.addr.toNat / 64) (s.strandAt m.place).padStamp }
      let after := if now = m.value.toNat % 2 ^ (8 * m.width) then kept else { kept with woken := some 1 }
      ∃ t, exec (.monitorWake y l) s = .next t ∧ OnlyYarn s t y ∧ (∀ k, k ≠ l → t.fibre y k = v.lane k)
        ∧ t.fibre y l = { v.lane l with monitor := some after }) ∧
    (m.reread = false → m.woken = none → ∀ since, m.since = some since →
    let wakes := fun (e : Instr) (why : Word) => ∃ t, exec e s = .next t ∧ OnlyYarn s t y
      ∧ t.fibre y l = { v.lane l with monitor := some { m with woken := some why } }
      ∧ ∀ k, k ≠ l → t.fibre y k = v.lane k
    ((m.glob = false → Store.get 0 (m.addr.toNat / 64) (s.strandAt m.place).padStamp ≠ m.seen → wakes (.monitorWake y l) 0)
      ∧ (m.glob = true → Store.get 0 (m.place / 64) s.mem.stamps ≠ m.seen → wakes (.monitorWake y l) 0))
    ∧ (m.limit ≠ 0 → m.limit ≤ elapsed (s.cycles (s.strandAt v.strand).core) since → wakes (.mwaitLimit y l) 2)
    ∧ wakes (.wakeThatNamesNoWrite y l) 4)

/-- R152 and R153. -/
def Obligations.MonitorsArmWaitAndWake : Prop := MonitorsArm ∧ MonitorWaits ∧ MonitorsWake

/-! ### Holders and ownership (R244 step 7, R245, R248, R250, R263, R264, R307, R326, R357, R364) -/

/-- A request of another package is this package's to answer: no incarnation is past (R263), its extent is not revoked (R326), and
the prefix it names is held here, its byte of backing being q (R307). -/
structure Holds (s : State) (r : Request) (q : Nat) : Prop where
  srcInc : s.incOf r.src = some r.srcInc
  dstInc : r.dstInc = s.inc
  allowed : s.isRevoked r = false
  served : s.servedAt r = some q
  noWindow : s.inSeal (BitVec.ofNat 57 q) = false

/-- Nothing holds it back: no scrub, no owner elsewhere, and its response's label-2 units are admitted (R264, R357, R364). -/
def freeToServe (s : State) (q n : Nat) : Prop :=
  s.scrubHeld (BitVec.ofNat 57 q) = false ∧ s.ownedAway q = false
    ∧ (n = 0 ∨ ∃ f, s.meteredBy q = some f ∧ s.admits f n = true)

/-- Nothing of the state differs but memory, what is held back or checked, meters and what has left. -/
def HolderFrame (s t : State) : Prop :=
  { t with mem := s.mem, held := s.held, checked := s.checked, funcs := s.funcs, tolls := s.tolls, outbox := s.outbox } = s

/-- A request is due at byte q: it comes whole and may be read and written there, or it was checked there before and is now told
to go ahead, as writes of several parts are (log 32). -/
def dueAt (s : State) (r : Request) (q : Nat) : Prop :=
  (r.stage = .whole ∧ Holds s r q ∧ (reqReads r = true → s.mem.label q ≠ 3 ∧ s.mem.poisoned q = false))
    ∨ (r.stage = .go ∧ s.incOf r.src = some r.srcInc ∧ r.dstInc = s.inc
      ∧ (s.checked.find? (fun t => decide (t.req.src = r.src) && decide (t.req.id = r.id))).map (·.at_) = some q)

/-- R244 step 7, R245, R248, R250, R307, R326: a holder answers a load with its bytes, performs a store, an atomic or a reduction and
acknowledges it, and refuses with the cause where the extent is revoked, the prefix is not held, or the line may not be read; a
line under scrub or owned elsewhere holds the request back, the owner being recalled. A request that only asks is answered with
no effect, and remembered. The order of the refusals, and that a request may only ask, are the model's choices (logs 34
and 32). -/
def HoldersServe : Prop :=
  ∀ (s : State) (r : Request) (q : Nat), r.kind ≠ .knot → (r.owned && reqWrites r) = false →
    let answers := fun (t : State) (a : Answer) (more : List Msg) =>
      ∃ L, t.outbox = s.outbox
        ++ Msg.answer r.src r.id { a with load := L, src := s.peer, srcInc := s.inc, dstInc := r.srcInc } :: more
    let acked := Msg.acked r.src { id := r.id, src := s.peer, srcInc := s.inc, dstInc := r.srcInc }
    let bytes := s.bytesAt q r.width
    let readable := s.mem.label q ≠ 3 ∧ s.mem.poisoned q = false
    (dueAt s r q → freeToServe s q (s.unitsAway r q) →
      (r.kind = .load → ∃ t, exec (.holderRequest r) s = .next t ∧ HolderFrame s t ∧ t.mem = s.mem
        ∧ answers t { data := bytes } [])
      ∧ (r.kind = .store → r.data ≠ [] → ∃ t, exec (.holderRequest r) s = .next t ∧ HolderFrame s t
        ∧ answers t {} [acked]
        ∧ (∀ a, t.mem.byte a = if q ≤ a ∧ a < q + r.data.length then r.data.getD (a - q) 0 else s.mem.byte a)
        ∧ t.mem.label q = r.label ∧ (r.whole = true → t.mem.poisoned q = false)
        ∧ ∀ a, a / 4096 ≠ q / 4096 → t.mem.label a = s.mem.label a)
      ∧ (r.kind = .atom ∨ r.kind = .red → r.width = 4 ∨ r.width = 8 → tyBits r.ty = 8 * r.width →
        let w := tyBits r.ty
        let new := newValue r.op r.ty (BitVec.ofNat w (leNat bytes)) (BitVec.ofNat w (leNat r.data)) (BitVec.ofNat w (leNat r.data2))
        ∃ t, exec (.holderRequest r) s = .next t ∧ HolderFrame s t
          ∧ answers t { data := if r.kind = .atom then bytes else [] } [acked]
          ∧ ∀ a, t.mem.byte a = if q ≤ a ∧ a < q + r.width then elemBits 8 (a - q) (new.setWidth 64) else s.mem.byte a))
    ∧ (s.incOf r.src = some r.srcInc → r.dstInc = s.inc → r.stage = .whole ∨ r.stage = .ask →
      let refuses := fun (c : Byte) => ∃ t, exec (.holderRequest r) s = .next t ∧ HolderFrame s t ∧ t.mem = s.mem
        ∧ answers t { ok := false, cause := c } []
      (s.isRevoked r = true → refuses 0x07)
      ∧ (s.isRevoked r = false → s.servedAt r = none → s.hasStub r = false → refuses 0x08)
      ∧ (Holds s r q → s.scrubHeld (BitVec.ofNat 57 q) = false → reqReads r = true → (s.mem.label q = 3 → refuses 0x02)
        ∧ (s.mem.label q ≠ 3 → s.mem.poisoned q = true → refuses 0x05)))
    ∧ (Holds s r q → r.stage = .ask → s.scrubHeld (BitVec.ofNat 57 q) = false → (reqReads r = true → readable) →
      ∃ t, exec (.holderRequest r) s = .next t ∧ HolderFrame s t ∧ t.mem = s.mem ∧ answers t {} []
        ∧ t.checked = s.checked ++ [⟨r, q⟩])
    ∧ (Holds s r q → r.stage = .whole → (reqReads r = true → readable) →
      let waits := fun (why : Hold) (out : List Msg) => ∃ t, exec (.holderRequest r) s = .next t ∧ t.mem = s.mem
        ∧ { req := r, hold := why } ∈ t.held ∧ t.outbox = s.outbox ++ out
      (s.scrubHeld (BitVec.ofNat 57 q) = true → waits .scrub [])
      ∧ ∀ o, s.scrubHeld (BitVec.ofNat 57 q) = false → Store.find (q / 64) s.owners = some o →
        waits .line (if s.recalling.contains (q / 64) then [] else [.recall o.1 (s.packetTo o.1) o.2]))

/-- A packet of another package names current incarnations (R263). -/
def current (s : State) (p : Packet) : Prop := s.incOf p.src = some p.srcInc ∧ p.dstInc = s.inc

/-- R264: a request for ownership is granted with the line's bytes; one for a line that another package owns has it recalled, and
waits to be served at the origin's memory side; a recalled owner writes its line back and gives it up, and one whose grant is
still under way keeps the recall until it comes; a line
written back takes its bytes, with the label of what was written to it, and is free once it is released; and a granted line is
owned here, the request that asked for it going on here. -/
def OwnershipMoves : Prop :=
  (∀ (s : State) (r : Request) (q : Nat), r.kind ≠ .knot → r.owned = true → reqWrites r = true → Holds s r q →
    r.stage = .whole ∨ r.stage = .ask → peerOf (BitVec.ofNat 57 q) = s.peer →
    s.mem.label q ≠ 3 → s.mem.poisoned q = false → freeToServe s q (if s.mem.label q = 2 then 2 else 0) →
    let line : Fab := BitVec.ofNat 57 (r.addr.toNat / 64 * 64)
    ∃ t, exec (.ownershipRequest r) s = .next t
      ∧ { t with owners := s.owners, held := s.held, checked := s.checked, funcs := s.funcs, tolls := s.tolls,
                 outbox := s.outbox } = s
      ∧ Store.find (q / 64) t.owners = some (r.src, line) ∧ (∀ k, k ≠ q / 64 → Store.find k t.owners = Store.find k s.owners)
      ∧ t.outbox = s.outbox ++ [.grant r.src (s.packetTo r.src) { line := line, data := s.bytesAt (q / 64 * 64) 64,
                                                                                   lab := some (s.mem.label q) }])
  ∧ (∀ (s : State) (r : Request) (q : Nat) (o : Peer × Fab), r.kind ≠ .knot → r.owned = true → reqWrites r = true → Holds s r q →
    r.stage = .whole ∨ r.stage = .ask → peerOf (BitVec.ofNat 57 q) = s.peer → s.mem.label q ≠ 3 → s.mem.poisoned q = false →
    s.scrubHeld (BitVec.ofNat 57 q) = false → Store.find (q / 64) s.owners = some o → o.1 ≠ r.src →
    ∃ t, exec (.ownershipRequest r) s = .next t ∧ t.mem = s.mem ∧ t.owners = s.owners
      ∧ { req := { r with owned := false }, hold := .line } ∈ t.held
      ∧ t.outbox = s.outbox ++ (if s.recalling.contains (q / 64) then [] else [.recall o.1 (s.packetTo o.1) o.2]))
  ∧ (∀ (s : State) (p : Packet) (line : Fab) (o : Owned), current s p → Store.find (line.toNat / 64) s.ownedHere = some o →
    (o.hot = true → s.admits o.fn 2 = true) →
    ∃ t, exec (.recall p line) s = .next t
      ∧ { t with ownedHere := s.ownedHere, outbox := s.outbox, funcs := s.funcs, tolls := s.tolls } = s
      ∧ (∀ k, Store.find k t.ownedHere = if k = line.toNat / 64 then none else Store.find k s.ownedHere)
      ∧ t.outbox = s.outbox ++ [.writeBack o.origin (s.packetTo o.origin) ⟨line, o.bytes, o.lab⟩ true])
  ∧ (∀ (s : State) (p : Packet) (line : Fab), current s p → Store.find (line.toNat / 64) s.ownedHere = none →
    exec (.recall p line) s = .next (if s.grantDue (line.toNat / 64) p.src then { s with inputs := s.inputs ++ [.recall p line] } else s))
  ∧ (∀ (s : State) (p : Packet) (line : Fab) (data : List Byte) (release : Bool) (lab : Option Label) (k : Nat), current s p →
    s.owners.find? (fun c => decide (c.2.2 = line) && decide (c.2.1 = p.src)) = some (k, p.src, line) → data.length = 64 →
    ∃ t, exec (.writeBack p ⟨line, data, lab⟩ release) s = .next t
      ∧ { t with mem := s.mem, owners := s.owners, recalling := s.recalling, outbox := s.outbox } = s
      ∧ (∀ a, t.mem.byte a = if lab ≠ none ∧ a / 64 = k then data.getD (a % 64) 0 else s.mem.byte a)
      ∧ (∀ a, t.mem.label a = match lab with
        | some l => if a / 4096 = 64 * k / 4096 then l else s.mem.label a
        | none => s.mem.label a)
      ∧ t.outbox = s.outbox ++ (match p.ack with
        | some n => [.acked p.src { id := n, src := s.peer, srcInc := s.inc, dstInc := p.srcInc }]
        | none => [])
      ∧ if release then (∀ j, Store.find j t.owners = if j = k then none else Store.find j s.owners) ∧ k ∉ t.recalling
        else t.owners = s.owners ∧ t.recalling = s.recalling)
  ∧ ∀ (s : State) (p : Packet) (line : Fab) (data : List Byte) (lab : Option Label) (r : Nat) (o : OutReq) (y g l n : Nat), current s p →
    s.reqs.filter (fun c => c.2.byOwner (line.toNat / 64)) = [(r, o)] → data.length = 64 →
    o.who = .lane y g l n → (s.partOfReq r y g l n).isSome = true → partStands s y g l n = some .sent →
    (∀ b ∈ s.bufs, b.req ≠ r) →
    ∃ t, exec (.ownershipGrant p ⟨line, data, lab⟩) s = .next t ∧ t.mem = s.mem ∧ (∀ z k, t.fibre z k = s.fibre z k)
      ∧ (∀ k, Store.find k t.ownedHere =
        if k = line.toNat / 64 then some { bytes := data, origin := p.src, carried := lab.getD 0 } else Store.find k s.ownedHere)
      ∧ Store.find r t.reqs = none ∧ partStands t y g l n = some .line

/-- The package as a holder, and ownership of its lines. The order of a holder's refusals is log 34's reading, and requests that
only ask whether their checks pass are log 32's. -/
def Obligations.HoldersServeAndOwnershipMoves : Prop := HoldersServe ∧ OwnershipMoves

/-! ### Queues (R155 to R164) -/

/-- What packets leave alone: yarns, strands, cores, and every queue but their own. -/
def QueueFrame (s t : State) (fn q : Nat) : Prop :=
  t.yarns = s.yarns ∧ t.strands = s.strands ∧ t.cores = s.cores
    ∧ ∀ f k, (f, k) ≠ (fn, q) → t.queue f k = s.queue f k

/-- A signal address whose 64-bit word stands in this package's memory, at byte q, with no write of a unit under way there. -/
def signalPlace (s : State) (fn ceil sig q : Nat) : Prop :=
  sig ≠ 0 ∧ sig % 8 = 0 ∧ s.awayIn q 8 = none ∧ (∀ b ∈ s.bufs, b.write = true → b.va ≠ BitVec.ofNat 64 sig) ∧ ∃ p f pfx len d,
    s.judge { fn := fn, ceil := ceil, write := true, wlab := 0 } (BitVec.ofNat 64 sig) = .ok (p, .here f pfx len, d)
      ∧ f.toNat = q ∧ s.scrubHeld f = false

/-- Its word takes a value, and no other byte of memory changes (R164). -/
def Signals (s t : State) (q v : Nat) : Prop :=
  leNat (t.mem.read q 8) = v ∧ ∀ a, a < q ∨ q + 8 ≤ a → t.mem.byte a = s.mem.byte a

/-- Where a packet's signal goes: nowhere for an address of 0, else to its word. -/
def Completes (s t : State) (fn sig : Nat) (ok : Nat → Prop) : Prop :=
  (sig = 0 → t.mem = s.mem) ∧ ∀ q, signalPlace s fn 3 sig q → ∃ v, ok v ∧ Signals s t q v

/-- R156: QNOTIFY takes the write index, unless it is past the ring: then the error bit is set. QCTL takes the size, enable and cap
bits written; a 1 written to the error bit clears it. -/
def QueueRegisters : Prop :=
  ∀ (s : State) (fn q : Nat) (w : Word), fn < 8 → q < 64 →
    let v := s.queue fn q
    (s.booted = true → ∃ t, exec (.qnotifyWrite fn q w) s = .next t ∧ { t with funcs := s.funcs } = s ∧ QueueFrame s t fn q
      ∧ t.queue fn q = if 2 ^ bitsAt v.ctl 0 4 < (w - v.read).toNat then { v with ctl := v.ctl ||| 0x20 } else { v with write := w })
    ∧ ∃ t, exec (.qctlWrite fn q w) s = .next t ∧ { t with funcs := s.funcs } = s ∧ QueueFrame s t fn q
      ∧ { t.queue fn q with ctl := v.ctl } = v
      ∧ (∀ k, k ≠ 5 → (t.queue fn q).ctl.getLsbD k = (decide (k < 8) && w.getLsbD k))
      ∧ (t.queue fn q).ctl.getLsbD 5 = (let error := v.ctl.getLsbD 5 && !w.getLsbD 5
        error || (w.getLsbD 4 && decide (2 ^ bitsAt w 0 4 < (v.write - v.read).toNat)))

/-- R156 to R164: the packet whose turn it is leaves its queue. A launch packet that passes its checks becomes a launch, one whose
entry cannot be read ends with that cause, and one that fails a check, or of no known type, completes at once with status 2 and a
reason that holds; a slot that cannot be read stops the queue. -/
def LaunchPacketsStart : Prop :=
  ∀ (s : State) (fn q : Nat),
    let v := s.queue fn q
    let passed := fun (t : State) => (t.queue fn q).read = v.read + 1
    (∀ p, s.offer fn q = some p → s.first fn q p = true →
      let l : Launch := { fn := fn, queue := q, at_ := v.read.toNat, packet := p, replayable := p.getLsbD 14 }
      let rs := l.reasons (bitsAt v.ctl 6 2) (s.func fn).secmode
      let starts := fun (L : Launch) => ∃ t, exec (.launchPacket fn q) s = .next t ∧ QueueFrame s t fn q ∧ passed t ∧ t.mem = s.mem
        ∧ Store.find s.nextLaunch t.launches = some L ∧ t.nextLaunch = s.nextLaunch + 1
        ∧ (∀ m, m ≠ s.nextLaunch → Store.find m t.launches = Store.find m s.launches)
        ∧ (t.queue fn q).open_ = v.open_ ++ [(v.read.toNat, some s.nextLaunch)]
      (packetType p = 1 → rs = [] →
        let entry := s.target (.queue fn q) fn l.ceil {} (BitVec.ofNat 64 l.entry)
        (entry = .ok → l.bindAddr = 0 → (s.func fn).grants = [] → starts l)
        ∧ ∀ c a, entry = .fault c a → starts { l with ending := some ⟨1, c⟩, nextCoil := l.coils })
      ∧ ∀ why, packetType p ≠ 2 ∧ packetType p ≠ 3 → (why = if packetType p = 1 then rs else [1]) → why ≠ [] →
        recAt p 56 8 = 0 ∨ (∃ k, signalPlace s fn 3 (recAt p 56 8) k) →
        ∃ t, exec (.launchPacket fn q) s = .next t ∧ QueueFrame s t fn q ∧ passed t ∧ (t.queue fn q).open_ = v.open_
          ∧ t.nextLaunch = s.nextLaunch
          ∧ Completes s t fn (recAt p 56 8) (fun w => ∃ r ∈ why, w = 2 + 256 * r + 2 ^ 63))
    ∧ ∀ c a, s.packetRead fn q = some (.fault c a) →
      ∃ t, exec (.launchPacket fn q) s = .next t ∧ QueueFrame s t fn q ∧ t.mem = s.mem ∧ t.launches = s.launches
        ∧ t.queue fn q = { v with ctl := v.ctl ||| 0x20 }

/-- R163: a barrier-and packet holds its queue until every word it names has bit 63 set, and then completes; a word that cannot be
read ends it with that cause; a signal packet writes its value to its signal. -/
def BarrierAndSignalPackets : Prop :=
  ∀ (s : State) (fn q : Nat),
    let v := s.queue fn q
    (∀ p, s.offer fn q = some p → s.first fn q p = true → otherReasons p (bitsAt v.ctl 6 2) = [] →
      (packetType p = 2 → ∃ t, exec (.barrierAndPacket fn q) s = .next t ∧ QueueFrame s t fn q ∧ t.mem = s.mem
        ∧ t.launches = s.launches ∧ (t.queue fn q).held = some p ∧ (t.queue fn q).read = v.read + 1
        ∧ (t.queue fn q).open_ = v.open_ ++ [(v.read.toNat, none)])
      ∧ (packetType p = 3 → ∀ k, signalPlace s fn 3 (recAt p 56 8) k →
        ∃ t, exec (.signalPacket fn q) s = .next t ∧ QueueFrame s t fn q ∧ (t.queue fn q).read = v.read + 1
          ∧ Signals s t k (recAt p 8 8)))
    ∧ ∀ p, v.held = some p → s.asking (.queue fn q) = false →
      recAt p 56 8 = 0 ∨ (∃ k, signalPlace s fn 3 (recAt p 56 8) k) →
      let word := fun (n : Nat) => s.devRead (.queue fn q) fn 3 { trailing := false } (BitVec.ofNat 64 (recAt p (8 + 8 * n) 8)) 8
      let set := fun (n : Nat) => recAt p (8 + 8 * n) 8 = 0 ∨ ∃ bs lab, word n = .ok bs lab ∧ (bs.getD 7 0).getLsbD 7 = true
      let ends := fun (w : Nat) => ∃ t, exec (.barrierAndComplete fn q) s = .next t ∧ QueueFrame s t fn q
        ∧ (t.queue fn q).held = none ∧ (t.queue fn q).read = v.read ∧ Completes s t fn (recAt p 56 8) (· = w)
      ((∀ n, n < 5 → set n) → ends (2 ^ 63))
      ∧ ∀ n c a, n < 5 → (∀ m, m < n → set m) → recAt p (8 + 8 * n) 8 ≠ 0 → word n = .fault c a →
        ends (1 + 256 * c.toNat + 2 ^ 63)

/-- R155 to R164. The model's choices (log 22): a write to QCTL checks the notified index again; barrier reads, signals and the
completion of a refused packet are made at ceiling 3. -/
def Obligations.QueuesTakePackets : Prop := QueueRegisters ∧ LaunchPacketsStart ∧ BarrierAndSignalPackets

/-! ### Launches, strands and coils (R10, R120 to R122, R127, R130, R161 to R171, R331) -/

/-- The lanes of a fibre: one, or the pair of a protected launch (R229). -/
def laneStep (L : Launch) : Nat := if L.protd then 2 else 1

/-- A launched yarn as it starts (R10, R57, R61, R120, R122): each fibre with its window and predicates clear, all standing at the
entry PC, the scalars holding the argument block under its page's label, the floor 0. -/
def Starts (L : Launch) (x n : Nat) (v : Yarn) : Prop :=
  v.strand = x ∧ v.num = n ∧ v.spawned = false ∧ v.slot.isSome = true ∧ v.frays = [] ∧ v.pend = []
    ∧ (∀ l, l < 64 → let f := L.perYarn * n + l / laneStep L
      v.lane l = if f < L.fibres ∧ l / laneStep L < L.perYarn then
        { active := true, linear := some f, wbase := BitVec.ofNat 19 (256 * f) } else {})
    ∧ (∃ g, v.groups = [g] ∧ g.pc = BitVec.ofNat 57 L.entry ∧ g.phase = .header ∧ g.fray = none
      ∧ ∀ l, l < 64 → g.lanes.getLsbD l = (v.lane l).active)
    ∧ (∀ j, j < 16 → v.bank.scalar j = ⟨L.args.extractLsb' (32 * j) 32, L.argLab⟩)
    ∧ v.bank.floor = 0 ∧ v.bank.status = ((L.role v.stage).setWidth 32 <<< 12) ||| (if L.protd then 0x4000 else 0)

/-- R10, R120, R161, R165: the command processor reads a launch's argument block, or ends the launch with the cause where it cannot;
then the next coil, whose place the rules give, is placed: each strand on its core with a context id no live strand has (R172),
each yarn as it starts. -/
def CoilsStart : Prop :=
  ∀ (s : State) (l : Nat) (L : Launch), Store.find l s.launches = some L → L.ending = none → L.nextCoil < L.coils →
    (L.argsRead = false → s.asking (.cp l) = false →
      let got := s.devRead (.cp l) L.fn L.ceil {} (BitVec.ofNat 64 L.argAddr) 64
      (∀ bs lab, got = .ok bs lab → recAt (BitVec.ofNat 512 (leNat bs)) 56 8 = 0 →
        ∃ t, exec (.coilPlace l) s = .next t ∧ { t with launches := s.launches, bufs := s.bufs } = s
          ∧ Store.find l t.launches = some { L with args := BitVec.ofNat 512 (leNat bs), argLab := lab, argsRead := true })
      ∧ ∀ c a, got = .fault c a → ∃ t M, exec (.coilPlace l) s = .next t ∧ Store.find l t.launches = some M
        ∧ M.ending = some ⟨1, c⟩ ∧ t.mem = s.mem)
    ∧ ∀ hs, L.argsRead = true → s.nextPlan L = some hs →
      ∃ t, exec (.coilPlace l) s = .next t ∧ t.mem = s.mem ∧ t.funcs = s.funcs
        ∧ (∃ M, Store.find l t.launches = some M ∧ { M with cores := L.cores } = { L with nextCoil := L.nextCoil + 1 }
          ∧ ∀ i h, hs[i]? = some h → (L.nextCoil, i, h.core) ∈ M.cores)
        ∧ (s.strands.length + hs.length < 2 ^ 32 → Store.find s.nextCtx s.strands = none →
          ∃ xs : List Nat, xs.length = hs.length ∧ xs.Nodup ∧ xs.head? = some s.nextCtx
            ∧ (∀ x ∈ xs, x = s.nextCtx ∨ (x < 2 ^ 32 ∧ Store.find x s.strands = none))
            ∧ ∀ i h x, hs[i]? = some h → xs[i]? = some x → ∃ u, Store.find x t.strands = some u
              ∧ u = { launch := l, coil := L.nextCoil, index := i, placedAt := s.tick,
                      place := some { die := h.core / 48, core := h.core % 48, base := h.base } }
              ∧ ∀ n, n < L.yarnCount → ∃ v, Store.find (s.nextYarn + i * L.yarnCount + n) t.yarns = some v ∧ Starts L x n v)

/-- R166 to R171: a selected coil whose strands may be evicted leaves its cores, each strand's record kept with its place and, of a
matrix strand, its matrix context as its image; an evicted coil whose place the rules give returns to cores with its scratchpad as
it was, the matrix context restored. -/
def CoilsMove : Prop :=
  ∀ (s : State) (l coil : Nat) (L : Launch), Store.find l s.launches = some L → Store.rising s.strands = true →
    (s.selected l coil = true → (∀ c ∈ s.strandsOf l coil, s.evictable c.1 c.2 = true) →
      ∃ t, exec (.evictCoil l coil) s = .next t ∧ t.mem = s.mem ∧ t.funcs = s.funcs
        ∧ Store.find l t.launches = some { L with evicted := L.evicted ++ [coil] }
        ∧ (∀ c ∈ s.strandsOf l coil, ∃ u, Store.find c.1 t.strands = some u ∧ u.place = none
          ∧ { u with place := c.2.place, former := c.2.former, image := c.2.image, frozenAt := c.2.frozenAt } = c.2
          ∧ ((∀ d ∈ s.strandsOf l coil, d.1 ≠ c.1 → d.2.core ≠ c.2.core) → L.matrix = true →
            let k := s.coreAt c.2.core
            u.image = some { slots := k.slots, slice := k.slice, lab := k.sliceLab }))
        ∧ (∀ c ∈ t.yarns, (∃ d ∈ s.strandsOf l coil, d.1 = c.2.strand) → c.2.slot = none)
        ∧ ∀ x, (∀ c ∈ s.strandsOf l coil, c.1 ≠ x) → Store.find x t.strands = Store.find x s.strands)
    ∧ ∀ xs hs, s.restorePlan l L coil = some (xs, hs) →
      ∃ t, exec (.restoreCoil l coil) s = .next t ∧ t.mem = s.mem
        ∧ (∃ M, Store.find l t.launches = some M ∧ { M with cores := L.cores } = { L with evicted := L.evicted.filter (· ≠ coil) })
        ∧ ∀ p ∈ xs.zip hs, ∃ u, Store.find p.1.1 t.strands = some u
          ∧ u.place = some { die := p.2.core / 48, core := p.2.core % 48, base := p.2.base }
          ∧ u.image = none ∧ u.pad = p.1.2.pad ∧ u.padLab = p.1.2.padLab ∧ u.launch = l ∧ u.coil = coil ∧ u.index = p.1.2.index

/-- R165 to R173. -/
def Obligations.CoilsStartAndMove : Prop := CoilsStart ∧ CoilsMove

/-- A strand's state is freed (R130, R331): its record is gone, and the chunk of the collective its launch binds is due. -/
def Freed (s t : State) (x : Nat) (u : Strand) : Prop :=
  Store.find x t.strands = none
    ∧ ∀ C, Store.find u.launch s.colls = some C → ∃ k, Store.find u.launch t.colls = some { C with due := C.due ++ [k] }
      ∧ (bRule C.bind = 0 → k = u.coil * (s.launchOf u).coilSize + u.index)
      ∧ (bRule C.bind ≠ 0 → k = u.index * (s.launchOf u).coils + u.coil)

/-- R130, R131, R140, R163, R164, R270, R331: a strand of which no fibre and no record is left ends: its yarns and points are gone, its
launch counts it, and its state is freed once its copies and matrix operations are done; a launch that has ended, and that no
release fence holds, writes its completion word, closes its packet and is gone. The model's choice (log 49): an ended strand's
state is freed only once its copies and matrix operations are done. -/
def Obligations.StrandsAndLaunchesEnd : Prop :=
  (∀ (s : State) (x : Nat) (u : Strand), Store.find x s.strands = some u →
    (u.ended = false → s.strandOver x u = true →
      ∃ t, exec (.strandEnd x) s = .next t ∧ (∀ c ∈ t.yarns, c.2.strand ≠ x) ∧ (∀ c ∈ s.yarns, c.2.strand ≠ x → c ∈ t.yarns)
        ∧ (∀ z, z ≠ x → Store.find z t.strands = Store.find z s.strands)
        ∧ { t with strands := s.strands, yarns := s.yarns, launches := s.launches, colls := s.colls } = s
        ∧ (∀ L, Store.find u.launch s.launches = some L → Store.find u.launch t.launches = some { L with ended := L.ended + 1 })
        ∧ if u.quiet = true then Freed s t x u
          else Store.find x t.strands = some { u with ended := true, points := [] } ∧ t.colls = s.colls)
    ∧ (u.ended = true → u.quiet = true →
      ∃ t, exec (.strandEnd x) s = .next t ∧ { t with strands := s.strands, colls := s.colls } = s
        ∧ (∀ z, z ≠ x → Store.find z t.strands = Store.find z s.strands) ∧ Freed s t x u))
  ∧ ∀ (s : State) (l : Nat) (L : Launch), Store.find l s.launches = some L →
    (L.ending.isSome = true ∨ (L.coils ≤ L.nextCoil ∧ L.ended = L.coils * L.coilSize ∧ (∀ c ∈ s.strands, c.2.launch ≠ l)
      ∧ Store.find l s.colls = none)) →
    (L.relFence = false ∨ (L.unacked = [] ∧ ∀ r ∈ s.reqs, r.2.launch = some l → reqWrites r.2.req = false)) →
    L.granted = none → s.asking (.cp l) = false →
    L.signal = 0 ∨ (∃ q, signalPlace s L.fn L.ceil L.signal q) →
    ∃ t, exec (.launchComplete l) s = .next t ∧ Store.find l t.launches = none ∧ t.yarns = s.yarns ∧ t.strands = s.strands
      ∧ (∀ m, m ≠ l → m ≠ s.nextLaunch → Store.find m t.launches = Store.find m s.launches)
      ∧ (t.queue L.fn L.queue).open_ = (s.queue L.fn L.queue).open_.filter (fun c => decide (c.1 ≠ L.at_))
      ∧ (L.signal = 0 → t.mem = s.mem)
      ∧ ∀ q, signalPlace s L.fn L.ceil L.signal q → Signals s t q
        ((match L.ending with
          | some e => e.status.toNat + 256 * e.cause.toNat
          | none => 0) + 65536 * min L.discarded 65535 + 2 ^ 32 * min L.killed 65535 + 2 ^ 63)

/-! ### Spawn bins, the spill queue and the watchdog (R126 to R131, R145 to R148) -/

/-- A yarn made from a bin (R127, R348): lane k takes the k-th record, or in a protected launch the pair of lanes does; all stand at
the bin's entry, the floor is the records' highest label. -/
def StartsFrom (L : Launch) (b : Bin) (x : Nat) (v : Yarn) : Prop :=
  v.strand = x ∧ v.spawned = true ∧ v.stage = b.stage ∧ v.slot.isSome = true
    ∧ (∀ l, l < 64 → match b.recs[l / laneStep L]? with
      | some r => (v.lane l).active = true ∧ (v.lane l).linear = none ∧ (v.lane l).preds = r.extractLsb' 64 7
          ∧ (v.lane l).wbase = BitVec.ofNat 19 (256 * bitsAt r 74 11)
          ∧ ∀ j, (v.lane l).reg j = if j < 13 then ⟨r.extractLsb' (96 + 32 * j) 32, r.extractLsb' 85 2⟩ else {}
      | none => v.lane l = {})
    ∧ (∃ g, v.groups = [g] ∧ g.pc = b.entry ∧ g.phase = .header ∧ ∀ l, l < 64 → g.lanes.getLsbD l = (v.lane l).active)
    ∧ v.bank.floor = b.recs.foldl (fun m r => lmax m (r.extractLsb' 85 2)) 0
    ∧ ∀ j, j < 16 → v.bank.scalar j = ⟨L.args.extractLsb' (32 * j) 32, L.argLab⟩

/-- R126 to R129, R348: a bin whose timer is reached, or whose strand has no ready group, is released; a released bin becomes a yarn where
a slot is free; held spawn records take the room there is in lane order, behind those an earlier spawn holds; and the oldest record
of the spill queue is read back into a bin, or counted as discarded where it breaks its layout, the read index moving on; one whose
label is above its launch's ceiling ends the launch (log 27). -/
def SpawnedYarnsStart : Prop :=
  (∀ (s : State) (bin x : Nat) (u : Strand) (b : Bin), s.binOf bin = some (x, u, b) → u.place.isSome = true → Store.rising s.strands = true →
    (b.released = false → (s.launchOf u).binTimer ≤ elapsed (s.cycles u.core) b.opened ∨ s.anyReady x = false →
      ∃ t, exec (.spawnBinTimer bin) s = .next t ∧ { t with strands := s.strands } = s
        ∧ (∀ z, z ≠ x → Store.find z t.strands = Store.find z s.strands)
        ∧ t.strandAt x = { u with bins := u.bins.map (fun d =>
          if d.id = b.id then { b with released := true, releasedAt := s.cycles u.core } else d) })
    ∧ (b.released = true → s.liveYarns x < 16 → (∃ q, q < 4 ∧ freeIn (s.usedSlots u.core) q ≠ []) →
      b.recs.length ≤ (s.launchOf u).perYarn →
      ∃ t v, exec (.binYarnStart bin) s = .next t ∧ { t with strands := s.strands, yarns := s.yarns, nextYarn := s.nextYarn } = s
        ∧ t.strandAt x = { u with bins := u.bins.filter (fun d => decide (d.id ≠ b.id)) }
        ∧ (∀ y, y ≠ s.nextYarn → Store.find y t.yarns = Store.find y s.yarns)
        ∧ Store.find s.nextYarn t.yarns = some v ∧ StartsFrom (s.launchOf u) b x v))
  ∧ (∀ (s : State) (y g since : Nat) (v : Yarn) (G : Group) (recs : List (Nat × BitVec 512)) (bad : List (Nat × Byte × DWord)),
    Store.find y s.yarns = some v → v.group g = some G → G.wait = some (.spawn since recs bad) → recs ≠ [] →
    (s.launchOf (s.strandAt v.strand)).spillAt = 0 →
    (∀ i o x, s.issuerOf y g = some i → G.here = some (o, x) → s.spawnFull i (i.spawnFaults (i.lanes x) bad) = false) →
    G.here ≠ none →
    ∃ t n, exec (.spawnRecordPlaced y g) s = .next t ∧ t.mem = s.mem ∧ (∀ l, t.fibre y l = v.lane l)
      ∧ (∃ h ∈ (t.yarnAt y).groups, h = { G with wait := some (.spawn since (recs.drop n) bad) })
      ∧ (∀ r ∈ recs.take n, ∃ b ∈ (t.strandAt v.strand).bins, r.2 ∈ b.recs ∧ b.stage = v.stage ∧ b.entry = r.2.extractLsb' 0 57)
      ∧ ((s.roomFor v.strand v.stage (recs.headD (0, 0)).2).isSome = true →
        s.behind since v.strand v.stage (recs.headD (0, 0)).2 = false → n ≠ 0))
  ∧ ∀ (s : State) (x stage : Nat) (e : BitVec 57) (rest : List (Nat × Nat × BitVec 57)) (bs : List Byte) (lab : Label) (q : Nat),
    let L := s.launchOf (s.strandAt x)
    let r := BitVec.ofNat 512 (leNat bs)
    L.spilled = (x, stage, e) :: rest → (s.strandAt x).place.isSome = true →
    Store.find (s.strandAt x).launch s.launches = some L →
    s.devRead (.spill x) L.fn L.ceil { trailing := false } (BitVec.ofNat 64 (L.spillBase.toNat + 64 * (L.spillR % L.spillCap))) 64
      = .ok bs lab →
    (recBad L.alloc r = false → L.ceil < (r.extractLsb' 85 2).toNat → L.ending = none →
      ∃ t M, exec (.spillReadback x) s = .next t ∧ Store.find (s.strandAt x).launch t.launches = some M ∧ M.ending = some ⟨1, 0x02⟩) ∧
    (signalPlace s L.fn L.ceil (L.spillAt.toNat + 16) q →
    recBad L.alloc r = true ∨ ((r.extractLsb' 85 2).toNat ≤ L.ceil ∧ (s.placeBin x stage r).isSome = true) →
    ∃ t M, exec (.spillReadback x) s = .next t ∧ t.yarns = s.yarns ∧ Store.find (s.strandAt x).launch t.launches = some M
      ∧ M.spilled = rest ∧ M.spillR = (L.spillR + 1) % 2 ^ 32
      ∧ M.discarded = L.discarded + (if recBad L.alloc r = true then 1 else 0)
      ∧ leNat (t.mem.read q 4) = M.spillR ∧ (∀ a, a < q ∨ q + 4 ≤ a → t.mem.byte a = s.mem.byte a)
      ∧ (recBad L.alloc r = false → ∃ b ∈ (t.strandAt x).bins, r ∈ b.recs ∧ b.stage = stage))

/-- R145 to R148: the watchdog captures its record where a point has held arrivals for its timeout with a group waiting there: the point,
the cause, the phase, and the counts expected, 0 where the point is not armed, and arrived stand in it; the launch's policy acts
once it is written, and, where fid catches watchdogs of a launch that allows debug, is held until fid lets it go (R117). -/
def WatchdogCaptures : Prop :=
  ∀ (s : State) (x pt : Nat) (u : Strand) (L : Launch), Store.find x s.strands = some u → Store.find u.launch s.launches = some L →
    let p := u.point pt
    u.place.isSome = true → 0 < p.arr → p.arr < 65536 → p.fired = false → pt < 256 →
    2 ^ (16 + L.exponent) ≤ elapsed (s.cycles u.core) p.first →
    (∃ c ∈ s.yarns, ∃ g ∈ c.2.groups, g.wait = some (.rdv x pt false)) →
    let caught := L.debug = true ∧ s.attached L.fn = true ∧ ∃ d, (s.func L.fn).session = some d ∧ d.catchWatchdog = true
    ∃ t bytes, exec (.watchdog x pt) s = .next t
      ∧ t.strandAt x = { u with points := Store.set {} pt { p with fired := true } u.points }
      ∧ (¬ caught → Store.find u.launch t.launches = some { L with lastDiag := bytes })
      ∧ (caught → Store.find u.launch t.launches = some { L with lastDiag := bytes, heldPolicy := true })
      ∧ (t.func L.fn).waiting = (s.func L.fn).waiting ++ [{ bytes := bytes, watchdog := some u.launch }]
      ∧ (¬ caught → t.yarns = s.yarns)
      ∧ { t with strands := s.strands, launches := s.launches, funcs := s.funcs, yarns := s.yarns } = s
      ∧ bytes.length % 64 = 0 ∧ bytes.getD 0 0 = BitVec.ofNat 8 pt ∧ bytes.getD 1 0 = 0x30
      ∧ (p.exp < 65536 → u.launch < 2 ^ 32 → u.index < 64 → u.at_.die < 4 → u.at_.core < 64 →
        leNat ((bytes.drop 12).take 2) = p.phase.toNat ∧ leNat ((bytes.drop 14).take 2) = (if p.armed = true then p.exp else 0)
          ∧ leNat ((bytes.drop 16).take 2) = p.arr)

/-- R125 to R129, R145 and R148. -/
def Obligations.SpawnedYarnsAndWatchdogs : Prop := SpawnedYarnsStart ∧ WatchdogCaptures

/-! ### Copy engines and the matrix context (R172, R215 to R219, R226 to R228, R271, R275 to R278, R284, R290, R291, R294) -/

/-- An address at which a device write of a label is served by this package's own memory, with its page and backing byte; no
write of a unit is under way there. -/
def writePlace (s : State) (fn ceil : Nat) (wlab : Label) (va : Nat) (p : Page) (q : Nat) : Prop :=
  s.ownedAway q = false ∧ (∀ b ∈ s.bufs, b.write = true → b.va ≠ BitVec.ofNat 64 va) ∧ ∃ f pfx len d,
    s.judge { fn := fn, ceil := ceil, write := true, wlab := wlab } (BitVec.ofNat 64 va) = .ok (p, .here f pfx len, d)
      ∧ f.toNat = q ∧ s.scrubHeld f = false

/-- Bytes written at a byte of memory under a page's label, and no others. -/
def MemTakes (s t : State) (q : Nat) (bs : List Byte) (p : Page) : Prop :=
  (∀ a, t.mem.byte a = if q ≤ a ∧ a < q + bs.length then bs.getD (a - q) 0 else s.mem.byte a) ∧ t.mem.label q = p.label

/-- A copy of a strand, with its next sector at 32 bytes further on. -/
def copyMoved (t : State) (x : Nat) (c : Copy) : Prop :=
  { c with run := { c.run with state := .running, off := c.run.off + 32 } } ∈ (t.strandAt x).copies

/-- R271, R275 to R278, R284, R290, R291, R294: the copy a channel works on reads its next index, or moves its next sector to
scratchpad with the labels raised to its floor, to the slice, or to memory, and credits its barrier; a sector that cannot be read,
with no write of its under way,
leaves it faulted and reported, or ends its launch; when every sector is moved the copy is done and its context counts it. -/
def CopiesMove : Prop :=
  ∀ (s : State) (x ch : Nat) (u : Strand) (c : Copy), s.moving x ch = some (u, c) →
    let L := s.launchOf u
    let r := c.record
    let j := s.copyJob x u c
    let dst := destOf r (tDest r c.start) c.run.off
    let indexes := tKind r = 3 ∧ c.idx.length < tRows r
    let fresh := ¬ indexes ∧ ∀ b ∈ s.bufs, b.write = true → b.va ≠ BitVec.ofNat 64 dst
    let moves := fun (p : State → Prop) => ∃ t, exec (.copySector x ch) s = .next t ∧ copyMoved t x c ∧ t.yarns = s.yarns ∧ p t
    (c.run.off < tSize r → (c.run.state = .queued → s.leavingOf u = false) →
      (indexes → ∀ bs lab, s.devRead (.engine x ch) L.fn L.ceil j.el (BitVec.ofNat 64 (tAux r + 4 * c.idx.length)) 4 = .ok bs lab →
        ∃ t, exec (.copySector x ch) s = .next t ∧ { t with strands := s.strands, bufs := s.bufs } = s
          ∧ { c with idx := c.idx ++ [BitVec.ofNat 32 (leNat bs)], run := { c.run with state := .running } } ∈ (t.strandAt x).copies)
      ∧ (fresh → ∀ bs labs, s.copyData j c = .ok bs labs → bs.length = 32 → labs.length = 4 → tBarOn r = false →
        (tKind r ≠ 4 → tFlag r 1 = true → dst % 8 = 0 → (∀ l ∈ labs, (lmax c.floor l).toNat ≤ L.ceil) → moves fun t => t.mem = s.mem
          ∧ (∀ o, (t.strandAt x).padByte o = if dst ≤ o ∧ o < dst + 32 then bs.getD (o - dst) 0 else u.padByte o)
          ∧ ∀ k, k < 4 → (t.strandAt x).unitLabel (dst + 8 * k) = lmax c.floor (labs.getD k 0))
        ∧ (tKind r ≠ 4 → tFlag r 1 = false → ∀ p q, writePlace s L.fn L.ceil (labs.foldl lmax 0) dst p q → moves fun t =>
          MemTakes s t q bs p)
        ∧ (tKind r = 4 → (labs.foldl lmax c.floor).toNat ≤ L.ceil → moves fun t => t.mem = s.mem
          ∧ (∀ o, Store.get 0 o (t.coreAt u.core).slice =
            if dst ≤ o ∧ o < dst + 32 then bs.getD (o - dst) 0 else Store.get 0 o (s.coreAt u.core).slice)
          ∧ (t.coreAt u.core).sliceLab = labs.foldl lmax (lmax (s.coreAt u.core).sliceLab c.floor)))
      ∧ (fresh → ∀ bs labs p q, s.copyData j c = .ok bs labs → tBarOn r = true → tKind r ≠ 4 → tKind r ≠ 5 → tFlag r 1 = false →
        writePlace s L.fn L.ceil (labs.foldl lmax 0) dst p q →
        let b := u.bar (tBar r)
        barSectors b + 2 ^ 43 ≠ 0 → ∃ t, exec (.copySector x ch) s = .next t ∧ copyMoved t x c
          ∧ barHolds ((t.strandAt x).bar (tBar r)) (barPhase b) (barArrivals b) (barReload b) (barSectors b - 1))
      ∧ (fresh → ∀ k a, s.copyData j c = .fault k a → ∃ t, exec (.copySector x ch) s = .next t ∧ t.mem = s.mem
        ∧ (repairable k = true → (∃ d ∈ (t.strandAt x).copies, d = { c with run := d.run } ∧ d.run.state = .faulted
          ∧ d.run.cause = k ∧ d.run.addr = a ∧ d.run.off = c.run.off ∧ d.run.use = c.run.use + 1)
          ∧ ∃ rec, (t.func L.fn).waiting = (s.func L.fn).waiting ++ [rec] ∧ rec.bytes.length = 64)
        ∧ (repairable k = false → ∀ M, Store.find u.launch s.launches = some M → ∃ N, Store.find u.launch t.launches = some N
          ∧ N.ending = some (M.ending.getD ⟨1, k⟩))))
    ∧ (tSize r ≤ c.run.off → (∀ b ∈ (s.func L.fn).bounce, b.2.by_ ≠ some u.launch) →
      ∃ t, exec (.copyDone x ch) s = .next t ∧ { t with strands := s.strands } = s
      ∧ (t.strandAt x).doneOn ch = u.doneOn ch + 1
      ∧ { c with run := { c.run with state := .done } } ∈ (t.strandAt x).copies)

/-- R172, R263, R277: a completion signal from another package credits the barrier of the strand it names; one for a strand that is
gone, or from a past incarnation, is dropped and counted. -/
def RemoteSignals : Prop :=
  ∀ (s : State) (inc : BitVec 16) (x o : Nat),
    (inc = s.inc → ∀ u, Store.find x s.strands = some u → o + 16 ≤ (s.launchOf u).alloc →
      let b := u.bar o
      barSectors b + 2 ^ 43 ≠ 0 →
      ∃ t, exec (.remoteCompletionSignal inc x o) s = .next t ∧ { t with strands := s.strands, yarns := s.yarns } = s
        ∧ barHolds ((t.strandAt x).bar o) (barPhase b) (barArrivals b) (barReload b) (barSectors b - 1)
        ∧ (∀ k, k < o ∨ o + 16 ≤ k → (t.strandAt x).padByte k = u.padByte k)
        ∧ ∀ z, z ≠ x → Store.find z t.strands = Store.find z s.strands)
    ∧ (inc = s.inc → Store.find x s.strands = none →
      exec (.remoteCompletionSignal inc x o) s = .next { s with signalsDropped := s.signalsDropped + 1 })
    ∧ (inc ≠ s.inc → exec (.remoteCompletionSignal inc x o) s = .next { s with packetsDropped := s.packetsDropped + 1 })

/-- Copies and the signals of other packages. -/
def Obligations.CopiesAndRemoteSignals : Prop := CopiesMove ∧ RemoteSignals

/-- R227: a column's checksum and magnitude vectors take a K-step: `A` gives its rows, `B` its column, `after` the accumulators
after the step. The checksum adds the product of the rows' sum and the column, exact and rounded once, or, under f32, is fused
over k; it is NaN where a sum of the step or an accumulator is. The magnitude adds the magnitudes of what each row added and of its
accumulator, rounded up, and is +∞ where the checksum is not finite. -/
def columnStep (t : Ty) (A : Nat → Blk) (B : Blk) (after : Nat → Nat) (ck mg ck' mg' : Nat) : Prop :=
  let S := (List.range 128).map (fun i => (A i).dot B) ++ (List.range 128).map (fun i => f32.read (after i))
  let sumA := fun (k : Nat) => numSum ((List.range 128).map (fun i => ((A i).vals.getD k .nan).shift (A i).exp))
  let nan := f32.isNan ck = true ∨ .nan ∈ S
  (nan → ck' = f32.canon)
  ∧ (¬ nan → t = .f32 → ck' = (accFma ck ((List.range 32).map (fun k =>
      ((f32.put .rne false (sumA k)).1, B.codes.getD k 0)))).1)
  ∧ (¬ nan → t ≠ .f32 → ck' = (accAdd ck ((numSum ((List.range 32).map (fun k =>
      ((sumA k).times (B.vals.getD k .nan)).getD .nan))).shift B.exp)).1)
  ∧ (match f32.read ck' with
    | .fin _ _ _ => mg' = (f32.put .rup false (numSum (f32.read mg :: S.map absNum))).1
    | _ => mg' = f32.inf)

/-- R215 to R219, R226 to R228, R291: a K-step accumulates every element of the tile from its row and column, and,
where the block asks for checks, the checksum and magnitude vectors, from +0 where the block zeroes the slot; the epilogue scales,
biases, activates and converts the tile, or, without a store, is the end of the operation, and a check that fails under a
terminating policy ends the launch; the store engine writes its sectors in order. A finished operation is counted on timeline 8. -/
def Obligations.MatrixRuns : Prop :=
  ∀ (s : State) (x : Nat) (u : Strand) (o : MOp), s.running x = some (u, o) →
    let n := pbSlot o.block
    let k := (s.coreAt u.core).slot n
    let L := s.launchOf u
    let ended := fun (t : State) => (t.strandAt x).doneOn 8 = u.doneOn 8 + 1
      ∧ (t.strandAt x).ops = u.ops.filter (fun d => decide (d.num ≠ o.num))
    let runs := o.stage = .steps ∧ o.run.state ≠ .faulted ∧ o.hold = false
    let zeroed := o.progress = 0 ∧ pbZero o.block = true
    let high := (List.range 128).foldl (fun m i => lmax m (u.rowA o.fw o.block (o.progress + 1) i).2)
      (lmax (lmax o.lab (s.coreAt u.core).sliceLab) (if zeroed then 0 else k.lab))
    (runs → o.progress < pbSteps o.block → s.slotBusy x n o.seq = false → s.leavingOf u = false → high.toNat ≤ L.ceil →
      let col := colB (s.coreAt u.core).slice o.fw o.block (o.progress + 1)
      let row := fun (i : Nat) => (u.rowA o.fw o.block (o.progress + 1) i).1
      let sum := fun (i j : Nat) => (accStep (fwA o.fw) (row i) (col j) (if zeroed then 0 else wordAt k.acc (128 * i + j))).1
      ∃ t, exec (.mmaKstep x) s = .next t ∧ { t with cores := s.cores, strands := s.strands } = s
        ∧ (∃ d ∈ (t.strandAt x).ops, d.num = o.num ∧ d.progress = o.progress + 1 ∧ d.stage = .steps)
        ∧ (∀ i j, i < 128 → j < 128 → wordAt ((t.coreAt u.core).slot n).acc (128 * i + j) = sum i j % 2 ^ 32)
        ∧ if pbCheck o.block = true then ∀ j, j < 128 → ∃ ck mg, wordAt ((t.coreAt u.core).slot n).ck j = ck % 2 ^ 32
            ∧ wordAt ((t.coreAt u.core).slot n).mg j = mg % 2 ^ 32
            ∧ columnStep (fwA o.fw) row (col j) (fun i => sum i j) (if zeroed then 0 else wordAt k.ck j)
              (if zeroed then 0 else wordAt k.mg j) ck mg
          else ((t.coreAt u.core).slot n).ck = k.ck ∧ ((t.coreAt u.core).slot n).mg = k.mg)
    ∧ (runs → pbSteps o.block ≤ o.progress →
      (pbStore o.block = 0xFFFF → ∃ t, exec (.mmaEpilogue x) s = .next t ∧ t.mem = s.mem ∧ ended t
        ∧ (pbCheck o.block = true → ((t.coreAt u.core).slot n).ckLive = true))
      ∧ (pbStore o.block ≠ 0xFFFF → pbCheck o.block = false →
        let bias := fun (j : Nat) => if pbBiasOn o.block then leNat (u.padRead (pbBias o.block + 4 * j) 4) else 0
        let row := fun (i : Nat) => epiRow o.fw ((List.range 128).map (fun j => (epiOne o.block (bias j) (wordAt k.acc (128 * i + j))).1))
        ∃ t, exec (.mmaEpilogue x) s = .next t ∧ t.mem = s.mem ∧ ∃ d ∈ (t.strandAt x).ops, d.num = o.num ∧ d.stage = .stored
          ∧ d.run.state = .running ∧ d.run.off = 0
          ∧ (∀ a, Store.get 0 a d.out =
            ((List.range 128).flatMap (fun i => leBytes (16 * tyBits (fwOut o.fw)) (packElems (tyBits (fwOut o.fw)) (row i).1))).getD a 0)
          ∧ ∀ a, Store.get 0 a d.scales = ((List.range 128).flatMap (fun i => (row i).2.1.map (BitVec.ofNat 8))).getD a 0)
      ∧ ∀ j M, pbStore o.block ≠ 0xFFFF → pbCheck o.block = true → j < 128 → Store.find u.launch s.launches = some M →
        bitsAt (s.func L.fn).policy 2 2 = 1 →
        ckColumn (pbSteps o.block) ((List.range 128).map (fun i => wordAt k.acc (128 * i + j))) (wordAt k.ck j) (wordAt k.mg j)
          = some false →
        ∃ t N, exec (.mmaEpilogue x) s = .next t ∧ Store.find u.launch t.launches = some N
          ∧ N.ending = some (M.ending.getD ⟨1, 0x33⟩))
    ∧ (o.stage = .stored → o.run.state = .running → tKind o.tmpl ≠ 4 → tFlag o.tmpl 1 = false → tBarOn o.tmpl = false →
      (∀ b ∈ (s.func L.fn).bounce, b.2.by_ ≠ some u.launch) → ∀ p q, writePlace s L.fn L.ceil k.lab (destOf o.tmpl (tDest o.tmpl 0) o.run.off) p q →
      ∃ t, exec (.epilogueStore x) s = .next t ∧ MemTakes s t q (sliceRead o.out o.run.off 32) p
        ∧ if tSize o.tmpl ≤ o.run.off + 32 ∧ o.srun.state = .done then ended t
          else ∃ d ∈ (t.strandAt x).ops, d.num = o.num ∧ d.run.off = o.run.off + 32
            ∧ (d.run.state = .done ↔ tSize o.tmpl ≤ o.run.off + 32))

/-! ### The host: replies, the fault queue, registers, the window, errors (R108, R109, R146, R231 to R239, R284, R286, R350, R356, R369, R370) -/

/-- Only a function's own state differs. -/
def OnlyFunc (s t : State) (fn : Nat) : Prop :=
  { t with funcs := s.funcs } = s ∧ ∀ f, f ≠ fn → t.func f = s.func f

/-- R108, R109, R286: the host's reply that names a parked fray, with its use count, lets it go on at its faulting instruction, with the
flags set that cover it and the rest of the clause, or at its clause's start, or retires its fibres and counts them as killed; a reply that names a faulted transfer lets it go on, or ends its
launch with the cause; any other reply is ignored and counted, one of code 0 or 3 too, which comes as a write of the function's
reply register. -/
def HostReplies : Prop :=
  ∀ (s : State) (fn : Nat),
    let ignored := fun (t : State) => OnlyFunc s t fn ∧ t.func fn =
      { s.func fn with tele := { (s.func fn).tele with replies := (s.func fn).tele.replies + 1 } }
    (∀ (w : Word) (y : Nat) (v : Yarn) (e : Nat) (f : Fray), s.repliedFray fn w = some (y, v, e, f) → Store.find y s.yarns = some v →
      f.lanes ≠ 0 →
      (bitsAt w 30 2 = 1 → (∃ l, (v.lane l).active = true) → ∃ t f', exec (.faultReplyRepaired fn w) s = .next t ∧ OnlyYarn s t y
        ∧ Store.find e (t.yarnAt y).frays = some f' ∧ f'.state = .running
        ∧ (∃ h ∈ (t.yarnAt y).groups, h.fray = some e ∧ h.lanes = f.lanes ∧ h.pc = f.pc
          ∧ if f.index = 8 then h.phase = .header
            else h.phase = .issue ∧ h.clause = f.clause ∧ h.idx = f.index.toNat ∧ h.gmask = f.gmask
              ∧ flagsUp f'.bank f.clause f.index.toNat)
        ∧ ∀ l, l < 64 → t.fibre y l = if f.lanes.getLsbD l then { v.lane l with parked := false } else v.lane l)
      ∧ (bitsAt w 30 2 = 2 → (∃ l, l < 64 ∧ f.lanes.getLsbD l = false ∧ (v.lane l).active = true) →
        ∃ t, exec (.faultReplyKill fn w) s = .next t ∧ { t with yarns := s.yarns, launches := s.launches } = s
          ∧ Store.find e (t.yarnAt y).frays = none
          ∧ (∀ l, l < 64 → if f.lanes.getLsbD l then (t.fibre y l).active = false ∧ (t.fibre y l).exited = true
            else t.fibre y l = v.lane l)
          ∧ ∀ L, Store.find (s.strandAt v.strand).launch s.launches = some L →
            let n := (lanesOf f.lanes).length
            Store.find (s.strandAt v.strand).launch t.launches = some { L with killed := L.killed + if L.protd then n / 2 else n }))
    ∧ (∀ (w : DWord) (x : Nat) (u : Strand) (c : Copy), s.replied fn w = some (x, u, .inl c) →
      (bitsAt w 30 2 = 1 → ∃ t, exec (.copyReplyRepaired fn w) s = .next t ∧ { t with strands := s.strands } = s
        ∧ { c with run := { c.run with state := .running } } ∈ (t.strandAt x).copies)
      ∧ (bitsAt w 30 2 = 2 → ∀ L, Store.find u.launch s.launches = some L → ∃ t M, exec (.copyReplyKill fn w) s = .next t
        ∧ Store.find u.launch t.launches = some M ∧ M.ending = some (L.ending.getD ⟨1, c.run.cause⟩)))
    ∧ (∀ w : Word, s.repliedFray fn w = none →
      (bitsAt w 30 2 = 1 → ∃ t, exec (.faultReplyRepaired fn w) s = .next t ∧ ignored t)
      ∧ (bitsAt w 30 2 = 2 → ∃ t, exec (.faultReplyKill fn w) s = .next t ∧ ignored t))
    ∧ (∀ w : DWord, s.replied fn w = none →
      (bitsAt w 30 2 = 1 → ∃ t, exec (.copyReplyRepaired fn w) s = .next t ∧ ignored t)
      ∧ (bitsAt w 30 2 = 2 → ∃ t, exec (.copyReplyKill fn w) s = .next t ∧ ignored t))
    ∧ (fn < 8 → s.recovery = false → ∀ w : DWord, bitsAt w 30 2 = 0 ∨ bitsAt w 30 2 = 3 →
      ∀ r ∈ [(0x818, 4), (0x820, 8)], ∃ t, exec (.registerWrite fn r.1 r.2 w) s = .next t ∧ ignored t)

/-- R146, R370: the oldest waiting record is written into the ring of the fault queue, from its start where it would run past the end,
and the write index moves past it; a watchdog's record then lets its launch's policy act. Where it has no room the overflow bit is
set. -/
def FaultRecordsReachTheHost : Prop :=
  ∀ (s : State) (fn : Nat) (r : FaultRec) (rest : List FaultRec), (s.func fn).waiting = r :: rest →
    let f := s.func fn
    let u := r.bytes.length / 64
    let ring := 2 ^ bitsAt f.fqctl 0 5
    let at_ := f.fqwrite.toNat % ring
    let pad := if ring - at_ < u then ring - at_ else 0
    let runs := f.fqctl.getLsbD 5 = true ∧ 6 ≤ bitsAt f.fqctl 0 5 ∧ bitsAt f.fqctl 0 5 ≤ 20
    (runs → pad + u ≤ ring - (f.fqwrite - f.fqread).toNat → ∃ t, exec (.faultRecordWrite fn) s = .next t
      ∧ (t.func fn).waiting = rest ∧ (t.func fn).fqwrite = f.fqwrite + BitVec.ofNat 32 (pad + u) ∧ t.mem = s.mem
      ∧ (∀ k, k < r.bytes.length →
        Store.get 0 (f.fqbase.toNat + 64 * (if pad = 0 then at_ else 0) + k) t.hostMem = r.bytes.getD k 0)
      ∧ (r.watchdog = none → { t with funcs := s.funcs, hostMem := s.hostMem } = s)
      ∧ ∀ l L, r.watchdog = some l → Store.find l s.launches = some L → L.heldPolicy = false → L.policyTerminate = true →
        ∃ M, Store.find l t.launches = some M ∧ M.ending = some (L.ending.getD ⟨1, 0x30⟩))
    ∧ (¬ runs ∨ ring - (f.fqwrite - f.fqread).toNat < pad + u → f.fstatus.getLsbD 1 = false →
      ∃ t, exec (.faultRecordWrite fn) s = .next t ∧ OnlyFunc s t fn ∧ t.func fn = { f with fstatus := f.fstatus ||| 2 })

/-- R108, R109, R146, R286 and R370. -/
def Obligations.HostRepliesAndFaultRecords : Prop := HostReplies ∧ FaultRecordsReachTheHost

/-- A 64-bit register of a function that a write sets: its offset, how it reads, the bits it keeps (R155, R239, R311, R370). -/
def wideRegs : List (Nat × (Func → DWord) × DWord) :=
  [(0x800, (·.fqbase), ~~~63), (0x840, (·.ptroot), 0x01FFFFFFFFFFF001), (0x860, (·.annwin), ~~~0), (0x868, (·.backwin), ~~~0)]

/-- And a 32-bit register (R324, R370). -/
def narrowRegs : List (Nat × (Func → Word) × Word) :=
  [(0x808, (·.fqctl), 0x3F), (0x810, (·.fqread), ~~~0), (0x878, (·.injlim), 0xFFFF)]

/-- The security log holds one more entry, its last, a security configuration change of a function (R359, R361). -/
def LogsChange (s t : State) (fn : Nat) : Prop :=
  (∃ e, t.log.getLast? = some e ∧ e.kind = 0x0B ∧ e.fn = BitVec.ofNat 8 fn) ∧ t.logSeq = s.logSeq + 1

/-- R235, R239, R356, R359, R368, R369: an aligned 4- or 8-byte write sets a register's bits; the low half of a 64-bit one waits for its high
half; status bits clear where 1 is written; an invalidation is queued, and counted done once no access needs its translation; the
fence register and gating make the core map; policy and meter writes are logged. -/
def RegisterWrites : Prop :=
  ∀ (s : State) (fn : Nat), fn < 8 → s.recovery = false →
    (∀ r ∈ wideRegs, ∀ w : DWord,
      (∃ t, exec (.registerWrite fn r.1 8 w) s = .next t ∧ OnlyFunc s t fn ∧ r.2.1 (t.func fn) = w &&& r.2.2)
      ∧ ∃ t, exec (.registerWrite fn r.1 4 (w &&& 0xFFFFFFFF)) s = .next t ∧ r.2.1 (t.func fn) = r.2.1 (s.func fn)
        ∧ ∃ u, exec (.registerWrite fn (r.1 + 4) 4 (w >>> 32)) t = .next u ∧ r.2.1 (u.func fn) = w &&& r.2.2)
    ∧ (∀ r ∈ narrowRegs, ∀ w : DWord, ∃ t, exec (.registerWrite fn r.1 4 w) s = .next t ∧ OnlyFunc s t fn
      ∧ r.2.1 (t.func fn) = w.setWidth 32 &&& r.2.2)
    ∧ (∀ w : DWord, ∃ t, exec (.registerWrite fn 0x880 4 w) s = .next t ∧ OnlyFunc s t fn
      ∧ t.func fn = { s.func fn with fstatus := (s.func fn).fstatus &&& ~~~(w.setWidth 32 &&& 3) })
    ∧ (∀ w : DWord, ∃ t, exec (.xlinv fn w) s = .next t ∧ OnlyFunc s t fn
      ∧ (t.func fn).xlpend.map Prod.fst = (s.func fn).xlpend.map Prod.fst ++ [w] ∧ (t.func fn).xldone = (s.func fn).xldone)
    ∧ (∀ w m rest, (s.func fn).xlpend = (w, m) :: rest → s.xlBusy fn w m = false →
      ∃ t, exec (.xlinvComplete fn) s = .next t ∧ OnlyFunc s t fn
        ∧ t.func fn = { s.func fn with xlpend := rest, xldone := (s.func fn).xldone + 1 })
    ∧ (∀ die w, die < 4 → ∃ t, exec (.fenceRegisterWrite die w) s = .next t ∧ { t with fence := s.fence, coreMap := s.coreMap } = s
      ∧ Store.get 0 die t.fence = w.setWidth 48
      ∧ ∀ c, c < 48 → (Store.get 0 die t.coreMap).getLsbD c = (!w.getLsbD c && !(s.coreAt (48 * die + c)).gated))
    ∧ (∀ w : DWord, s.logFull = false → ∃ t, exec (.registerWrite fn 0x870 4 w) s = .next t ∧ LogsChange s t fn
      ∧ (t.func fn).policy = w.setWidth 32 &&& 0x3BC)
    ∧ ∀ reg w, reg < 7 → s.logFull = false → ∃ t, exec (.egressMeterWrite fn reg w) s = .next t ∧ LogsChange s t fn
      ∧ (reg = 0 → (t.func fn).metbal = w &&& 0xFFFFFFFFFFFF) ∧ (reg = 1 → (t.func fn).metfill = w &&& 0x1FFFFFFFFF)
      ∧ (reg = 2 → (t.func fn).metcap = w &&& 0xFFFFFFFFFFFF) ∧ (3 ≤ reg → Store.get 0 (reg - 3) (t.func fn).metreg = w)

/-- R236, R266, R350, R357, R366: the host reads memory through its window, label 2 charged to the meter and label 3 refused, and writes
it with label 0 where neither a bounce range nor a granted frame stands. A frame that a scrub still holds keeps the read waiting
(R364). fid, attached where a launch of the function allows debug or none runs, reads as the window does but at the prefix's
origin, and no label above 1 in mode 0 (log 12); else it is refused. That the higher of the page's and the frame's label counts is
the model's reading (log 19). -/
def HostWindow : Prop :=
  ∀ (s : State) (fn : Nat) (va : DWord) (data : List Byte) (p : Page), fn < 8 → s.recovery = false → s.asking (.signal fn) = false →
    va.toNat % 4096 + data.length ≤ 4096 → s.translate fn va = .ok p → s.bounceOf fn p.fab = none → peerOf p.fab = s.peer →
    let lab := lmax p.label (s.mem.label p.fab.toNat)
    let shows := s.attached fn = true ∧ ((∀ c ∈ s.launches, c.2.fn ≠ fn) ∨ ∃ c ∈ s.launches, c.2.fn = fn ∧ c.2.debug = true)
    let units := (va.toNat + data.length + 31) / 32 - va.toNat / 32
    let refuses := fun (k : HostAccess) =>
      exec (.hostWindowAccess fn k va data) s = .next { s with outbox := s.outbox ++ [.windowData fn false []] }
    let reads := fun (k : HostAccess) (limit : Nat) (got : Got) =>
      (s.scrubHeld p.fab = true → exec (.hostWindowAccess fn k va data) s = .next { s with inputs := s.inputs ++ [.hostWindowAccess fn k va data] })
      ∧ (s.scrubHeld p.fab = false → limit < lab.toNat → refuses k)
      ∧ ∀ bs l, s.scrubHeld p.fab = false → lab.toNat ≤ limit → got = .ok bs l → (∀ c ∈ s.tolls, c.1 ≠ .window fn) →
        (lab = 2 → 32 * units ≤ (s.func fn).metbal.toNat) →
        ∃ t, exec (.hostWindowAccess fn k va data) s = .next t ∧ t.outbox = s.outbox ++ [.windowData fn true bs]
          ∧ t.mem = s.mem ∧ (t.func fn).metbal = (s.func fn).metbal - (if lab = 2 then BitVec.ofNat 64 (32 * units) else 0)
    reads .read 2 (s.devRead (.signal fn) fn 3 { trailing := false } va data.length)
    ∧ (¬ shows → refuses .fid)
    ∧ (shows → reads .fid (if s.topMode = 0 then 1 else 2)
      (s.devReadBy (.signal fn) fn 3 s.routeStore va data.length))
    ∧ (∀ q, data ≠ [] → s.grantedFrame p.fab = false → writePlace s fn 3 0 va.toNat p q →
      ∃ t, exec (.hostWindowAccess fn .write va data) s = .next t ∧ MemTakes s t q data p ∧ t.yarns = s.yarns)

/-- R266, R350, R366: of a stopped yarn whose launch allows debug, fid sees the bytes of a lane's window, a barrier of its strand,
and a timeline context, none of a unit labelled above its limit (log 12). -/
def FidShows : Prop :=
  ∀ (s : State) (fn y : Nat) (v : Yarn) (u : Strand) (va : DWord) (data : List Byte), fn < 8 → s.recovery = false →
    s.asking (.signal fn) = false → va.toNat % 4096 + data.length ≤ 4096 → Store.find y s.yarns = some v →
    Store.find v.strand s.strands = some u → v.stopped = true →
    let L := s.launchOf u
    let limit := if s.topMode = 0 then 1 else 2
    let n := data.length
    let clear := fun (o k : Nat) => ∀ q, o ≤ q → q < o + k → (u.unitLabel q).toNat < 2
    let above_ := fun (o k : Nat) => ∃ q, o ≤ q ∧ q < o + k ∧ limit < (u.unitLabel q).toNat
    let refuses := fun (k : HostAccess) => ∃ t, exec (.hostWindowAccess fn k va data) s = .next t
      ∧ t.outbox = s.outbox ++ [.windowData fn false []] ∧ t.mem = s.mem
    let shows := fun (k : HostAccess) (bs : List Byte) => ∃ t, exec (.hostWindowAccess fn k va data) s = .next t
      ∧ t.outbox = s.outbox ++ [.windowData fn true bs] ∧ t.mem = s.mem ∧ t.yarns = s.yarns ∧ t.strands = s.strands
    let may := s.attached fn = true ∧ L.fn = fn ∧ L.debug = true
    (∀ l c, Store.find l v.lanes = some c → c.wbase.toNat % 256 = 0 → c.wbase.toNat + 256 ≤ L.alloc → 0 < n → va.toNat + n ≤ 256 →
      let o := c.wbase.toNat + va.toNat
      (may → clear o n → shows (.win y l) (u.padRead o n)) ∧ (may → above_ o n → refuses (.win y l)) ∧ (¬ may → refuses (.win y l)))
    ∧ (va.toNat % 16 = 0 → va.toNat + 16 ≤ L.alloc → let b := u.bar va.toNat
      (may → clear va.toNat 16 → shows (.tb v.strand) (leBytes 8 (barPhase b) ++ leBytes 8 (barArrivals b)
        ++ leBytes 8 (barReload b) ++ leBytes 8 (barSectors b % 2 ^ 64).toNat))
      ∧ (may → above_ va.toNat 16 → refuses (.tb v.strand)))
    ∧ (may → va.toNat ≤ 9 → ∃ more, shows (.tl v.strand)
      (leBytes 8 (u.issuedOn va.toNat) ++ leBytes 8 (u.doneOn va.toNat) ++ more))

/-- R266, R350, R356, R357, R369 and R370; which label a window read counts is log 19's reading. -/
def Obligations.HostRegistersAndWindow : Prop := RegisterWrites ∧ HostWindow ∧ FidShows

/-- R231 to R235: an uncorrectable error a launch uses is reported, and its launch ends with the cause, or, where the policy and the
launch let it, starts again with its saved pages written back; one that scrubbing finds is counted. Which error counts as the same
in a replay, one of its location code and 64-byte line, is the model's reading (log 51). -/
def Obligations.ErrorsAct : Prop :=
  (∀ (s : State) (l core : Nat) (loc : BitVec 4) (addr : DWord) (L : Launch), Store.find l s.launches = some L → L.ending = none →
    core < 192 → loc.toNat < 8 →
    let policy := (s.func L.fn).policy
    let again := bitsAt policy 4 2 = 2 ∧ L.replayable = true ∧ L.replays < bitsAt policy 8 2
      ∧ ¬ (loc.toNat ≤ 1 ∧ L.recurs loc.toNat (addr.toNat / 64) = true)
    ∃ t M rec, exec (.uncorrectable l core loc addr) s = .next t ∧ Store.find l t.launches = some M
      ∧ (t.func L.fn).waiting = (s.func L.fn).waiting ++ [rec] ∧ rec.bytes.length = 64 ∧ rec.bytes.getD 1 0 = 0x34
      ∧ (∀ c ∈ t.strands, c.2.launch ≠ l) ∧ (∀ c ∈ t.yarns, (s.strandAt c.2.strand).launch ≠ l)
      ∧ (¬ again → M.ending = some ⟨1, 0x34⟩ ∧ t.mem = s.mem)
      ∧ (again → M.ending = none ∧ M.packet = L.packet ∧ M.replays = L.replays + 1 ∧ M.nextCoil = 0 ∧ M.argsRead = false
        ∧ (Store.wf emptyByte L.snap = true → ∀ r ∈ L.snapPages, ∀ a, r.1 ≤ a → a < r.1 + r.2 →
          t.mem.byte a = Store.get emptyByte a L.snap)))
  ∧ ∀ (s : State) (addr : Fab), exec (.errorFoundByScrubbing addr) s = .next { s with scrubFound := s.scrubFound + 1 }

/-! ### Route messages, ports, extents and the regulator (R263, R301 to R303, R310, R320, R324, R326, R371) -/

/-- The peer that holds what a message speaks of: the last of its path; its sender is the first (R301). -/
def speaks (m : BitVec 256) (h : Peer) : Prop := (mPath m).getLast? = some h

/-- What route messages leave alone. -/
def RouteFrame (s t : State) : Prop :=
  t.hostMem = s.hostMem ∧ t.strands = s.strands ∧ t.cores = s.cores ∧ ∀ y l, t.fibre y l = s.fibre y l

/-- R301: a message of kind 3, or of a type above 2, is discarded. R302: an announcement of a peer, on a path that does not name this
package and with the recorded incarnation, that has room and no rival origin, is recorded with its fields, acknowledged where its
issue was not recorded before, and passed on to every neighbour its path does not name; one that loses to the recorded origin, or
names this package, is counted as rejected, one of a past incarnation as dropped. R303: a withdrawal not older than the record
removes it and is acknowledged once no request waits on it. R263: one of a higher incarnation ends the peer's records. R310: an
acknowledgement is noted for the change it names, which is done once every live peer has acknowledged it. -/
def RouteMessages : Prop :=
  (∀ (s : State) (m : BitVec 256), mKind m = 3 ∨ 2 < mSort m →
    (mSort m ≠ 1 ∧ mSort m ≠ 2 → exec (.announce m) s = .next s) ∧ (mSort m = 1 → exec (.withdraw m) s = .next s)
      ∧ (mSort m = 2 → exec (.ack m) s = .next s)) ∧
  ∀ (s : State) (m : BitVec 256) (h : Peer), mKind m ≠ 3 → speaks m h →
    let pfx := mPrefix m
    let len := mLen m
    let e := (s.entryOf pfx len).getD { pfx := pfx, len := len, holders := [] }
    let mine := (mPath m).contains s.peer
    let onward := fun (t : State) (sort : Nat) => (mPath m).length < 8 → ∀ p ∈ s.neighbours, (mPath m).contains p = false →
      Msg.route p (({ noteOf m with type := sort } : Note).message (s.peer :: mPath m)) ∈ t.outbox
    let acked := fun (t : State) => Msg.route h (s.ackOf { noteOf m with type := 0 } h false) ∈ t.outbox
    (mSort m = 0 →
      (mine = true → exec (.announce m) s = .next { s with rejected := s.rejected + 1 })
      ∧ (mine = false → ∀ k, s.incOf h = some k → above k (mInc m) = true →
        exec (.announce m) s = .next { s with packetsDropped := s.packetsDropped + 1 })
      ∧ (mine = false → s.incOf h = some (mInc m) → mKind m = 0 → ∀ o, e.origin = some o → o.peer ≠ h →
        above (mSeq m) o.seq = false → ¬ (mSeq m = o.seq ∧ h.toNat < o.peer.toNat) →
        exec (.announce m) s = .next { s with rejected := s.rejected + 1 })
      ∧ (mine = false → s.incOf h = some (mInc m) → s.table.length < 16384 → e.at_ h = none → e.holders.length < 4 →
        (mKind m = 0 → ∀ o, e.origin ≠ some o) → (mKind m = 1 → s.originSeq pfx len (mOrigin m) = none) →
        ∃ t d r, exec (.announce m) s = .next t ∧ RouteFrame s t ∧ t.mem = s.mem ∧ onward t 0
          ∧ ((pfx, len, h, mIssue m) ∉ s.noted → acked t) ∧ t.entryOf pfx len = some d ∧ d.at_ h = some r
          ∧ r.kind = mKind m ∧ r.origin = mOrigin m ∧ r.seq = mSeq m ∧ r.issue = mIssue m ∧ r.inc = mInc m ∧ r.path = mPath m
          ∧ r.ceiling = mCeil m ∧ r.strong = mStrong m ∧ (mKind m = 2 → r.refresh = s.routeEvent + 1)
          ∧ ∀ k ∈ e.holders, k ∈ d.holders))
    ∧ (mSort m = 1 → ∀ k, s.incOf h = some k → h ≠ s.peer → above (mInc m) k = true → ∃ t, exec (.withdraw m) s = .next t
      ∧ Store.find h.toNat t.incs = some (mInc m) ∧ ∀ d ∈ t.table, ∀ r ∈ d.holders, r.peer ≠ h)
    ∧ (mSort m = 1 → h ≠ s.peer → s.incOf h = some (mInc m) →
      ∀ d r, s.entryOf pfx len = some d → d.at_ h = some r → above r.issue (mIssue m) = false →
        ∃ t, exec (.withdraw m) s = .next t ∧ RouteFrame s t ∧ t.mem = s.mem ∧ onward t 1
          ∧ (∀ d', t.entryOf pfx len = some d' → d'.at_ h = none)
          ∧ (s.pendingTo h pfx len = [] → Msg.route h (s.ackOf (noteOf m) h false) ∈ t.outbox)
          ∧ (s.pendingTo h pfx len ≠ [] → ∃ a ∈ t.heldAcks, a.dst = h ∧ a.reqs = s.pendingTo h pfx len))
    ∧ (mSort m = 2 → ∀ p, (mPath m).head? = some p →
      (mInc m ≠ s.inc → exec (.ack m) s = .next { s with packetsDropped := s.packetsDropped + 1 })
      ∧ ∀ k c, mInc m = s.inc → Store.rising s.changes = true →
        s.changes.filter (fun d => decide (d.2.pfx = pfx ∧ d.2.len = len ∧ d.2.issue = mIssue m ∧ d.2.kind = 0)
          && !d.2.acked.contains p) = [(k, c)] →
        ∃ t, exec (.ack m) s = .next t ∧ RouteFrame s t ∧ t.mem = s.mem ∧ t.table = s.table
          ∧ (∀ d, Store.find k t.changes = some d → d = { c with acked := p :: c.acked })
          ∧ (Store.find k t.changes = none ↔ ∀ q ∈ s.othersLive, q = p ∨ q ∈ c.acked))

/-- R1, R320, R371: one of the 18 ports, 15 of the pod and 3 trunks, that comes up carries every record its far peer should hear; a trunk port that goes down takes the records
reached through it along, as does a pod port that no relay peer replaces. -/
def PortsMove : Prop :=
  ∀ (s : State) (port : Nat),
    (∀ far trunk, s.portFits port trunk = true → ∃ t l, exec (.portUp port far trunk) s = .next t ∧ { t with links := s.links, outbox := s.outbox } = s
      ∧ Store.find port t.links = some l ∧ l.up = true ∧ l.far = far ∧ l.trunk = trunk
      ∧ ∀ e ∈ s.table, ∀ h ∈ e.holders, h.path.length < 8 → h.path.contains far = false → h.peer ≠ far →
        Msg.route far ((h.note e.pfx e.len 0).message (s.peer :: h.path)) ∈ t.outbox)
    ∧ ∀ l, Store.find port s.links = some l → l.up = true →
      let down := fun (t : State) => Store.find port t.links = some { l with up := false } ∧ t.mem = s.mem ∧ RouteFrame s t
      let lost := fun (t : State) => ∀ e ∈ t.table, ∀ h ∈ e.holders, h.path.head? ≠ some l.far
      (l.trunk = true → ∃ t, exec (.trunkPortDown port) s = .next t ∧ down t ∧ lost t)
      ∧ (l.trunk = false → ∃ t, exec (.podPortDown port) s = .next t ∧ down t
        ∧ if (s.portDown port).liveHop l.far then t.table = s.table else lost t)

/-- R301 to R303, R310, R320 and R371: messages and ports. -/
def Obligations.RouteMessagesAndPorts : Prop := RouteMessages ∧ PortsMove

/-- R324: a load field falls by one for each 65,536 cycles without a response, and a held request goes out where its holder's share of
the running period, of 65,536 cycles in the model's reading (log 33), has room. R326: requests of a peer to a revoked extent are refused from then on, and the revocation is reported
once every earlier one is performed. -/
def Obligations.RegulatorAndExtents : Prop :=
  ∀ (s : State),
    (∀ p : Peer, let l := Store.get 0 p.toNat s.loads
      let at_ := Store.get 0 p.toNat s.loadAt
      l ≠ 0 → at_ + 65536 ≤ s.now → ∃ t, exec (.loadFieldDecay p) s = .next t
        ∧ { t with loads := s.loads, loadAt := s.loadAt } = s ∧ Store.get 0 p.toNat t.loads = l - 1
        ∧ Store.get 0 p.toNat t.loadAt = at_ + 65536
        ∧ ∀ k, k ≠ p.toNat → Store.get 0 k t.loads = Store.get 0 k s.loads)
    ∧ (∀ r o, Store.find r s.reqs = some o → o.hold = .injection →
      let used := if s.now / 65536 = s.sentPeriod then Store.get 0 o.dst.toNat s.sent else 0
      used + o.req.width ≤ s.injectionRoom o.fn o.dst →
      ∃ t, exec (.injectionRegulatorAdmit r) s = .next t
        ∧ { t with reqs := s.reqs, sent := s.sent, sentPeriod := s.sentPeriod, outbox := s.outbox } = s
        ∧ t.outbox = s.outbox ++ [.request o.dst o.req] ∧ Store.find r t.reqs = some { o with hold := .none }
        ∧ t.sentPeriod = s.now / 65536 ∧ Store.get 0 o.dst.toNat t.sent = used + o.req.width)
    ∧ (∀ p pfx len, ∃ t, exec (.extentRevoke p pfx len) s = .next t ∧ { t with revoked := s.revoked } = s
      ∧ ∀ r : Request, t.isRevoked r = (s.isRevoked r || (decide (p = r.src) && under r.addr pfx len)))
    ∧ ∀ (p : Peer) (pfx : Fab) (len : Nat), { peer := p, pfx := pfx, len := len } ∈ s.revoked →
      (∀ c ∈ s.reqs, ∀ q id, c.2.who = .relay q id → q = p → under c.2.req.addr pfx len = false) →
      (∀ c ∈ s.checked, c.req.src = p → under c.req.addr pfx len = false) →
      ∃ t, exec (.revocationComplete p pfx len) s = .next t ∧ { t with revoked := s.revoked } = s
        ∧ { peer := p, pfx := pfx, len := len, reported := true } ∈ t.revoked
        ∧ { peer := p, pfx := pfx, len := len } ∉ t.revoked

/-! ### Links (R262, R321, R322, R372) -/

/-- Only a link and what has left differ. -/
def OnlyLink (s t : State) (port : Nat) (l : Link) (out : List Msg) : Prop :=
  { t with links := s.links, outbox := s.outbox } = s ∧ Store.find port t.links = some l
    ∧ (∀ k, k ≠ port → Store.find k t.links = Store.find k s.links) ∧ t.outbox = s.outbox ++ out

/-- Stored flits the other end has not acknowledged. -/
def unacked (l : Link) (ack : Word) : List Flit := l.stored.filter (fun f => above f.sequence ack)

/-- R322: a data flit is taken only if its CRC and tag hold and it is the next in order: then the next sequence is expected. One taken
before changes nothing but what it acknowledges; one out of order, or whose CRC fails, is asked for again; one whose tag fails is
discarded and the link rekeys. -/
def DataFlits : Prop :=
  ∀ (s : State) (port : Nat) (f : Flit) (l : Link), Store.find port s.links = some l → f.kind = 0 →
    let sound := flitSound f = true
    let honest := f.tag = flitDataTag f l.key l.far (Config.farPort port)
    let asks := fun (t : State) (n : Link) => ∃ g : Flit, OnlyLink s t port { n with ctlOut := l.ctlOut + 1 } [.flit port g]
      ∧ g.kind = 2 ∧ g.sequence = l.recvSeq ∧ g.epoch = l.epoch ∧ flitSound g = true
    (sound → honest → f.sequence = l.recvSeq → ∃ t, exec (.dataFlit port f) s = .next t
      ∧ OnlyLink s t port { l with recvSeq := l.recvSeq + 1, retries := 0, stored := unacked l f.acknowledged } [])
    ∧ (sound → honest → above l.recvSeq f.sequence = true → ∃ t, exec (.dataFlit port f) s = .next t
      ∧ OnlyLink s t port { l with stored := unacked l f.acknowledged } [])
    ∧ (sound → honest → f.sequence ≠ l.recvSeq → above l.recvSeq f.sequence = false → ∃ t, exec (.dataFlit port f) s = .next t
      ∧ asks t l)
    ∧ (¬ sound → ∃ t, exec (.dataFlit port f) s = .next t
      ∧ asks t { l with crcErr := if l.crcErr = BitVec.allOnes 32 then l.crcErr else l.crcErr + 1,
                        retries := if f.sequence = l.recvSeq then l.retries + 1 else l.retries })
    ∧ (sound → ¬ honest → ∃ t n, exec (.dataFlit port f) s = .next t ∧ Store.find port t.links = some n
      ∧ n.epoch = l.epoch + 1 ∧ n.key = Config.nextKey l.key ∧ n.recvSeq = l.recvSeq ∧ n.ctlOut = 0 ∧ n.ctlIn = none
      ∧ n.stored.map (·.sequence) = l.stored.map (·.sequence)
      ∧ n.authErr = (if l.authErr = BitVec.allOnes 32 then l.authErr else l.authErr + 1)
      ∧ (t.func 0).tele.auth = (s.func 0).tele.auth + 1 ∧ t.mem = s.mem ∧ t.reqs = s.reqs)

/-- R321, R322: a control flit counts only if its CRC and tag hold and its counter is above the last one taken: an idle flit
acknowledges, a retry request has the stored flits sent again from its sequence on, a rekey flit moves the link to the next epoch
and key with its stored flits sealed anew. R322, R372: sixteen failed retries of the flit next in order, its first sending and
sixteen more having failed, retrain the link; a used-up numbering, of data sequences or of control counters, rekeys it; training begins epoch 0 with fresh sequences. -/
def ControlFlits : Prop :=
  ∀ (s : State) (port : Nat) (f : Flit),
    (∀ l, Store.find port s.links = some l →
      let good := flitSound f = true ∧ (∀ c, l.ctlIn = some c → c.toNat < (flitCounter f).toNat)
        ∧ f.tag = flitCtlTag f l.key l.far (Config.farPort port)
      let old := ∃ c, l.ctlIn = some c ∧ (flitCounter f).toNat ≤ c.toNat
      (good → f.kind = 1 → ∃ t, exec (.idleFlit port f) s = .next t
        ∧ OnlyLink s t port { l with ctlIn := some (flitCounter f), stored := unacked l f.acknowledged } [])
      ∧ (good → f.kind = 2 → ∃ t, exec (.retryRequest port f) s = .next t
        ∧ OnlyLink s t port { l with ctlIn := some (flitCounter f) }
          ((l.stored.filter (fun g => !above f.sequence g.sequence)).map (Msg.flit port)))
      ∧ (good → f.kind = 3 → ∃ t n, exec (.rekeyFlit port f) s = .next t ∧ OnlyLink s t port n (n.stored.map (Msg.flit port))
        ∧ n.epoch = l.epoch + 1 ∧ n.key = Config.nextKey l.key ∧ n.ctlOut = 0 ∧ n.ctlIn = none ∧ n.sendSeq = l.sendSeq
        ∧ n.stored.map (·.sequence) = l.stored.map (·.sequence))
      ∧ (flitSound f = true → old →
        (f.kind = 1 → exec (.idleFlit port f) s = .next s) ∧ (f.kind = 2 → exec (.retryRequest port f) s = .next s)
          ∧ (f.kind = 3 → exec (.rekeyFlit port f) s = .next s))
      ∧ (17 ≤ l.retries → ∃ t g, exec (.linkRetrain port) s = .next t ∧ OnlyLink s t port
        { l with retries := 0, ctlOut := l.ctlOut + 1, retrains := if l.retrains = BitVec.allOnes 32 then l.retrains else l.retrains + 1 }
          [.flit port g] ∧ g.kind = 2 ∧ g.sequence = l.recvSeq)
      ∧ (l.sendSeq = 0x7FFFFFFF → l.stored = [] → ∃ t n g, exec (.sequenceExhaustion port) s = .next t
        ∧ OnlyLink s t port n [.flit port g] ∧ g.kind = 3 ∧ g.sequence = 0 ∧ g.epoch = l.epoch
        ∧ n.epoch = l.epoch + 1 ∧ n.key = Config.nextKey l.key ∧ n.sendSeq = 0 ∧ n.stored = [] ∧ n.recvSeq = l.recvSeq)
      ∧ (l.sendSeq ≠ 0x7FFFFFFF → 0x7FFFFFFF ≤ l.ctlOut.toNat + 1 → ∃ t n g, exec (.sequenceExhaustion port) s = .next t
        ∧ OnlyLink s t port n (.flit port g :: n.stored.map (Msg.flit port)) ∧ g.kind = 3 ∧ g.sequence = l.sendSeq
        ∧ n.epoch = l.epoch + 1 ∧ n.key = Config.nextKey l.key ∧ n.sendSeq = l.sendSeq ∧ n.ctlOut = 0))
    ∧ ∀ key, port < 18 → ∃ t n, exec (.linkTraining port key) s = .next t ∧ OnlyLink s t port n []
      ∧ n.key = key ∧ n.epoch = 0 ∧ n.sendSeq = 0 ∧ n.recvSeq = 0 ∧ n.ctlOut = 0 ∧ n.ctlIn = none ∧ n.stored = []

/-- R321, R322 and R372. That a duplicate is taken with no retry asked for, that a control flit's counter is looked at before its
tag, that seventeen failures make sixteen retries, and the epoch and sequence of a rekey flit at exhaustion are the model's choices
(log 35). -/
def Obligations.FlitsArrive : Prop := DataFlits ∧ ControlFlits

/-! ### Collectives (R331 to R340) -/

/-- What a collective's events leave alone: yarns, strands, cores and routes. -/
def CollFrame (s t : State) : Prop :=
  t.yarns = s.yarns ∧ t.strands = s.strands ∧ t.cores = s.cores ∧ t.table = s.table ∧ t.hostMem = s.hostMem

/-- A pass goes on to the next member of its path, where that is another package that can be reached and no meter counts it. -/
def goesOn (s t : State) (v : Pass) : Prop :=
  v.hop < dN v.desc → passPeer v v.hop ≠ s.peer → s.reachable (passPeer v v.hop) = true → v.label ≠ 2 →
    t.outbox = s.outbox ++ [.pass (passPeer v v.hop) v]

/-- A pass with no knot is at its path's end: the combined chunk starts on its broadcast path (R333). -/
def getsPublished (t : State) (v : Pass) : Prop :=
  v.hop = dN v.desc → v.knot = none → ∃ b ∈ t.passes, b.phase = 2 ∧ b.chunk = v.chunk ∧ b.label = v.label ∧ b.hop = dN v.desc
    ∧ b.bytes = passResult { v with units := v.scales }

/-- A chunk's elements added to a pass with a lag (R334, R335). -/
def adds (p v : Pass) (f : Staged) (lag : Nat) : Prop :=
  let d := p.desc
  v.label = lmax p.label f.label
    ∧ (dNarrow d = false → p.elems ≠ [] → v.elems = p.elems.zipWith (fun a x =>
      BitVec.ofNat 64 (combineLate (dFormat d) (dCombine d) lag a.toNat x)) (wideElems d f.bytes))
    ∧ (dNarrow d = false → p.elems = [] → lag = 0 → v.elems = (wideElems d f.bytes).map (BitVec.ofNat 64))
    ∧ (dNarrow d = true → (v.elems, v.scales) = addNarrow d lag p.scales p.elems f.bytes)

/-- R332 to R335: a pass that comes to a member whose chunk is not in its round yet, and is ready, takes that chunk, marked present; to
one that is not, with a knot, it goes on with an absent mark, and without a knot it waits; a late chunk is added with its lag. A
scale agreement keeps each block's larger scale. At the end of a path with no knot the combined chunk is published. -/
def PassesCombine : Prop :=
  ∀ (s : State) (p : Pass), p ∉ s.passes → p.back = false → p.hop < dN p.desc → p.members.contains s.peer = true →
    passPeer p p.hop = s.peer →
    let me := p.members.findIdx (fun q => decide (q = s.peer))
    let fx := s.fixedFor p
    let mark := fun (v : Pass) (added : Bool) => v.marks = p.marks ++ [⟨me, p.round, added, false⟩]
    let rest := fun (v : Pass) =>
      { v with elems := p.elems, scales := p.scales, present := p.present, marks := p.marks, label := p.label } = { p with hop := p.hop + 1 }
    let moves := fun (Q : State → Pass → Prop) => ∃ t v, exec (.passArrival p) s = .next t ∧ CollFrame s t ∧ t.mem = s.mem
      ∧ t.launches = s.launches ∧ rest v ∧ goesOn s t v ∧ getsPublished t v ∧ Q t v
    let without := fun (t : State) (l : Nat) => t.staged = s.staged.filter (fun f => !(decide (f.launch = l) && decide (f.chunk = p.chunk)))
    p.present.getLsbD me = false → (∀ m ∈ p.marks, m.member ≠ me) → p.phase = 0 ∨ p.phase = 1 → s.mustAwait p = false →
    (∀ l f, fx.own = some l → fx.late = [] → s.stagedAt l p.chunk = some f →
      (p.phase = 1 → moves fun t v => adds p v f 0 ∧ mark v true ∧ v.present = p.present ||| (1#64 <<< me) ∧ without t f.launch)
      ∧ (p.phase = 0 → dNarrow p.desc = true → (∃ t, exec (.passArrival p) s = .next t ∧ CollFrame s t ∧ t.staged = s.staged
        ∧ ∀ v : Pass, v = { p with hop := p.hop + 1, label := lmax p.label f.label,
                                   scales := maxScales p.scales (blockScales p.desc f.bytes) } → goesOn s t v)))
    ∧ (fx.own = none → fx.late = [] → p.knot ≠ none → p.phase = 1 → p.hop + 1 < dN p.desc → moves fun t v =>
      v.elems = p.elems ∧ v.scales = p.scales ∧ v.label = p.label ∧ v.present = p.present ∧ mark v false ∧ t.staged = s.staged)
    ∧ (∀ l f, fx.own = none → fx.late = [l] → s.stagedAt l p.chunk = some f → f.weight = 1 → f.round ≠ p.round → p.phase = 1 →
      p.hop + 1 < dN p.desc → moves fun t v => adds p v f (p.round - f.round).toNat
        ∧ ⟨me, f.round, true, true⟩ ∈ v.marks ∧ ⟨me, p.round, false, false⟩ ∈ v.marks ∧ without t l)

/-- What member m wants of the passes that start here: each of their chunks that is not written yet (R333). -/
def wants (c : Coll) (m : Nat) (w : Nat × Nat) : Prop :=
  w.2 = m ∧ w.1 < dC c.desc ∧ w.1 % dN c.desc = c.me ∧ w.1 ∉ c.written

/-- R1, R331, R333: a chunk whose strand has ended is read into staging, where there is room for it, with its pages' highest label,
and its launch can no longer be replayed; the last one makes the launch ready, asks for the passes that start here and, with a knot,
tells the other members where passes start. One of label 3, or that cannot be read, ends the launch. R332: a pass without a knot
waits at a member that is not ready. R333: a pass starts from this member's chunk, or from the partial that came back, unless that
holds the chunks of all who want it; a start message makes chunks wanted by the member it comes from. -/
def ChunksFire : Prop :=
  (∀ (s : State) (l chunk : Nat) (L : Launch) (c : Coll), Store.find l s.launches = some L → Store.find l s.colls = some c →
    c.due.contains chunk = true → L.ending = none → L.unacked = [] → s.asking (.chunk l chunk) = false →
    s.stagedBytes = 0 ∨ s.stagedBytes + dChunk c.desc ≤ 8 * 10 ^ 9 →
    let n := dChunk c.desc
    let va := bSource c.bind + chunk * dStride c.desc
    let got := s.readChunk (.chunk l chunk) c.fn c.ceil va (pageCuts va (n / 4096 + 2) 0 n)
    let ends := fun (k : Byte) => ∃ t M, exec (.chunkFire l chunk) s = .next t ∧ t.mem = s.mem ∧ t.staged = s.staged
      ∧ Store.find l t.launches = some M ∧ M.ending = some ⟨1, k⟩
    (∀ bs lab, got = .ok (bs, lab) → lab ≠ 3 →
      let c1 : Coll := { c with due := c.due.erase chunk, fired := c.fired ++ [chunk] }
      let last := dC c.desc ≤ c.fired.length + 1
      ∃ t, exec (.chunkFire l chunk) s = .next t ∧ CollFrame s t ∧ t.mem = s.mem
        ∧ (∃ f, t.staged = (s.staged.map fun g => if last ∧ g.launch = l then { g with ready := true } else g) ++ [f]
          ∧ f.launch = l ∧ f.chunk = chunk ∧ f.bytes = bs ∧ f.label = lab ∧ f.round = c.round ∧ (f.ready = true ↔ last))
        ∧ Store.find l t.launches = some { L with replayable := false }
        ∧ (¬ last → Store.find l t.colls = some c1 ∧ t.outbox = s.outbox)
        ∧ (last → (∃ d, Store.find l t.colls = some d ∧ { d with wanted := c.wanted } = c1
            ∧ ∀ w, w ∈ d.wanted ↔ w ∈ c.wanted ∨ wants c c.me w)
          ∧ (c.knot = none → t.outbox = s.outbox)
          ∧ (c.knot ≠ none → ∀ j, j < min (dN c.desc) (dC c.desc) → j ≠ c.me →
            ∃ p, Msg.startPass (c.members.getD j 0) p ∈ t.outbox ∧ p.chunk = j ∧ p.knot = c.knot ∧ p.round = c.round
              ∧ p.present = 1#64 <<< c.me)))
    ∧ (∀ bs, got = .ok (bs, 3) → ends 0x04) ∧ ∀ k a, got = .fault k a → ends k)
  ∧ (∀ (s : State) (p : Pass), p ∉ s.passes → p.back = false → p.phase ≠ 2 → p.hop < dN p.desc → p.members.contains s.peer = true →
    passPeer p p.hop = s.peer → p.knot = none → (∀ l c, s.collOf p = some (l, c) → c.fired.length < dC c.desc) →
    exec (.passArrival p) s = .next { s with passes := s.passes ++ [p] })
  ∧ ∀ (s : State) (l chunk : Nat) (c : Coll), Store.find l s.colls = some c → dN c.desc ≠ 0 → chunk % dN c.desc = c.me →
    chunk < dC c.desc → c.written.contains chunk = false →
    let rest := c.wanted.filter (fun w => !decide (w.1 = chunk))
    ((∃ m, (chunk, m) ∈ c.wanted) → c.running.contains chunk = false →
      (s.passes = [] → c.members.contains s.peer = true →
        let s1 : State := { s with colls := Store.put l { c with wanted := rest, running := c.running ++ [chunk] } s.colls }
        let p : Pass := { launch := l, fn := c.fn, knot := c.knot, round := c.round, desc := c.desc, members := c.members,
                          chunk := chunk, phase := if dNarrow c.desc then 0 else 1 }
        ∃ t, exec (.passStart l { chunk := chunk }) s = .next t ∧ exec (.passArrival p) s1 = .next t)
      ∧ ∀ p, s.passes = [p] → p.back = true → p.chunk = chunk → p.knot = c.knot → p.round = c.round →
        (∀ m, (chunk, m) ∈ c.wanted → p.present.getLsbD m = true) →
        exec (.passStart l { chunk := chunk }) s = .next { s with colls := Store.put l { c with wanted := rest } s.colls })
    ∧ ∀ m, c.knot ≠ none → c.running.contains chunk = true →
      ∃ d, exec (.passStart l { chunk := chunk, ask := some m }) s = .next { s with colls := Store.put l d s.colls }
        ∧ { d with wanted := c.wanted } = c ∧ ∀ w, w ∈ d.wanted ↔ w ∈ c.wanted ∨ wants c m w

/-- R332, R333: a start message of a round to which no launch here is bound starts its passes here too, this member being passed
through as absent; one of a round that has closed here starts nothing. The model's choice (log 36). -/
def UnboundRoundsStart : Prop :=
  ∀ (s : State) (l chunk m : Nat) (p : Pass), p.knot ≠ none → s.collOf p = none → p.members.contains s.peer = true →
    let me := p.members.findIdx (fun q => decide (q = s.peer))
    let begins : PassWish := { chunk := chunk, ask := some m, of_ := some p }
    (s.closedHere p = true → exec (.passStart l begins) s = .next s)
    ∧ (s.closedHere p = false → (∀ d ∈ s.unbound, d.knot = p.knot → d.round ≠ p.round) → s.passes = [] → dN p.desc ≠ 0 →
      chunk % dN p.desc = me → chunk < dC p.desc →
      let q : Pass := { launch := l, fn := p.fn, knot := p.knot, round := p.round, desc := p.desc, members := p.members, chunk := chunk,
                        phase := if dNarrow p.desc then 0 else 1 }
      ∃ t c, exec (.passStart l begins) s = .next t ∧ c.knot = p.knot ∧ c.round = p.round ∧ c.running = [chunk]
        ∧ (∀ w, w ∈ c.wanted → w.2 = m ∧ w.1 ≠ chunk) ∧ exec (.passArrival q) { s with unbound := s.unbound ++ [c] } = .next t)

/-- R331 to R335. The model's choices in it: one staging room of the stacks' 8 GB and what lies in it (log 24), start messages and
the partials that start no pass (log 36), and that a chunk which cannot be read ends the launch (log 37). -/
def Obligations.CollectivesFireAndPass : Prop := PassesCombine ∧ ChunksFire ∧ UnboundRoundsStart

/-- A verdict's effect on a partial held for it: published, or sent back to its starting member (R333), where it is another
package's and of label 2 once the meter admits it (R336, R357). -/
def settledBy (t : State) (close : Bool) (me : Peer) (p : Pass) : Prop :=
  let d := p.members.getD (p.chunk % dN p.desc) 0
  let back : Pass := { p with hop := 0, back := true, turn := p.turn + 1 }
  if close then ∃ b ∈ t.passes, b.phase = 2 ∧ b.chunk = p.chunk ∧ b.label = p.label ∧ b.bytes = passResult p
  else if d = me then back ∈ t.passes
  else Msg.pass d back ∈ t.outbox ∨ (p.label = 2 ∧ back ∈ t.passes)

/-- R333, R336, R337, R339: the knot's home applies the contribution rule to a pass's marks in member order, answers CLOSE where the
round closed and SHORT, which it counts, where not; the answer publishes the partials that wait for it or sends them back, and is
kept for the chunks that have not come yet; and a published chunk is written to the result region and sent on, or, where a page cannot take it, ends its launch and leaves the region
as it was. Knot operations of other packages are performed at the home. The order of the marks, and an answer to every member, are the
model's choices (log 36), and so is that every fault at the result region ends the launch (log 37). -/
def Obligations.VerdictsAndResults : Prop :=
  (∀ (s : State) (home : Fab) (p : Pass) (e : Entry) (h : Holder), s.routeStore { fab := home } = .ok (e, h) → h.peer = s.peer →
    let q := backingOf e h home
    s.inSeal (BitVec.ofNat 57 q) = false → s.scrubHeld (BitVec.ofNat 57 q) = false → s.awayIn q 1088 = none →
    let a := ((knotOf (s.bytesAt q 1088)).applyMarks p.label (orderedMarks p)).1
    let close := !above p.round (kClosedTag a.desc)
    let k : Knot := if close then a else { a with desc := kSet a.desc 224 16 ((kShorts a.desc + 1) % 2 ^ 16) }
    ∃ t, exec (.verdict home p) s = .next t ∧ { t with mem := s.mem, inputs := s.inputs, outbox := s.outbox } = s
      ∧ t.bytesAt q 1088 = k.bytes ∧ (∀ a, a < q ∨ q + 1088 ≤ a → t.mem.byte a = s.mem.byte a)
      ∧ ∀ j, j < dN p.desc → p.members.getD j 0 ≠ s.peer → ∃ g, Msg.verdict (p.members.getD j 0) p close g ∈ t.outbox)
  ∧ (∀ (s : State) (v : Pass) (close : Bool) (home : Fab) (lag : List Byte), v.knot = some home →
    let waits := fun (p : Pass) => p.phase = 1 ∧ p.hop = dN v.desc ∧ p.back = false ∧ p.knot = v.knot ∧ p.round = v.round
      ∧ p.turn = v.turn
    let left := (List.range (dC v.desc)).filter fun k => !s.passes.any (fun p => decide (waits p) && decide (p.chunk = k))
    ∃ t, exec (.verdictAnswer v close lag) s = .next t ∧ CollFrame s t ∧ t.mem = s.mem
      ∧ (left ≠ [] → { knot := home, round := v.round, turn := v.turn, close := close, left := left } ∈ t.verdicts)
      ∧ (∀ p ∈ s.passes, waits p → settledBy t close s.peer p) ∧ ∀ p ∈ s.passes, ¬ waits p → p ∈ t.passes)
  ∧ (∀ (s : State) (p : Pass) (l : Nat) (c : Coll) (L : Launch), p.phase = 2 → dN p.desc ≠ 0 → p.members.contains s.peer = true →
    p ∉ s.passes → s.collOf p = some (l, c) → Store.find l s.colls = some c → Store.find l s.launches = some L → L.ending = none →
    p.sent = true → p.done < p.bytes.length → c.ceil ≤ 3 →
    let va := bResult c.bind + p.chunk * dStride c.desc
    let settled := fun (t : State) => ∃ d, Store.find l t.colls = some d ∧ p.chunk ∈ d.written ∧ t.passes = s.passes
    (s.resultBad c va p.bytes.length p.label = none → (va + p.done) % 32 + (p.bytes.length - p.done) ≤ 32 →
      ∀ pg q, writePlace s c.fn c.ceil p.label (va + p.done) pg q →
      ∃ t, exec (.broadcastHop p) s = .next t ∧ CollFrame s t ∧ settled t ∧ MemTakes s t q (p.bytes.drop p.done) pg)
    ∧ ∀ k, p.done = 0 → s.resultBad c va p.bytes.length p.label = some k →
      ∃ t M, exec (.broadcastHop p) s = .next t ∧ settled t ∧ t.mem = s.mem ∧ Store.find l t.launches = some M
        ∧ M.ending = some ⟨1, k⟩)
  ∧ (∀ (s : State) (p : Pass), p.phase = 2 → dN p.desc ≠ 0 → p.members.contains s.peer = true → p ∉ s.passes → s.collOf p = none →
    p.sent = false → p.hop + 1 < 2 * dN p.desc → passPeer p (p.hop + 1) ≠ s.peer → s.reachable (passPeer p (p.hop + 1)) = true →
    p.label ≠ 2 →
    ∃ t, exec (.broadcastHop p) s = .next t ∧ { t with
        passes := s.passes, tolls := s.tolls, outbox := s.outbox, unbound := s.unbound, lastRound := s.lastRound,
        verdicts := s.verdicts, fixedAt := s.fixedAt } = s
      ∧ t.outbox = s.outbox ++ [.published (passPeer p (p.hop + 1)) { p with hop := p.hop + 1, done := 0 }])
  ∧ ∀ (s : State) (r : Request) (q : Nat), r.kind = .knot → r.stage = .whole → Holds s r q → s.scrubHeld (BitVec.ofNat 57 q) = false →
    s.awayIn q 1088 = none → s.mem.label q ≠ 2 → s.mem.label q ≠ 3 → s.mem.poisonedIn q 1088 = false →
    let o := (knotAt s (BitVec.ofNat 57 q)).run r.op.toNat r.data r.data2
    ∃ t L, exec (.knotRequest r) s = .next t ∧ HolderFrame s t
      ∧ t.outbox = s.outbox ++ Msg.answer r.src r.id
          { src := s.peer, srcInc := s.inc, dstInc := r.srcInc, data := o.data, label := o.lab, load := L } ::
          (if r.op.toNat < 2 then [Msg.acked r.src { id := r.id, src := s.peer, srcInc := s.inc, dstInc := r.srcInc }] else [])
      ∧ (2 ≤ r.op.toNat → t.mem = s.mem)
      ∧ (r.op.toNat < 2 → t.bytesAt q 1088 = o.knot.bytes ∧ ∀ a, a < q ∨ q + 1088 ≤ a → t.mem.byte a = s.mem.byte a)

/-! ### The trusted firmware and the host (R115, R348, R355 to R366) -/

/-- The last entry appended to the log: chained to the one before it, numbered, and its hash the head (R359). -/
def Appends (s t : State) (kind : Byte) (fn : Nat) (detail : Nat) : Prop :=
  ∃ e, t.log.getLast? = some e ∧ e.kind = kind ∧ e.fn = BitVec.ofNat 8 fn ∧ e.detail = BitVec.ofNat 512 detail
    ∧ e.prev = s.logHead ∧ e.seq = s.logSeq ∧ t.logHead = Config.sha384 e.bytes ∧ t.logSeq = s.logSeq + 1

/-- What firmware actions leave alone: everything that a launch has, but for its memory. -/
def FirmFrame (s t : State) : Prop :=
  t.yarns = s.yarns ∧ t.strands = s.strands ∧ t.cores = s.cores ∧ t.launches = s.launches ∧ t.table = s.table

/-- An action that must be logged: done where the log has room for n entries, and held where it has not (R360). -/
def Logged (s : State) (i : Instr) (n : Nat) (done : State → Prop) : Prop :=
  (s.logShort n = false → ∃ t, exec i s = .next t ∧ FirmFrame s t ∧ done t)
    ∧ (s.logShort n = true → exec i s = .next { s with inputs := s.inputs ++ [i] })

/-- R348, R355, R357, R362, R364: a refill adds the meter's amount, up to its cap; a function's change of mode, to a protected one with
IDE on, is logged, draws or destroys its key and scrubs what it leaves; a release is scrubbed; and scrub clears bytes, labels and
poison upward, 64 KiB a step, once no other package owns a line of them. -/
def MetersModesAndScrub : Prop :=
  (∀ (s : State) (fn : Nat), fn < 8 → let f := s.func fn
    f.metAt + 2 ^ (10 + bitsAt f.metfill 32 5) ≤ s.now →
    ∃ t, exec (.meterRefill fn) s = .next t ∧ OnlyFunc s t fn
      ∧ (t.func fn).metbal.toNat = min (f.metbal.toNat + bitsAt f.metfill 0 32) f.metcap.toNat
      ∧ { t.func fn with metbal := f.metbal, metAt := f.metAt, metStalled := f.metStalled } = f)
  ∧ (∀ (s : State) (fn : Nat) (mode : BitVec 2), fn < 8 → mode ≠ 3 → mode ≠ (s.func fn).secmode →
    (mode = 2 → ∃ w ∈ (s.func fn).metreg, w.2.getLsbD 63 = true) → (s.func fn).secmode = 0 → s.ide = true →
    Logged s (.securityModeChange fn mode []) 1 fun t => t.mem = s.mem ∧ t.scrubs = s.scrubs
      ∧ Appends s t 0x0A fn (256 * mode.toNat) ∧ t.func fn = { s.func fn with secmode := mode, key := some s.keyDraws, tdispRun := true }
      ∧ t.keyDraws = s.keyDraws + 1 ∧ ∀ k, k ≠ fn → t.func k = s.func k)
  ∧ (∀ (s : State) (fn : Nat) (pfx : Fab) (len : Nat), fn < 8 → 12 ≤ len → len ≤ 57 → peerOf pfx = s.peer →
    pfx.toNat % 2 ^ (57 - len) = 0 → let r : Scrub := { base := pfx.toNat, len := 2 ^ (57 - len), fn := fn }
    Logged s (.rangeRelease fn pfx len) 1 (fun t => t.scrubs = s.scrubs ++ [r] ∧ t.mem = s.mem
      ∧ Appends s t 0x06 fn (pfx.toNat + 2 ^ 64 * 2 ^ (57 - len)))
    ∧ ((s.func fn).secmode ≠ 0 → Logged s (.securityModeChange fn 0 [(pfx, len)]) 2 fun t => t.scrubs = s.scrubs ++ [r]
      ∧ t.mem = s.mem ∧ t.func fn = { s.func fn with secmode := 0, key := none, tdispRun := false }))
  ∧ ∀ (s : State) (i : Nat) (r : Scrub), s.scrubs[i]? = some r → r.ptr < r.len →
    let n := min 65536 (r.len - r.ptr)
    let clears := fun (t : State) =>
      (∀ a, t.mem.byte a = if r.base + r.ptr ≤ a ∧ a < r.base + r.ptr + n then 0 else s.mem.byte a)
        ∧ (∀ a, r.base + r.ptr ≤ a → a < r.base + r.ptr + n → t.mem.label a = 0 ∧ t.mem.poisoned a = false)
    let in_ := fun (k : Nat) => r.base + r.ptr < 64 * (k + 1) ∧ 64 * k < r.base + r.ptr + n
    ((∃ c ∈ s.owners, in_ c.1) → s.recalling = [] → ∃ t k o, exec (.scrubStep i) s = .next t ∧ t.mem = s.mem ∧ t.scrubs = s.scrubs
      ∧ in_ k ∧ Store.find k s.owners = some o ∧ t.recalling = [k] ∧ t.outbox = s.outbox ++ [.recall o.1 (s.packetTo o.1) o.2]) ∧
    ((∀ c ∈ s.owners, ¬ in_ c.1) →
    (r.ptr + n < r.len → ∃ t, exec (.scrubStep i) s = .next t ∧ { t with mem := s.mem, scrubs := s.scrubs } = s ∧ clears t
      ∧ t.scrubs = s.scrubs.set i { r with ptr := r.ptr + n })
    ∧ (r.len ≤ r.ptr + n → s.logFull = false → ∃ t, exec (.scrubStep i) s = .next t ∧ FirmFrame s t ∧ clears t
      ∧ t.scrubs = s.scrubs.eraseIdx i ∧ Appends s t 0x07 r.fn (r.base + 2 ^ 64 * r.len)))

/-- R355, R358, R359, R360, R361: grants and seal windows are installed and removed, each logged, a window whose hash differs, or whose
key the function's sealing key pair does not unwrap, being refused and its refusal logged, once no other package owns a line of it;
acknowledged entries may be overwritten;
and the log's head and the measurements, with the sealing public keys, are answered with both signatures. -/
def GrantsWindowsAndEvidence : Prop :=
  (∀ (s : State) (fn slot : Nat), fn < 8 → slot < 8 →
    (∀ g : Grant, g.base.toNat % 64 = 0 → g.length % 64 = 0 → g.length ≤ 2 ^ 20 →
      Logged s (.grantInstall fn slot (some g)) 1 fun t => t.mem = s.mem
        ∧ Store.find slot (t.func fn).grants = some { g with used := 0 } ∧ Appends s t 0x03 fn (slot + 2 ^ 128 * g.hash.toNat)
        ∧ ∀ k, k ≠ slot → Store.find k (t.func fn).grants = Store.find k (s.func fn).grants)
    ∧ ∀ g, Store.find slot (s.func fn).grants = some g → Logged s (.grantInstall fn slot none) 1 fun t => t.mem = s.mem
        ∧ Store.find slot (t.func fn).grants = none ∧ Appends s t 0x03 fn (slot + 2 ^ 128 * g.hash.toNat))
  ∧ (∀ (s : State) (k : Nat) (w : SealWindow), k < 16 → Store.find k s.windows = none → 12 ≤ w.len → w.len ≤ 57 →
    peerOf w.pfx = s.peer → w.pfx.toNat % 2 ^ (57 - w.len) = 0 → w.fn < 8 →
    let good := Config.sha384 (s.bytesAt w.pfx.toNat (2 ^ (57 - w.len))) = w.hash
    let in_ := fun (j : Nat) => w.pfx.toNat < 64 * (j + 1) ∧ 64 * j < w.pfx.toNat + 2 ^ (57 - w.len)
    ((∃ c ∈ s.owners, in_ c.1) → s.recalling = [] → ∃ t j o, exec (.sealWindowInstall k w) s = .next t ∧ t.mem = s.mem
      ∧ t.windows = s.windows ∧ t.inputs = s.inputs ++ [.sealWindowInstall k w] ∧ in_ j ∧ Store.find j s.owners = some o
      ∧ t.outbox = s.outbox ++ [.recall o.1 (s.packetTo o.1) o.2]) ∧
    ((∀ c ∈ s.owners, ¬ in_ c.1) → Logged s (.sealWindowInstall k w) 1 fun t => t.mem = s.mem ∧ Appends s t 0x08 w.fn (k + 2 ^ 128 * w.hash.toNat)
      ∧ (∀ pair key, good → (s.func w.fn).sealer = some pair → Config.unwrapKey pair w.wrapped = some key →
        Store.find k t.windows = some { win := w, key := key })
      ∧ (¬ good ∨ (s.func w.fn).sealer = none ∨ (∀ pair, (s.func w.fn).sealer = some pair → Config.unwrapKey pair w.wrapped = none) →
        t.windows = s.windows)))
  ∧ (∀ (s : State) (k : Nat) (w : Sealed), Store.find k s.windows = some w →
    Logged s (.sealWindowRemove k) 2 fun t => t.mem = s.mem ∧ Store.find k t.windows = none
      ∧ ∃ e1 e2, t.log.drop (t.log.length - 2) = [e1, e2] ∧ e1.kind = 0x01 ∧ e1.fn = BitVec.ofNat 8 w.win.fn
        ∧ e1.detail = BitVec.ofNat 512 (k + 2 ^ 64 * w.used) ∧ e2.kind = 0x08 ∧ e2.prev = Config.sha384 e1.bytes)
  ∧ (∀ (s : State) (seq : Nat), seq < s.logSeq.toNat → s.logAcked.toNat ≤ seq → s.stallsHeld = 0 →
    exec (.logAcknowledge seq) s = .next { s with logAcked := BitVec.ofNat 64 (seq + 1) })
  ∧ ∀ (s : State) (nonce : List Byte),
    (s.logSeq ≠ 0 → let body := leBytes 8 (s.logSeq - 1).toNat ++ leBytes 48 s.logHead.toNat
      ∃ t, exec .logSignRequest s = .next t
        ∧ { t with logSigned := s.logSigned, logSig := s.logSig, outbox := s.outbox } = s ∧ t.logSigned = s.logSeq
        ∧ t.logSig = body ++ Config.ecdsaSign body ++ Config.lmsSign body ∧ t.outbox = s.outbox ++ [.mailbox 0 t.logSig])
    ∧ ∃ t m5 body, exec (.getMeasurements nonce) s = .next t ∧ { t with outbox := s.outbox } = s
      ∧ t.outbox = s.outbox ++ [.mailbox 0 (body ++ Config.ecdsaSign body ++ Config.lmsSign body)]
      ∧ body = leBytes 48 (Store.get 0 0 s.measures).toNat ++ leBytes 48 (Store.get 0 1 s.measures).toNat
        ++ leBytes 48 (Store.get 0 2 s.measures).toNat ++ leBytes 48 (Store.get 0 3 s.measures).toNat ++ leBytes 48 m5
        ++ (List.range 8).flatMap (fun k => ((s.func k).sealer.map Config.sealingPublic).getD []) ++ nonce

/-- R348, R355 to R364. The bit places of a log entry's detail are PRESUMED (log 39); a finished scrub's entry and which ranges are
scrubbed are the model's reading (log 38). -/
def Obligations.FirmwareActsAndLogs : Prop := MetersModesAndScrub ∧ GrantsWindowsAndEvidence

/-- R363: a bounce record whose tag is right is opened into its place of the channel's host range and the sequence goes on; one whose
tag is wrong puts the channel in RESYNC_REQUIRED, where records are dropped; a fresh key exchange opens it again, both sequences
at 0, and is logged. -/
def BounceRecords : Prop :=
  (∀ (s : State) (fn chan at_ : Nat) (data : List Byte) (tag : BitVec 128) (b : Bounce), Store.find chan (s.func fn).bounce = some b →
    data.length ≤ 4096 → at_ + data.length ≤ 2 ^ (57 - b.len) → fn < 8 → chan < 4 →
    let nonce : BitVec 96 := BitVec.ofNat 96 (b.inSeq % 2 ^ 64 + 2 ^ 72 * chan)
    let good := tag = Config.gcmTag b.key nonce [] data
    let now := fun (t : State) => Store.find chan (t.func fn).bounce
    let open_ := Config.gcmOpen b.key nonce data
    (b.resync = true → exec (.bounceRecord fn chan at_ data tag) s = .next s)
    ∧ (b.resync = false → good → ∃ t, exec (.bounceRecord fn chan at_ data tag) s = .next t
      ∧ { t with funcs := s.funcs, hostMem := s.hostMem } = s ∧ now t = some { b with inSeq := b.inSeq + 1 }
      ∧ ∀ k, k < min data.length open_.length → Store.get 0 (b.host + at_ + k) t.hostMem = open_.getD k 0)
    ∧ (b.resync = false → ¬ good → ∃ t, exec (.bounceRecord fn chan at_ data tag) s = .next t ∧ OnlyFunc s t fn
      ∧ now t = some { b with resync := true, part := [], by_ := none }))
  ∧ ∀ (s : State) (fn chan : Nat) (key : BitVec 256) (pfx : Fab) (len host : Nat), fn < 8 → chan < 4 → 12 ≤ len → len ≤ 57 →
    Logged s (.bounceResync fn chan key pfx len host) 1 fun t => t.mem = s.mem ∧ t.logSeq = s.logSeq + 1
      ∧ Store.find chan (t.func fn).bounce = some { pfx := pfx, len := len, host := host, key := key }

/-- R115, R117, R236, R366, R367: fid's attachment, where user debug is on and neither standby nor gating forbids it, and its end are
logged; its continue lets the function's
stopped yarns and held matrix contexts go on; vendor debug, where a mode stands above OPEN, first ends every launch, sets the modes
to OPEN with their keys destroyed and starts the scrubs. -/
def DebugSessions : Prop :=
  (∀ (s : State) (fn core : Nat) (c : Session), fn < 8 → s.power ≠ .standby → (s.coreAt core).gated = false →
    (s.debug = .user → (s.func fn).session = none → Logged s (.debugAttach fn core c) 1 fun t => t.mem = s.mem ∧ (t.func fn).session = some c
      ∧ ∃ d, Appends s t 0x04 fn d ∧ bitsAt (BitVec.ofNat 512 d) 32 32 = core % 2 ^ 32)
    ∧ (∀ d, (s.func fn).session = some d →
      (s.debug = .user → ∃ t, exec (.debugAttach fn core c) s = .next t ∧ OnlyFunc s t fn ∧ t.func fn = { s.func fn with session := some c })
      ∧ Logged s (.debugDetach fn core) 1 fun t => t.mem = s.mem ∧ (t.func fn).session = none ∧ ∃ d, Appends s t 0x04 fn d))
  ∧ (∀ (s : State) (fn : Nat), (∀ c ∈ s.launches, c.2.heldPolicy = false) →
    let mine := fun (x : Nat) => (s.launchOf (s.strandAt x)).fn = fn
    ∃ t, exec (.debugContinue fn none) s = .next t ∧ { t with yarns := s.yarns, strands := s.strands } = s
      ∧ (∀ y v, Store.find y s.yarns = some v → (mine v.strand → Store.find y t.yarns = some { v with stopped := false })
        ∧ (¬ mine v.strand → Store.find y t.yarns = some v))
      ∧ ∀ x u, Store.find x s.strands = some u → (mine x → Store.find x t.strands =
          some { u with ops := u.ops.map (fun o => { o with hold := false }) }) ∧ (¬ mine x → Store.find x t.strands = some u))
  ∧ ∀ (s : State) (ranges : List (Fab × Nat)), s.ownRanges ranges = true →
    let fns := (List.range 8).filter (fun k => decide ((s.func k).secmode ≠ 0))
    s.logShort (1 + fns.length + (if fns = [] then 0 else ranges.length)) = false →
    ∃ t, exec (.vendorDebugEntry ranges) s = .next t ∧ t.mem = s.mem ∧ t.debug = .vendor ∧ (∀ k, k < 8 → (t.func k).secmode = 0)
      ∧ (∀ k ∈ fns, (t.func k).key = none) ∧ (∃ e, t.log.getLast? = some e ∧ e.kind = 0x04 ∧ e.fn = 0xFF)
      ∧ (fns = [] → t.launches = s.launches ∧ t.yarns = s.yarns)
      ∧ (fns ≠ [] → (∀ l L, Store.find l s.launches = some L → ∃ M, Store.find l t.launches = some M ∧ ∃ k, M.ending = some k)
        ∧ t.scrubs.length = s.scrubs.length + ranges.length)

/-- R115, R117, R236, R363 and R366. That attaching and detaching are logged in every mode, and the place of the core in the detail,
are the model's choices (log 39); what vendor debug does rests on logs 12 and 38, what a bounce record is on log 25. -/
def Obligations.BounceAndDebugSessions : Prop := BounceRecords ∧ DebugSessions

/-! ### Power and reset (R364, R365, R367, R368, R371) -/

/-- What a change of power leaves alone: memory, what the host and the firmware hold, and the running launches. -/
def PowerFrame (s t : State) : Prop :=
  t.mem = s.mem ∧ t.hostMem = s.hostMem ∧ t.funcs = s.funcs ∧ t.launches = s.launches ∧ t.strands = s.strands ∧ t.yarns = s.yarns
    ∧ t.log = s.log ∧ t.logHead = s.logHead ∧ t.logSeq = s.logSeq ∧ t.scrubs = s.scrubs ∧ t.inc = s.inc ∧ t.keyDraws = s.keyDraws

/-- Whether a core is in its die's core map. -/
def inMap (t : State) (k : Nat) : Bool := (Store.get 0 (k / 48) t.coreMap).getLsbD (k % 48)

/-- R166, R235, R367: a core gated leaves the core map and, once no strand stands on it, loses its state; a die in retention keeps its
B stores; each comes back to the map when powered again. A core with no ready yarn stops its clock. Standby, entered once every
launch has ended, takes the links down and keeps the rest; when the package leaves it, the links that were up train again. The
package's register 0x1040 takes each of these commands. The arithmetic clock moves in steps of 100 MHz, not below 1.0 GHz. -/
def PowerStates : Prop :=
  (∀ (s : State) (die core : Nat), die < 4 → core < 48 → let k := 48 * die + core
    (s.holdsStrand k = false → ∃ t, exec (.corePowerGated die core) s = .next t ∧ PowerFrame s t ∧ inMap t k = false
      ∧ (t.coreAt k).gated = true ∧ (t.coreAt k).slots = [] ∧ (t.coreAt k).slice = [] ∧ (t.coreAt k).uses = []
      ∧ ∀ j, j ≠ k → t.coreAt j = s.coreAt j)
    ∧ (s.holdsStrand k = true → ∃ t, exec (.corePowerGated die core) s = .next t ∧ PowerFrame s t ∧ inMap t k = false
      ∧ t.inputs = s.inputs ++ [.corePowerGated die core] ∧ (t.coreAt k).slots = (s.coreAt k).slots)
    ∧ ((∀ c, c < 48 → s.holdsStrand (48 * die + c) = false) → ∃ t, exec (.dieRetention die) s = .next t ∧ PowerFrame s t
      ∧ t.retained.getLsbD die = true ∧ ∀ c, c < 48 → let j := 48 * die + c
        inMap t j = false ∧ (t.coreAt j).gated = true ∧ (t.coreAt j).slots = [] ∧ (t.coreAt j).slice = (s.coreAt j).slice)
    ∧ (s.power = .active → s.retained.getLsbD die = false → (Store.get 0 die s.fence).getLsbD core = false →
      ∃ t, exec (.powerActive die core) s = .next t ∧ PowerFrame s t ∧ inMap t k = true ∧ (t.coreAt k).gated = false)
    ∧ (s.power = .active → s.retained.getLsbD die = true → ∃ t, exec (.powerActive die core) s = .next t ∧ PowerFrame s t
      ∧ t.retained.getLsbD die = false ∧ ∀ c, c < 48 → (t.coreAt (48 * die + c)).gated = false
        ∧ inMap t (48 * die + c) = !(Store.get 0 die s.fence).getLsbD c)
    ∧ (s.power = .standby → ∃ t, exec (.powerActive die core) s = .next t ∧ t.power = .active ∧ PowerFrame s t ∧ t.outbox = s.outbox
      ∧ ∀ c ∈ s.links, c.2.slept = true → .portUp c.1 c.2.far c.2.trunk ∈ t.inputs ∧ ∃ key, .linkTraining c.1 key ∈ t.inputs)
    ∧ (s.recovery = false → ∀ w : DWord, w.toNat < 2 ^ 11 → bitsAt w 9 2 = die → bitsAt w 3 6 = core →
      ∀ c ∈ [(0, Instr.powerActive die core), (2, .corePowerGated die core), (3, .dieRetention die), (4, .packageStandby)],
        bitsAt w 0 3 = c.1 → ∀ t, exec c.2 { s with powerCmd := w.setWidth 32 } = .next t → exec (.registerWrite 0 0x1040 4 w) s = .next t))
  ∧ (∀ (s : State) (k : Nat), k < 192 → (s.coreAt k).clock ≠ s.readyOn k → ∃ t, exec (.coreClockGated k) s = .next t
    ∧ { t with cores := s.cores } = s ∧ t.coreAt k = { s.coreAt k with clock := s.readyOn k } ∧ ∀ j, j ≠ k → t.coreAt j = s.coreAt j)
  ∧ (∀ (s : State), (s.launches = [] → ∃ t, exec .packageStandby s = .next t ∧ t.power = .standby ∧ t.mem = s.mem ∧ t.inc = s.inc
      ∧ t.log = s.log ∧ t.logHead = s.logHead ∧ t.scrubs = s.scrubs ∧ t.keyDraws = s.keyDraws ∧ ((∀ c ∈ s.yarns, c.2.counted = []) → t.funcs = s.funcs)
      ∧ (∀ c ∈ t.links, c.2.up = false) ∧ ∀ c ∈ s.links, c.2.up = true → (c.1, { c.2 with up := false, slept := true }) ∈ t.links)
    ∧ (s.launches ≠ [] → exec .packageStandby s = .next { s with inputs := s.inputs ++ [.packageStandby] }))
  ∧ ∀ (s : State), (s.clock ≤ 2000 → exec (.powerCapStep true) s = .next { s with clock := s.clock + 100 })
    ∧ (1100 ≤ s.clock → exec (.powerCapStep false) s = .next { s with clock := s.clock - 100 })

/-- What outlives a reset: the log, its head and sequence, the scrub pointers and the incarnation in always-on storage, and the
host's own memory. -/
def KeptOverReset (s t : State) : Prop :=
  t.scrubs = s.scrubs ∧ t.hostMem = s.hostMem ∧ t.peer = s.peer ∧ t.keyDraws ≥ s.keyDraws

/-- R364, R365, R368, R371: at 105 degrees the clock drops, and at 115 the package resets, bring-up from the images it came up from
being its next input; after a reset nothing of a launch is left. A
trusted core that does not verify leaves only the recovery mailbox; otherwise the images are measured and logged, the service
firmware only where it verifies, and the links train; at some later moment (log 40) the incarnation rises by one and the package
announces its own /12 with sequence 1 and ceiling 0; and it is up once that announcement has converged. -/
def ResetAndBringUp : Prop :=
  ∀ (s : State), let bare := fun (t : State) => t.launches = [] ∧ t.strands = [] ∧ t.yarns = [] ∧ t.funcs = [] ∧ t.links = []
      ∧ t.reqs = [] ∧ t.passes = [] ∧ t.windows = [] ∧ KeptOverReset s t
    (∀ c, 115 ≤ c → ∃ t, exec (.thermalTrip c) s = .next t ∧ bare t ∧ t.booted = false ∧ t.log = s.log ∧ t.logHead = s.logHead
      ∧ t.logSeq = s.logSeq ∧ t.inc = s.inc ∧ t.boot = .dark ∧ t.inputs = .powerOnReset s.images :: s.inputs)
    ∧ (∀ c, 105 ≤ c → c < 115 → exec (.thermalTrip c) s = .next { s with clock := if 1100 ≤ s.clock then s.clock - 100 else s.clock })
    ∧ ∀ im : Images,
      (Config.signaturesVerify im.trusted = false → ∃ t, exec (.powerOnReset im) s = .next t ∧ bare t ∧ t.recovery = true
        ∧ t.booted = false ∧ t.inc = s.inc)
      ∧ (Config.signaturesVerify im.trusted = true → s.logShort 4 = false → ∃ t, exec (.powerOnReset im) s = .next t ∧ bare t
        ∧ t.recovery = false ∧ t.booted = false ∧ t.boot = .links ∧ t.images = im ∧ t.inc = s.inc ∧ t.table = []
        ∧ Store.get 0 0 t.measures = Config.sha384 im.rom ∧ Store.get 0 1 t.measures = Config.sha384 im.trusted
        ∧ Store.get 0 3 t.measures = Config.sha384 im.fuses
        ∧ (Config.signaturesVerify im.service = true → Store.get 0 2 t.measures = Config.sha384 im.service
          ∧ t.logSeq = s.logSeq + 4)
        ∧ (Config.signaturesVerify im.service = false → Store.get 0 2 t.measures = 0 ∧ t.logSeq = s.logSeq + 3))
    ∧ (s.boot = .links → s.bootOn = s ∨ ∃ k d h, s.bootOn.boot = .announcing k ∧ s.bootOn.booted = s.booted
      ∧ s.bootOn.inc = s.inc + 1 ∧ s.bootOn.entryOf (s.peer ++ (0 : BitVec 45)) 12 = some d ∧ d.holders = [h] ∧ h.peer = s.peer
      ∧ h.origin = s.peer ∧ h.kind = 0 ∧ h.seq = 1 ∧ h.ceiling = 0 ∧ h.inc = s.inc + 1)
    ∧ ∀ k, s.boot = .announcing k →
      s.bootOn = if Store.find k s.changes = none then { s with boot := .up, booted := true } else s

/-- R364, R365, R367, R368 and R371. That gating, retention and standby wait as inputs, what powerActive does first, the codes of the
power command, and what a reset keeps are the model's readings (log 40). -/
def Obligations.PowerAndReset : Prop := PowerStates ∧ ResetAndBringUp

/-! ### The whole machine: words, reset, the form of the state, and the step (R2, R27, R32 to R48, R371) -/

/-- The instructions that some words written out from the encoding tables stand for, one or more of each family (R32 to R48, R69,
R93, R136, R203, R243, R282, R313, R342). -/
def Obligations.DecodeWords : Prop :=
  ∀ p ∈ ([([0x83EA020D, 0x000007E1, 0],
      .mad { dst := .v 1, a := .special .coilX, b := .s 3, c := .special .fibreX, ty := .s32 }),
    ([0x82020265, 0x10120700, 0], .cmp { dst := .p 1, a := .v 2, b := .s 2, ty := .n32, sub := 2 }),
    ([0x000104FD, 0x000D0700, 0], .fcvt { dst := .v 2, a := .v 1, ty := .f32, src := .s32 }),
    ([0x00C10145, 0x20000700, 7], .braConditional { a := .pred 1, mods := 1, off := 7 }),
    ([0x00000141, 0x00000700, 5], .bra { off := 5 }),
    ([0x04060184], .sts { a := .v 6, b := .v 4, ty := .b32 }),
    ([0x00071180], .lds { dst := .v 8, a := .v 7, ty := .b32 }),
    ([0x94C801E8], .tlwait { a := .int 8, b := .s 20 }),
    ([0x00C007F8], .csrr { dst := .v 3, a := .int 0 }),
    ([0x00C201F9, 0x00020700, 0], .lblset { a := .int 2 })] : List (List Word × Instr)),
    decodeWords p.1 = .ok (p.2, [])

/-- R32 to R48: every well-formed encoded instruction is read back from its words, whatever words follow. -/
def Obligations.DecodeEncodeAgree : Prop :=
  ∀ (i : Instr) (rest : List Word), i.wf = true → i.op? ≠ none → decodeWords (encode i ++ rest) = .ok (i, rest)

/-- R33, R47: what the decoder accepts is a well-formed encoded instruction of the length its base word's [1:0] gives, 1, 3, 3 or 5
words, and the words after it are left. -/
def Obligations.DecodedIsWellFormed : Prop :=
  ∀ (ws rest : List Word) (i : Instr), decodeWords ws = .ok (i, rest) →
    i.wf = true ∧ (∃ x, i.op? = some x) ∧ ∃ w, ws.head? = some w ∧ rest = ws.drop (wordCount w)
      ∧ wordCount w = 1 + 2 * (w.extractLsb' 0 1).toNat + 2 * (w.extractLsb' 1 1).toNat ∧ wordCount w ≤ ws.length

/-- The state right after reset: no launch, strand, yarn or request; queues, fault queues, meters, policies and status registers of
every function zero; every core in its die's map and none fenced (R155, R166, R232, R235, R239, R311, R324, R356, R369, R370); bring-up
done, with the package's own /12 recorded (R371); memory and tables in canonical form. The peer number 0, the incarnation 1 and the
full core maps are the model's choice (log entry 6), and so is that every byte and label of memory reads zero (log entry 4). -/
def Obligations.ResetState : Prop :=
  let s := State.reset
  s.canonical = true ∧ s.ordered = true ∧ s.launches = [] ∧ s.strands = [] ∧ s.yarns = [] ∧ s.reqs = [] ∧ s.log = []
    ∧ (∀ fn, let f := s.func fn
      f.ptroot = 0 ∧ f.xldone = 0 ∧ f.fqbase = 0 ∧ f.fqctl = 0 ∧ f.fqwrite = 0 ∧ f.fqread = 0 ∧ f.policy = 0 ∧ f.annwin = 0
        ∧ f.backwin = 0 ∧ f.injlim = 0 ∧ f.fstatus = 0 ∧ f.metbal = 0 ∧ f.metfill = 0 ∧ f.metcap = 0 ∧ f.secmode = 0
        ∧ (∀ n, Store.get 0 n f.metreg = 0)
        ∧ ∀ q, (s.queue fn q).base = 0 ∧ (s.queue fn q).ctl = 0 ∧ (s.queue fn q).read = 0 ∧ (s.queue fn q).write = 0)
    ∧ (∀ d, d < 4 → Store.get 0 d s.coreMap = BitVec.allOnes 48 ∧ Store.get 0 d s.fence = 0)
    ∧ s.peer = 0 ∧ s.inc = 1 ∧ s.boot = .up ∧ s.booted = true ∧ (∃ e h, s.entryOf (s.peer ++ (0 : BitVec 45)) 12 = some e ∧ e.holders = [h] ∧ h.peer = s.peer
      ∧ h.kind = 0 ∧ h.seq = 1 ∧ h.ceiling = 0)
    ∧ ∀ a, s.mem.byte a = emptyByte ∧ s.mem.label a = 0 ∧ s.mem.poisoned a = false

/-- Every step keeps memory, and what launches saved of it, in canonical form. -/
def Obligations.StepKeepsCanonical : Prop :=
  ∀ s t : State, s.canonical = true → step s = .next t → t.canonical = true

/-- Every step keeps the numbered tables in rising order. -/
def Obligations.StepKeepsOrder : Prop :=
  ∀ s t : State, s.ordered = true → step s = .next t → t.ordered = true

/-- R27, R102: where a group's turn to issue comes and no breakpoint names its instruction, the step runs the instruction its buffered
clause holds there, its quadrant being inside its clause; where an event or an input is next, the step runs that. What fid catches
is stopped, and the step is counted and time passes (log entry 3). -/
def Obligations.StepRunsDecoded : Prop :=
  (∀ (s : State) (y g : Nat) (i : Instr) (v : Yarn) (G : Group), s.turn = some (.issue y g) → Store.find y s.yarns = some v →
    v.group g = some G → s.breaksAt y g = false →
    decodeAt G.clause.w1 G.clause.code.length G.idx (G.clause.code.getD G.idx []) = .ok i →
    (∀ u, exec i (s.issuing y g) = .next u → step s = .next ((u.watched s).after s (.issue y g)))
    ∧ (∀ f, exec i (s.issuing y g) = .fault f → step s = .fault f)
    ∧ (∀ r, exec i (s.issuing y g) = .refused r → step s = .refused r))
  ∧ (∀ (s : State) (e : Instr) (u : State), s.turn = some (.event e) → exec e { s with turn := none, cur := none } = .next u →
    step s = .next ((u.watched s).after s (.event e)))
  ∧ (∀ (s : State) (k : Nat) (e : Instr) (u : State), s.turn = some (.input k) → s.inputs[k]? = some e →
    exec e { s with turn := none, cur := none, inputs := s.inputs.eraseIdx k } = .next u →
    step s = .next ((u.watched s).after s (.input k)))
  ∧ ∀ (s : State) (y g : Nat), (s.issuing y g).cur = some (y, g) ∧ (s.issuing y g).turn = none
    ∧ { s.issuing y g with cores := s.cores, yarns := s.yarns, turn := s.turn, cur := s.cur } = s
    ∧ ∀ z l, (s.issuing y g).fibre z l = s.fibre z l
end

