-- ==== Sys2Proof/Laws/Store.lean ====
section
/-! SUPPORT. Laws of sparse tables: a read after a write, writes leave other keys alone, and the canonical form is kept. -/

namespace Sys2Proof.Laws

variable {α : Type}

/-- Every key of a table is above a bound. -/
def Above (b : Nat) (t : Store α) : Prop := ∀ c ∈ t, b < c.1

@[simp] theorem above_nil (b : Nat) : Above b ([] : Store α) := by simp [Above]

@[simp] theorem above_cons (b : Nat) (c : Nat × α) (t : Store α) :
    Above b (c :: t) ↔ b < c.1 ∧ Above b t := by simp [Above]

theorem rising_cons (c : Nat × α) (t : Store α) :
    Store.rising (c :: t) = true ↔ Above c.1 t ∧ Store.rising t = true := by
  obtain ⟨j, v⟩ := c
  induction t generalizing j v with
  | nil => simp [Store.rising]
  | cons d t ih =>
    obtain ⟨k, w⟩ := d
    simp only [Store.rising, Bool.and_eq_true, decide_eq_true_eq, above_cons, ih]
    constructor
    · rintro ⟨h, h1, h2⟩
      exact ⟨⟨h, fun c hc => Nat.lt_trans h (h1 c hc)⟩, h1, h2⟩
    · rintro ⟨⟨h, -⟩, h1, h2⟩
      exact ⟨h, h1, h2⟩

theorem drop_sub (k : Nat) (t : Store α) : ∀ c ∈ Store.drop k t, c ∈ t ∧ c.1 ≠ k := by
  induction t with
  | nil => simp [Store.drop]
  | cons d t ih =>
    obtain ⟨j, v⟩ := d
    intro c hc
    by_cases h : j = k
    · simp only [Store.drop, h, if_true] at hc
      exact ⟨List.mem_cons_of_mem _ (ih c hc).1, (ih c hc).2⟩
    · simp only [Store.drop, h, if_false, List.mem_cons] at hc
      rcases hc with rfl | hc
      · exact ⟨List.mem_cons_self, h⟩
      · exact ⟨List.mem_cons_of_mem _ (ih c hc).1, (ih c hc).2⟩

theorem drop_rising (k : Nat) (t : Store α) (h : Store.rising t = true) : Store.rising (Store.drop k t) = true := by
  induction t with
  | nil => simpa [Store.drop] using h
  | cons d t ih =>
    obtain ⟨j, v⟩ := d
    rw [rising_cons] at h
    by_cases e : j = k
    · simpa [Store.drop, e] using ih h.2
    · simp only [Store.drop, e, if_false, rising_cons]
      exact ⟨fun c hc => h.1 c (drop_sub k t c hc).1, ih h.2⟩

theorem insert_mem (k : Nat) (v : α) (t : Store α) (c : Nat × α) :
    c ∈ Store.insert k v t ↔ c = (k, v) ∨ c ∈ t := by
  induction t with
  | nil => simp [Store.insert]
  | cons d t ih =>
    obtain ⟨j, u⟩ := d
    by_cases h : k < j <;> simp [Store.insert, h, ih, or_left_comm]

theorem insert_rising (k : Nat) (v : α) (t : Store α) (h : Store.rising t = true) (hk : ∀ c ∈ t, c.1 ≠ k) :
    Store.rising (Store.insert k v t) = true := by
  induction t with
  | nil => simp [Store.insert, Store.rising]
  | cons d t ih =>
    obtain ⟨j, u⟩ := d
    have hj : j ≠ k := hk (j, u) List.mem_cons_self
    rw [rising_cons] at h
    by_cases e : k < j
    · rw [Store.insert, if_pos e, rising_cons, above_cons, rising_cons]
      exact ⟨⟨e, fun c hc => Nat.lt_trans e (h.1 c hc)⟩, h.1, h.2⟩
    · simp only [Store.insert, e, if_false, rising_cons]
      refine ⟨fun c hc => ?_, ih h.2 fun c hc => hk c (List.mem_cons_of_mem _ hc)⟩
      rcases (insert_mem k v t c).1 hc with rfl | hc
      · exact Nat.lt_of_le_of_ne (Nat.le_of_not_lt e) hj
      · exact h.1 c hc

/-- A table with a key set keeps its keys rising. -/
theorem put_rising (k : Nat) (v : α) (t : Store α) (h : Store.rising t = true) : Store.rising (Store.put k v t) = true :=
  insert_rising k v _ (drop_rising k t h) fun c hc => (drop_sub k t c hc).2

theorem find_drop_self (k : Nat) (t : Store α) : Store.find k (Store.drop k t) = none := by
  induction t with
  | nil => rfl
  | cons d t ih =>
    obtain ⟨j, v⟩ := d
    by_cases h : j = k <;> simp [Store.drop, Store.find, h, ih]

theorem find_drop_other (j k : Nat) (t : Store α) (h : j ≠ k) : Store.find j (Store.drop k t) = Store.find j t := by
  induction t with
  | nil => rfl
  | cons d t ih =>
    obtain ⟨i, v⟩ := d
    by_cases e : i = k
    · rw [Store.drop, if_pos e, Store.find, if_neg (show i ≠ j from fun x => h (x.symm.trans e)), ih]
    · rw [Store.drop, if_neg e, Store.find, Store.find, ih]

theorem find_insert_self (k : Nat) (v : α) (t : Store α) (hk : ∀ c ∈ t, c.1 ≠ k) :
    Store.find k (Store.insert k v t) = some v := by
  induction t with
  | nil => simp [Store.insert, Store.find]
  | cons d t ih =>
    obtain ⟨j, u⟩ := d
    have hj : j ≠ k := hk (j, u) List.mem_cons_self
    by_cases e : k < j
    · simp [Store.insert, Store.find, e]
    · simp [Store.insert, Store.find, e, hj, ih fun c hc => hk c (List.mem_cons_of_mem _ hc)]

theorem find_insert_other (j k : Nat) (v : α) (t : Store α) (h : j ≠ k) :
    Store.find j (Store.insert k v t) = Store.find j t := by
  induction t with
  | nil => simp [Store.insert, Store.find, h.symm]
  | cons d t ih =>
    obtain ⟨i, u⟩ := d
    by_cases e : k < i
    · simp [Store.insert, Store.find, e, h.symm]
    · simp [Store.insert, Store.find, e, ih]

/-- The cell just put is found. -/
@[simp] theorem find_put_self (k : Nat) (v : α) (t : Store α) : Store.find k (Store.put k v t) = some v :=
  find_insert_self k v _ fun c hc => (drop_sub k t c hc).2

/-- Putting a cell leaves every other key alone. -/
theorem find_put_other (j k : Nat) (v : α) (t : Store α) (h : j ≠ k) :
    Store.find j (Store.put k v t) = Store.find j t := by
  rw [Store.put, find_insert_other _ _ _ _ h, find_drop_other _ _ _ h]

theorem find_put (j k : Nat) (v : α) (t : Store α) :
    Store.find j (Store.put k v t) = if j = k then some v else Store.find j t := by
  by_cases h : j = k
  · simp [h]
  · simp [h, find_put_other]

@[simp] theorem find_nil (k : Nat) : Store.find k ([] : Store α) = none := rfl

/-- Cells changed under their keys are found under them. -/
theorem find_map {β : Type} (k : Nat) (f : Nat × α → β) (t : Store α) :
    Store.find k (t.map (fun c => (c.1, f c))) = (Store.find k t).map (fun v => f (k, v)) := by
  induction t with
  | nil => rfl
  | cons d t ih =>
    obtain ⟨j, v⟩ := d
    by_cases h : j = k
    · subst h; simp [Store.find]
    · simp [Store.find, h, ih]

/-- A cell that passes a test is still found among those that do. -/
theorem find_filter (k : Nat) (p : Nat × α → Bool) (t : Store α) (v : α) (h : Store.find k t = some v)
    (hp : p (k, v) = true) : Store.find k (t.filter p) = some v := by
  induction t with
  | nil => simp at h
  | cons d t ih =>
    obtain ⟨j, u⟩ := d
    by_cases e : j = k
    · subst e
      simp only [Store.find, if_true, Option.some.injEq] at h
      subst h
      simp [hp, Store.find]
    · simp only [Store.find, e, if_false] at h
      by_cases q : p (j, u) <;> simp [q, Store.find, e, ih h]

theorem mem_of_find (k : Nat) (t : Store α) (v : α) (h : Store.find k t = some v) : (k, v) ∈ t := by
  induction t with
  | nil => simp at h
  | cons d t ih =>
    obtain ⟨j, u⟩ := d
    by_cases e : j = k
    · subst e
      simp only [Store.find, if_true, Option.some.injEq] at h
      simp [h]
    · simp only [Store.find, e, if_false] at h
      exact List.mem_cons_of_mem _ (ih h)

section values

variable [DecidableEq α]

/-- A read after a write to the same key gives the value written. -/
@[simp] theorem get_set_self (d v : α) (k : Nat) (t : Store α) : Store.get d k (Store.set d k v t) = v := by
  by_cases h : v = d
  · simp [Store.get, Store.set, h, find_drop_self]
  · simp [Store.get, Store.set, h]

/-- A write leaves every other key alone. -/
theorem get_set_other (d v : α) (j k : Nat) (t : Store α) (h : j ≠ k) :
    Store.get d j (Store.set d k v t) = Store.get d j t := by
  by_cases e : v = d
  · simp [Store.get, Store.set, e, find_drop_other _ _ _ h]
  · simp [Store.get, Store.set, e, find_put_other _ _ _ _ h]

theorem get_set (d v : α) (j k : Nat) (t : Store α) :
    Store.get d j (Store.set d k v t) = if j = k then v else Store.get d j t := by
  by_cases h : j = k
  · simp [h]
  · simp [h, get_set_other]

@[simp] theorem wf_nil (d : α) : Store.wf d ([] : Store α) = true := rfl

theorem wf_iff (d : α) (t : Store α) : Store.wf d t = true ↔ Store.rising t = true ∧ ∀ c ∈ t, c.2 ≠ d := by
  simp [Store.wf]

/-- A table without a key keeps the canonical form. -/
theorem drop_wf (d : α) (k : Nat) (t : Store α) (h : Store.wf d t = true) : Store.wf d (Store.drop k t) = true := by
  rw [wf_iff] at h ⊢
  exact ⟨drop_rising k t h.1, fun c hc => h.2 c (drop_sub k t c hc).1⟩

/-- Putting a value other than the default keeps the canonical form. -/
theorem put_wf (d : α) (k : Nat) (v : α) (t : Store α) (hv : v ≠ d) (h : Store.wf d t = true) :
    Store.wf d (Store.put k v t) = true := by
  rw [wf_iff] at h ⊢
  refine ⟨put_rising k v t h.1, fun c hc => ?_⟩
  rcases (insert_mem k v _ c).1 hc with rfl | hc
  · exact hv
  · exact h.2 c (drop_sub k t c hc).1

/-- A write keeps the canonical form. -/
theorem set_wf (d v : α) (k : Nat) (t : Store α) (h : Store.wf d t = true) : Store.wf d (Store.set d k v t) = true := by
  by_cases e : v = d
  · simpa [Store.set, e] using drop_wf d k t h
  · simpa [Store.set, e] using put_wf d k v t e h

/-- A table kept to the cells that pass a test keeps the canonical form. -/
theorem filter_wf (d : α) (p : Nat × α → Bool) (t : Store α) (h : Store.wf d t = true) :
    Store.wf d (t.filter p) = true := by
  rw [wf_iff] at h ⊢
  refine ⟨?_, fun c hc => h.2 c (List.mem_filter.1 hc).1⟩
  have hr := h.1
  clear h
  induction t with
  | nil => rfl
  | cons c t ih =>
    rw [rising_cons] at hr
    by_cases e : p c
    · rw [List.filter_cons_of_pos e, rising_cons]
      exact ⟨fun a ha => hr.1 a (List.mem_filter.1 ha).1, ih hr.2⟩
    · rw [List.filter_cons_of_neg e]
      exact ih hr.2

end values

end Sys2Proof.Laws
end

