-- ==== Sys2Proof/Laws/Lanes.lean ====
section
/-! SUPPORT. Laws of lanes, registers, predicates and banks, and of what a computing instruction writes. -/

namespace Sys2Proof.Machine

open Sys2Proof.Laws

/-! ### Masks -/

theorem mem_lanesOf (m : Mask) (l : Nat) : l ∈ lanesOf m ↔ m.getLsbD l = true := by
  simp only [lanesOf, List.mem_filter, List.mem_range, and_iff_right_iff_imp]
  exact fun h => by_contra fun e => by simp [BitVec.getLsbD_of_ge m l (by omega)] at h

theorem lanesOf_nodup (m : Mask) : (lanesOf m).Nodup := List.nodup_range.filter _

theorem executing_nodup (y : Yarn) (g : Group) (gd : Guard) : (y.executing g gd).Nodup := (lanesOf_nodup _).filter _

theorem lanes_nodup (i : Issuer) (x : Args) : (i.lanes x).Nodup := executing_nodup _ _ _

theorem lanes_sub (i : Issuer) (x : Args) (l : Nat) (h : l ∈ i.lanes x) : i.g.lanes.getLsbD l = true :=
  (mem_lanesOf _ _).1 (List.mem_filter.1 h).1

/-! ### Registers and predicates -/

@[simp] theorem reg_setReg (v : Lane) (m n : Nat) (x : RegVal) :
    (v.setReg m x).reg n = if n = m then x else v.reg n := get_set _ _ _ _ _

@[simp] theorem setReg_preds (v : Lane) (m : Nat) (x : RegVal) : (v.setReg m x).preds = v.preds := rfl
@[simp] theorem setReg_pred (v : Lane) (m : Nat) (x : RegVal) (p : BitVec 3) : (v.setReg m x).pred p = v.pred p := rfl
@[simp] theorem setReg_active (v : Lane) (m : Nat) (x : RegVal) : (v.setReg m x).active = v.active := rfl
@[simp] theorem setReg_exited (v : Lane) (m : Nat) (x : RegVal) : (v.setReg m x).exited = v.exited := rfl
@[simp] theorem setReg_parked (v : Lane) (m : Nat) (x : RegVal) : (v.setReg m x).parked = v.parked := rfl
@[simp] theorem setReg_wbase (v : Lane) (m : Nat) (x : RegVal) : (v.setReg m x).wbase = v.wbase := rfl
@[simp] theorem setReg_linear (v : Lane) (m : Nat) (x : RegVal) : (v.setReg m x).linear = v.linear := rfl
@[simp] theorem setReg_monitor (v : Lane) (m : Nat) (x : RegVal) : (v.setReg m x).monitor = v.monitor := rfl

/-- Everything of a fibre but its registers. -/
def Lane.rest (v : Lane) : Lane := { v with regs := [] }

@[simp] theorem setReg_rest (v : Lane) (m : Nat) (x : RegVal) : (v.setReg m x).rest = v.rest := rfl

/-- A killed register reads as zero with label 0; the others stand (R51). -/
theorem kill_reg (v : Lane) (ns : List Nat) (n : Nat) : (v.kill ns).reg n = if n ∈ ns then {} else v.reg n := by
  induction ns generalizing v with
  | nil => simp [Lane.kill]
  | cons m ns ih =>
    rw [show v.kill (m :: ns) = (v.setReg m {}).kill ns from rfl, ih]
    by_cases h : n ∈ ns <;> by_cases e : n = m <;> simp [h, e]

@[simp] theorem kill_rest (v : Lane) (ns : List Nat) : (v.kill ns).rest = v.rest := by
  induction ns generalizing v with
  | nil => rfl
  | cons m ns ih => rw [show v.kill (m :: ns) = (v.setReg m {}).kill ns from rfl, ih, setReg_rest]

theorem rest_preds {v w : Lane} (h : v.rest = w.rest) : v.preds = w.preds := by
  simpa [Lane.rest] using congrArg Lane.preds h

theorem rest_pred {v w : Lane} (h : v.rest = w.rest) (p : BitVec 3) : v.pred p = w.pred p := by
  simp [Lane.pred, rest_preds h]

@[simp] theorem kill_pred (v : Lane) (ns : List Nat) (p : BitVec 3) : (v.kill ns).pred p = v.pred p :=
  rest_pred (kill_rest v ns) p

/-- The high and the low half of a value, joined. -/
theorem append_halves (x : DWord) : x.extractLsb' 32 32 ++ x.setWidth 32 = x := by
  ext j hj
  rw [← BitVec.getLsbD_eq_getElem, ← BitVec.getLsbD_eq_getElem, BitVec.getLsbD_append]
  by_cases h : j < 32
  · simp [h]
  · have e : 32 + (j - 32) = j := by omega
    have k : j - 32 < 32 := by omega
    simp [h, e, k]

/-- A register or pair just written reads back, cut to its width. -/
theorem read_writeReg (v : Lane) (n : Nat) (wide : Bool) (x : DWord) (l : Label) :
    (v.writeReg n wide x l).read n wide = ⟨fitWidth wide x, l⟩ := by
  cases wide
  · simp [Lane.writeReg, Lane.read, fitWidth]
  · simp only [Lane.writeReg, Lane.read, fitWidth, if_true, reg_setReg]
    have : n ≠ n + 1 := by omega
    simp only [this, if_false]
    congr 1
    · exact append_halves x
    · simp [lmax]

/-- Writing a register or pair leaves the others alone. -/
theorem writeReg_reg (v : Lane) (n : Nat) (wide : Bool) (x : DWord) (l : Label) (m : Nat)
    (h : m ≠ n) (hw : wide = true → m ≠ n + 1) : (v.writeReg n wide x l).reg m = v.reg m := by
  cases wide
  · simp [Lane.writeReg, h]
  · simp [Lane.writeReg, h, hw rfl]

@[simp] theorem writeReg_rest (v : Lane) (n : Nat) (wide : Bool) (x : DWord) (l : Label) :
    (v.writeReg n wide x l).rest = v.rest := by
  cases wide <;> rfl

theorem setPred_of_ne (v : Lane) (p : BitVec 3) (b : Bool) (h : p ≠ 7) :
    v.setPred p b = { v with preds := if b then v.preds ||| (1#7 <<< p.toNat) else v.preds &&& ~~~(1#7 <<< p.toNat) } :=
  if_neg h

theorem num_lt_seven {p : BitVec 3} (h : p ≠ 7) : p.toNat < 7 := by
  have := p.isLt
  have : p.toNat ≠ 7 := fun e => h (BitVec.eq_of_toNat_eq e)
  omega

/-- A predicate just written reads back, but for p7 (R34, R49). -/
theorem pred_setPred (v : Lane) (p q : BitVec 3) (b : Bool) (h : p ≠ 7) :
    (v.setPred p b).pred q = if q = p then b else v.pred q := by
  have hp := num_lt_seven h
  rw [setPred_of_ne v p b h]
  by_cases f : q = 7
  · subst f
    rw [if_neg (Ne.symm h)]
    rfl
  · have hq := num_lt_seven f
    unfold Lane.pred
    rw [if_neg f, if_neg f]
    by_cases e : q = p
    · subst e
      cases b <;> simp [hp]
    · have ne : q.toNat ≠ p.toNat := fun g => e (BitVec.eq_of_toNat_eq g)
      cases b <;> simp [e, hq] <;> omega

/-- A write to p7 is discarded (R34). -/
@[simp] theorem setPred_seven (v : Lane) (b : Bool) : v.setPred 7 b = v := by simp [Lane.setPred]

@[simp] theorem setPred_reg (v : Lane) (p : BitVec 3) (b : Bool) (n : Nat) : (v.setPred p b).reg n = v.reg n := by
  unfold Lane.setPred
  split <;> rfl

/-! ### Lanes of a yarn -/

@[simp] theorem lane_setLane (y : Yarn) (l m : Nat) (v : Lane) :
    (y.setLane l v).lane m = if m = l then v else y.lane m := get_set _ _ _ _ _

@[simp] theorem setLane_bank (y : Yarn) (l : Nat) (v : Lane) : (y.setLane l v).bank = y.bank := rfl
@[simp] theorem setLane_frays (y : Yarn) (l : Nat) (v : Lane) : (y.setLane l v).frays = y.frays := rfl
@[simp] theorem setLane_groups (y : Yarn) (l : Nat) (v : Lane) : (y.setLane l v).groups = y.groups := rfl
@[simp] theorem setLane_bankOf (y : Yarn) (l : Nat) (v : Lane) (f : Option Nat) : (y.setLane l v).bankOf f = y.bankOf f := rfl

/-- Changing some lanes changes each of them by the function, and no other. -/
theorem mapLanes_lane (y : Yarn) (f : Nat → Lane → Lane) (ls : List Nat) (h : ls.Nodup) (m : Nat) :
    (y.mapLanes f ls).lane m = if m ∈ ls then f m (y.lane m) else y.lane m := by
  induction ls generalizing y with
  | nil => rfl
  | cons l ls ih =>
    rw [List.nodup_cons] at h
    rw [Yarn.mapLanes, ih _ h.2]
    by_cases e : m = l
    · subst e; simp [h.1]
    · simp [e]

/-- Everything of a yarn but its lanes. -/
def Yarn.rest (y : Yarn) : Yarn := { y with lanes := [] }

@[simp] theorem setLane_rest (y : Yarn) (l : Nat) (v : Lane) : (y.setLane l v).rest = y.rest := rfl

@[simp] theorem mapLanes_rest (y : Yarn) (f : Nat → Lane → Lane) (ls : List Nat) : (y.mapLanes f ls).rest = y.rest := by
  induction ls generalizing y with
  | nil => rfl
  | cons l ls ih => rw [Yarn.mapLanes, ih, setLane_rest]

theorem rest_bankOf {y z : Yarn} (h : y.rest = z.rest) (f : Option Nat) : y.bankOf f = z.bankOf f := by
  have hb : y.bank = z.bank := by simpa [Yarn.rest] using congrArg Yarn.bank h
  have hf : y.frays = z.frays := by simpa [Yarn.rest] using congrArg Yarn.frays h
  simp [Yarn.bankOf, hb, hf]

/-! ### Banks of a yarn -/

/-- The bank a group uses, just written, reads back, if its fray is there. -/
theorem bankOf_setBank (y : Yarn) (f : Option Nat) (b : Bank)
    (h : ∀ e, f = some e → (Store.find e y.frays).isSome = true) : (y.setBank f b).bankOf f = b := by
  cases f with
  | none => rfl
  | some e =>
    obtain ⟨r, hr⟩ := Option.isSome_iff_exists.1 (h e rfl)
    simp [Yarn.setBank, Yarn.bankOf, Store.modify, hr]

@[simp] theorem setBank_lane (y : Yarn) (f : Option Nat) (b : Bank) (l : Nat) : (y.setBank f b).lane l = y.lane l := by
  cases f <;> rfl

@[simp] theorem setBank_lanes (y : Yarn) (f : Option Nat) (b : Bank) : (y.setBank f b).lanes = y.lanes := by
  cases f <;> rfl

@[simp] theorem setBank_groups (y : Yarn) (f : Option Nat) (b : Bank) : (y.setBank f b).groups = y.groups := by
  cases f <;> rfl

@[simp] theorem scalar_setScalar (b : Bank) (m n : Nat) (x : RegVal) :
    (b.setScalar m x).scalar n = if n = m then x else b.scalar n := get_set _ _ _ _ _

/-- A scalar or pair just written reads back, cut to its width. -/
theorem read_writeScalar (b : Bank) (n : Nat) (wide : Bool) (x : DWord) (l : Label) :
    (b.writeScalar n wide x l).read n wide = ⟨fitWidth wide x, l⟩ := by
  cases wide
  · simp [Bank.writeScalar, Bank.read, fitWidth]
  · simp only [Bank.writeScalar, Bank.read, fitWidth, if_true, scalar_setScalar]
    have : n ≠ n + 1 := by omega
    simp only [this, if_false]
    congr 1
    · exact append_halves x
    · simp [lmax]

/-- Everything of a bank but its scalars. -/
def Bank.rest (b : Bank) : Bank := { b with scalars := [] }

@[simp] theorem writeScalar_rest (b : Bank) (n : Nat) (wide : Bool) (x : DWord) (l : Label) :
    (b.writeScalar n wide x l).rest = b.rest := by
  cases wide <;> rfl

theorem writeScalar_scalar (b : Bank) (n : Nat) (wide : Bool) (x : DWord) (l : Label) (m : Nat)
    (h : m ≠ n) (hw : wide = true → m ≠ n + 1) : (b.writeScalar n wide x l).scalar m = b.scalar m := by
  cases wide
  · simp [Bank.writeScalar, h]
  · simp [Bank.writeScalar, h, hw rfl]

end Sys2Proof.Machine
end

