-- ==== Sys2Proof/Laws/Compute.lean ====
section
/-! SUPPORT. Laws of what a computing instruction writes, and of how a group goes on past its instruction. -/

namespace Sys2Proof.Machine

open Sys2Proof.Laws

/-! ### Writing a destination -/

/-- One lane's result put into a destination that every lane has of its own. -/
def Lane.put (v : Lane) (d : Dest) (wide : Bool) (r : Res) : Lane :=
  match d with
  | .v n => v.writeReg n.toNat wide r.val r.lab
  | .p n => v.setPred n (decide (r.val ≠ 0))
  | _ => v

/-- Results put into a scalar destination: the lowest lane's stands (R54). -/
def Bank.put (b : Bank) (d : Dest) (wide : Bool) (rs : List Res) : Bank :=
  match d, rs with
  | .s n, r :: _ => b.writeScalar n.toNat wide r.val r.lab
  | _, _ => b

theorem foldl_setLane_lane (f : Lane → Res → Lane) (rs : List Res) (h : (rs.map (·.lane)).Nodup) (y : Yarn) :
    (∀ r ∈ rs, (rs.foldl (fun y r => y.setLane r.lane (f (y.lane r.lane) r)) y).lane r.lane = f (y.lane r.lane) r)
      ∧ ∀ m, m ∉ rs.map (·.lane) →
        (rs.foldl (fun y r => y.setLane r.lane (f (y.lane r.lane) r)) y).lane m = y.lane m := by
  induction rs generalizing y with
  | nil => simp
  | cons r rs ih =>
    rw [List.map_cons, List.nodup_cons] at h
    obtain ⟨h1, h2⟩ := ih h.2 (y.setLane r.lane (f (y.lane r.lane) r))
    constructor
    · intro q hq
      rcases List.mem_cons.1 hq with rfl | hq
      · rw [List.foldl_cons, h2 _ h.1, lane_setLane, if_pos rfl]
      · have ne : q.lane ≠ r.lane := fun e => h.1 (e ▸ List.mem_map_of_mem hq)
        rw [List.foldl_cons, h1 q hq, lane_setLane, if_neg ne]
    · intro m hm
      rw [List.map_cons, List.mem_cons, not_or] at hm
      rw [List.foldl_cons, h2 m hm.2, lane_setLane, if_neg hm.1]

theorem foldl_setLane_rest (f : Lane → Res → Lane) (rs : List Res) (y : Yarn) :
    (rs.foldl (fun y r => y.setLane r.lane (f (y.lane r.lane) r)) y).rest = y.rest := by
  induction rs generalizing y with
  | nil => rfl
  | cons r rs ih => rw [List.foldl_cons, ih, setLane_rest]

/-- Each lane with a result takes it, and no other lane changes (R50). -/
theorem writeDest_lane (y : Yarn) (f : Option Nat) (d : Dest) (wide : Bool) (rs : List Res)
    (h : (rs.map (·.lane)).Nodup) :
    (∀ r ∈ rs, (y.writeDest f d wide rs).lane r.lane = (y.lane r.lane).put d wide r)
      ∧ ∀ m, m ∉ rs.map (·.lane) → (y.writeDest f d wide rs).lane m = y.lane m := by
  cases d with
  | none => exact ⟨fun _ _ => rfl, fun _ _ => rfl⟩
  | v n => exact foldl_setLane_lane (fun v r => v.writeReg n.toNat wide r.val r.lab) rs h y
  | p n => exact foldl_setLane_lane (fun v r => v.setPred n (decide (r.val ≠ 0))) rs h y
  | s n => cases rs with
    | nil => exact ⟨fun _ hr => by simp at hr, fun _ _ => rfl⟩
    | cons r rs => exact ⟨fun q _ => by simp [Yarn.writeDest, Lane.put], fun m _ => by simp [Yarn.writeDest]⟩

/-- A bank after a destination is written: the lowest lane's value stands in a scalar (R54). -/
theorem writeDest_bankOf (y : Yarn) (f : Option Nat) (d : Dest) (wide : Bool) (rs : List Res)
    (h : ∀ e, f = some e → (Store.find e y.frays).isSome = true) :
    (y.writeDest f d wide rs).bankOf f = (y.bankOf f).put d wide rs := by
  cases d with
  | none => rfl
  | v n => exact rest_bankOf (foldl_setLane_rest (fun v r => v.writeReg n.toNat wide r.val r.lab) rs y) f
  | p n => exact rest_bankOf (foldl_setLane_rest (fun v r => v.setPred n (decide (r.val ≠ 0))) rs y) f
  | s n => cases rs with
    | nil => rfl
    | cons r rs => exact bankOf_setBank _ _ _ h

theorem rest_frays {y z : Yarn} (h : y.rest = z.rest) : y.frays = z.frays := by
  simpa [Yarn.rest] using congrArg Yarn.frays h

theorem rest_groups {y z : Yarn} (h : y.rest = z.rest) : y.groups = z.groups := by
  simpa [Yarn.rest] using congrArg Yarn.groups h

/-- Whether an entry is in use is not changed by writing a bank. -/
theorem setBank_entry (y : Yarn) (f : Option Nat) (b : Bank) (e : Nat) :
    (Store.find e (y.setBank f b).frays).isSome = (Store.find e y.frays).isSome := by
  cases f with
  | none => rfl
  | some k =>
    simp only [Yarn.setBank, Store.modify]
    cases hr : Store.find k y.frays with
    | none => rfl
    | some r =>
      simp only [find_put]
      by_cases h : e = k
      · subst h; simp [hr]
      · simp [h]

theorem writeDest_entry (y : Yarn) (f : Option Nat) (d : Dest) (wide : Bool) (rs : List Res) (e : Nat) :
    (Store.find e (y.writeDest f d wide rs).frays).isSome = (Store.find e y.frays).isSome := by
  cases d with
  | none => rfl
  | v n => rw [show (y.writeDest f (.v n) wide rs).frays = y.frays from
      rest_frays (foldl_setLane_rest (fun v r => v.writeReg n.toNat wide r.val r.lab) rs y)]
  | p n => rw [show (y.writeDest f (.p n) wide rs).frays = y.frays from
      rest_frays (foldl_setLane_rest (fun v r => v.setPred n (decide (r.val ≠ 0))) rs y)]
  | s n => cases rs with
    | nil => rfl
    | cons r rs => exact setBank_entry _ _ _ _

theorem writeDest_groups (y : Yarn) (f : Option Nat) (d : Dest) (wide : Bool) (rs : List Res) :
    (y.writeDest f d wide rs).groups = y.groups := by
  cases d with
  | none => rfl
  | v n => exact rest_groups (foldl_setLane_rest (fun v r => v.writeReg n.toNat wide r.val r.lab) rs y)
  | p n => exact rest_groups (foldl_setLane_rest (fun v r => v.setPred n (decide (r.val ≠ 0))) rs y)
  | s n => cases rs with
    | nil => rfl
    | cons r rs => exact setBank_groups _ _ _

@[simp] theorem raise_lane (y : Yarn) (f : Option Nat) (b : Word) (l : Nat) : (y.raise f b).lane l = y.lane l := by
  unfold Yarn.raise
  split
  · rfl
  · simp

@[simp] theorem raise_groups (y : Yarn) (f : Option Nat) (b : Word) : (y.raise f b).groups = y.groups := by
  unfold Yarn.raise
  split <;> simp

theorem raise_entry (y : Yarn) (f : Option Nat) (b : Word) (e : Nat) :
    (Store.find e (y.raise f b).frays).isSome = (Store.find e y.frays).isSome := by
  unfold Yarn.raise
  split
  · rfl
  · exact setBank_entry _ _ _ _

/-- A bank after sticky bits are set in it (R66, R204). -/
theorem raise_bankOf (y : Yarn) (f : Option Nat) (b : Word)
    (h : ∀ e, f = some e → (Store.find e y.frays).isSome = true) :
    (y.raise f b).bankOf f = (y.bankOf f).raise b := by
  unfold Yarn.raise
  split
  case isTrue e => rw [Bank.raise, e]; simp
  case isFalse => exact bankOf_setBank _ _ _ h

/-! ### What a computing instruction leaves in its yarn -/

variable (i : Issuer) (o : Op) (x : Args) (dw : Bool) (rs : List Res)

/-- A lane with a result: its last-read registers die and the result is put (R51, R52). -/
theorem computed_lane (h : (rs.map (·.lane)).Nodup) (r : Res) (hr : r ∈ rs) :
    (i.computed o x dw rs).lane r.lane = ((i.yarn.lane r.lane).kill (i.killed o x)).put x.dst dw r := by
  have hm : r.lane ∈ rs.map (·.lane) := List.mem_map_of_mem hr
  simp only [Issuer.computed, raise_lane]
  rw [(writeDest_lane _ _ _ _ _ h).1 r hr, mapLanes_lane _ _ _ h, if_pos hm]

/-- A lane without one does not change. -/
theorem computed_other (h : (rs.map (·.lane)).Nodup) (m : Nat) (hm : m ∉ rs.map (·.lane)) :
    (i.computed o x dw rs).lane m = i.yarn.lane m := by
  simp only [Issuer.computed, raise_lane]
  rw [(writeDest_lane _ _ _ _ _ h).2 m hm, mapLanes_lane _ _ _ h, if_neg hm]

theorem computed_entry (e : Nat) :
    (Store.find e (i.computed o x dw rs).frays).isSome = (Store.find e i.yarn.frays).isSome := by
  simp only [Issuer.computed]
  rw [raise_entry, writeDest_entry, rest_frays (mapLanes_rest _ _ _)]

theorem computed_groups : (i.computed o x dw rs).groups = i.yarn.groups := by
  simp only [Issuer.computed, raise_groups]
  rw [writeDest_groups, rest_groups (mapLanes_rest _ _ _)]

/-- The bank after it: a scalar destination written by the lowest lane, and the sticky bits of every result set. -/
theorem computed_bankOf (h : ∀ e, i.g.fray = some e → (Store.find e i.yarn.frays).isSome = true) :
    (i.computed o x dw rs).bankOf i.g.fray =
      (i.bank.put x.dst dw rs).raise (rs.foldl (fun b (r : Res) => b ||| r.bits) 0) := by
  have h1 : ∀ e, i.g.fray = some e →
      (Store.find e (i.yarn.mapLanes (fun _ v => v.kill (i.killed o x)) (rs.map (·.lane))).frays).isSome = true := by
    intro e he
    rw [rest_frays (mapLanes_rest _ _ _)]
    exact h e he
  simp only [Issuer.computed]
  rw [raise_bankOf _ _ _ fun e he => (writeDest_entry _ _ _ _ _ _).trans (h1 e he), writeDest_bankOf _ _ _ _ _ h1,
    rest_bankOf (mapLanes_rest _ _ _)]
  rfl

/-! ### Going on -/

theorem setGroup_lanes (y : Yarn) (g : Group) : (y.setGroup g).lanes = y.lanes := rfl

theorem arriveAt_spec (y : Yarn) (g : Group) (pc : BitVec 57) (t : Nat) :
    { y.arriveAt g pc t with groups := y.groups } = y := by
  unfold Yarn.arriveAt
  dsimp only
  split <;> rfl

/-- Going on past an instruction changes only the groups of a yarn. -/
theorem advance_spec (y : Yarn) (g : Group) (t : Nat) : { y.advance g t with groups := y.groups } = y := by
  unfold Yarn.advance
  split
  · exact arriveAt_spec _ _ _ _
  · rfl

theorem goOn_spec (y : Yarn) (g t : Nat) : { y.goOn g t with groups := y.groups } = y := by
  unfold Yarn.goOn
  split
  · split
    · rfl
    · exact advance_spec _ _ _
  · rfl

theorem advance_lanes (y : Yarn) (g : Group) (t : Nat) : (y.advance g t).lanes = y.lanes := by
  have := congrArg Yarn.lanes (advance_spec y g t); exact this

theorem advance_frays (y : Yarn) (g : Group) (t : Nat) : (y.advance g t).frays = y.frays := by
  have := congrArg Yarn.frays (advance_spec y g t); exact this

theorem advance_bank (y : Yarn) (g : Group) (t : Nat) : (y.advance g t).bank = y.bank := by
  have := congrArg Yarn.bank (advance_spec y g t); exact this

theorem advance_pend (y : Yarn) (g : Group) (t : Nat) : (y.advance g t).pend = y.pend := by
  have := congrArg Yarn.pend (advance_spec y g t); exact this

/-- Where a group that goes on stands, it has its fray and at least its lanes. -/
theorem advance_stands (y : Yarn) (g : Group) (t : Nat) (hg : g.lanes ≠ 0) (hm : ∃ h ∈ y.groups, h.id = g.id) :
    ∃ h ∈ (y.advance g t).groups, h.fray = g.fray ∧ h.lanes ≠ 0 := by
  obtain ⟨r, hr, he⟩ := hm
  have put : ∀ g' : Group, g'.id = g.id → g'.fray = g.fray → g'.lanes = g.lanes →
      ∃ h ∈ (y.setGroup g').groups, h.fray = g.fray ∧ h.lanes ≠ 0 := by
    intro g' h1 h2 h3
    refine ⟨g', List.mem_map.2 ⟨r, hr, ?_⟩, h2, h3 ▸ hg⟩
    rw [if_pos (he.trans h1.symm)]
  unfold Yarn.advance
  split
  · unfold Yarn.arriveAt
    dsimp only
    split
    case h_1 h hf =>
      have hp := List.find?_some hf
      have hmem := List.mem_of_find?_eq_some hf
      simp only [Bool.and_eq_true, decide_eq_true_eq] at hp
      refine ⟨{ h with lanes := h.lanes ||| g.lanes, arrival := min h.arrival t, rank := if t < h.arrival then 64 else h.rank }, ?_,
        hp.1.1.1.1, ?_⟩
      · refine List.mem_map.2 ⟨h, List.mem_filter.2 ⟨hmem, ?_⟩, if_pos rfl⟩
        simpa using hp.1.1.2
      · intro e
        apply hg
        have := congrArg (fun m => m &&& g.lanes) e
        exact (show h.lanes &&& g.lanes = 0#64 ∧ g.lanes = 0#64 by simpa [BitVec.and_or_distrib_right] using this).2
    case h_2 => exact put _ rfl rfl rfl
  · exact put _ rfl rfl rfl

end Sys2Proof.Machine
end

