-- ==== Sys2Proof/Laws/Done.lean ====
section
/-! SUPPORT. Laws of an instruction's end: what settling a yarn and going on change, and the one spec of an instruction that
only computes. -/

namespace Sys2Proof.Machine

open Sys2Proof.Laws

/-! ### Settling -/

/-- Everything of a bank but its flags. -/
def Bank.still (b : Bank) : Bank := { b with flags := 0 }

theorem still_scalar {b c : Bank} (h : b.still = c.still) (n : Nat) : b.scalar n = c.scalar n := by
  have := congrArg Bank.scalars h
  simp only [Bank.still] at this
  simp [Bank.scalar, this]

theorem still_read {b c : Bank} (h : b.still = c.still) (n : Nat) (w : Bool) : b.read n w = c.read n w := by
  simp [Bank.read, still_scalar h]

@[simp] theorem tidy_lanes (y : Yarn) : y.tidy.lanes = y.lanes := rfl
@[simp] theorem settleFlags_lanes (y : Yarn) : y.settleFlags.lanes = y.lanes := rfl
@[simp] theorem tidy_pend (y : Yarn) : y.tidy.pend = orphans y.tidy.frays y.pend := rfl
@[simp] theorem settleFlags_pend (y : Yarn) : y.settleFlags.pend = y.pend := rfl
@[simp] theorem settleFlags_groups (y : Yarn) : y.settleFlags.groups = y.groups := rfl

theorem settleFlags_bankOf (y : Yarn) (f : Option Nat) : (y.settleFlags.bankOf f).still = (y.bankOf f).still := by
  cases f with
  | none => rfl
  | some e =>
    simp only [Yarn.bankOf, Yarn.settleFlags]
    rw [find_map]
    cases Store.find e y.frays <;> rfl

/-- Settling flags keeps every fray. -/
theorem settleFlags_stands (y : Yarn) (e : Nat) :
    (Store.find e y.settleFlags.frays).isSome = (Store.find e y.frays).isSome := by
  simp only [Yarn.settleFlags]
  rw [find_map]
  cases Store.find e y.frays <;> rfl

/-- A bank whose fray has a group with fibres stands when the yarn is tidied. -/
theorem tidy_bankOf (y : Yarn) (f : Option Nat) (h : ∃ g ∈ y.groups, g.fray = f ∧ g.lanes ≠ 0) :
    y.tidy.bankOf f = y.bankOf f := by
  cases f with
  | none => rfl
  | some e =>
    obtain ⟨g, hg, hf, hl⟩ := h
    simp only [Yarn.bankOf, Yarn.tidy]
    cases hr : Store.find e y.frays with
    | none =>
      have : Store.find e (y.frays.filter (fun c =>
          decide (c.2.state = .parked) || (y.groups.filter (fun g => decide (g.lanes ≠ 0))).any (fun g =>
            decide (g.fray = some c.1)))) = none := by
        by_contra hn
        obtain ⟨v, hv⟩ := Option.ne_none_iff_exists'.1 hn
        have hm := (List.mem_filter.1 (mem_of_find _ _ _ hv)).1
        have key : ∀ t : Store Fray, (e, v) ∈ t → Store.find e t ≠ none := by
          intro t ht
          induction t with
          | nil => simp at ht
          | cons d t ih =>
            obtain ⟨j, u⟩ := d
            by_cases q : j = e
            · simp [Store.find, q]
            · simp only [Store.find, q, if_false]
              rcases List.mem_cons.1 ht with ht | ht
              · exact absurd (congrArg Prod.fst ht).symm q
              · exact ih ht
        exact key _ hm hr
      rw [this]
    | some v =>
      rw [find_filter e _ _ v hr]
      simp only [Bool.or_eq_true, List.any_eq_true, decide_eq_true_eq]
      exact .inr ⟨g, List.mem_filter.2 ⟨hg, by simpa using hl⟩, hf⟩

theorem over_false (y : Yarn) (h : ∃ l, (y.lane l).active = true) : y.over = false := by
  obtain ⟨l, hl⟩ := h
  simp only [Yarn.lane, Store.get] at hl
  cases hf : Store.find l y.lanes with
  | none => simp [hf] at hl
  | some v =>
    simp only [hf, Option.getD_some] at hl
    simp only [Yarn.over, List.all_eq_false, Bool.not_eq_true']
    exact ⟨(l, v), mem_of_find _ _ _ hf, by simp [hl]⟩

/-- Settling a yarn with an active fibre only puts its record. -/
theorem settleYarn_alive (s : State) (y : Nat) (v : Yarn) (h : ∃ l, (v.lane l).active = true) :
    s.settleYarn y v = s.setYarn y v.tidy.settleFlags := by
  have : v.tidy.settleFlags.over = false := over_false _ h
  simp [State.settleYarn, this]

/-! ### The end of an instruction -/

/-- Tidying a yarn keeps every group with fibres. -/
theorem mem_tidy {y : Yarn} {g : Group} {l : Nat} (h : g ∈ y.groups) (hl : g.lanes.getLsbD l = true) :
    g ∈ y.tidy.groups := by
  refine List.mem_filter.2 ⟨h, ?_⟩
  simp only [decide_eq_true_eq]
  rintro e
  simp [e] at hl

/-- Where a group goes on, each of its lanes is past its instruction, in the settled yarn too. -/
theorem advance_past {y : Yarn} {g : Group} (t : Nat) (hm : ∃ h ∈ y.groups, h.id = g.id) (l : Nat)
    (hl : g.lanes.getLsbD l = true) : (y.advance g t).tidy.settleFlags.pastIn g l := by
  obtain ⟨r, hr, he⟩ := hm
  have put : ∀ g' : Group, g'.id = g.id → g'.lanes = g.lanes → g' ∈ (y.setGroup g').tidy.groups := fun g' h1 h2 =>
    mem_tidy (List.mem_map.2 ⟨r, hr, if_pos (he.trans h1.symm)⟩) (h2 ▸ hl)
  unfold Yarn.pastIn Yarn.advance
  split
  · unfold Yarn.arriveAt
    dsimp only
    split
    case h_1 h hf =>
      have hp := List.find?_some hf
      have hmem := List.mem_of_find?_eq_some hf
      simp only [Bool.and_eq_true, decide_eq_true_eq] at hp
      refine ⟨_, mem_tidy (List.mem_map.2 ⟨h, List.mem_filter.2 ⟨hmem, by simpa using hp.1.1.2⟩, if_pos rfl⟩)
        (l := l) (by simp [hl]), by simp [hl], hp.1.1.1.2, ?_⟩
      simpa [or_assoc] using hp.2
    case h_2 => exact ⟨_, put _ rfl rfl, hl, rfl, .inl rfl⟩
  · exact ⟨_, put _ rfl rfl, hl, rfl, rfl, rfl, rfl, rfl⟩

theorem issuer_inv {s : State} {i : Issuer} (h : s.issuer = some i) :
    s.cur = some (i.y, i.g.id) ∧ Store.find i.y s.yarns = some i.yarn ∧ i.yarn.group i.g.id = some i.g
      ∧ i.strand = s.strandAt i.yarn.strand ∧ i.launch = s.launchOf i.strand := by
  unfold State.issuer at h
  split at h
  · cases h
  · rename_i y g hc
    split at h
    · cases h
    · rename_i Y hY
      split at h
      · cases h
      · rename_i G hG
        simp only [Option.some.injEq] at h
        subst h
        have hid : G.id = g := by
          have := List.find?_some hG
          simpa using this
        exact ⟨by simp [hc, hid], hY, by simpa [hid] using hG, rfl, rfl⟩

theorem issued_eq {s : State} {i : Issuer} (h : s.issuer = some i) (f : Issuer → State) :
    issued s f = .next (f i) := by
  simp [issued, h]

theorem group_mem {y : Yarn} {g : Nat} {G : Group} (h : y.group g = some G) : ∃ r ∈ y.groups, r.id = g :=
  ⟨G, List.mem_of_find?_eq_some h, by simpa using List.find?_some h⟩

theorem yarnAt_setYarn (s : State) (y z : Nat) (v : Yarn) :
    (s.setYarn y v).yarnAt z = if z = y then v else s.yarnAt z := by
  unfold State.yarnAt State.setYarn
  simp only [find_put]
  split <;> rfl

theorem onlyYarn_setYarn (s : State) (y : Nat) (v : Yarn) : OnlyYarn s (s.setYarn y v) y :=
  ⟨rfl, fun _ hz => find_put_other _ _ _ _ hz⟩

/-- Where every fray that something is pending in stands, nothing is orphaned. -/
theorem orphans_self (frays : Store Fray) (ps : List Pend)
    (h : ∀ p ∈ ps, ∀ e, p.fray = some e → (Store.find e frays).isSome = true) : orphans frays ps = ps := by
  unfold orphans
  conv_rhs => rw [← List.map_id ps]
  refine List.map_congr_left fun p hp => ?_
  cases hf : p.fray with
  | none => simp
  | some e => simp [h p hp e hf]

/-- An instruction done with a yarn of the issuer's groups and frays: nothing but that yarn changes, its fibres are those of
the yarn given, the issuer's bank too but for flags, of what is pending only what a fray that ends leaves changes, and every
lane of the group is past the instruction. -/
theorem done_spec {s : State} {i : Issuer} (h : Issues s i) (v : Yarn) (hg : v.groups = i.yarn.groups)
    (ha : ∃ l, (v.lane l).active = true) :
    OnlyYarn s (s.done i v) i.y ∧ (∀ l, (s.done i v).fibre i.y l = v.lane l)
      ∧ ((s.done i v).bankFor i).still = (v.bankOf i.g.fray).still
      ∧ ((s.done i v).yarnAt i.y).pend = orphans ((s.done i v).yarnAt i.y).frays v.pend
      ∧ ∀ l ∈ lanesOf i.g.lanes, (s.done i v).pastIn i l := by
  obtain ⟨-, -, h3, -, -⟩ := issuer_inv h.issuer
  have hgr : v.group i.g.id = some i.g := by simpa [Yarn.group, hg] using h3
  have hl := advance_lanes v i.g (i.cycles s)
  have ha' : ∃ l, ((v.advance i.g (i.cycles s)).lane l).active = true := by
    simpa [Yarn.lane, hl] using ha
  have hd : s.done i v = s.setYarn i.y (v.advance i.g (i.cycles s)).tidy.settleFlags := by
    unfold State.done
    rw [hgr, Option.getD_some, settleYarn_alive _ _ _ ha']
  rw [hd]
  refine ⟨onlyYarn_setYarn _ _ _, fun l => ?_, ?_, ?_, fun l hi => ?_⟩
  · simp [State.fibre, yarnAt_setYarn, Yarn.lane, hl]
  · simp only [State.bankFor, yarnAt_setYarn, if_true]
    rw [settleFlags_bankOf, tidy_bankOf]
    · have hb := advance_bank v i.g (i.cycles s)
      have hf := advance_frays v i.g (i.cycles s)
      simp [Yarn.bankOf, hb, hf]
    · exact advance_stands v i.g _ h.fibres (group_mem hgr)
  · simp only [yarnAt_setYarn, if_true, settleFlags_pend, tidy_pend, advance_pend]
    refine List.map_congr_left fun p _ => ?_
    cases p.fray with
    | none => rfl
    | some e => simp only [settleFlags_stands]
  · simp only [State.pastIn, yarnAt_setYarn, if_true]
    exact advance_past _ (group_mem hgr) _ ((mem_lanesOf _ _).1 hi)

/-! ### An instruction that only computes -/

/-- No result is refused where those that show carry no label above the ceiling. -/
theorem overCeil_none (i : Issuer) (x : Args) (a : DWord) (rs : List Res) (hl : rs.map (·.lane) = i.lanes x)
    (h : ∀ r ∈ rs, i.shows x r.lane → (∀ p, x.dst ≠ .p p) → r.lab.toNat ≤ i.ceil) : overCeil i.ceil x.dst a rs = [] := by
  have key : ∀ ts : List Res, (∀ r ∈ ts, r.lab.toNat ≤ i.ceil) →
      ts.filter (fun r => decide (i.ceil < r.lab.toNat)) = [] := by
    intro ts h
    rw [List.filter_eq_nil_iff]
    intro r hr
    simpa using h r hr
  unfold Issuer.shows at h
  cases hd : x.dst with
  | none => rfl
  | p n => rfl
  | v n =>
    simp only [overCeil]
    rw [key rs fun r hr => h r hr (by rw [hd]; exact hl ▸ List.mem_map_of_mem hr) (by simp [hd])]
    rfl
  | s n =>
    simp only [overCeil]
    rw [key _ fun r hr => h r (List.mem_of_mem_take hr) ?_ (by simp [hd])]
    · rfl
    · rw [hd, ← hl]
      cases rs with
      | nil => simp at hr
      | cons q rs => simp at hr; simp [hr]

theorem compute_eq (s : State) (i : Issuer) (o : Op) (x : Args) (rs : List Res)
    (h : overCeil i.ceil x.dst s.anyArg rs = []) :
    s.compute i o x rs = s.done i (i.computed o x (o.dWide x.ty x.sub x.mods) rs) := by
  simp [State.compute, h, State.finish]

/-- What an instruction that only computes leaves, whole: its results `rs`, one for each executing lane. -/
structure Computed (s : State) (i : Issuer) (o : Op) (x : Args) (rs : List Res) (t : State) : Prop where
  only : OnlyYarn s t i.y
  put : ∀ r ∈ rs, t.fibre i.y r.lane =
    ((i.yarn.lane r.lane).kill (i.killed o x)).put x.dst (o.dWide x.ty x.sub x.mods) r
  other : ∀ l, l ∉ i.lanes x → t.fibre i.y l = i.yarn.lane l
  bank : (t.bankFor i).still = ((i.bank.put x.dst (o.dWide x.ty x.sub x.mods) rs).raise (rs.foldl (fun b (r : Res) => b ||| r.bits) 0)).still
  past : ∀ l ∈ lanesOf i.g.lanes, t.pastIn i l

theorem rest_active {v w : Lane} (h : v.rest = w.rest) : v.active = w.active := by
  simpa [Lane.rest] using congrArg Lane.active h

theorem put_active (v : Lane) (d : Dest) (w : Bool) (r : Res) : (v.put d w r).active = v.active := by
  cases d with
  | none => rfl
  | s n => rfl
  | v n => exact rest_active (writeReg_rest v n.toNat w r.val r.lab)
  | p n => simp only [Lane.put, Lane.setPred]; split <;> rfl

theorem kill_active (v : Lane) (ns : List Nat) : (v.kill ns).active = v.active :=
  rest_active (kill_rest v ns)

/-- The spec of `compute` where no result's label exceeds the ceiling. -/
theorem compute_spec {s : State} {i : Issuer} (h : Issues s i) (o : Op) (x : Args) (rs : List Res)
    (hl : rs.map (·.lane) = i.lanes x)
    (hc : ∀ r ∈ rs, i.shows x r.lane → (∀ p, x.dst ≠ .p p) → r.lab.toNat ≤ i.ceil) :
    Computed s i o x rs (s.compute i o x rs) := by
  rw [compute_eq _ _ _ _ _ (overCeil_none i x _ rs hl hc)]
  have hn : (rs.map (·.lane)).Nodup := hl ▸ lanes_nodup i x
  have ha : ∃ l, ((i.computed o x (o.dWide x.ty x.sub x.mods) rs).lane l).active = true := by
    obtain ⟨l, hl⟩ := h.alive
    refine ⟨l, ?_⟩
    by_cases hm : l ∈ rs.map (·.lane)
    · obtain ⟨r, hr, rfl⟩ := List.mem_map.1 hm
      rw [computed_lane _ _ _ _ _ hn r hr, put_active, kill_active, hl]
    · rw [computed_other _ _ _ _ _ hn l hm, hl]
  obtain ⟨h1, h2, h3, -, h5⟩ := done_spec h _ (computed_groups i o x _ rs) ha
  refine ⟨h1, fun r hr => ?_, fun l hlx => ?_, ?_, h5⟩
  · rw [h2, computed_lane _ _ _ _ _ hn r hr]
  · rw [h2, computed_other _ _ _ _ _ hn l (hl ▸ hlx)]
  · rw [h3, computed_bankOf _ _ _ _ _ h.entry]

/-! ### Reading the results back -/

theorem fitWidth_idem (w : Bool) (v : DWord) : fitWidth w (fitWidth w v) = fitWidth w v := by
  cases w <;> simp [fitWidth]

/-- A result is what its destination holds afterwards, cut to the destination's width. -/
theorem Computed.shows {s t : State} {i : Issuer} {o : Op} {x : Args} {rs : List Res} (c : Computed s i o x rs t)
    (hl : rs.map (·.lane) = i.lanes x) (r : Res) (hr : r ∈ rs) (hs : i.shows x r.lane) :
    (t.destVal i x.dst (o.dWide x.ty x.sub x.mods) r.lane).val =
      match x.dst with
      | .p _ => bit (decide (r.val ≠ 0))
      | _ => fitWidth (o.dWide x.ty x.sub x.mods) r.val := by
  unfold Issuer.shows at hs
  cases hd : x.dst with
  | none => rw [hd] at hs; exact hs.elim
  | v n => simp only [State.destVal, c.put r hr, hd, Lane.put, read_writeReg]
  | p n =>
    rw [hd] at hs
    simp only [State.destVal, c.put r hr, hd, Lane.put]
    rw [pred_setPred _ _ _ _ hs.1, if_pos rfl]
  | s n =>
    rw [hd, ← hl] at hs
    have hb := c.bank
    cases rs with
    | nil => simp at hr
    | cons q rs =>
      have hq : q.lane = r.lane := by simpa using hs
      have hqr : q = r := by
        rcases List.mem_cons.1 hr with rfl | hm
        · rfl
        · have hn : ((q :: rs).map (·.lane)).Nodup := hl ▸ lanes_nodup i x
          rw [List.map_cons, List.nodup_cons] at hn
          exact absurd (hq ▸ List.mem_map_of_mem hm) hn.1
      subst hqr
      rw [hd] at hb
      simp only [State.destVal]
      rw [still_read hb]
      have : ∀ (b : Bank) (k : Word) (m : Nat) (w : Bool), (b.raise k).read m w = b.read m w := fun _ _ _ _ => rfl
      rw [this, Bank.put, read_writeScalar]

/-- Its label, where the destination carries one. -/
theorem Computed.label {s t : State} {i : Issuer} {o : Op} {x : Args} {rs : List Res} (c : Computed s i o x rs t)
    (hl : rs.map (·.lane) = i.lanes x) (r : Res) (hr : r ∈ rs) (hs : i.shows x r.lane) :
    (t.destVal i x.dst (o.dWide x.ty x.sub x.mods) r.lane).lab =
      match x.dst with
      | .p _ => 0
      | _ => r.lab := by
  unfold Issuer.shows at hs
  cases hd : x.dst with
  | none => rw [hd] at hs; exact hs.elim
  | v n => simp only [State.destVal, c.put r hr, hd, Lane.put, read_writeReg]
  | p n => rfl
  | s n =>
    rw [hd, ← hl] at hs
    have hb := c.bank
    cases rs with
    | nil => simp at hr
    | cons q rs =>
      have hq : q.lane = r.lane := by simpa using hs
      have hqr : q = r := by
        rcases List.mem_cons.1 hr with rfl | hm
        · rfl
        · have hn : ((q :: rs).map (·.lane)).Nodup := hl ▸ lanes_nodup i x
          rw [List.map_cons, List.nodup_cons] at hn
          exact absurd (hq ▸ List.mem_map_of_mem hm) hn.1
      subst hqr
      rw [hd] at hb
      simp only [State.destVal]
      rw [still_read hb]
      have : ∀ (b : Bank) (k : Word) (m : Nat) (w : Bool), (b.raise k).read m w = b.read m w := fun _ _ _ _ => rfl
      rw [this, Bank.put, read_writeScalar]

/-! ### Frames -/

theorem foldl_bits (rs : List Res) (b : Word) : ∃ c, rs.foldl (fun b (r : Res) => b ||| r.bits) b = b ||| c := by
  induction rs generalizing b with
  | nil => exact ⟨0, by simp⟩
  | cons r rs ih =>
    obtain ⟨c, hc⟩ := ih (b ||| r.bits)
    exact ⟨r.bits ||| c, by rw [List.foldl_cons, hc, BitVec.or_assoc]⟩

theorem Computed.fibreFrame {s t : State} {i : Issuer} {o : Op} {x : Args} {rs : List Res} (c : Computed s i o x rs t)
    (hl : rs.map (·.lane) = i.lanes x) : FibreFrame i o x t := by
  intro l
  refine ⟨c.other l, fun hx => ?_⟩
  obtain ⟨r, hr, rfl⟩ := List.mem_map.1 (hl ▸ hx)
  have hp := c.put r hr
  have hrest := kill_rest (i.yarn.lane r.lane) (i.killed o x)
  simp only [hp]
  have same : ∀ {v w : Lane}, v.rest = w.rest → v.active = w.active ∧ v.exited = w.exited ∧ v.parked = w.parked
      ∧ v.wbase = w.wbase ∧ v.linear = w.linear ∧ v.monitor = w.monitor := by
    intro v w h
    exact ⟨(congrArg Lane.active h :), (congrArg Lane.exited h :), (congrArg Lane.parked h :), (congrArg Lane.wbase h :),
      (congrArg Lane.linear h :), (congrArg Lane.monitor h :)⟩
  cases hd : x.dst with
  | none => exact ⟨fun n _ => kill_reg _ _ _, fun p _ => kill_pred _ _ _, same hrest⟩
  | s n => exact ⟨fun n _ => kill_reg _ _ _, fun p _ => kill_pred _ _ _, same hrest⟩
  | v n =>
    have hw := writeReg_rest ((i.yarn.lane r.lane).kill (i.killed o x)) n.toNat (o.dWide x.ty x.sub x.mods) r.val r.lab
    refine ⟨fun m hm => ?_, fun p _ => rest_pred (hw.trans hrest) p, same (hw.trans hrest)⟩
    obtain ⟨h1, h2⟩ := hm n rfl
    exact (writeReg_reg _ _ _ _ _ _ h1 h2).trans (kill_reg _ _ _)
  | p n =>
    refine ⟨fun m _ => (setPred_reg _ _ _ _).trans (kill_reg _ _ _), fun q hq => ?_, ?_⟩
    · by_cases h7 : n = 7
      · subst h7; exact (congrArg (Lane.pred · q) (setPred_seven _ _)).trans (kill_pred _ _ _)
      · simp only [Lane.put]
        rw [pred_setPred _ _ _ _ h7, if_neg fun e => hq (by rw [e]), kill_pred]
    · have := same hrest
      simp only [Lane.put, Lane.setPred]
      split <;> exact this

theorem put_scalar (b : Bank) (d : Dest) (w : Bool) (rs : List Res) (n : Nat)
    (h : ∀ k, d = .s k → n ≠ k.toNat ∧ (w = true → n ≠ k.toNat + 1)) : (b.put d w rs).scalar n = b.scalar n := by
  cases d with
  | s k => cases rs with
    | nil => rfl
    | cons r rs => exact writeScalar_scalar _ _ _ _ _ _ (h k rfl).1 (h k rfl).2
  | _ => cases rs <;> rfl

theorem put_rest (b : Bank) (d : Dest) (w : Bool) (rs : List Res) : (b.put d w rs).rest = b.rest := by
  cases d with
  | s k => cases rs with
    | nil => rfl
    | cons r rs => exact writeScalar_rest _ _ _ _ _
  | _ => cases rs <;> rfl

theorem or_masked (a k m : Word) : (a ||| (k &&& m)) &&& ~~~m = a &&& ~~~m := by
  ext j hj
  cases h : m[j] <;> simp [h]

theorem and_or_self (a k : Word) : a &&& (a ||| k) = a := by
  ext j hj
  cases h : a[j] <;> simp [h]

theorem Computed.bankFrame {s t : State} {i : Issuer} {o : Op} {x : Args} {rs : List Res} (c : Computed s i o x rs t) :
    BankFrame i o x t := by
  have hb := c.bank
  obtain ⟨k, hk⟩ := foldl_bits rs 0
  rw [hk] at hb
  have hr := put_rest i.bank x.dst (o.dWide x.ty x.sub x.mods) rs
  generalize hp : i.bank.put x.dst (o.dWide x.ty x.sub x.mods) rs = p at hb hr
  have e1 : i.bank.status = p.status := (congrArg Bank.status hr :).symm
  have hstat : (t.bankFor i).status = p.status ||| ((0 ||| k) &&& 0x7F) := (congrArg Bank.status hb :)
  refine ⟨fun n hn => ?_, ?_, ?_, ?_⟩
  · rw [still_scalar hb n, ← put_scalar i.bank x.dst (o.dWide x.ty x.sub x.mods) rs n hn, hp]
    rfl
  · rw [hstat, e1]
    exact or_masked _ _ _
  · rw [hstat, e1]
    exact and_or_self _ _
  · exact ⟨(congrArg Bank.ssw hb :).trans (congrArg Bank.ssw hr :),
      (congrArg Bank.floor hb :).trans (congrArg Bank.floor hr :),
      (congrArg Bank.xcause hb :).trans (congrArg Bank.xcause hr :),
      (congrArg Bank.xindex hb :).trans (congrArg Bank.xindex hr :),
      (congrArg Bank.xpc hb :).trans (congrArg Bank.xpc hr :), (congrArg Bank.xarg hb :).trans (congrArg Bank.xarg hr :),
      (congrArg Bank.xmask hb :).trans (congrArg Bank.xmask hr :)⟩

/-! ### What `Computes` asks -/

theorem foldl_congr {α β : Type} (f g : β → α → β) (l : List α) (b : β) (h : ∀ b, ∀ a ∈ l, f b a = g b a) :
    l.foldl f b = l.foldl g b := by
  induction l generalizing b with
  | nil => rfl
  | cons a l ih =>
    rw [List.foldl_cons, List.foldl_cons, h b a List.mem_cons_self]
    exact ih _ fun b c hc => h b c (List.mem_cons_of_mem _ hc)

/-- An instruction whose meaning is `compute` on results of the right lanes, values and labels. -/
theorem computes_of {o : Op} {r : Result} {free : State → Issuer → Args → Prop} (rs : State → Issuer → Args → List Res)
    (hx : ∀ s i x, x.wf o = true → s.issuer = some i → free s i x → exec (o.mk x) s = .next (s.compute i o x (rs s i x)))
    (hl : ∀ s i x, (rs s i x).map (·.lane) = i.lanes x)
    (hlab : ∀ s i x, x.wf o = true → (∀ p, x.dst ≠ .p p) → ∀ q ∈ rs s i x, q.lab = r.lab s i x q.lane)
    (hval : ∀ s i x, x.wf o = true → ∀ q ∈ rs s i x, i.shows x q.lane → r.val s i x q.lane (match x.dst with
      | .p _ => bit (decide (q.val ≠ 0))
      | _ => fitWidth (o.dWide x.ty x.sub x.mods) q.val))
    (hbits : ∀ s i x, x.wf o = true → ∀ q ∈ rs s i x, q.bits = r.bits s i x q.lane) :
    Computes o r free := by
  intro s i x hw h hf hc
  have hspec := compute_spec h o x (rs s i x) (hl s i x) fun q hq hs hp => by
    rw [hlab s i x hw hp q hq]
    exact hc _ hs hp
  refine ⟨_, hx s i x hw h.issuer hf, hspec.only, hspec.fibreFrame (hl s i x), hspec.bankFrame, ?_, hspec.past, fun l hs => ?_⟩
  · have hst := (congrArg Bank.status hspec.bank :)
    have hp := put_rest i.bank x.dst (o.dWide x.ty x.sub x.mods) (rs s i x)
    refine hst.trans ?_
    have key : (rs s i x).foldl (fun b (q : Res) => b ||| q.bits) 0
        = (i.lanes x).foldl (fun b l => b ||| r.bits s i x l) 0 := by
      rw [← hl s i x, List.foldl_map]
      exact foldl_congr _ _ _ _ fun b q hq => by rw [hbits s i x hw q hq]
    rw [← key]
    exact congrArg (· ||| _) (congrArg Bank.status hp :)
  have hmem : l ∈ i.lanes x := by
    unfold Issuer.shows at hs
    split at hs
    · exact hs.elim
    · exact hs
    · exact List.mem_of_head? hs
    · exact hs.2
  obtain ⟨q, hq, rfl⟩ := List.mem_map.1 (hl s i x ▸ hmem)
  refine ⟨?_, fun hp => ?_⟩
  · rw [hspec.shows (hl s i x) q hq hs]
    exact hval s i x hw q hq hs
  · rw [hspec.label (hl s i x) q hq hs, ← hlab s i x hw hp q hq]
    cases hd : x.dst with
    | p n => exact absurd hd (hp n)
    | _ => rfl

/-- A result as its destination shows it. -/
def shown (o : Op) (x : Args) (v : DWord) : DWord :=
  match x.dst with
  | .p _ => bit (decide (v ≠ 0))
  | _ => fitWidth (o.dWide x.ty x.sub x.mods) v

/-- An instruction whose meaning is `laneWise`. -/
theorem own_computes {o : Op} {R : Args → DWord → DWord → DWord → DWord → Prop} {B : Args → DWord → DWord → DWord → Word}
    (f : Args → DWord → DWord → DWord → DWord × Word)
    (hx : ∀ s i x, s.issuer = some i → exec (o.mk x) s = .next (s.laneWise i o x (f x)))
    (hval : ∀ s i x l, x.wf o = true → i.shows x l →
      R x (opA o s i x l).val (opB o s i x l).val (opC o s i x l).val
        (shown o x (f x (opA o s i x l).val (opB o s i x l).val (opC o s i x l).val).1))
    (hbits : ∀ s i x l, x.wf o = true → (f x (opA o s i x l).val (opB o s i x l).val (opC o s i x l).val).2
      = B x (opA o s i x l).val (opB o s i x l).val (opC o s i x l).val) :
    Computes o (own o R B) := by
  refine computes_of (fun s i x => (i.lanes x).map (fun l =>
    let a := opA o s i x l
    let b := opB o s i x l
    let c := opC o s i x l
    { lane := l, val := (f x a.val b.val c.val).1, lab := i.label [a, b, c], bits := (f x a.val b.val c.val).2 }))
    (fun s i x _ h _ => hx s i x h) (fun s i x => ?_) (fun s i x _ _ q hq => ?_) (fun s i x hw q hq hs => ?_)
    (fun s i x hw q hq => ?_)
  · simp [List.map_map, Function.comp_def]
  · obtain ⟨l, -, rfl⟩ := List.mem_map.1 hq
    rfl
  · obtain ⟨l, -, rfl⟩ := List.mem_map.1 hq
    exact hval s i x l hw hs
  · obtain ⟨l, -, rfl⟩ := List.mem_map.1 hq
    exact hbits s i x l hw

end Sys2Proof.Machine
end

