-- ==== Sys2Proof/Laws/Memory.lean ====
section
/-! SUPPORT. Laws of memory: a read after a write gives the bytes written, a write leaves every other byte, label and mark
alone, and every operation keeps the canonical form. -/

namespace Sys2Proof.Machine

open Sys2Proof.Laws

/-! ### The canonical form -/

theorem mem_wf_iff (m : Mem) : m.wf = true ↔ Store.wf emptyByte m.bytes = true ∧ Store.wf 0 m.labels = true
    ∧ Store.wf false m.poison = true ∧ Store.wf 0 m.stamps = true := by
  simp [Mem.wf, and_assoc]

theorem setByte_wf (m : Mem) (a : Nat) (b : Byte) (h : m.wf = true) : (m.setByte a b).wf = true := by
  rw [mem_wf_iff] at h ⊢
  exact ⟨set_wf _ _ _ _ h.1, h.2⟩

theorem setBytes_wf (m : Mem) (a : Nat) (bs : List Byte) (h : m.wf = true) : (m.setBytes a bs).wf = true := by
  induction bs generalizing m a with
  | nil => exact h
  | cons b t ih => exact ih _ _ (setByte_wf m a b h)

theorem setLabel_wf (m : Mem) (a : Nat) (l : Label) (h : m.wf = true) : (m.setLabel a l).wf = true := by
  rw [mem_wf_iff] at h ⊢
  exact ⟨h.1, set_wf _ _ _ _ h.2.1, h.2.2⟩

theorem setPoison_wf (m : Mem) (a : Nat) (p : Bool) (h : m.wf = true) : (m.setPoison a p).wf = true := by
  rw [mem_wf_iff] at h ⊢
  exact ⟨h.1, h.2.1, set_wf _ _ _ _ h.2.2.1, h.2.2.2⟩

theorem stamp_wf (m : Mem) (a n : Nat) (h : m.wf = true) : (m.stamp a n).wf = true := by
  have up : ∀ (m : Mem) (k v : Nat), m.wf = true → ({ m with stamps := Store.set 0 k v m.stamps } : Mem).wf = true := by
    intro m k v h
    rw [mem_wf_iff] at h ⊢
    exact ⟨h.1, h.2.1, h.2.2.1, set_wf _ _ _ _ h.2.2.2⟩
  unfold Mem.stamp
  dsimp only
  split
  · exact up _ _ _ h
  · exact up { m with stamps := Store.set 0 (a / 64) (Store.get 0 (a / 64) m.stamps + 1) m.stamps } _ _ (up m _ _ h)

/-- A write keeps the canonical form. -/
theorem write_wf (m : Mem) (a : Nat) (bs : List Byte) (l : Label) (h : m.wf = true) : (m.write a bs l).wf = true := by
  unfold Mem.write
  split
  · exact h
  · exact stamp_wf _ _ _ (setLabel_wf _ _ _ (setBytes_wf _ _ _ h))

/-- Scrubbing keeps the canonical form. -/
theorem clear_wf (m : Mem) (a n : Nat) (h : m.wf = true) : (m.clear a n).wf = true := by
  rw [mem_wf_iff] at h ⊢
  exact ⟨filter_wf _ _ _ h.1, filter_wf _ _ _ h.2.1, filter_wf _ _ _ h.2.2.1, h.2.2.2⟩

/-- Cells put one after another keep the canonical form, where none of them is the default. -/
theorem foldl_put_wf {α : Type} [DecidableEq α] (d : α) (cs t : Store α) (hc : ∀ c ∈ cs, c.2 ≠ d) (h : Store.wf d t = true) :
    Store.wf d (cs.foldl (fun t c => Store.put c.1 c.2 t) t) = true := by
  induction cs generalizing t with
  | nil => exact h
  | cons c cs ih =>
    exact ih (Store.put c.1 c.2 t) (fun e he => hc e (List.mem_cons_of_mem _ he)) (put_wf d c.1 c.2 t (hc c List.mem_cons_self) h)

theorem restoreRange_wf {α : Type} [DecidableEq α] (d : α) (r : Nat × Nat) (saved t : Store α) (hs : Store.wf d saved = true)
    (h : Store.wf d t = true) : Store.wf d (restoreRange r saved t) = true :=
  foldl_put_wf d _ _ (fun c hc => ((wf_iff d saved).1 hs).2 c (List.mem_filter.1 hc).1) (filter_wf _ _ _ h)

/-- Pages written back from a canonical snapshot keep the canonical form. -/
theorem restorePages_wf (m : Mem) (L : Launch) (rs : List (Nat × Nat)) (hb : Store.wf emptyByte L.snap = true)
    (hl : Store.wf 0 L.snapLabs = true) (h : m.wf = true) : (m.restorePages L rs).wf = true := by
  induction rs generalizing m with
  | nil => exact h
  | cons r t ih =>
    refine ih _ ?_
    rw [mem_wf_iff] at h ⊢
    exact ⟨restoreRange_wf _ _ _ _ hb h.1, restoreRange_wf _ _ _ _ hl h.2.1, h.2.2⟩

/-! ### Reads after writes -/

theorem byte_setByte (m : Mem) (a x : Nat) (b : Byte) : (m.setByte a b).byte x = if x = a then b else m.byte x := by
  simp only [Mem.byte, Mem.setByte, get_set]

/-- Every byte of memory after some were written from an address on. -/
theorem byte_setBytes (m : Mem) (a x : Nat) (bs : List Byte) :
    (m.setBytes a bs).byte x = if a ≤ x ∧ x < a + bs.length then bs.getD (x - a) 0 else m.byte x := by
  induction bs generalizing m a with
  | nil =>
    simp only [Mem.setBytes, List.length_nil, Nat.add_zero]
    rw [if_neg (by omega)]
  | cons b t ih =>
    rw [Mem.setBytes, ih, byte_setByte, List.length_cons]
    by_cases h : x = a
    · subst h
      rw [if_neg (by omega), if_pos rfl, if_pos (by omega)]
      simp
    · by_cases h1 : a + 1 ≤ x ∧ x < a + 1 + t.length
      · rw [if_pos h1, if_pos (by omega), show x - a = (x - (a + 1)) + 1 by omega]
        simp
      · rw [if_neg h1, if_neg h, if_neg (by omega)]

@[simp] theorem setBytes_labels (m : Mem) (a : Nat) (bs : List Byte) : (m.setBytes a bs).labels = m.labels := by
  induction bs generalizing m a with
  | nil => rfl
  | cons b t ih => exact ih (m.setByte a b) (a + 1)

@[simp] theorem setBytes_poison (m : Mem) (a : Nat) (bs : List Byte) : (m.setBytes a bs).poison = m.poison := by
  induction bs generalizing m a with
  | nil => rfl
  | cons b t ih => exact ih (m.setByte a b) (a + 1)

@[simp] theorem stamp_bytes (m : Mem) (a n : Nat) : (m.stamp a n).bytes = m.bytes := by
  unfold Mem.stamp
  dsimp only
  split <;> rfl

@[simp] theorem stamp_labels (m : Mem) (a n : Nat) : (m.stamp a n).labels = m.labels := by
  unfold Mem.stamp
  dsimp only
  split <;> rfl

@[simp] theorem stamp_poison (m : Mem) (a n : Nat) : (m.stamp a n).poison = m.poison := by
  unfold Mem.stamp
  dsimp only
  split <;> rfl

/-- Every byte of memory after a write (R248). -/
theorem byte_write (m : Mem) (a x : Nat) (bs : List Byte) (l : Label) :
    (m.write a bs l).byte x = if a ≤ x ∧ x < a + bs.length then bs.getD (x - a) 0 else m.byte x := by
  unfold Mem.write
  split
  · subst_vars
    rw [if_neg (by simp)]
  · rw [← byte_setBytes]
    simp [Mem.byte, Mem.setLabel]

/-- Every frame's label after a write: that of the frame written is the page's. -/
theorem label_write (m : Mem) (a x : Nat) (bs : List Byte) (l : Label) (h : bs ≠ []) :
    (m.write a bs l).label x = if x / 4096 = a / 4096 then l else m.label x := by
  simp [Mem.write, h, Mem.label, Mem.setLabel, get_set]

/-- A write leaves every poison mark. -/
theorem poisoned_write (m : Mem) (a x : Nat) (bs : List Byte) (l : Label) : (m.write a bs l).poisoned x = m.poisoned x := by
  unfold Mem.write
  split
  · rfl
  · simp [Mem.poisoned, Mem.setLabel]

theorem byte_setLabel (m : Mem) (a x : Nat) (l : Label) : (m.setLabel a l).byte x = m.byte x := rfl
theorem byte_setPoison (m : Mem) (a x : Nat) (p : Bool) : (m.setPoison a p).byte x = m.byte x := rfl
theorem label_setPoison (m : Mem) (a x : Nat) (p : Bool) : (m.setPoison a p).label x = m.label x := rfl

/-- Some bytes read from memory, each the byte at its place. -/
theorem read_getD (m : Mem) (a n i : Nat) (h : i < n) : (m.read a n).getD i 0 = m.byte (a + i) := by
  simp [Mem.read, List.getD, h]

/-- A read of the bytes just written gives them back. -/
theorem read_write (m : Mem) (a : Nat) (bs : List Byte) (l : Label) : (m.write a bs l).read a bs.length = bs := by
  refine List.ext_getElem (by simp [Mem.read]) fun i h1 h2 => ?_
  simp only [Mem.read, List.getElem_map, List.getElem_range, byte_write]
  rw [if_pos (by omega)]
  simp [List.getD, h2]

/-! ### The state's form at reset -/

theorem reset_mem_wf : State.reset.mem.wf = true := by decide

/-! ### What keeps the canonical form of a state -/

/-- Canonical: memory, and each launch's snapshot. -/
theorem canonical_iff (s : State) : s.canonical = true ↔ s.mem.wf = true ∧ ∀ c ∈ s.launches,
    Store.wf emptyByte c.2.snap = true ∧ Store.wf 0 c.2.snapLabs = true := by
  simp [State.canonical]

/-- A state with the same memory and launches is as canonical. -/
theorem canonical_same {s t : State} (hm : t.mem = s.mem) (hl : t.launches = s.launches) (h : s.canonical = true) :
    t.canonical = true := by
  rw [canonical_iff, hm, hl]
  exact (canonical_iff s).1 h

/-- Canonical memory put in place. -/
theorem canonical_mem {s : State} (m : Mem) (hm : m.wf = true) (h : s.canonical = true) :
    ({ s with mem := m } : State).canonical = true :=
  (canonical_iff _).2 ⟨hm, ((canonical_iff s).1 h).2⟩

/-- A launch's record put with a canonical snapshot. -/
theorem canonical_setLaunch {s : State} (l : Nat) (L : Launch) (hb : Store.wf emptyByte L.snap = true)
    (hl : Store.wf 0 L.snapLabs = true) (h : s.canonical = true) : (s.setLaunch l L).canonical = true := by
  rw [canonical_iff] at h ⊢
  refine ⟨h.1, fun c hc => ?_⟩
  rcases (insert_mem _ _ _ _).1 hc with rfl | hc
  · exact ⟨hb, hl⟩
  · exact h.2 c (drop_sub _ _ c hc).1

/-- The snapshot of any launch of a canonical state. -/
theorem canonical_find {s : State} (h : s.canonical = true) {l : Nat} {L : Launch} (hf : Store.find l s.launches = some L) :
    Store.wf emptyByte L.snap = true ∧ Store.wf 0 L.snapLabs = true :=
  ((canonical_iff s).1 h).2 _ (mem_of_find _ _ _ hf)

end Sys2Proof.Machine
end

