-- ==== Sys2Proof/Laws/State.lean ====
section
/-! SUPPORT. Laws of the state's updates: what each leaves alone, field by field, and what is read back after it. -/

namespace Sys2Proof.Machine

open Sys2Proof.Laws

/-! ### setFunc -/

@[simp] theorem setFunc_peer (s : State) (fn : Nat) (f : Func) : (s.setFunc fn f).peer = s.peer := rfl
@[simp] theorem setFunc_inc (s : State) (fn : Nat) (f : Func) : (s.setFunc fn f).inc = s.inc := rfl
@[simp] theorem setFunc_booted (s : State) (fn : Nat) (f : Func) : (s.setFunc fn f).booted = s.booted := rfl
@[simp] theorem setFunc_mem (s : State) (fn : Nat) (f : Func) : (s.setFunc fn f).mem = s.mem := rfl
@[simp] theorem setFunc_hostMem (s : State) (fn : Nat) (f : Func) : (s.setFunc fn f).hostMem = s.hostMem := rfl
@[simp] theorem setFunc_cores (s : State) (fn : Nat) (f : Func) : (s.setFunc fn f).cores = s.cores := rfl
@[simp] theorem setFunc_launches (s : State) (fn : Nat) (f : Func) : (s.setFunc fn f).launches = s.launches := rfl
@[simp] theorem setFunc_strands (s : State) (fn : Nat) (f : Func) : (s.setFunc fn f).strands = s.strands := rfl
@[simp] theorem setFunc_yarns (s : State) (fn : Nat) (f : Func) : (s.setFunc fn f).yarns = s.yarns := rfl
@[simp] theorem setFunc_table (s : State) (fn : Nat) (f : Func) : (s.setFunc fn f).table = s.table := rfl
@[simp] theorem setFunc_maxSeq (s : State) (fn : Nat) (f : Func) : (s.setFunc fn f).maxSeq = s.maxSeq := rfl
@[simp] theorem setFunc_issues (s : State) (fn : Nat) (f : Func) : (s.setFunc fn f).issues = s.issues := rfl
@[simp] theorem setFunc_stubs (s : State) (fn : Nat) (f : Func) : (s.setFunc fn f).stubs = s.stubs := rfl
@[simp] theorem setFunc_changes (s : State) (fn : Nat) (f : Func) : (s.setFunc fn f).changes = s.changes := rfl
@[simp] theorem setFunc_heldAcks (s : State) (fn : Nat) (f : Func) : (s.setFunc fn f).heldAcks = s.heldAcks := rfl
@[simp] theorem setFunc_routeEvent (s : State) (fn : Nat) (f : Func) : (s.setFunc fn f).routeEvent = s.routeEvent := rfl
@[simp] theorem setFunc_incs (s : State) (fn : Nat) (f : Func) : (s.setFunc fn f).incs = s.incs := rfl
@[simp] theorem setFunc_owners (s : State) (fn : Nat) (f : Func) : (s.setFunc fn f).owners = s.owners := rfl
@[simp] theorem setFunc_recalling (s : State) (fn : Nat) (f : Func) : (s.setFunc fn f).recalling = s.recalling := rfl
@[simp] theorem setFunc_ownedHere (s : State) (fn : Nat) (f : Func) : (s.setFunc fn f).ownedHere = s.ownedHere := rfl
@[simp] theorem setFunc_reqs (s : State) (fn : Nat) (f : Func) : (s.setFunc fn f).reqs = s.reqs := rfl
@[simp] theorem setFunc_bufs (s : State) (fn : Nat) (f : Func) : (s.setFunc fn f).bufs = s.bufs := rfl
@[simp] theorem setFunc_held (s : State) (fn : Nat) (f : Func) : (s.setFunc fn f).held = s.held := rfl
@[simp] theorem setFunc_revoked (s : State) (fn : Nat) (f : Func) : (s.setFunc fn f).revoked = s.revoked := rfl
@[simp] theorem setFunc_links (s : State) (fn : Nat) (f : Func) : (s.setFunc fn f).links = s.links := rfl
@[simp] theorem setFunc_loads (s : State) (fn : Nat) (f : Func) : (s.setFunc fn f).loads = s.loads := rfl
@[simp] theorem setFunc_loadAt (s : State) (fn : Nat) (f : Func) : (s.setFunc fn f).loadAt = s.loadAt := rfl
@[simp] theorem setFunc_sent (s : State) (fn : Nat) (f : Func) : (s.setFunc fn f).sent = s.sent := rfl
@[simp] theorem setFunc_sentPeriod (s : State) (fn : Nat) (f : Func) : (s.setFunc fn f).sentPeriod = s.sentPeriod := rfl
@[simp] theorem setFunc_windows (s : State) (fn : Nat) (f : Func) : (s.setFunc fn f).windows = s.windows := rfl
@[simp] theorem setFunc_log (s : State) (fn : Nat) (f : Func) : (s.setFunc fn f).log = s.log := rfl
@[simp] theorem setFunc_logHead (s : State) (fn : Nat) (f : Func) : (s.setFunc fn f).logHead = s.logHead := rfl
@[simp] theorem setFunc_logSeq (s : State) (fn : Nat) (f : Func) : (s.setFunc fn f).logSeq = s.logSeq := rfl
@[simp] theorem setFunc_logAcked (s : State) (fn : Nat) (f : Func) : (s.setFunc fn f).logAcked = s.logAcked := rfl
@[simp] theorem setFunc_logSigned (s : State) (fn : Nat) (f : Func) : (s.setFunc fn f).logSigned = s.logSigned := rfl
@[simp] theorem setFunc_stallsHeld (s : State) (fn : Nat) (f : Func) : (s.setFunc fn f).stallsHeld = s.stallsHeld := rfl
@[simp] theorem setFunc_scrubs (s : State) (fn : Nat) (f : Func) : (s.setFunc fn f).scrubs = s.scrubs := rfl
@[simp] theorem setFunc_coreMap (s : State) (fn : Nat) (f : Func) : (s.setFunc fn f).coreMap = s.coreMap := rfl
@[simp] theorem setFunc_retained (s : State) (fn : Nat) (f : Func) : (s.setFunc fn f).retained = s.retained := rfl
@[simp] theorem setFunc_fence (s : State) (fn : Nat) (f : Func) : (s.setFunc fn f).fence = s.fence := rfl
@[simp] theorem setFunc_power (s : State) (fn : Nat) (f : Func) : (s.setFunc fn f).power = s.power := rfl
@[simp] theorem setFunc_pwrcap (s : State) (fn : Nat) (f : Func) : (s.setFunc fn f).pwrcap = s.pwrcap := rfl
@[simp] theorem setFunc_clock (s : State) (fn : Nat) (f : Func) : (s.setFunc fn f).clock = s.clock := rfl
@[simp] theorem setFunc_measures (s : State) (fn : Nat) (f : Func) : (s.setFunc fn f).measures = s.measures := rfl
@[simp] theorem setFunc_recovery (s : State) (fn : Nat) (f : Func) : (s.setFunc fn f).recovery = s.recovery := rfl
@[simp] theorem setFunc_pkgKey (s : State) (fn : Nat) (f : Func) : (s.setFunc fn f).pkgKey = s.pkgKey := rfl
@[simp] theorem setFunc_keyDraws (s : State) (fn : Nat) (f : Func) : (s.setFunc fn f).keyDraws = s.keyDraws := rfl
@[simp] theorem setFunc_colls (s : State) (fn : Nat) (f : Func) : (s.setFunc fn f).colls = s.colls := rfl
@[simp] theorem setFunc_staged (s : State) (fn : Nat) (f : Func) : (s.setFunc fn f).staged = s.staged := rfl
@[simp] theorem setFunc_fixedAt (s : State) (fn : Nat) (f : Func) : (s.setFunc fn f).fixedAt = s.fixedAt := rfl
@[simp] theorem setFunc_passes (s : State) (fn : Nat) (f : Func) : (s.setFunc fn f).passes = s.passes := rfl
@[simp] theorem setFunc_lastTaken (s : State) (fn : Nat) (f : Func) : (s.setFunc fn f).lastTaken = s.lastTaken := rfl
@[simp] theorem setFunc_boot (s : State) (fn : Nat) (f : Func) : (s.setFunc fn f).boot = s.boot := rfl
@[simp] theorem setFunc_images (s : State) (fn : Nat) (f : Func) : (s.setFunc fn f).images = s.images := rfl
@[simp] theorem setFunc_powerCmd (s : State) (fn : Nat) (f : Func) : (s.setFunc fn f).powerCmd = s.powerCmd := rfl
@[simp] theorem setFunc_unbound (s : State) (fn : Nat) (f : Func) : (s.setFunc fn f).unbound = s.unbound := rfl
@[simp] theorem setFunc_lastRound (s : State) (fn : Nat) (f : Func) : (s.setFunc fn f).lastRound = s.lastRound := rfl
@[simp] theorem setFunc_signalsDropped (s : State) (fn : Nat) (f : Func) : (s.setFunc fn f).signalsDropped = s.signalsDropped := rfl
@[simp] theorem setFunc_packetsDropped (s : State) (fn : Nat) (f : Func) : (s.setFunc fn f).packetsDropped = s.packetsDropped := rfl
@[simp] theorem setFunc_rejected (s : State) (fn : Nat) (f : Func) : (s.setFunc fn f).rejected = s.rejected := rfl
@[simp] theorem setFunc_ringWaits (s : State) (fn : Nat) (f : Func) : (s.setFunc fn f).ringWaits = s.ringWaits := rfl
@[simp] theorem setFunc_scrubFound (s : State) (fn : Nat) (f : Func) : (s.setFunc fn f).scrubFound = s.scrubFound := rfl
@[simp] theorem setFunc_tick (s : State) (fn : Nat) (f : Func) : (s.setFunc fn f).tick = s.tick := rfl
@[simp] theorem setFunc_now (s : State) (fn : Nat) (f : Func) : (s.setFunc fn f).now = s.now := rfl
@[simp] theorem setFunc_cur (s : State) (fn : Nat) (f : Func) : (s.setFunc fn f).cur = s.cur := rfl
@[simp] theorem setFunc_turn (s : State) (fn : Nat) (f : Func) : (s.setFunc fn f).turn = s.turn := rfl
@[simp] theorem setFunc_inputs (s : State) (fn : Nat) (f : Func) : (s.setFunc fn f).inputs = s.inputs := rfl
@[simp] theorem setFunc_outbox (s : State) (fn : Nat) (f : Func) : (s.setFunc fn f).outbox = s.outbox := rfl
@[simp] theorem setFunc_framed (s : State) (fn : Nat) (f : Func) : (s.setFunc fn f).framed = s.framed := rfl
@[simp] theorem setFunc_nextCtx (s : State) (fn : Nat) (f : Func) : (s.setFunc fn f).nextCtx = s.nextCtx := rfl
@[simp] theorem setFunc_nextYarn (s : State) (fn : Nat) (f : Func) : (s.setFunc fn f).nextYarn = s.nextYarn := rfl
@[simp] theorem setFunc_nextReq (s : State) (fn : Nat) (f : Func) : (s.setFunc fn f).nextReq = s.nextReq := rfl
@[simp] theorem setFunc_nextChange (s : State) (fn : Nat) (f : Func) : (s.setFunc fn f).nextChange = s.nextChange := rfl
@[simp] theorem setFunc_nextLaunch (s : State) (fn : Nat) (f : Func) : (s.setFunc fn f).nextLaunch = s.nextLaunch := rfl
@[simp] theorem setFunc_nextBin (s : State) (fn : Nat) (f : Func) : (s.setFunc fn f).nextBin = s.nextBin := rfl
@[simp] theorem setFunc_noted (s : State) (fn : Nat) (f : Func) : (s.setFunc fn f).noted = s.noted := rfl
@[simp] theorem setFunc_checked (s : State) (fn : Nat) (f : Func) : (s.setFunc fn f).checked = s.checked := rfl
@[simp] theorem setFunc_tolls (s : State) (fn : Nat) (f : Func) : (s.setFunc fn f).tolls = s.tolls := rfl
@[simp] theorem setFunc_logSig (s : State) (fn : Nat) (f : Func) : (s.setFunc fn f).logSig = s.logSig := rfl
@[simp] theorem setFunc_debug (s : State) (fn : Nat) (f : Func) : (s.setFunc fn f).debug = s.debug := rfl
@[simp] theorem setFunc_ide (s : State) (fn : Nat) (f : Func) : (s.setFunc fn f).ide = s.ide := rfl
@[simp] theorem setFunc_verdicts (s : State) (fn : Nat) (f : Func) : (s.setFunc fn f).verdicts = s.verdicts := rfl
@[simp] theorem setFunc_ages (s : State) (fn : Nat) (f : Func) : (s.setFunc fn f).ages = s.ages := rfl

/-! ### setStrand -/

@[simp] theorem setStrand_peer (s : State) (x : Nat) (v : Strand) : (s.setStrand x v).peer = s.peer := rfl
@[simp] theorem setStrand_inc (s : State) (x : Nat) (v : Strand) : (s.setStrand x v).inc = s.inc := rfl
@[simp] theorem setStrand_booted (s : State) (x : Nat) (v : Strand) : (s.setStrand x v).booted = s.booted := rfl
@[simp] theorem setStrand_mem (s : State) (x : Nat) (v : Strand) : (s.setStrand x v).mem = s.mem := rfl
@[simp] theorem setStrand_hostMem (s : State) (x : Nat) (v : Strand) : (s.setStrand x v).hostMem = s.hostMem := rfl
@[simp] theorem setStrand_cores (s : State) (x : Nat) (v : Strand) : (s.setStrand x v).cores = s.cores := rfl
@[simp] theorem setStrand_launches (s : State) (x : Nat) (v : Strand) : (s.setStrand x v).launches = s.launches := rfl
@[simp] theorem setStrand_yarns (s : State) (x : Nat) (v : Strand) : (s.setStrand x v).yarns = s.yarns := rfl
@[simp] theorem setStrand_funcs (s : State) (x : Nat) (v : Strand) : (s.setStrand x v).funcs = s.funcs := rfl
@[simp] theorem setStrand_table (s : State) (x : Nat) (v : Strand) : (s.setStrand x v).table = s.table := rfl
@[simp] theorem setStrand_maxSeq (s : State) (x : Nat) (v : Strand) : (s.setStrand x v).maxSeq = s.maxSeq := rfl
@[simp] theorem setStrand_issues (s : State) (x : Nat) (v : Strand) : (s.setStrand x v).issues = s.issues := rfl
@[simp] theorem setStrand_stubs (s : State) (x : Nat) (v : Strand) : (s.setStrand x v).stubs = s.stubs := rfl
@[simp] theorem setStrand_changes (s : State) (x : Nat) (v : Strand) : (s.setStrand x v).changes = s.changes := rfl
@[simp] theorem setStrand_heldAcks (s : State) (x : Nat) (v : Strand) : (s.setStrand x v).heldAcks = s.heldAcks := rfl
@[simp] theorem setStrand_routeEvent (s : State) (x : Nat) (v : Strand) : (s.setStrand x v).routeEvent = s.routeEvent := rfl
@[simp] theorem setStrand_incs (s : State) (x : Nat) (v : Strand) : (s.setStrand x v).incs = s.incs := rfl
@[simp] theorem setStrand_owners (s : State) (x : Nat) (v : Strand) : (s.setStrand x v).owners = s.owners := rfl
@[simp] theorem setStrand_recalling (s : State) (x : Nat) (v : Strand) : (s.setStrand x v).recalling = s.recalling := rfl
@[simp] theorem setStrand_ownedHere (s : State) (x : Nat) (v : Strand) : (s.setStrand x v).ownedHere = s.ownedHere := rfl
@[simp] theorem setStrand_reqs (s : State) (x : Nat) (v : Strand) : (s.setStrand x v).reqs = s.reqs := rfl
@[simp] theorem setStrand_bufs (s : State) (x : Nat) (v : Strand) : (s.setStrand x v).bufs = s.bufs := rfl
@[simp] theorem setStrand_held (s : State) (x : Nat) (v : Strand) : (s.setStrand x v).held = s.held := rfl
@[simp] theorem setStrand_revoked (s : State) (x : Nat) (v : Strand) : (s.setStrand x v).revoked = s.revoked := rfl
@[simp] theorem setStrand_links (s : State) (x : Nat) (v : Strand) : (s.setStrand x v).links = s.links := rfl
@[simp] theorem setStrand_loads (s : State) (x : Nat) (v : Strand) : (s.setStrand x v).loads = s.loads := rfl
@[simp] theorem setStrand_loadAt (s : State) (x : Nat) (v : Strand) : (s.setStrand x v).loadAt = s.loadAt := rfl
@[simp] theorem setStrand_sent (s : State) (x : Nat) (v : Strand) : (s.setStrand x v).sent = s.sent := rfl
@[simp] theorem setStrand_sentPeriod (s : State) (x : Nat) (v : Strand) : (s.setStrand x v).sentPeriod = s.sentPeriod := rfl
@[simp] theorem setStrand_windows (s : State) (x : Nat) (v : Strand) : (s.setStrand x v).windows = s.windows := rfl
@[simp] theorem setStrand_log (s : State) (x : Nat) (v : Strand) : (s.setStrand x v).log = s.log := rfl
@[simp] theorem setStrand_logHead (s : State) (x : Nat) (v : Strand) : (s.setStrand x v).logHead = s.logHead := rfl
@[simp] theorem setStrand_logSeq (s : State) (x : Nat) (v : Strand) : (s.setStrand x v).logSeq = s.logSeq := rfl
@[simp] theorem setStrand_logAcked (s : State) (x : Nat) (v : Strand) : (s.setStrand x v).logAcked = s.logAcked := rfl
@[simp] theorem setStrand_logSigned (s : State) (x : Nat) (v : Strand) : (s.setStrand x v).logSigned = s.logSigned := rfl
@[simp] theorem setStrand_stallsHeld (s : State) (x : Nat) (v : Strand) : (s.setStrand x v).stallsHeld = s.stallsHeld := rfl
@[simp] theorem setStrand_scrubs (s : State) (x : Nat) (v : Strand) : (s.setStrand x v).scrubs = s.scrubs := rfl
@[simp] theorem setStrand_coreMap (s : State) (x : Nat) (v : Strand) : (s.setStrand x v).coreMap = s.coreMap := rfl
@[simp] theorem setStrand_retained (s : State) (x : Nat) (v : Strand) : (s.setStrand x v).retained = s.retained := rfl
@[simp] theorem setStrand_fence (s : State) (x : Nat) (v : Strand) : (s.setStrand x v).fence = s.fence := rfl
@[simp] theorem setStrand_power (s : State) (x : Nat) (v : Strand) : (s.setStrand x v).power = s.power := rfl
@[simp] theorem setStrand_pwrcap (s : State) (x : Nat) (v : Strand) : (s.setStrand x v).pwrcap = s.pwrcap := rfl
@[simp] theorem setStrand_clock (s : State) (x : Nat) (v : Strand) : (s.setStrand x v).clock = s.clock := rfl
@[simp] theorem setStrand_measures (s : State) (x : Nat) (v : Strand) : (s.setStrand x v).measures = s.measures := rfl
@[simp] theorem setStrand_recovery (s : State) (x : Nat) (v : Strand) : (s.setStrand x v).recovery = s.recovery := rfl
@[simp] theorem setStrand_pkgKey (s : State) (x : Nat) (v : Strand) : (s.setStrand x v).pkgKey = s.pkgKey := rfl
@[simp] theorem setStrand_keyDraws (s : State) (x : Nat) (v : Strand) : (s.setStrand x v).keyDraws = s.keyDraws := rfl
@[simp] theorem setStrand_colls (s : State) (x : Nat) (v : Strand) : (s.setStrand x v).colls = s.colls := rfl
@[simp] theorem setStrand_staged (s : State) (x : Nat) (v : Strand) : (s.setStrand x v).staged = s.staged := rfl
@[simp] theorem setStrand_fixedAt (s : State) (x : Nat) (v : Strand) : (s.setStrand x v).fixedAt = s.fixedAt := rfl
@[simp] theorem setStrand_passes (s : State) (x : Nat) (v : Strand) : (s.setStrand x v).passes = s.passes := rfl
@[simp] theorem setStrand_lastTaken (s : State) (x : Nat) (v : Strand) : (s.setStrand x v).lastTaken = s.lastTaken := rfl
@[simp] theorem setStrand_boot (s : State) (x : Nat) (v : Strand) : (s.setStrand x v).boot = s.boot := rfl
@[simp] theorem setStrand_images (s : State) (x : Nat) (v : Strand) : (s.setStrand x v).images = s.images := rfl
@[simp] theorem setStrand_powerCmd (s : State) (x : Nat) (v : Strand) : (s.setStrand x v).powerCmd = s.powerCmd := rfl
@[simp] theorem setStrand_unbound (s : State) (x : Nat) (v : Strand) : (s.setStrand x v).unbound = s.unbound := rfl
@[simp] theorem setStrand_lastRound (s : State) (x : Nat) (v : Strand) : (s.setStrand x v).lastRound = s.lastRound := rfl
@[simp] theorem setStrand_signalsDropped (s : State) (x : Nat) (v : Strand) : (s.setStrand x v).signalsDropped = s.signalsDropped := rfl
@[simp] theorem setStrand_packetsDropped (s : State) (x : Nat) (v : Strand) : (s.setStrand x v).packetsDropped = s.packetsDropped := rfl
@[simp] theorem setStrand_rejected (s : State) (x : Nat) (v : Strand) : (s.setStrand x v).rejected = s.rejected := rfl
@[simp] theorem setStrand_ringWaits (s : State) (x : Nat) (v : Strand) : (s.setStrand x v).ringWaits = s.ringWaits := rfl
@[simp] theorem setStrand_scrubFound (s : State) (x : Nat) (v : Strand) : (s.setStrand x v).scrubFound = s.scrubFound := rfl
@[simp] theorem setStrand_tick (s : State) (x : Nat) (v : Strand) : (s.setStrand x v).tick = s.tick := rfl
@[simp] theorem setStrand_now (s : State) (x : Nat) (v : Strand) : (s.setStrand x v).now = s.now := rfl
@[simp] theorem setStrand_cur (s : State) (x : Nat) (v : Strand) : (s.setStrand x v).cur = s.cur := rfl
@[simp] theorem setStrand_turn (s : State) (x : Nat) (v : Strand) : (s.setStrand x v).turn = s.turn := rfl
@[simp] theorem setStrand_inputs (s : State) (x : Nat) (v : Strand) : (s.setStrand x v).inputs = s.inputs := rfl
@[simp] theorem setStrand_outbox (s : State) (x : Nat) (v : Strand) : (s.setStrand x v).outbox = s.outbox := rfl
@[simp] theorem setStrand_framed (s : State) (x : Nat) (v : Strand) : (s.setStrand x v).framed = s.framed := rfl
@[simp] theorem setStrand_nextCtx (s : State) (x : Nat) (v : Strand) : (s.setStrand x v).nextCtx = s.nextCtx := rfl
@[simp] theorem setStrand_nextYarn (s : State) (x : Nat) (v : Strand) : (s.setStrand x v).nextYarn = s.nextYarn := rfl
@[simp] theorem setStrand_nextReq (s : State) (x : Nat) (v : Strand) : (s.setStrand x v).nextReq = s.nextReq := rfl
@[simp] theorem setStrand_nextChange (s : State) (x : Nat) (v : Strand) : (s.setStrand x v).nextChange = s.nextChange := rfl
@[simp] theorem setStrand_nextLaunch (s : State) (x : Nat) (v : Strand) : (s.setStrand x v).nextLaunch = s.nextLaunch := rfl
@[simp] theorem setStrand_nextBin (s : State) (x : Nat) (v : Strand) : (s.setStrand x v).nextBin = s.nextBin := rfl
@[simp] theorem setStrand_noted (s : State) (x : Nat) (v : Strand) : (s.setStrand x v).noted = s.noted := rfl
@[simp] theorem setStrand_checked (s : State) (x : Nat) (v : Strand) : (s.setStrand x v).checked = s.checked := rfl
@[simp] theorem setStrand_tolls (s : State) (x : Nat) (v : Strand) : (s.setStrand x v).tolls = s.tolls := rfl
@[simp] theorem setStrand_logSig (s : State) (x : Nat) (v : Strand) : (s.setStrand x v).logSig = s.logSig := rfl
@[simp] theorem setStrand_debug (s : State) (x : Nat) (v : Strand) : (s.setStrand x v).debug = s.debug := rfl
@[simp] theorem setStrand_ide (s : State) (x : Nat) (v : Strand) : (s.setStrand x v).ide = s.ide := rfl
@[simp] theorem setStrand_verdicts (s : State) (x : Nat) (v : Strand) : (s.setStrand x v).verdicts = s.verdicts := rfl
@[simp] theorem setStrand_ages (s : State) (x : Nat) (v : Strand) : (s.setStrand x v).ages = s.ages := rfl

/-! ### setLaunch -/

@[simp] theorem setLaunch_peer (s : State) (l : Nat) (v : Launch) : (s.setLaunch l v).peer = s.peer := rfl
@[simp] theorem setLaunch_inc (s : State) (l : Nat) (v : Launch) : (s.setLaunch l v).inc = s.inc := rfl
@[simp] theorem setLaunch_booted (s : State) (l : Nat) (v : Launch) : (s.setLaunch l v).booted = s.booted := rfl
@[simp] theorem setLaunch_mem (s : State) (l : Nat) (v : Launch) : (s.setLaunch l v).mem = s.mem := rfl
@[simp] theorem setLaunch_hostMem (s : State) (l : Nat) (v : Launch) : (s.setLaunch l v).hostMem = s.hostMem := rfl
@[simp] theorem setLaunch_cores (s : State) (l : Nat) (v : Launch) : (s.setLaunch l v).cores = s.cores := rfl
@[simp] theorem setLaunch_strands (s : State) (l : Nat) (v : Launch) : (s.setLaunch l v).strands = s.strands := rfl
@[simp] theorem setLaunch_yarns (s : State) (l : Nat) (v : Launch) : (s.setLaunch l v).yarns = s.yarns := rfl
@[simp] theorem setLaunch_funcs (s : State) (l : Nat) (v : Launch) : (s.setLaunch l v).funcs = s.funcs := rfl
@[simp] theorem setLaunch_table (s : State) (l : Nat) (v : Launch) : (s.setLaunch l v).table = s.table := rfl
@[simp] theorem setLaunch_maxSeq (s : State) (l : Nat) (v : Launch) : (s.setLaunch l v).maxSeq = s.maxSeq := rfl
@[simp] theorem setLaunch_issues (s : State) (l : Nat) (v : Launch) : (s.setLaunch l v).issues = s.issues := rfl
@[simp] theorem setLaunch_stubs (s : State) (l : Nat) (v : Launch) : (s.setLaunch l v).stubs = s.stubs := rfl
@[simp] theorem setLaunch_changes (s : State) (l : Nat) (v : Launch) : (s.setLaunch l v).changes = s.changes := rfl
@[simp] theorem setLaunch_heldAcks (s : State) (l : Nat) (v : Launch) : (s.setLaunch l v).heldAcks = s.heldAcks := rfl
@[simp] theorem setLaunch_routeEvent (s : State) (l : Nat) (v : Launch) : (s.setLaunch l v).routeEvent = s.routeEvent := rfl
@[simp] theorem setLaunch_incs (s : State) (l : Nat) (v : Launch) : (s.setLaunch l v).incs = s.incs := rfl
@[simp] theorem setLaunch_owners (s : State) (l : Nat) (v : Launch) : (s.setLaunch l v).owners = s.owners := rfl
@[simp] theorem setLaunch_recalling (s : State) (l : Nat) (v : Launch) : (s.setLaunch l v).recalling = s.recalling := rfl
@[simp] theorem setLaunch_ownedHere (s : State) (l : Nat) (v : Launch) : (s.setLaunch l v).ownedHere = s.ownedHere := rfl
@[simp] theorem setLaunch_reqs (s : State) (l : Nat) (v : Launch) : (s.setLaunch l v).reqs = s.reqs := rfl
@[simp] theorem setLaunch_bufs (s : State) (l : Nat) (v : Launch) : (s.setLaunch l v).bufs = s.bufs := rfl
@[simp] theorem setLaunch_held (s : State) (l : Nat) (v : Launch) : (s.setLaunch l v).held = s.held := rfl
@[simp] theorem setLaunch_revoked (s : State) (l : Nat) (v : Launch) : (s.setLaunch l v).revoked = s.revoked := rfl
@[simp] theorem setLaunch_links (s : State) (l : Nat) (v : Launch) : (s.setLaunch l v).links = s.links := rfl
@[simp] theorem setLaunch_loads (s : State) (l : Nat) (v : Launch) : (s.setLaunch l v).loads = s.loads := rfl
@[simp] theorem setLaunch_loadAt (s : State) (l : Nat) (v : Launch) : (s.setLaunch l v).loadAt = s.loadAt := rfl
@[simp] theorem setLaunch_sent (s : State) (l : Nat) (v : Launch) : (s.setLaunch l v).sent = s.sent := rfl
@[simp] theorem setLaunch_sentPeriod (s : State) (l : Nat) (v : Launch) : (s.setLaunch l v).sentPeriod = s.sentPeriod := rfl
@[simp] theorem setLaunch_windows (s : State) (l : Nat) (v : Launch) : (s.setLaunch l v).windows = s.windows := rfl
@[simp] theorem setLaunch_log (s : State) (l : Nat) (v : Launch) : (s.setLaunch l v).log = s.log := rfl
@[simp] theorem setLaunch_logHead (s : State) (l : Nat) (v : Launch) : (s.setLaunch l v).logHead = s.logHead := rfl
@[simp] theorem setLaunch_logSeq (s : State) (l : Nat) (v : Launch) : (s.setLaunch l v).logSeq = s.logSeq := rfl
@[simp] theorem setLaunch_logAcked (s : State) (l : Nat) (v : Launch) : (s.setLaunch l v).logAcked = s.logAcked := rfl
@[simp] theorem setLaunch_logSigned (s : State) (l : Nat) (v : Launch) : (s.setLaunch l v).logSigned = s.logSigned := rfl
@[simp] theorem setLaunch_stallsHeld (s : State) (l : Nat) (v : Launch) : (s.setLaunch l v).stallsHeld = s.stallsHeld := rfl
@[simp] theorem setLaunch_scrubs (s : State) (l : Nat) (v : Launch) : (s.setLaunch l v).scrubs = s.scrubs := rfl
@[simp] theorem setLaunch_coreMap (s : State) (l : Nat) (v : Launch) : (s.setLaunch l v).coreMap = s.coreMap := rfl
@[simp] theorem setLaunch_retained (s : State) (l : Nat) (v : Launch) : (s.setLaunch l v).retained = s.retained := rfl
@[simp] theorem setLaunch_fence (s : State) (l : Nat) (v : Launch) : (s.setLaunch l v).fence = s.fence := rfl
@[simp] theorem setLaunch_power (s : State) (l : Nat) (v : Launch) : (s.setLaunch l v).power = s.power := rfl
@[simp] theorem setLaunch_pwrcap (s : State) (l : Nat) (v : Launch) : (s.setLaunch l v).pwrcap = s.pwrcap := rfl
@[simp] theorem setLaunch_clock (s : State) (l : Nat) (v : Launch) : (s.setLaunch l v).clock = s.clock := rfl
@[simp] theorem setLaunch_measures (s : State) (l : Nat) (v : Launch) : (s.setLaunch l v).measures = s.measures := rfl
@[simp] theorem setLaunch_recovery (s : State) (l : Nat) (v : Launch) : (s.setLaunch l v).recovery = s.recovery := rfl
@[simp] theorem setLaunch_pkgKey (s : State) (l : Nat) (v : Launch) : (s.setLaunch l v).pkgKey = s.pkgKey := rfl
@[simp] theorem setLaunch_keyDraws (s : State) (l : Nat) (v : Launch) : (s.setLaunch l v).keyDraws = s.keyDraws := rfl
@[simp] theorem setLaunch_colls (s : State) (l : Nat) (v : Launch) : (s.setLaunch l v).colls = s.colls := rfl
@[simp] theorem setLaunch_staged (s : State) (l : Nat) (v : Launch) : (s.setLaunch l v).staged = s.staged := rfl
@[simp] theorem setLaunch_fixedAt (s : State) (l : Nat) (v : Launch) : (s.setLaunch l v).fixedAt = s.fixedAt := rfl
@[simp] theorem setLaunch_passes (s : State) (l : Nat) (v : Launch) : (s.setLaunch l v).passes = s.passes := rfl
@[simp] theorem setLaunch_lastTaken (s : State) (l : Nat) (v : Launch) : (s.setLaunch l v).lastTaken = s.lastTaken := rfl
@[simp] theorem setLaunch_boot (s : State) (l : Nat) (v : Launch) : (s.setLaunch l v).boot = s.boot := rfl
@[simp] theorem setLaunch_images (s : State) (l : Nat) (v : Launch) : (s.setLaunch l v).images = s.images := rfl
@[simp] theorem setLaunch_powerCmd (s : State) (l : Nat) (v : Launch) : (s.setLaunch l v).powerCmd = s.powerCmd := rfl
@[simp] theorem setLaunch_unbound (s : State) (l : Nat) (v : Launch) : (s.setLaunch l v).unbound = s.unbound := rfl
@[simp] theorem setLaunch_lastRound (s : State) (l : Nat) (v : Launch) : (s.setLaunch l v).lastRound = s.lastRound := rfl
@[simp] theorem setLaunch_signalsDropped (s : State) (l : Nat) (v : Launch) : (s.setLaunch l v).signalsDropped = s.signalsDropped := rfl
@[simp] theorem setLaunch_packetsDropped (s : State) (l : Nat) (v : Launch) : (s.setLaunch l v).packetsDropped = s.packetsDropped := rfl
@[simp] theorem setLaunch_rejected (s : State) (l : Nat) (v : Launch) : (s.setLaunch l v).rejected = s.rejected := rfl
@[simp] theorem setLaunch_ringWaits (s : State) (l : Nat) (v : Launch) : (s.setLaunch l v).ringWaits = s.ringWaits := rfl
@[simp] theorem setLaunch_scrubFound (s : State) (l : Nat) (v : Launch) : (s.setLaunch l v).scrubFound = s.scrubFound := rfl
@[simp] theorem setLaunch_tick (s : State) (l : Nat) (v : Launch) : (s.setLaunch l v).tick = s.tick := rfl
@[simp] theorem setLaunch_now (s : State) (l : Nat) (v : Launch) : (s.setLaunch l v).now = s.now := rfl
@[simp] theorem setLaunch_cur (s : State) (l : Nat) (v : Launch) : (s.setLaunch l v).cur = s.cur := rfl
@[simp] theorem setLaunch_turn (s : State) (l : Nat) (v : Launch) : (s.setLaunch l v).turn = s.turn := rfl
@[simp] theorem setLaunch_inputs (s : State) (l : Nat) (v : Launch) : (s.setLaunch l v).inputs = s.inputs := rfl
@[simp] theorem setLaunch_outbox (s : State) (l : Nat) (v : Launch) : (s.setLaunch l v).outbox = s.outbox := rfl
@[simp] theorem setLaunch_framed (s : State) (l : Nat) (v : Launch) : (s.setLaunch l v).framed = s.framed := rfl
@[simp] theorem setLaunch_nextCtx (s : State) (l : Nat) (v : Launch) : (s.setLaunch l v).nextCtx = s.nextCtx := rfl
@[simp] theorem setLaunch_nextYarn (s : State) (l : Nat) (v : Launch) : (s.setLaunch l v).nextYarn = s.nextYarn := rfl
@[simp] theorem setLaunch_nextReq (s : State) (l : Nat) (v : Launch) : (s.setLaunch l v).nextReq = s.nextReq := rfl
@[simp] theorem setLaunch_nextChange (s : State) (l : Nat) (v : Launch) : (s.setLaunch l v).nextChange = s.nextChange := rfl
@[simp] theorem setLaunch_nextLaunch (s : State) (l : Nat) (v : Launch) : (s.setLaunch l v).nextLaunch = s.nextLaunch := rfl
@[simp] theorem setLaunch_nextBin (s : State) (l : Nat) (v : Launch) : (s.setLaunch l v).nextBin = s.nextBin := rfl
@[simp] theorem setLaunch_noted (s : State) (l : Nat) (v : Launch) : (s.setLaunch l v).noted = s.noted := rfl
@[simp] theorem setLaunch_checked (s : State) (l : Nat) (v : Launch) : (s.setLaunch l v).checked = s.checked := rfl
@[simp] theorem setLaunch_tolls (s : State) (l : Nat) (v : Launch) : (s.setLaunch l v).tolls = s.tolls := rfl
@[simp] theorem setLaunch_logSig (s : State) (l : Nat) (v : Launch) : (s.setLaunch l v).logSig = s.logSig := rfl
@[simp] theorem setLaunch_debug (s : State) (l : Nat) (v : Launch) : (s.setLaunch l v).debug = s.debug := rfl
@[simp] theorem setLaunch_ide (s : State) (l : Nat) (v : Launch) : (s.setLaunch l v).ide = s.ide := rfl
@[simp] theorem setLaunch_verdicts (s : State) (l : Nat) (v : Launch) : (s.setLaunch l v).verdicts = s.verdicts := rfl
@[simp] theorem setLaunch_ages (s : State) (l : Nat) (v : Launch) : (s.setLaunch l v).ages = s.ages := rfl

/-! ### setYarn -/

@[simp] theorem setYarn_peer (s : State) (y : Nat) (v : Yarn) : (s.setYarn y v).peer = s.peer := rfl
@[simp] theorem setYarn_inc (s : State) (y : Nat) (v : Yarn) : (s.setYarn y v).inc = s.inc := rfl
@[simp] theorem setYarn_booted (s : State) (y : Nat) (v : Yarn) : (s.setYarn y v).booted = s.booted := rfl
@[simp] theorem setYarn_mem (s : State) (y : Nat) (v : Yarn) : (s.setYarn y v).mem = s.mem := rfl
@[simp] theorem setYarn_hostMem (s : State) (y : Nat) (v : Yarn) : (s.setYarn y v).hostMem = s.hostMem := rfl
@[simp] theorem setYarn_cores (s : State) (y : Nat) (v : Yarn) : (s.setYarn y v).cores = s.cores := rfl
@[simp] theorem setYarn_launches (s : State) (y : Nat) (v : Yarn) : (s.setYarn y v).launches = s.launches := rfl
@[simp] theorem setYarn_strands (s : State) (y : Nat) (v : Yarn) : (s.setYarn y v).strands = s.strands := rfl
@[simp] theorem setYarn_funcs (s : State) (y : Nat) (v : Yarn) : (s.setYarn y v).funcs = s.funcs := rfl
@[simp] theorem setYarn_table (s : State) (y : Nat) (v : Yarn) : (s.setYarn y v).table = s.table := rfl
@[simp] theorem setYarn_maxSeq (s : State) (y : Nat) (v : Yarn) : (s.setYarn y v).maxSeq = s.maxSeq := rfl
@[simp] theorem setYarn_issues (s : State) (y : Nat) (v : Yarn) : (s.setYarn y v).issues = s.issues := rfl
@[simp] theorem setYarn_stubs (s : State) (y : Nat) (v : Yarn) : (s.setYarn y v).stubs = s.stubs := rfl
@[simp] theorem setYarn_changes (s : State) (y : Nat) (v : Yarn) : (s.setYarn y v).changes = s.changes := rfl
@[simp] theorem setYarn_heldAcks (s : State) (y : Nat) (v : Yarn) : (s.setYarn y v).heldAcks = s.heldAcks := rfl
@[simp] theorem setYarn_routeEvent (s : State) (y : Nat) (v : Yarn) : (s.setYarn y v).routeEvent = s.routeEvent := rfl
@[simp] theorem setYarn_incs (s : State) (y : Nat) (v : Yarn) : (s.setYarn y v).incs = s.incs := rfl
@[simp] theorem setYarn_owners (s : State) (y : Nat) (v : Yarn) : (s.setYarn y v).owners = s.owners := rfl
@[simp] theorem setYarn_recalling (s : State) (y : Nat) (v : Yarn) : (s.setYarn y v).recalling = s.recalling := rfl
@[simp] theorem setYarn_ownedHere (s : State) (y : Nat) (v : Yarn) : (s.setYarn y v).ownedHere = s.ownedHere := rfl
@[simp] theorem setYarn_reqs (s : State) (y : Nat) (v : Yarn) : (s.setYarn y v).reqs = s.reqs := rfl
@[simp] theorem setYarn_bufs (s : State) (y : Nat) (v : Yarn) : (s.setYarn y v).bufs = s.bufs := rfl
@[simp] theorem setYarn_held (s : State) (y : Nat) (v : Yarn) : (s.setYarn y v).held = s.held := rfl
@[simp] theorem setYarn_revoked (s : State) (y : Nat) (v : Yarn) : (s.setYarn y v).revoked = s.revoked := rfl
@[simp] theorem setYarn_links (s : State) (y : Nat) (v : Yarn) : (s.setYarn y v).links = s.links := rfl
@[simp] theorem setYarn_loads (s : State) (y : Nat) (v : Yarn) : (s.setYarn y v).loads = s.loads := rfl
@[simp] theorem setYarn_loadAt (s : State) (y : Nat) (v : Yarn) : (s.setYarn y v).loadAt = s.loadAt := rfl
@[simp] theorem setYarn_sent (s : State) (y : Nat) (v : Yarn) : (s.setYarn y v).sent = s.sent := rfl
@[simp] theorem setYarn_sentPeriod (s : State) (y : Nat) (v : Yarn) : (s.setYarn y v).sentPeriod = s.sentPeriod := rfl
@[simp] theorem setYarn_windows (s : State) (y : Nat) (v : Yarn) : (s.setYarn y v).windows = s.windows := rfl
@[simp] theorem setYarn_log (s : State) (y : Nat) (v : Yarn) : (s.setYarn y v).log = s.log := rfl
@[simp] theorem setYarn_logHead (s : State) (y : Nat) (v : Yarn) : (s.setYarn y v).logHead = s.logHead := rfl
@[simp] theorem setYarn_logSeq (s : State) (y : Nat) (v : Yarn) : (s.setYarn y v).logSeq = s.logSeq := rfl
@[simp] theorem setYarn_logAcked (s : State) (y : Nat) (v : Yarn) : (s.setYarn y v).logAcked = s.logAcked := rfl
@[simp] theorem setYarn_logSigned (s : State) (y : Nat) (v : Yarn) : (s.setYarn y v).logSigned = s.logSigned := rfl
@[simp] theorem setYarn_stallsHeld (s : State) (y : Nat) (v : Yarn) : (s.setYarn y v).stallsHeld = s.stallsHeld := rfl
@[simp] theorem setYarn_scrubs (s : State) (y : Nat) (v : Yarn) : (s.setYarn y v).scrubs = s.scrubs := rfl
@[simp] theorem setYarn_coreMap (s : State) (y : Nat) (v : Yarn) : (s.setYarn y v).coreMap = s.coreMap := rfl
@[simp] theorem setYarn_retained (s : State) (y : Nat) (v : Yarn) : (s.setYarn y v).retained = s.retained := rfl
@[simp] theorem setYarn_fence (s : State) (y : Nat) (v : Yarn) : (s.setYarn y v).fence = s.fence := rfl
@[simp] theorem setYarn_power (s : State) (y : Nat) (v : Yarn) : (s.setYarn y v).power = s.power := rfl
@[simp] theorem setYarn_pwrcap (s : State) (y : Nat) (v : Yarn) : (s.setYarn y v).pwrcap = s.pwrcap := rfl
@[simp] theorem setYarn_clock (s : State) (y : Nat) (v : Yarn) : (s.setYarn y v).clock = s.clock := rfl
@[simp] theorem setYarn_measures (s : State) (y : Nat) (v : Yarn) : (s.setYarn y v).measures = s.measures := rfl
@[simp] theorem setYarn_recovery (s : State) (y : Nat) (v : Yarn) : (s.setYarn y v).recovery = s.recovery := rfl
@[simp] theorem setYarn_pkgKey (s : State) (y : Nat) (v : Yarn) : (s.setYarn y v).pkgKey = s.pkgKey := rfl
@[simp] theorem setYarn_keyDraws (s : State) (y : Nat) (v : Yarn) : (s.setYarn y v).keyDraws = s.keyDraws := rfl
@[simp] theorem setYarn_colls (s : State) (y : Nat) (v : Yarn) : (s.setYarn y v).colls = s.colls := rfl
@[simp] theorem setYarn_staged (s : State) (y : Nat) (v : Yarn) : (s.setYarn y v).staged = s.staged := rfl
@[simp] theorem setYarn_fixedAt (s : State) (y : Nat) (v : Yarn) : (s.setYarn y v).fixedAt = s.fixedAt := rfl
@[simp] theorem setYarn_passes (s : State) (y : Nat) (v : Yarn) : (s.setYarn y v).passes = s.passes := rfl
@[simp] theorem setYarn_lastTaken (s : State) (y : Nat) (v : Yarn) : (s.setYarn y v).lastTaken = s.lastTaken := rfl
@[simp] theorem setYarn_boot (s : State) (y : Nat) (v : Yarn) : (s.setYarn y v).boot = s.boot := rfl
@[simp] theorem setYarn_images (s : State) (y : Nat) (v : Yarn) : (s.setYarn y v).images = s.images := rfl
@[simp] theorem setYarn_powerCmd (s : State) (y : Nat) (v : Yarn) : (s.setYarn y v).powerCmd = s.powerCmd := rfl
@[simp] theorem setYarn_unbound (s : State) (y : Nat) (v : Yarn) : (s.setYarn y v).unbound = s.unbound := rfl
@[simp] theorem setYarn_lastRound (s : State) (y : Nat) (v : Yarn) : (s.setYarn y v).lastRound = s.lastRound := rfl
@[simp] theorem setYarn_signalsDropped (s : State) (y : Nat) (v : Yarn) : (s.setYarn y v).signalsDropped = s.signalsDropped := rfl
@[simp] theorem setYarn_packetsDropped (s : State) (y : Nat) (v : Yarn) : (s.setYarn y v).packetsDropped = s.packetsDropped := rfl
@[simp] theorem setYarn_rejected (s : State) (y : Nat) (v : Yarn) : (s.setYarn y v).rejected = s.rejected := rfl
@[simp] theorem setYarn_ringWaits (s : State) (y : Nat) (v : Yarn) : (s.setYarn y v).ringWaits = s.ringWaits := rfl
@[simp] theorem setYarn_scrubFound (s : State) (y : Nat) (v : Yarn) : (s.setYarn y v).scrubFound = s.scrubFound := rfl
@[simp] theorem setYarn_tick (s : State) (y : Nat) (v : Yarn) : (s.setYarn y v).tick = s.tick := rfl
@[simp] theorem setYarn_now (s : State) (y : Nat) (v : Yarn) : (s.setYarn y v).now = s.now := rfl
@[simp] theorem setYarn_cur (s : State) (y : Nat) (v : Yarn) : (s.setYarn y v).cur = s.cur := rfl
@[simp] theorem setYarn_turn (s : State) (y : Nat) (v : Yarn) : (s.setYarn y v).turn = s.turn := rfl
@[simp] theorem setYarn_inputs (s : State) (y : Nat) (v : Yarn) : (s.setYarn y v).inputs = s.inputs := rfl
@[simp] theorem setYarn_outbox (s : State) (y : Nat) (v : Yarn) : (s.setYarn y v).outbox = s.outbox := rfl
@[simp] theorem setYarn_framed (s : State) (y : Nat) (v : Yarn) : (s.setYarn y v).framed = s.framed := rfl
@[simp] theorem setYarn_nextCtx (s : State) (y : Nat) (v : Yarn) : (s.setYarn y v).nextCtx = s.nextCtx := rfl
@[simp] theorem setYarn_nextYarn (s : State) (y : Nat) (v : Yarn) : (s.setYarn y v).nextYarn = s.nextYarn := rfl
@[simp] theorem setYarn_nextReq (s : State) (y : Nat) (v : Yarn) : (s.setYarn y v).nextReq = s.nextReq := rfl
@[simp] theorem setYarn_nextChange (s : State) (y : Nat) (v : Yarn) : (s.setYarn y v).nextChange = s.nextChange := rfl
@[simp] theorem setYarn_nextLaunch (s : State) (y : Nat) (v : Yarn) : (s.setYarn y v).nextLaunch = s.nextLaunch := rfl
@[simp] theorem setYarn_nextBin (s : State) (y : Nat) (v : Yarn) : (s.setYarn y v).nextBin = s.nextBin := rfl
@[simp] theorem setYarn_noted (s : State) (y : Nat) (v : Yarn) : (s.setYarn y v).noted = s.noted := rfl
@[simp] theorem setYarn_checked (s : State) (y : Nat) (v : Yarn) : (s.setYarn y v).checked = s.checked := rfl
@[simp] theorem setYarn_tolls (s : State) (y : Nat) (v : Yarn) : (s.setYarn y v).tolls = s.tolls := rfl
@[simp] theorem setYarn_logSig (s : State) (y : Nat) (v : Yarn) : (s.setYarn y v).logSig = s.logSig := rfl
@[simp] theorem setYarn_debug (s : State) (y : Nat) (v : Yarn) : (s.setYarn y v).debug = s.debug := rfl
@[simp] theorem setYarn_ide (s : State) (y : Nat) (v : Yarn) : (s.setYarn y v).ide = s.ide := rfl
@[simp] theorem setYarn_verdicts (s : State) (y : Nat) (v : Yarn) : (s.setYarn y v).verdicts = s.verdicts := rfl
@[simp] theorem setYarn_ages (s : State) (y : Nat) (v : Yarn) : (s.setYarn y v).ages = s.ages := rfl

/-! ### setCore -/

@[simp] theorem setCore_peer (s : State) (k : Nat) (c : Core) : (s.setCore k c).peer = s.peer := rfl
@[simp] theorem setCore_inc (s : State) (k : Nat) (c : Core) : (s.setCore k c).inc = s.inc := rfl
@[simp] theorem setCore_booted (s : State) (k : Nat) (c : Core) : (s.setCore k c).booted = s.booted := rfl
@[simp] theorem setCore_mem (s : State) (k : Nat) (c : Core) : (s.setCore k c).mem = s.mem := rfl
@[simp] theorem setCore_hostMem (s : State) (k : Nat) (c : Core) : (s.setCore k c).hostMem = s.hostMem := rfl
@[simp] theorem setCore_launches (s : State) (k : Nat) (c : Core) : (s.setCore k c).launches = s.launches := rfl
@[simp] theorem setCore_strands (s : State) (k : Nat) (c : Core) : (s.setCore k c).strands = s.strands := rfl
@[simp] theorem setCore_yarns (s : State) (k : Nat) (c : Core) : (s.setCore k c).yarns = s.yarns := rfl
@[simp] theorem setCore_funcs (s : State) (k : Nat) (c : Core) : (s.setCore k c).funcs = s.funcs := rfl
@[simp] theorem setCore_table (s : State) (k : Nat) (c : Core) : (s.setCore k c).table = s.table := rfl
@[simp] theorem setCore_maxSeq (s : State) (k : Nat) (c : Core) : (s.setCore k c).maxSeq = s.maxSeq := rfl
@[simp] theorem setCore_issues (s : State) (k : Nat) (c : Core) : (s.setCore k c).issues = s.issues := rfl
@[simp] theorem setCore_stubs (s : State) (k : Nat) (c : Core) : (s.setCore k c).stubs = s.stubs := rfl
@[simp] theorem setCore_changes (s : State) (k : Nat) (c : Core) : (s.setCore k c).changes = s.changes := rfl
@[simp] theorem setCore_heldAcks (s : State) (k : Nat) (c : Core) : (s.setCore k c).heldAcks = s.heldAcks := rfl
@[simp] theorem setCore_routeEvent (s : State) (k : Nat) (c : Core) : (s.setCore k c).routeEvent = s.routeEvent := rfl
@[simp] theorem setCore_incs (s : State) (k : Nat) (c : Core) : (s.setCore k c).incs = s.incs := rfl
@[simp] theorem setCore_owners (s : State) (k : Nat) (c : Core) : (s.setCore k c).owners = s.owners := rfl
@[simp] theorem setCore_recalling (s : State) (k : Nat) (c : Core) : (s.setCore k c).recalling = s.recalling := rfl
@[simp] theorem setCore_ownedHere (s : State) (k : Nat) (c : Core) : (s.setCore k c).ownedHere = s.ownedHere := rfl
@[simp] theorem setCore_reqs (s : State) (k : Nat) (c : Core) : (s.setCore k c).reqs = s.reqs := rfl
@[simp] theorem setCore_bufs (s : State) (k : Nat) (c : Core) : (s.setCore k c).bufs = s.bufs := rfl
@[simp] theorem setCore_held (s : State) (k : Nat) (c : Core) : (s.setCore k c).held = s.held := rfl
@[simp] theorem setCore_revoked (s : State) (k : Nat) (c : Core) : (s.setCore k c).revoked = s.revoked := rfl
@[simp] theorem setCore_links (s : State) (k : Nat) (c : Core) : (s.setCore k c).links = s.links := rfl
@[simp] theorem setCore_loads (s : State) (k : Nat) (c : Core) : (s.setCore k c).loads = s.loads := rfl
@[simp] theorem setCore_loadAt (s : State) (k : Nat) (c : Core) : (s.setCore k c).loadAt = s.loadAt := rfl
@[simp] theorem setCore_sent (s : State) (k : Nat) (c : Core) : (s.setCore k c).sent = s.sent := rfl
@[simp] theorem setCore_sentPeriod (s : State) (k : Nat) (c : Core) : (s.setCore k c).sentPeriod = s.sentPeriod := rfl
@[simp] theorem setCore_windows (s : State) (k : Nat) (c : Core) : (s.setCore k c).windows = s.windows := rfl
@[simp] theorem setCore_log (s : State) (k : Nat) (c : Core) : (s.setCore k c).log = s.log := rfl
@[simp] theorem setCore_logHead (s : State) (k : Nat) (c : Core) : (s.setCore k c).logHead = s.logHead := rfl
@[simp] theorem setCore_logSeq (s : State) (k : Nat) (c : Core) : (s.setCore k c).logSeq = s.logSeq := rfl
@[simp] theorem setCore_logAcked (s : State) (k : Nat) (c : Core) : (s.setCore k c).logAcked = s.logAcked := rfl
@[simp] theorem setCore_logSigned (s : State) (k : Nat) (c : Core) : (s.setCore k c).logSigned = s.logSigned := rfl
@[simp] theorem setCore_stallsHeld (s : State) (k : Nat) (c : Core) : (s.setCore k c).stallsHeld = s.stallsHeld := rfl
@[simp] theorem setCore_scrubs (s : State) (k : Nat) (c : Core) : (s.setCore k c).scrubs = s.scrubs := rfl
@[simp] theorem setCore_coreMap (s : State) (k : Nat) (c : Core) : (s.setCore k c).coreMap = s.coreMap := rfl
@[simp] theorem setCore_retained (s : State) (k : Nat) (c : Core) : (s.setCore k c).retained = s.retained := rfl
@[simp] theorem setCore_fence (s : State) (k : Nat) (c : Core) : (s.setCore k c).fence = s.fence := rfl
@[simp] theorem setCore_power (s : State) (k : Nat) (c : Core) : (s.setCore k c).power = s.power := rfl
@[simp] theorem setCore_pwrcap (s : State) (k : Nat) (c : Core) : (s.setCore k c).pwrcap = s.pwrcap := rfl
@[simp] theorem setCore_clock (s : State) (k : Nat) (c : Core) : (s.setCore k c).clock = s.clock := rfl
@[simp] theorem setCore_measures (s : State) (k : Nat) (c : Core) : (s.setCore k c).measures = s.measures := rfl
@[simp] theorem setCore_recovery (s : State) (k : Nat) (c : Core) : (s.setCore k c).recovery = s.recovery := rfl
@[simp] theorem setCore_pkgKey (s : State) (k : Nat) (c : Core) : (s.setCore k c).pkgKey = s.pkgKey := rfl
@[simp] theorem setCore_keyDraws (s : State) (k : Nat) (c : Core) : (s.setCore k c).keyDraws = s.keyDraws := rfl
@[simp] theorem setCore_colls (s : State) (k : Nat) (c : Core) : (s.setCore k c).colls = s.colls := rfl
@[simp] theorem setCore_staged (s : State) (k : Nat) (c : Core) : (s.setCore k c).staged = s.staged := rfl
@[simp] theorem setCore_fixedAt (s : State) (k : Nat) (c : Core) : (s.setCore k c).fixedAt = s.fixedAt := rfl
@[simp] theorem setCore_passes (s : State) (k : Nat) (c : Core) : (s.setCore k c).passes = s.passes := rfl
@[simp] theorem setCore_lastTaken (s : State) (k : Nat) (c : Core) : (s.setCore k c).lastTaken = s.lastTaken := rfl
@[simp] theorem setCore_boot (s : State) (k : Nat) (c : Core) : (s.setCore k c).boot = s.boot := rfl
@[simp] theorem setCore_images (s : State) (k : Nat) (c : Core) : (s.setCore k c).images = s.images := rfl
@[simp] theorem setCore_powerCmd (s : State) (k : Nat) (c : Core) : (s.setCore k c).powerCmd = s.powerCmd := rfl
@[simp] theorem setCore_unbound (s : State) (k : Nat) (c : Core) : (s.setCore k c).unbound = s.unbound := rfl
@[simp] theorem setCore_lastRound (s : State) (k : Nat) (c : Core) : (s.setCore k c).lastRound = s.lastRound := rfl
@[simp] theorem setCore_signalsDropped (s : State) (k : Nat) (c : Core) : (s.setCore k c).signalsDropped = s.signalsDropped := rfl
@[simp] theorem setCore_packetsDropped (s : State) (k : Nat) (c : Core) : (s.setCore k c).packetsDropped = s.packetsDropped := rfl
@[simp] theorem setCore_rejected (s : State) (k : Nat) (c : Core) : (s.setCore k c).rejected = s.rejected := rfl
@[simp] theorem setCore_ringWaits (s : State) (k : Nat) (c : Core) : (s.setCore k c).ringWaits = s.ringWaits := rfl
@[simp] theorem setCore_scrubFound (s : State) (k : Nat) (c : Core) : (s.setCore k c).scrubFound = s.scrubFound := rfl
@[simp] theorem setCore_tick (s : State) (k : Nat) (c : Core) : (s.setCore k c).tick = s.tick := rfl
@[simp] theorem setCore_now (s : State) (k : Nat) (c : Core) : (s.setCore k c).now = s.now := rfl
@[simp] theorem setCore_cur (s : State) (k : Nat) (c : Core) : (s.setCore k c).cur = s.cur := rfl
@[simp] theorem setCore_turn (s : State) (k : Nat) (c : Core) : (s.setCore k c).turn = s.turn := rfl
@[simp] theorem setCore_inputs (s : State) (k : Nat) (c : Core) : (s.setCore k c).inputs = s.inputs := rfl
@[simp] theorem setCore_outbox (s : State) (k : Nat) (c : Core) : (s.setCore k c).outbox = s.outbox := rfl
@[simp] theorem setCore_framed (s : State) (k : Nat) (c : Core) : (s.setCore k c).framed = s.framed := rfl
@[simp] theorem setCore_nextCtx (s : State) (k : Nat) (c : Core) : (s.setCore k c).nextCtx = s.nextCtx := rfl
@[simp] theorem setCore_nextYarn (s : State) (k : Nat) (c : Core) : (s.setCore k c).nextYarn = s.nextYarn := rfl
@[simp] theorem setCore_nextReq (s : State) (k : Nat) (c : Core) : (s.setCore k c).nextReq = s.nextReq := rfl
@[simp] theorem setCore_nextChange (s : State) (k : Nat) (c : Core) : (s.setCore k c).nextChange = s.nextChange := rfl
@[simp] theorem setCore_nextLaunch (s : State) (k : Nat) (c : Core) : (s.setCore k c).nextLaunch = s.nextLaunch := rfl
@[simp] theorem setCore_nextBin (s : State) (k : Nat) (c : Core) : (s.setCore k c).nextBin = s.nextBin := rfl
@[simp] theorem setCore_noted (s : State) (k : Nat) (c : Core) : (s.setCore k c).noted = s.noted := rfl
@[simp] theorem setCore_checked (s : State) (k : Nat) (c : Core) : (s.setCore k c).checked = s.checked := rfl
@[simp] theorem setCore_tolls (s : State) (k : Nat) (c : Core) : (s.setCore k c).tolls = s.tolls := rfl
@[simp] theorem setCore_logSig (s : State) (k : Nat) (c : Core) : (s.setCore k c).logSig = s.logSig := rfl
@[simp] theorem setCore_debug (s : State) (k : Nat) (c : Core) : (s.setCore k c).debug = s.debug := rfl
@[simp] theorem setCore_ide (s : State) (k : Nat) (c : Core) : (s.setCore k c).ide = s.ide := rfl
@[simp] theorem setCore_verdicts (s : State) (k : Nat) (c : Core) : (s.setCore k c).verdicts = s.verdicts := rfl
@[simp] theorem setCore_ages (s : State) (k : Nat) (c : Core) : (s.setCore k c).ages = s.ages := rfl

/-! ### setColl -/

@[simp] theorem setColl_peer (s : State) (l : Nat) (c : Coll) : (s.setColl l c).peer = s.peer := rfl
@[simp] theorem setColl_inc (s : State) (l : Nat) (c : Coll) : (s.setColl l c).inc = s.inc := rfl
@[simp] theorem setColl_booted (s : State) (l : Nat) (c : Coll) : (s.setColl l c).booted = s.booted := rfl
@[simp] theorem setColl_mem (s : State) (l : Nat) (c : Coll) : (s.setColl l c).mem = s.mem := rfl
@[simp] theorem setColl_hostMem (s : State) (l : Nat) (c : Coll) : (s.setColl l c).hostMem = s.hostMem := rfl
@[simp] theorem setColl_cores (s : State) (l : Nat) (c : Coll) : (s.setColl l c).cores = s.cores := rfl
@[simp] theorem setColl_launches (s : State) (l : Nat) (c : Coll) : (s.setColl l c).launches = s.launches := rfl
@[simp] theorem setColl_strands (s : State) (l : Nat) (c : Coll) : (s.setColl l c).strands = s.strands := rfl
@[simp] theorem setColl_yarns (s : State) (l : Nat) (c : Coll) : (s.setColl l c).yarns = s.yarns := rfl
@[simp] theorem setColl_funcs (s : State) (l : Nat) (c : Coll) : (s.setColl l c).funcs = s.funcs := rfl
@[simp] theorem setColl_table (s : State) (l : Nat) (c : Coll) : (s.setColl l c).table = s.table := rfl
@[simp] theorem setColl_maxSeq (s : State) (l : Nat) (c : Coll) : (s.setColl l c).maxSeq = s.maxSeq := rfl
@[simp] theorem setColl_issues (s : State) (l : Nat) (c : Coll) : (s.setColl l c).issues = s.issues := rfl
@[simp] theorem setColl_stubs (s : State) (l : Nat) (c : Coll) : (s.setColl l c).stubs = s.stubs := rfl
@[simp] theorem setColl_changes (s : State) (l : Nat) (c : Coll) : (s.setColl l c).changes = s.changes := rfl
@[simp] theorem setColl_heldAcks (s : State) (l : Nat) (c : Coll) : (s.setColl l c).heldAcks = s.heldAcks := rfl
@[simp] theorem setColl_routeEvent (s : State) (l : Nat) (c : Coll) : (s.setColl l c).routeEvent = s.routeEvent := rfl
@[simp] theorem setColl_incs (s : State) (l : Nat) (c : Coll) : (s.setColl l c).incs = s.incs := rfl
@[simp] theorem setColl_owners (s : State) (l : Nat) (c : Coll) : (s.setColl l c).owners = s.owners := rfl
@[simp] theorem setColl_recalling (s : State) (l : Nat) (c : Coll) : (s.setColl l c).recalling = s.recalling := rfl
@[simp] theorem setColl_ownedHere (s : State) (l : Nat) (c : Coll) : (s.setColl l c).ownedHere = s.ownedHere := rfl
@[simp] theorem setColl_reqs (s : State) (l : Nat) (c : Coll) : (s.setColl l c).reqs = s.reqs := rfl
@[simp] theorem setColl_bufs (s : State) (l : Nat) (c : Coll) : (s.setColl l c).bufs = s.bufs := rfl
@[simp] theorem setColl_held (s : State) (l : Nat) (c : Coll) : (s.setColl l c).held = s.held := rfl
@[simp] theorem setColl_revoked (s : State) (l : Nat) (c : Coll) : (s.setColl l c).revoked = s.revoked := rfl
@[simp] theorem setColl_links (s : State) (l : Nat) (c : Coll) : (s.setColl l c).links = s.links := rfl
@[simp] theorem setColl_loads (s : State) (l : Nat) (c : Coll) : (s.setColl l c).loads = s.loads := rfl
@[simp] theorem setColl_loadAt (s : State) (l : Nat) (c : Coll) : (s.setColl l c).loadAt = s.loadAt := rfl
@[simp] theorem setColl_sent (s : State) (l : Nat) (c : Coll) : (s.setColl l c).sent = s.sent := rfl
@[simp] theorem setColl_sentPeriod (s : State) (l : Nat) (c : Coll) : (s.setColl l c).sentPeriod = s.sentPeriod := rfl
@[simp] theorem setColl_windows (s : State) (l : Nat) (c : Coll) : (s.setColl l c).windows = s.windows := rfl
@[simp] theorem setColl_log (s : State) (l : Nat) (c : Coll) : (s.setColl l c).log = s.log := rfl
@[simp] theorem setColl_logHead (s : State) (l : Nat) (c : Coll) : (s.setColl l c).logHead = s.logHead := rfl
@[simp] theorem setColl_logSeq (s : State) (l : Nat) (c : Coll) : (s.setColl l c).logSeq = s.logSeq := rfl
@[simp] theorem setColl_logAcked (s : State) (l : Nat) (c : Coll) : (s.setColl l c).logAcked = s.logAcked := rfl
@[simp] theorem setColl_logSigned (s : State) (l : Nat) (c : Coll) : (s.setColl l c).logSigned = s.logSigned := rfl
@[simp] theorem setColl_stallsHeld (s : State) (l : Nat) (c : Coll) : (s.setColl l c).stallsHeld = s.stallsHeld := rfl
@[simp] theorem setColl_scrubs (s : State) (l : Nat) (c : Coll) : (s.setColl l c).scrubs = s.scrubs := rfl
@[simp] theorem setColl_coreMap (s : State) (l : Nat) (c : Coll) : (s.setColl l c).coreMap = s.coreMap := rfl
@[simp] theorem setColl_retained (s : State) (l : Nat) (c : Coll) : (s.setColl l c).retained = s.retained := rfl
@[simp] theorem setColl_fence (s : State) (l : Nat) (c : Coll) : (s.setColl l c).fence = s.fence := rfl
@[simp] theorem setColl_power (s : State) (l : Nat) (c : Coll) : (s.setColl l c).power = s.power := rfl
@[simp] theorem setColl_pwrcap (s : State) (l : Nat) (c : Coll) : (s.setColl l c).pwrcap = s.pwrcap := rfl
@[simp] theorem setColl_clock (s : State) (l : Nat) (c : Coll) : (s.setColl l c).clock = s.clock := rfl
@[simp] theorem setColl_measures (s : State) (l : Nat) (c : Coll) : (s.setColl l c).measures = s.measures := rfl
@[simp] theorem setColl_recovery (s : State) (l : Nat) (c : Coll) : (s.setColl l c).recovery = s.recovery := rfl
@[simp] theorem setColl_pkgKey (s : State) (l : Nat) (c : Coll) : (s.setColl l c).pkgKey = s.pkgKey := rfl
@[simp] theorem setColl_keyDraws (s : State) (l : Nat) (c : Coll) : (s.setColl l c).keyDraws = s.keyDraws := rfl
@[simp] theorem setColl_staged (s : State) (l : Nat) (c : Coll) : (s.setColl l c).staged = s.staged := rfl
@[simp] theorem setColl_fixedAt (s : State) (l : Nat) (c : Coll) : (s.setColl l c).fixedAt = s.fixedAt := rfl
@[simp] theorem setColl_passes (s : State) (l : Nat) (c : Coll) : (s.setColl l c).passes = s.passes := rfl
@[simp] theorem setColl_lastTaken (s : State) (l : Nat) (c : Coll) : (s.setColl l c).lastTaken = s.lastTaken := rfl
@[simp] theorem setColl_boot (s : State) (l : Nat) (c : Coll) : (s.setColl l c).boot = s.boot := rfl
@[simp] theorem setColl_images (s : State) (l : Nat) (c : Coll) : (s.setColl l c).images = s.images := rfl
@[simp] theorem setColl_powerCmd (s : State) (l : Nat) (c : Coll) : (s.setColl l c).powerCmd = s.powerCmd := rfl
@[simp] theorem setColl_unbound (s : State) (l : Nat) (c : Coll) : (s.setColl l c).unbound = s.unbound := rfl
@[simp] theorem setColl_lastRound (s : State) (l : Nat) (c : Coll) : (s.setColl l c).lastRound = s.lastRound := rfl
@[simp] theorem setColl_signalsDropped (s : State) (l : Nat) (c : Coll) : (s.setColl l c).signalsDropped = s.signalsDropped := rfl
@[simp] theorem setColl_packetsDropped (s : State) (l : Nat) (c : Coll) : (s.setColl l c).packetsDropped = s.packetsDropped := rfl
@[simp] theorem setColl_rejected (s : State) (l : Nat) (c : Coll) : (s.setColl l c).rejected = s.rejected := rfl
@[simp] theorem setColl_ringWaits (s : State) (l : Nat) (c : Coll) : (s.setColl l c).ringWaits = s.ringWaits := rfl
@[simp] theorem setColl_scrubFound (s : State) (l : Nat) (c : Coll) : (s.setColl l c).scrubFound = s.scrubFound := rfl
@[simp] theorem setColl_tick (s : State) (l : Nat) (c : Coll) : (s.setColl l c).tick = s.tick := rfl
@[simp] theorem setColl_now (s : State) (l : Nat) (c : Coll) : (s.setColl l c).now = s.now := rfl
@[simp] theorem setColl_cur (s : State) (l : Nat) (c : Coll) : (s.setColl l c).cur = s.cur := rfl
@[simp] theorem setColl_turn (s : State) (l : Nat) (c : Coll) : (s.setColl l c).turn = s.turn := rfl
@[simp] theorem setColl_inputs (s : State) (l : Nat) (c : Coll) : (s.setColl l c).inputs = s.inputs := rfl
@[simp] theorem setColl_outbox (s : State) (l : Nat) (c : Coll) : (s.setColl l c).outbox = s.outbox := rfl
@[simp] theorem setColl_framed (s : State) (l : Nat) (c : Coll) : (s.setColl l c).framed = s.framed := rfl
@[simp] theorem setColl_nextCtx (s : State) (l : Nat) (c : Coll) : (s.setColl l c).nextCtx = s.nextCtx := rfl
@[simp] theorem setColl_nextYarn (s : State) (l : Nat) (c : Coll) : (s.setColl l c).nextYarn = s.nextYarn := rfl
@[simp] theorem setColl_nextReq (s : State) (l : Nat) (c : Coll) : (s.setColl l c).nextReq = s.nextReq := rfl
@[simp] theorem setColl_nextChange (s : State) (l : Nat) (c : Coll) : (s.setColl l c).nextChange = s.nextChange := rfl
@[simp] theorem setColl_nextLaunch (s : State) (l : Nat) (c : Coll) : (s.setColl l c).nextLaunch = s.nextLaunch := rfl
@[simp] theorem setColl_nextBin (s : State) (l : Nat) (c : Coll) : (s.setColl l c).nextBin = s.nextBin := rfl
@[simp] theorem setColl_noted (s : State) (l : Nat) (c : Coll) : (s.setColl l c).noted = s.noted := rfl
@[simp] theorem setColl_checked (s : State) (l : Nat) (c : Coll) : (s.setColl l c).checked = s.checked := rfl
@[simp] theorem setColl_tolls (s : State) (l : Nat) (c : Coll) : (s.setColl l c).tolls = s.tolls := rfl
@[simp] theorem setColl_logSig (s : State) (l : Nat) (c : Coll) : (s.setColl l c).logSig = s.logSig := rfl
@[simp] theorem setColl_debug (s : State) (l : Nat) (c : Coll) : (s.setColl l c).debug = s.debug := rfl
@[simp] theorem setColl_ide (s : State) (l : Nat) (c : Coll) : (s.setColl l c).ide = s.ide := rfl
@[simp] theorem setColl_verdicts (s : State) (l : Nat) (c : Coll) : (s.setColl l c).verdicts = s.verdicts := rfl
@[simp] theorem setColl_ages (s : State) (l : Nat) (c : Coll) : (s.setColl l c).ages = s.ages := rfl

/-! ### setLink -/

@[simp] theorem setLink_peer (s : State) (port : Nat) (l : Link) : (s.setLink port l).peer = s.peer := rfl
@[simp] theorem setLink_inc (s : State) (port : Nat) (l : Link) : (s.setLink port l).inc = s.inc := rfl
@[simp] theorem setLink_booted (s : State) (port : Nat) (l : Link) : (s.setLink port l).booted = s.booted := rfl
@[simp] theorem setLink_mem (s : State) (port : Nat) (l : Link) : (s.setLink port l).mem = s.mem := rfl
@[simp] theorem setLink_hostMem (s : State) (port : Nat) (l : Link) : (s.setLink port l).hostMem = s.hostMem := rfl
@[simp] theorem setLink_cores (s : State) (port : Nat) (l : Link) : (s.setLink port l).cores = s.cores := rfl
@[simp] theorem setLink_launches (s : State) (port : Nat) (l : Link) : (s.setLink port l).launches = s.launches := rfl
@[simp] theorem setLink_strands (s : State) (port : Nat) (l : Link) : (s.setLink port l).strands = s.strands := rfl
@[simp] theorem setLink_yarns (s : State) (port : Nat) (l : Link) : (s.setLink port l).yarns = s.yarns := rfl
@[simp] theorem setLink_funcs (s : State) (port : Nat) (l : Link) : (s.setLink port l).funcs = s.funcs := rfl
@[simp] theorem setLink_table (s : State) (port : Nat) (l : Link) : (s.setLink port l).table = s.table := rfl
@[simp] theorem setLink_maxSeq (s : State) (port : Nat) (l : Link) : (s.setLink port l).maxSeq = s.maxSeq := rfl
@[simp] theorem setLink_issues (s : State) (port : Nat) (l : Link) : (s.setLink port l).issues = s.issues := rfl
@[simp] theorem setLink_stubs (s : State) (port : Nat) (l : Link) : (s.setLink port l).stubs = s.stubs := rfl
@[simp] theorem setLink_changes (s : State) (port : Nat) (l : Link) : (s.setLink port l).changes = s.changes := rfl
@[simp] theorem setLink_heldAcks (s : State) (port : Nat) (l : Link) : (s.setLink port l).heldAcks = s.heldAcks := rfl
@[simp] theorem setLink_routeEvent (s : State) (port : Nat) (l : Link) : (s.setLink port l).routeEvent = s.routeEvent := rfl
@[simp] theorem setLink_incs (s : State) (port : Nat) (l : Link) : (s.setLink port l).incs = s.incs := rfl
@[simp] theorem setLink_owners (s : State) (port : Nat) (l : Link) : (s.setLink port l).owners = s.owners := rfl
@[simp] theorem setLink_recalling (s : State) (port : Nat) (l : Link) : (s.setLink port l).recalling = s.recalling := rfl
@[simp] theorem setLink_ownedHere (s : State) (port : Nat) (l : Link) : (s.setLink port l).ownedHere = s.ownedHere := rfl
@[simp] theorem setLink_reqs (s : State) (port : Nat) (l : Link) : (s.setLink port l).reqs = s.reqs := rfl
@[simp] theorem setLink_bufs (s : State) (port : Nat) (l : Link) : (s.setLink port l).bufs = s.bufs := rfl
@[simp] theorem setLink_held (s : State) (port : Nat) (l : Link) : (s.setLink port l).held = s.held := rfl
@[simp] theorem setLink_revoked (s : State) (port : Nat) (l : Link) : (s.setLink port l).revoked = s.revoked := rfl
@[simp] theorem setLink_loads (s : State) (port : Nat) (l : Link) : (s.setLink port l).loads = s.loads := rfl
@[simp] theorem setLink_loadAt (s : State) (port : Nat) (l : Link) : (s.setLink port l).loadAt = s.loadAt := rfl
@[simp] theorem setLink_sent (s : State) (port : Nat) (l : Link) : (s.setLink port l).sent = s.sent := rfl
@[simp] theorem setLink_sentPeriod (s : State) (port : Nat) (l : Link) : (s.setLink port l).sentPeriod = s.sentPeriod := rfl
@[simp] theorem setLink_windows (s : State) (port : Nat) (l : Link) : (s.setLink port l).windows = s.windows := rfl
@[simp] theorem setLink_log (s : State) (port : Nat) (l : Link) : (s.setLink port l).log = s.log := rfl
@[simp] theorem setLink_logHead (s : State) (port : Nat) (l : Link) : (s.setLink port l).logHead = s.logHead := rfl
@[simp] theorem setLink_logSeq (s : State) (port : Nat) (l : Link) : (s.setLink port l).logSeq = s.logSeq := rfl
@[simp] theorem setLink_logAcked (s : State) (port : Nat) (l : Link) : (s.setLink port l).logAcked = s.logAcked := rfl
@[simp] theorem setLink_logSigned (s : State) (port : Nat) (l : Link) : (s.setLink port l).logSigned = s.logSigned := rfl
@[simp] theorem setLink_stallsHeld (s : State) (port : Nat) (l : Link) : (s.setLink port l).stallsHeld = s.stallsHeld := rfl
@[simp] theorem setLink_scrubs (s : State) (port : Nat) (l : Link) : (s.setLink port l).scrubs = s.scrubs := rfl
@[simp] theorem setLink_coreMap (s : State) (port : Nat) (l : Link) : (s.setLink port l).coreMap = s.coreMap := rfl
@[simp] theorem setLink_retained (s : State) (port : Nat) (l : Link) : (s.setLink port l).retained = s.retained := rfl
@[simp] theorem setLink_fence (s : State) (port : Nat) (l : Link) : (s.setLink port l).fence = s.fence := rfl
@[simp] theorem setLink_power (s : State) (port : Nat) (l : Link) : (s.setLink port l).power = s.power := rfl
@[simp] theorem setLink_pwrcap (s : State) (port : Nat) (l : Link) : (s.setLink port l).pwrcap = s.pwrcap := rfl
@[simp] theorem setLink_clock (s : State) (port : Nat) (l : Link) : (s.setLink port l).clock = s.clock := rfl
@[simp] theorem setLink_measures (s : State) (port : Nat) (l : Link) : (s.setLink port l).measures = s.measures := rfl
@[simp] theorem setLink_recovery (s : State) (port : Nat) (l : Link) : (s.setLink port l).recovery = s.recovery := rfl
@[simp] theorem setLink_pkgKey (s : State) (port : Nat) (l : Link) : (s.setLink port l).pkgKey = s.pkgKey := rfl
@[simp] theorem setLink_keyDraws (s : State) (port : Nat) (l : Link) : (s.setLink port l).keyDraws = s.keyDraws := rfl
@[simp] theorem setLink_colls (s : State) (port : Nat) (l : Link) : (s.setLink port l).colls = s.colls := rfl
@[simp] theorem setLink_staged (s : State) (port : Nat) (l : Link) : (s.setLink port l).staged = s.staged := rfl
@[simp] theorem setLink_fixedAt (s : State) (port : Nat) (l : Link) : (s.setLink port l).fixedAt = s.fixedAt := rfl
@[simp] theorem setLink_passes (s : State) (port : Nat) (l : Link) : (s.setLink port l).passes = s.passes := rfl
@[simp] theorem setLink_lastTaken (s : State) (port : Nat) (l : Link) : (s.setLink port l).lastTaken = s.lastTaken := rfl
@[simp] theorem setLink_boot (s : State) (port : Nat) (l : Link) : (s.setLink port l).boot = s.boot := rfl
@[simp] theorem setLink_images (s : State) (port : Nat) (l : Link) : (s.setLink port l).images = s.images := rfl
@[simp] theorem setLink_powerCmd (s : State) (port : Nat) (l : Link) : (s.setLink port l).powerCmd = s.powerCmd := rfl
@[simp] theorem setLink_unbound (s : State) (port : Nat) (l : Link) : (s.setLink port l).unbound = s.unbound := rfl
@[simp] theorem setLink_lastRound (s : State) (port : Nat) (l : Link) : (s.setLink port l).lastRound = s.lastRound := rfl
@[simp] theorem setLink_signalsDropped (s : State) (port : Nat) (l : Link) : (s.setLink port l).signalsDropped = s.signalsDropped := rfl
@[simp] theorem setLink_packetsDropped (s : State) (port : Nat) (l : Link) : (s.setLink port l).packetsDropped = s.packetsDropped := rfl
@[simp] theorem setLink_rejected (s : State) (port : Nat) (l : Link) : (s.setLink port l).rejected = s.rejected := rfl
@[simp] theorem setLink_ringWaits (s : State) (port : Nat) (l : Link) : (s.setLink port l).ringWaits = s.ringWaits := rfl
@[simp] theorem setLink_scrubFound (s : State) (port : Nat) (l : Link) : (s.setLink port l).scrubFound = s.scrubFound := rfl
@[simp] theorem setLink_tick (s : State) (port : Nat) (l : Link) : (s.setLink port l).tick = s.tick := rfl
@[simp] theorem setLink_now (s : State) (port : Nat) (l : Link) : (s.setLink port l).now = s.now := rfl
@[simp] theorem setLink_cur (s : State) (port : Nat) (l : Link) : (s.setLink port l).cur = s.cur := rfl
@[simp] theorem setLink_turn (s : State) (port : Nat) (l : Link) : (s.setLink port l).turn = s.turn := rfl
@[simp] theorem setLink_inputs (s : State) (port : Nat) (l : Link) : (s.setLink port l).inputs = s.inputs := rfl
@[simp] theorem setLink_outbox (s : State) (port : Nat) (l : Link) : (s.setLink port l).outbox = s.outbox := rfl
@[simp] theorem setLink_framed (s : State) (port : Nat) (l : Link) : (s.setLink port l).framed = s.framed := rfl
@[simp] theorem setLink_nextCtx (s : State) (port : Nat) (l : Link) : (s.setLink port l).nextCtx = s.nextCtx := rfl
@[simp] theorem setLink_nextYarn (s : State) (port : Nat) (l : Link) : (s.setLink port l).nextYarn = s.nextYarn := rfl
@[simp] theorem setLink_nextReq (s : State) (port : Nat) (l : Link) : (s.setLink port l).nextReq = s.nextReq := rfl
@[simp] theorem setLink_nextChange (s : State) (port : Nat) (l : Link) : (s.setLink port l).nextChange = s.nextChange := rfl
@[simp] theorem setLink_nextLaunch (s : State) (port : Nat) (l : Link) : (s.setLink port l).nextLaunch = s.nextLaunch := rfl
@[simp] theorem setLink_nextBin (s : State) (port : Nat) (l : Link) : (s.setLink port l).nextBin = s.nextBin := rfl
@[simp] theorem setLink_noted (s : State) (port : Nat) (l : Link) : (s.setLink port l).noted = s.noted := rfl
@[simp] theorem setLink_checked (s : State) (port : Nat) (l : Link) : (s.setLink port l).checked = s.checked := rfl
@[simp] theorem setLink_tolls (s : State) (port : Nat) (l : Link) : (s.setLink port l).tolls = s.tolls := rfl
@[simp] theorem setLink_logSig (s : State) (port : Nat) (l : Link) : (s.setLink port l).logSig = s.logSig := rfl
@[simp] theorem setLink_debug (s : State) (port : Nat) (l : Link) : (s.setLink port l).debug = s.debug := rfl
@[simp] theorem setLink_ide (s : State) (port : Nat) (l : Link) : (s.setLink port l).ide = s.ide := rfl
@[simp] theorem setLink_verdicts (s : State) (port : Nat) (l : Link) : (s.setLink port l).verdicts = s.verdicts := rfl
@[simp] theorem setLink_ages (s : State) (port : Nat) (l : Link) : (s.setLink port l).ages = s.ages := rfl

/-! ### Read back -/

theorem func_setFunc (s : State) (fn g : Nat) (f : Func) : (s.setFunc fn f).func g = if g = fn then f else s.func g := by
  simp [State.func, State.setFunc, get_set]

theorem coreAt_setCore (s : State) (k j : Nat) (c : Core) : (s.setCore k c).coreAt j = if j = k then c else s.coreAt j := by
  simp [State.coreAt, State.setCore, get_set]

theorem find_setStrand (s : State) (x z : Nat) (v : Strand) :
    Store.find z (s.setStrand x v).strands = if z = x then some v else Store.find z s.strands := find_put _ _ _ _

theorem find_setLaunch (s : State) (l k : Nat) (v : Launch) :
    Store.find k (s.setLaunch l v).launches = if k = l then some v else Store.find k s.launches := find_put _ _ _ _

theorem find_setYarn (s : State) (y z : Nat) (v : Yarn) :
    Store.find z (s.setYarn y v).yarns = if z = y then some v else Store.find z s.yarns := find_put _ _ _ _

theorem strandAt_setStrand (s : State) (x z : Nat) (v : Strand) :
    (s.setStrand x v).strandAt z = if z = x then v else s.strandAt z := by
  unfold State.strandAt
  rw [find_setStrand]
  split <;> rfl

@[simp] theorem strandAt_setYarn (s : State) (y x : Nat) (v : Yarn) : (s.setYarn y v).strandAt x = s.strandAt x := rfl
@[simp] theorem strandAt_setLaunch (s : State) (l x : Nat) (v : Launch) : (s.setLaunch l v).strandAt x = s.strandAt x := rfl
@[simp] theorem func_setYarn (s : State) (y fn : Nat) (v : Yarn) : (s.setYarn y v).func fn = s.func fn := rfl
@[simp] theorem func_setLaunch (s : State) (l fn : Nat) (v : Launch) : (s.setLaunch l v).func fn = s.func fn := rfl
@[simp] theorem func_setStrand (s : State) (x fn : Nat) (v : Strand) : (s.setStrand x v).func fn = s.func fn := rfl
@[simp] theorem coreAt_setYarn (s : State) (y k : Nat) (v : Yarn) : (s.setYarn y v).coreAt k = s.coreAt k := rfl
@[simp] theorem coreAt_setStrand (s : State) (x k : Nat) (v : Strand) : (s.setStrand x v).coreAt k = s.coreAt k := rfl

end Sys2Proof.Machine
end

