-- ==== Sys2Proof/Laws/Keeps.lean ====
section
/-! SUPPORT. What the shared operations do to the form of a state: each keeps memory canonical and the tables in order. -/

namespace Sys2Proof.Machine

open Sys2Proof.Laws

/-- From one state to another the canonical form and the order of the tables are kept. -/
structure Keeps (s t : State) : Prop where
  canonical : s.canonical = true → t.canonical = true
  ordered : s.ordered = true → t.ordered = true

theorem Keeps.refl {s : State} : Keeps s s := ⟨id, id⟩

theorem Keeps.trans {s t u : State} (h : Keeps s t) (k : Keeps t u) : Keeps s u :=
  ⟨fun e => k.canonical (h.canonical e), fun e => k.ordered (h.ordered e)⟩

theorem ite_keeps {s t u : State} {p : Prop} [Decidable p] (h : Keeps s t) (k : Keeps s u) : Keeps s (if p then t else u) := by
  split
  · exact h
  · exact k

theorem ordered_iff (s : State) : s.ordered = true ↔ Store.rising s.launches = true ∧ Store.rising s.strands = true
    ∧ Store.rising s.yarns = true ∧ Store.rising s.changes = true := by
  simp [State.ordered, and_assoc]

/-- A table whose cells are changed without their keys stays in order. -/
theorem rising_map {α β : Type} (f : Nat × α → Nat × β) (hf : ∀ c, (f c).1 = c.1) (t : Store α) (h : Store.rising t = true) :
    Store.rising (t.map f) = true := by
  induction t with
  | nil => rfl
  | cons c t ih =>
    rw [rising_cons] at h
    rw [List.map_cons, rising_cons]
    refine ⟨fun d hd => ?_, ih h.2⟩
    obtain ⟨e, he, rfl⟩ := List.mem_map.1 hd
    rw [hf, hf]
    exact h.1 e he

/-- A table without some cells stays in order. -/
theorem rising_filter {α : Type} (p : Nat × α → Bool) (t : Store α) (h : Store.rising t = true) :
    Store.rising (t.filter p) = true := by
  induction t with
  | nil => rfl
  | cons c t ih =>
    rw [rising_cons] at h
    rw [List.filter_cons]
    split
    · rw [rising_cons]
      exact ⟨fun d hd => h.1 d (List.mem_filter.1 hd).1, ih h.2⟩
    · exact ih h.2

theorem rising_modify {α : Type} (k : Nat) (f : α → α) (t : Store α) (h : Store.rising t = true) :
    Store.rising (Store.modify k f t) = true := by
  unfold Store.modify
  split
  · exact put_rising _ _ _ h
  · exact h

/-- Memory and launches unchanged, and the other tables in order as before. -/
theorem keeps_same {s t : State} (hm : t.mem = s.mem) (hl : t.launches = s.launches)
    (hs : Store.rising s.strands = true → Store.rising t.strands = true)
    (hy : Store.rising s.yarns = true → Store.rising t.yarns = true)
    (hc : Store.rising s.changes = true → Store.rising t.changes = true) : Keeps s t := by
  refine ⟨canonical_same hm hl, fun h => ?_⟩
  rw [ordered_iff] at h ⊢
  exact ⟨hl ▸ h.1, hs h.2.1, hy h.2.2.1, hc h.2.2.2⟩

/-- Nothing of memory and of the tables is changed. -/
theorem keeps_of_eq {s t : State} (hm : t.mem = s.mem) (hl : t.launches = s.launches) (hs : t.strands = s.strands)
    (hy : t.yarns = s.yarns) (hc : t.changes = s.changes) : Keeps s t :=
  keeps_same hm hl (fun h => hs ▸ h) (fun h => hy ▸ h) (fun h => hc ▸ h)

theorem setFunc_keeps (s : State) (fn : Nat) (f : Func) : Keeps s (s.setFunc fn f) := keeps_of_eq rfl rfl rfl rfl rfl
theorem setCore_keeps (s : State) (k : Nat) (c : Core) : Keeps s (s.setCore k c) := keeps_of_eq rfl rfl rfl rfl rfl
theorem setColl_keeps (s : State) (l : Nat) (c : Coll) : Keeps s (s.setColl l c) := keeps_of_eq rfl rfl rfl rfl rfl

theorem setYarn_keeps (s : State) (y : Nat) (v : Yarn) : Keeps s (s.setYarn y v) :=
  keeps_same rfl rfl id (put_rising _ _ _) id

theorem setStrand_keeps (s : State) (x : Nat) (v : Strand) : Keeps s (s.setStrand x v) :=
  keeps_same rfl rfl (put_rising _ _ _) id id

/-- A launch's record put, whose snapshot is canonical where the state is. -/
theorem setLaunch_keeps (s : State) (l : Nat) (L : Launch)
    (h : s.canonical = true → Store.wf emptyByte L.snap = true ∧ Store.wf 0 L.snapLabs = true) : Keeps s (s.setLaunch l L) := by
  refine ⟨fun hs => canonical_setLaunch l L (h hs).1 (h hs).2 hs, fun hs => ?_⟩
  rw [ordered_iff] at hs ⊢
  exact ⟨put_rising _ _ _ hs.1, hs.2⟩

/-- The snapshot of a launch a strand names, if it has one. -/
theorem launchOf_snap {s : State} (h : s.canonical = true) (x : Strand) :
    Store.wf emptyByte (s.launchOf x).snap = true ∧ Store.wf 0 (s.launchOf x).snapLabs = true := by
  unfold State.launchOf
  cases hf : Store.find x.launch s.launches with
  | none => exact ⟨rfl, rfl⟩
  | some L => exact canonical_find h hf

/-- Memory changed to canonical memory. -/
theorem mem_keeps (s : State) (m : Mem) (h : s.mem.wf = true → m.wf = true) : Keeps s { s with mem := m } :=
  ⟨fun hs => canonical_mem m (h ((canonical_iff s).1 hs).1) hs, id⟩

theorem writeAt_keeps (s : State) (q : Nat) (bs : List Byte) (l : Label) : Keeps s (s.writeAt q bs l) :=
  mem_keeps s _ (write_wf _ _ _ _)

/-! ### Requests and reads of code

What asks a holder outside, or gives a request up, changes neither memory nor the tables. -/

/-- The same memory and the same tables. -/
structure Alike (s t : State) : Prop where
  mem : t.mem = s.mem
  launches : t.launches = s.launches
  strands : t.strands = s.strands
  yarns : t.yarns = s.yarns
  changes : t.changes = s.changes

theorem Alike.refl {s : State} : Alike s s := ⟨rfl, rfl, rfl, rfl, rfl⟩

theorem Alike.trans {s t u : State} (h : Alike s t) (k : Alike t u) : Alike s u :=
  ⟨k.mem.trans h.mem, k.launches.trans h.launches, k.strands.trans h.strands, k.yarns.trans h.yarns,
    k.changes.trans h.changes⟩

theorem Alike.keeps {s t : State} (h : Alike s t) : Keeps s t := keeps_of_eq h.mem h.launches h.strands h.yarns h.changes

theorem letGo_alike (s : State) (k : Nat) (o : OutReq) : Alike s (s.letGo k o) := ⟨rfl, rfl, rfl, rfl, rfl⟩
theorem settleReq_alike (s : State) (k : Nat) : Alike s (s.settleReq k) := ⟨rfl, rfl, rfl, rfl, rfl⟩
theorem dropBufs_alike (s : State) (w : Who) : Alike s (s.dropBufs w) := ⟨rfl, rfl, rfl, rfl, rfl⟩
theorem abortRecords_alike (s : State) (l : Nat) : Alike s (s.abortRecords l) := ⟨rfl, rfl, rfl, rfl, rfl⟩
theorem request_alike (s : State) (w : Who) (fn : Nat) (p : Peer) (h : Hold) (r : Request) :
    Alike s (s.request w fn p h r) := ⟨rfl, rfl, rfl, rfl, rfl⟩

theorem releaseOrder_alike (s : State) (w : Who) (a : Fab) : Alike s (s.releaseOrder w a) := by
  have next : ∀ (t : State) (c : Option (Nat × OutReq)), Alike t (match c with
      | some (k, o) => t.letGo k o
      | none => t) := fun t c => by
    cases c with
    | none => exact Alike.refl
    | some c => exact letGo_alike _ _ _
  unfold State.releaseOrder
  dsimp only
  cases w <;> exact (by first | exact next _ _ | exact (next _ _).trans (next _ _))

theorem dropReq_alike (s : State) (k : Nat) : Alike s (s.dropReq k) := by
  unfold State.dropReq
  split
  · rename_i o _
    exact Alike.trans (t := State.settleReq { s with
      reqs := Store.drop k s.reqs
      outbox := s.outbox ++ [Msg.request o.dst { o.req with stage := .drop }] } k) ⟨rfl, rfl, rfl, rfl, rfl⟩
      (releaseOrder_alike _ _ _)
  · exact Alike.refl

theorem dropPassed_alike (s : State) (ok : OutReq → Bool) : Alike s (s.dropPassed ok) := by
  unfold State.dropPassed
  generalize s.reqs.filter _ = cs
  induction cs generalizing s with
  | nil => exact Alike.refl
  | cons c cs ih => exact (dropReq_alike s c.1).trans (ih _)

theorem dropUnsent_alike (s : State) (l : Nat) : Alike s (s.dropUnsent l) := by
  have all : ∀ (cs : List (Nat × OutReq)) (t : State),
      Alike t (cs.foldl (fun t c => (t.settleReq c.1).releaseOrder c.2.who c.2.req.addr) t) := by
    intro cs
    induction cs with
    | nil => exact fun t => Alike.refl
    | cons c cs ih => exact fun t => ((settleReq_alike t c.1).trans (releaseOrder_alike _ _ _)).trans (ih _)
  exact Alike.trans (t := { s with reqs := s.reqs.filter (fun c => !c.2.unsent l) }) ⟨rfl, rfl, rfl, rfl, rfl⟩ (all _ _)

theorem recallLine_alike (s : State) (a : Nat) : Alike s (s.recallLine a) := by
  unfold State.recallLine
  split
  · split
    · exact Alike.refl
    · exact ⟨rfl, rfl, rfl, rfl, rfl⟩
  · exact Alike.refl

theorem devReadBy_alike {s t : State} {w : Who} {fn ceil : Nat} {route : Page → Except Byte (Entry × Holder)} {va : DWord}
    {n : Nat} (h : s.devReadBy w fn ceil route va n = .wait t) : Alike s t := by
  unfold State.devReadBy at h
  dsimp only at h
  repeat' split at h
  all_goals
    first
      | cases h; exact Alike.refl
      | cases h; exact recallLine_alike _ _
      | cases h; exact ⟨rfl, rfl, rfl, rfl, rfl⟩
      | cases h

theorem codeWord_alike {s t : State} {w : Who} {fn ceil : Nat} {el : Elig} {a : Nat}
    (h : s.codeWord w fn ceil el a = .wait t) : Alike s t := by
  unfold State.codeWord at h
  dsimp only at h
  split at h
  · split at h <;> cases h
  · split at h
    · cases h
    · cases h
    · rename_i hd
      cases h
      exact devReadBy_alike hd

theorem handlerAt_alike {s t : State} {w : Who} {l : Launch} {el : Elig} (h : s.handlerAt w l el = .wait t) : Alike s t := by
  unfold State.handlerAt at h
  split at h
  · cases h
  · unfold State.target at h
    split at h
    · cases h
    · split at h
      · split at h <;> cases h
      · cases h
      · rename_i hc
        cases h
        exact codeWord_alike hc

/-- A wait of two reads in a row is a wait of one of them. -/
theorem bind_wait {α β : Type} {r : Fetch α} {f : α → Fetch β} {t : State} (h : r.bind f = .wait t) :
    r = .wait t ∨ ∃ v, r = .ok v ∧ f v = .wait t := by
  cases r with
  | ok v => exact .inr ⟨v, rfl, h⟩
  | fault c a => cases h
  | wait u => cases h; exact .inl rfl

theorem codeEnd_alike {s t : State} {rd : Nat → Fetch Word} (hr : ∀ a u, rd a = .wait u → Alike s u) (n a : Nat) (tr : Bool)
    (h : codeEnd rd n a tr = .wait t) : Alike s t := by
  induction n generalizing a tr with
  | zero => cases h
  | succ n ih =>
    rcases bind_wait h with h | ⟨w, -, h⟩
    · exact hr _ _ h
    · exact ih _ _ h

theorem scanFrom_alike {s t : State} {rd : Nat → Fetch Word} (hr : ∀ a u, rd a = .wait u → Alike s u) (n a : Nat)
    (h : scanFrom rd n a = .wait t) : Alike s t := by
  induction n generalizing a with
  | zero => cases h
  | succ n ih =>
    rcases bind_wait h with h | ⟨w, -, h⟩
    · exact hr _ _ h
    · split at h
      · cases h
      · split at h
        · cases h
        · rcases bind_wait h with h | ⟨q, -, h⟩
          · exact codeEnd_alike hr _ _ _ h
          · split at h
            · cases h
            · exact ih _ h

theorem splitWaits_alike {s t : State} {i : Issuer} {idx : Nat} {cs : List Byte} (h : s.splitWaits i idx cs = some t) :
    Alike s t := by
  have hand : ∀ u, s.handlerWait i = some u → Alike s u := fun u hu => by
    unfold State.handlerWait at hu
    split at hu
    · cases hu
      exact handlerAt_alike ‹_›
    · cases hu
  have scan : ∀ u, s.rejoinPc i idx = .wait u → Alike s u := fun u hu => by
    unfold State.rejoinPc at hu
    split at hu
    · cases hu
    · exact scanFrom_alike (fun _ _ => codeWord_alike) _ _ hu
  unfold State.splitWaits at h
  dsimp only at h
  split at h
  · rename_i u _ hu
    cases h
    split at hu
    · cases hu
    · exact hand _ hu
  · rename_i u _ hu
    split at h
    · cases h
      exact scan _ hu
    · cases h
  · cases h

/-! ### Ends of instructions -/

theorem settleYarn_keeps (s : State) (y : Nat) (v : Yarn) : Keeps s (s.settleYarn y v) := by
  unfold State.settleYarn
  dsimp only
  split
  · have h := setLaunch_keeps s (s.strandAt v.tidy.settleFlags.strand).launch
      { s.launchOf (s.strandAt v.tidy.settleFlags.strand) with
        unacked := (s.launchOf (s.strandAt v.tidy.settleFlags.strand)).unacked ++ v.tidy.settleFlags.counted }
      (fun hs => launchOf_snap hs _)
    split
    · exact h.trans (keeps_same rfl rfl id (drop_rising _ _) id)
    · exact h.trans (setYarn_keeps _ _ _)
  · exact setYarn_keeps _ _ _

theorem done_keeps (s : State) (i : Issuer) (v : Yarn) : Keeps s (s.done i v) := settleYarn_keeps _ _ _
theorem stay_keeps (s : State) (i : Issuer) (w : Option Wait) : Keeps s (s.stay i w) := setYarn_keeps _ _ _
theorem report_keeps (s : State) (fn : Nat) (r : FaultRec) : Keeps s (s.report fn r) := setFunc_keeps _ _ _

theorem terminate_keeps (s : State) (l : Nat) (c : Byte) : Keeps s (s.terminate l c) := by
  unfold State.terminate
  cases hf : Store.find l s.launches with
  | none => exact Keeps.refl
  | some L =>
    refine Keeps.trans ?_ ((((dropPassed_alike _ _).trans (dropUnsent_alike _ _)).trans (abortRecords_alike _ _)).keeps)
    refine ⟨fun hs => ?_, fun hs => ?_⟩
    · have h := canonical_find hs hf
      rw [canonical_iff] at hs ⊢
      refine ⟨hs.1, fun d hd => ?_⟩
      rcases (insert_mem _ _ _ _).1 hd with rfl | hd
      · exact h
      · exact hs.2 d (drop_sub _ _ d hd).1
    · rw [ordered_iff] at hs ⊢
      exact ⟨put_rising _ _ _ hs.1, rising_filter _ _ hs.2.1, rising_filter _ _ hs.2.2.1, hs.2.2.2⟩

theorem trap_keeps (s : State) (i : Issuer) (t : List Nat) (c : Byte) (a : DWord) (r : Resume) : Keeps s (s.trap i t c a r) := by
  unfold State.trap
  split
  · exact terminate_keeps _ _ _
  · dsimp only
    split
    · exact (dropBufs_alike _ _).keeps.trans (settleYarn_keeps _ _ _)
    · exact (handlerAt_alike ‹_›).keeps
    · exact terminate_keeps _ _ _

theorem candidate_keeps (s : State) (fn die core : Nat) : Keeps s (s.candidate fn die core) := by
  unfold State.candidate
  exact ite_keeps (keeps_of_eq rfl rfl rfl rfl rfl) (setCore_keeps _ _ _)

theorem shadowReport_keeps (s : State) (i : Issuer) : Keeps s (s.shadowReport i) :=
  (report_keeps s _ _).trans (candidate_keeps _ _ _ _)

theorem splitOne_keeps (s : State) (i : Issuer) (idx : Nat) (c : Byte) (fs : List LaneFault) (e : Nat) (v : Yarn) :
    Keeps s (s.splitOne i idx c fs e v).1 := by
  unfold State.splitOne
  dsimp only
  split
  · exact (setCore_keeps _ _ _).trans (report_keeps _ _ _)
  · exact ite_keeps ((setCore_keeps _ _ _).trans (shadowReport_keeps _ _)) (setCore_keeps _ _ _)

theorem splitAll_keeps (s : State) (i : Issuer) (idx : Nat) (fs : List LaneFault) (cs : List Byte) (es : List Nat) (v : Yarn) :
    Keeps s (s.splitAll i idx fs cs es v).1 := by
  induction cs generalizing s es v with
  | nil => exact Keeps.refl
  | cons c cs ih =>
    cases es with
    | nil => exact Keeps.refl
    | cons e es => exact (splitOne_keeps s i idx c fs e v).trans (ih _ _ _)

theorem frayTrap_keeps (s : State) (w : Who) (y e : Nat) : Keeps s (s.frayTrap w y e) := by
  unfold State.frayTrap
  split
  · exact Keeps.refl
  · split
    · exact Keeps.refl
    · dsimp only
      exact ite_keeps (terminate_keeps _ _ _) (setYarn_keeps _ _ _)

theorem frayTraps_keeps (s : State) (w : Who) (y : Nat) (cs : List Byte) (es : List Nat) :
    Keeps s (s.frayTraps w y cs es) := by
  induction cs generalizing s es with
  | nil => exact Keeps.refl
  | cons c cs ih =>
    cases es with
    | nil => exact Keeps.refl
    | cons e es =>
      unfold State.frayTraps
      split
      · exact ih _ _
      · exact (frayTrap_keeps _ _ _ _).trans (ih _ _)

theorem endFor_keeps (s : State) (i : Issuer) (cs : List Byte) : Keeps s (s.endFor i cs) := by
  unfold State.endFor
  split
  · exact (shadowReport_keeps _ _).trans (terminate_keeps _ _ _)
  · exact terminate_keeps _ _ _

/-- An instruction's end keeps the form where the instruction's own effect does. -/
theorem finish_keeps (s : State) (i : Issuer) (G : List Nat) (fs : List LaneFault) (ok : State → State × Yarn)
    (h : Keeps s (ok s).1) : Keeps s (s.finish i G fs ok) := by
  unfold State.finish
  split
  · exact h.trans (done_keeps _ _ _)
  · split
    · exact endFor_keeps _ _ _
    · dsimp only
      split
      · exact trap_keeps _ _ _ _ _ _
      · split
        · exact (splitWaits_alike ‹_›).keeps
        · exact h.trans ((splitAll_keeps _ _ _ _ _ _ _).trans ((settleYarn_keeps _ _ _).trans
            ((frayTraps_keeps _ _ _ _ _).trans (dropBufs_alike _ _).keeps)))

/-! ### Steps -/

/-- An instruction that answers through `issued` keeps the form where its effect does. -/
theorem issued_keeps {s t : State} {f : Issuer → State} (h : ∀ i, Keeps s (f i)) (e : issued s f = .next t) : Keeps s t := by
  unfold issued at e
  split at e
  · cases e
  · cases e
    exact h _

theorem event_keeps {s t u : State} {b : Bool} (h : Keeps s u) (e : event b u = .next t) : Keeps s t := by
  unfold event at e
  split at e
  · cases e
    exact h
  · cases e

end Sys2Proof.Machine
end

