-- ==== Sys2Proof/Laws/Ends.lean ====
section
/-! SUPPORT. What ending a launch does (R146, R162), and when a trap ends one (R112). -/

namespace Sys2Proof.Machine

open Sys2Proof.Laws

/-- What ending a launch leaves of the tables: its record put, its strands and their yarns gone (R146). Beside these only
its requests and records under way are given up. -/
theorem terminate_tables {s : State} {l : Nat} {L : Launch} (c : Byte) (h : Store.find l s.launches = some L) :
    (s.terminate l c).mem = s.mem ∧ (s.terminate l c).changes = s.changes
      ∧ (s.terminate l c).strands = s.strands.filter (fun d => !decide (d.2.launch = l))
      ∧ (s.terminate l c).yarns = s.yarns.filter (fun d => !decide ((s.strandAt d.2.strand).launch = l))
      ∧ (s.terminate l c).launches = Store.put l { L with
          ending := some (L.ending.getD ⟨1, c⟩), evicted := [], nextCoil := L.coils,
          unacked := L.unacked ++ (s.yarns.filter (fun d =>
            decide ((s.strandAt d.2.strand).launch = l))).flatMap (fun d => d.2.counted) } s.launches := by
  have key : ∀ (t : State) (ok : OutReq → Bool), Alike t (((t.dropPassed ok).dropUnsent l).abortRecords l) := fun t ok =>
    ((dropPassed_alike t ok).trans (dropUnsent_alike _ _)).trans (abortRecords_alike _ _)
  simp only [State.terminate, h]
  exact ⟨(key _ _).mem, (key _ _).changes, (key _ _).strands, (key _ _).yarns, (key _ _).launches⟩

/-- A launch ended keeps everything but its ending, its coils and its unacknowledged writes; the first ending stands. -/
theorem terminate_launch {s : State} {l : Nat} {L : Launch} (c : Byte) (h : Store.find l s.launches = some L) :
    ∃ M, Store.find l (s.terminate l c).launches = some M ∧ M.ending = some (L.ending.getD ⟨1, c⟩) ∧ M.evicted = []
      ∧ { M with ending := L.ending, evicted := L.evicted, nextCoil := L.nextCoil, unacked := L.unacked } = L := by
  rw [(terminate_tables c h).2.2.2.2, find_put_self]
  exact ⟨_, rfl, rfl, rfl, rfl⟩

/-- Every other launch stands as it was. -/
theorem terminate_other (s : State) (l k : Nat) (c : Byte) (hk : k ≠ l) :
    Store.find k (s.terminate l c).launches = Store.find k s.launches := by
  cases h : Store.find l s.launches with
  | none => simp [State.terminate, h]
  | some L => rw [(terminate_tables c h).2.2.2.2, find_put_other _ _ _ _ hk]

/-- Nothing of the launch is left: no strand of it, and no yarn of its strands. -/
theorem terminate_gone {s : State} {l : Nat} (c : Byte) (h : (Store.find l s.launches).isSome = true) :
    (∀ d ∈ (s.terminate l c).strands, d.2.launch ≠ l) ∧ ∀ d ∈ (s.terminate l c).yarns, (s.strandAt d.2.strand).launch ≠ l := by
  obtain ⟨L, hf⟩ := Option.isSome_iff_exists.1 h
  obtain ⟨-, -, hs, hy, -⟩ := terminate_tables c hf
  rw [hs, hy]
  exact ⟨fun d hd => by simpa using (List.mem_filter.1 hd).2, fun d hd => by simpa using (List.mem_filter.1 hd).2⟩

/-- And of memory and of the other tables nothing differs. -/
theorem terminate_rest (s : State) (l : Nat) (c : Byte) :
    (s.terminate l c).mem = s.mem ∧ (s.terminate l c).changes = s.changes := by
  cases h : Store.find l s.launches with
  | none => simp [State.terminate, h]
  | some L => exact ⟨(terminate_tables c h).1, (terminate_tables c h).2.1⟩

/-- R112: a trap in handler mode ends the launch. -/
theorem trap_in_handler {s : State} {i : Issuer} (t : List Nat) (c : Byte) (a : DWord) (r : Resume) (h : i.bank.handler = true) :
    s.trap i t c a r = s.terminate i.strand.launch c := by
  simp [State.trap, h]

/-- R162: and one of a launch with no handler. -/
theorem trap_no_handler {s : State} {i : Issuer} (t : List Nat) (c : Byte) (a : DWord) (r : Resume) (h : i.launch.handler = 0) :
    s.trap i t c a r = s.terminate i.strand.launch c := by
  simp [State.trap, State.handlerAt, h]

/-- R62, R112, R113: what trap entry leaves in a bank. -/
theorem enter_spec (b : Bank) (c : Byte) (a : DWord) (m : Mask) (r : BitVec 57 × Nat) :
    (b.enter c a m r).ssw = b.status ∧ (b.enter c a m r).handler = true ∧ (b.enter c a m r).xcause = c.setWidth 32
      ∧ (b.enter c a m r).xindex = BitVec.ofNat 32 r.2 ∧ (b.enter c a m r).xpc = r.1.setWidth 64 ∧ (b.enter c a m r).xarg = a
      ∧ (b.enter c a m r).xmask = m ∧ (b.enter c a m r).scalars = b.scalars ∧ (b.enter c a m r).floor = b.floor := by
  refine ⟨rfl, ?_, rfl, rfl, rfl, rfl, rfl, rfl, rfl⟩
  simp [Bank.enter, Bank.handler]

/-- R62, R116: what returning leaves: the sticky bits are SSW's and the handler bit is clear. -/
theorem leave_spec (b : Bank) : b.leave.handler = false ∧ b.leave.status &&& 0x7F = b.ssw &&& 0x7F ∧ b.leave.scalars = b.scalars := by
  refine ⟨?_, ?_, rfl⟩
  · simp [Bank.leave, Bank.handler]
  · unfold Bank.leave
    ext k hk
    simp only [BitVec.getElem_and, BitVec.getElem_or]
    have h : (0xFFFF7F80 : Word)[k] = true → (0x7F : Word)[k] = false := by
      revert k
      decide
    cases h1 : (0x7F : Word)[k] <;> cases h2 : (0xFFFF7F80 : Word)[k] <;> simp_all

/-- An instruction that only computes keeps the form of the state. -/
theorem compute_keeps (s : State) (i : Issuer) (o : Op) (x : Args) (rs : List Res) : Keeps s (s.compute i o x rs) := by
  unfold State.compute
  exact finish_keeps s i _ _ _ Keeps.refl

end Sys2Proof.Machine
end

