-- ==== Sys2Proof/Laws/PerInstr.lean ====
section
/-! SUPPORT. Laws of every instruction as syntax, one lemma for each constructor. -/

namespace Sys2Proof.Laws

/-- An instruction is the one its mnemonic and arguments make; an event has neither. -/
def Parts.Statement (i : Instr) : Prop := ∀ o x, i.op? = some (o, x) → o.mk x = i

theorem Parts.add (x : Args) : Parts.Statement (.add x) := by rintro o y ⟨⟩; rfl
theorem Parts.sub (x : Args) : Parts.Statement (.sub x) := by rintro o y ⟨⟩; rfl
theorem Parts.mulLo (x : Args) : Parts.Statement (.mulLo x) := by rintro o y ⟨⟩; rfl
theorem Parts.mulHi (x : Args) : Parts.Statement (.mulHi x) := by rintro o y ⟨⟩; rfl
theorem Parts.mad (x : Args) : Parts.Statement (.mad x) := by rintro o y ⟨⟩; rfl
theorem Parts.madWide (x : Args) : Parts.Statement (.madWide x) := by rintro o y ⟨⟩; rfl
theorem Parts.minI (x : Args) : Parts.Statement (.minI x) := by rintro o y ⟨⟩; rfl
theorem Parts.maxI (x : Args) : Parts.Statement (.maxI x) := by rintro o y ⟨⟩; rfl
theorem Parts.absI (x : Args) : Parts.Statement (.absI x) := by rintro o y ⟨⟩; rfl
theorem Parts.negI (x : Args) : Parts.Statement (.negI x) := by rintro o y ⟨⟩; rfl
theorem Parts.andB (x : Args) : Parts.Statement (.andB x) := by rintro o y ⟨⟩; rfl
theorem Parts.orB (x : Args) : Parts.Statement (.orB x) := by rintro o y ⟨⟩; rfl
theorem Parts.xorB (x : Args) : Parts.Statement (.xorB x) := by rintro o y ⟨⟩; rfl
theorem Parts.andn (x : Args) : Parts.Statement (.andn x) := by rintro o y ⟨⟩; rfl
theorem Parts.notB (x : Args) : Parts.Statement (.notB x) := by rintro o y ⟨⟩; rfl
theorem Parts.shl (x : Args) : Parts.Statement (.shl x) := by rintro o y ⟨⟩; rfl
theorem Parts.shr (x : Args) : Parts.Statement (.shr x) := by rintro o y ⟨⟩; rfl
theorem Parts.sar (x : Args) : Parts.Statement (.sar x) := by rintro o y ⟨⟩; rfl
theorem Parts.rot (x : Args) : Parts.Statement (.rot x) := by rintro o y ⟨⟩; rfl
theorem Parts.shf (x : Args) : Parts.Statement (.shf x) := by rintro o y ⟨⟩; rfl
theorem Parts.popc (x : Args) : Parts.Statement (.popc x) := by rintro o y ⟨⟩; rfl
theorem Parts.clz (x : Args) : Parts.Statement (.clz x) := by rintro o y ⟨⟩; rfl
theorem Parts.ctz (x : Args) : Parts.Statement (.ctz x) := by rintro o y ⟨⟩; rfl
theorem Parts.brev (x : Args) : Parts.Statement (.brev x) := by rintro o y ⟨⟩; rfl
theorem Parts.bext (x : Args) : Parts.Statement (.bext x) := by rintro o y ⟨⟩; rfl
theorem Parts.bins (x : Args) : Parts.Statement (.bins x) := by rintro o y ⟨⟩; rfl
theorem Parts.cmp (x : Args) : Parts.Statement (.cmp x) := by rintro o y ⟨⟩; rfl
theorem Parts.sel (x : Args) : Parts.Statement (.sel x) := by rintro o y ⟨⟩; rfl
theorem Parts.mov (x : Args) : Parts.Statement (.mov x) := by rintro o y ⟨⟩; rfl
theorem Parts.movi (x : Args) : Parts.Statement (.movi x) := by rintro o y ⟨⟩; rfl
theorem Parts.lea (x : Args) : Parts.Statement (.lea x) := by rintro o y ⟨⟩; rfl
theorem Parts.dp4 (x : Args) : Parts.Statement (.dp4 x) := by rintro o y ⟨⟩; rfl
theorem Parts.cvt (x : Args) : Parts.Statement (.cvt x) := by rintro o y ⟨⟩; rfl
theorem Parts.perm (x : Args) : Parts.Statement (.perm x) := by rintro o y ⟨⟩; rfl
theorem Parts.lut16 (x : Args) : Parts.Statement (.lut16 x) := by rintro o y ⟨⟩; rfl
theorem Parts.lprev (x : Args) : Parts.Statement (.lprev x) := by rintro o y ⟨⟩; rfl
theorem Parts.shfl (x : Args) : Parts.Statement (.shfl x) := by rintro o y ⟨⟩; rfl
theorem Parts.vote (x : Args) : Parts.Statement (.vote x) := by rintro o y ⟨⟩; rfl
theorem Parts.bcast (x : Args) : Parts.Statement (.bcast x) := by rintro o y ⟨⟩; rfl
theorem Parts.scan (x : Args) : Parts.Statement (.scan x) := by rintro o y ⟨⟩; rfl
theorem Parts.redux (x : Args) : Parts.Statement (.redux x) := by rintro o y ⟨⟩; rfl
theorem Parts.matchL (x : Args) : Parts.Statement (.matchL x) := by rintro o y ⟨⟩; rfl
theorem Parts.fadd (x : Args) : Parts.Statement (.fadd x) := by rintro o y ⟨⟩; rfl
theorem Parts.fsub (x : Args) : Parts.Statement (.fsub x) := by rintro o y ⟨⟩; rfl
theorem Parts.fmul (x : Args) : Parts.Statement (.fmul x) := by rintro o y ⟨⟩; rfl
theorem Parts.ffma (x : Args) : Parts.Statement (.ffma x) := by rintro o y ⟨⟩; rfl
theorem Parts.fmin (x : Args) : Parts.Statement (.fmin x) := by rintro o y ⟨⟩; rfl
theorem Parts.fmax (x : Args) : Parts.Statement (.fmax x) := by rintro o y ⟨⟩; rfl
theorem Parts.fcmp (x : Args) : Parts.Statement (.fcmp x) := by rintro o y ⟨⟩; rfl
theorem Parts.fsel (x : Args) : Parts.Statement (.fsel x) := by rintro o y ⟨⟩; rfl
theorem Parts.frcp (x : Args) : Parts.Statement (.frcp x) := by rintro o y ⟨⟩; rfl
theorem Parts.frsq (x : Args) : Parts.Statement (.frsq x) := by rintro o y ⟨⟩; rfl
theorem Parts.fsqrt (x : Args) : Parts.Statement (.fsqrt x) := by rintro o y ⟨⟩; rfl
theorem Parts.fexp2 (x : Args) : Parts.Statement (.fexp2 x) := by rintro o y ⟨⟩; rfl
theorem Parts.flog2 (x : Args) : Parts.Statement (.flog2 x) := by rintro o y ⟨⟩; rfl
theorem Parts.fsin (x : Args) : Parts.Statement (.fsin x) := by rintro o y ⟨⟩; rfl
theorem Parts.fcos (x : Args) : Parts.Statement (.fcos x) := by rintro o y ⟨⟩; rfl
theorem Parts.fscale (x : Args) : Parts.Statement (.fscale x) := by rintro o y ⟨⟩; rfl
theorem Parts.ffrac (x : Args) : Parts.Statement (.ffrac x) := by rintro o y ⟨⟩; rfl
theorem Parts.fround (x : Args) : Parts.Statement (.fround x) := by rintro o y ⟨⟩; rfl
theorem Parts.fcvt (x : Args) : Parts.Statement (.fcvt x) := by rintro o y ⟨⟩; rfl
theorem Parts.qnt (x : Args) : Parts.Statement (.qnt x) := by rintro o y ⟨⟩; rfl
theorem Parts.dqnt (x : Args) : Parts.Statement (.dqnt x) := by rintro o y ⟨⟩; rfl
theorem Parts.bmax (x : Args) : Parts.Statement (.bmax x) := by rintro o y ⟨⟩; rfl
theorem Parts.pack (x : Args) : Parts.Statement (.pack x) := by rintro o y ⟨⟩; rfl
theorem Parts.unpack (x : Args) : Parts.Statement (.unpack x) := by rintro o y ⟨⟩; rfl
theorem Parts.mma (x : Args) : Parts.Statement (.mma x) := by rintro o y ⟨⟩; rfl
theorem Parts.accLd (x : Args) : Parts.Statement (.accLd x) := by rintro o y ⟨⟩; rfl
theorem Parts.accSt (x : Args) : Parts.Statement (.accSt x) := by rintro o y ⟨⟩; rfl
theorem Parts.accZero (x : Args) : Parts.Statement (.accZero x) := by rintro o y ⟨⟩; rfl
theorem Parts.mmchk (x : Args) : Parts.Statement (.mmchk x) := by rintro o y ⟨⟩; rfl
theorem Parts.bra (x : Args) : Parts.Statement (.bra x) := by rintro o y ⟨⟩; rfl
theorem Parts.braConditional (x : Args) : Parts.Statement (.braConditional x) := by rintro o y ⟨⟩; rfl
theorem Parts.brx (x : Args) : Parts.Statement (.brx x) := by rintro o y ⟨⟩; rfl
theorem Parts.call (x : Args) : Parts.Statement (.call x) := by rintro o y ⟨⟩; rfl
theorem Parts.ret (x : Args) : Parts.Statement (.ret x) := by rintro o y ⟨⟩; rfl
theorem Parts.exitF (x : Args) : Parts.Statement (.exitF x) := by rintro o y ⟨⟩; rfl
theorem Parts.nop (x : Args) : Parts.Statement (.nop x) := by rintro o y ⟨⟩; rfl
theorem Parts.yieldI (x : Args) : Parts.Statement (.yieldI x) := by rintro o y ⟨⟩; rfl
theorem Parts.trapI (x : Args) : Parts.Statement (.trapI x) := by rintro o y ⟨⟩; rfl
theorem Parts.tret (x : Args) : Parts.Statement (.tret x) := by rintro o y ⟨⟩; rfl
theorem Parts.brk (x : Args) : Parts.Statement (.brk x) := by rintro o y ⟨⟩; rfl
theorem Parts.pand (x : Args) : Parts.Statement (.pand x) := by rintro o y ⟨⟩; rfl
theorem Parts.por (x : Args) : Parts.Statement (.por x) := by rintro o y ⟨⟩; rfl
theorem Parts.pxor (x : Args) : Parts.Statement (.pxor x) := by rintro o y ⟨⟩; rfl
theorem Parts.pnot (x : Args) : Parts.Statement (.pnot x) := by rintro o y ⟨⟩; rfl
theorem Parts.pmov (x : Args) : Parts.Statement (.pmov x) := by rintro o y ⟨⟩; rfl
theorem Parts.frayq (x : Args) : Parts.Statement (.frayq x) := by rintro o y ⟨⟩; rfl
theorem Parts.lds (x : Args) : Parts.Statement (.lds x) := by rintro o y ⟨⟩; rfl
theorem Parts.sts (x : Args) : Parts.Statement (.sts x) := by rintro o y ⟨⟩; rfl
theorem Parts.ldw (x : Args) : Parts.Statement (.ldw x) := by rintro o y ⟨⟩; rfl
theorem Parts.stw (x : Args) : Parts.Statement (.stw x) := by rintro o y ⟨⟩; rfl
theorem Parts.atoms (x : Args) : Parts.Statement (.atoms x) := by rintro o y ⟨⟩; rfl
theorem Parts.rinit (x : Args) : Parts.Statement (.rinit x) := by rintro o y ⟨⟩; rfl
theorem Parts.arrive (x : Args) : Parts.Statement (.arrive x) := by rintro o y ⟨⟩; rfl
theorem Parts.rwait (x : Args) : Parts.Statement (.rwait x) := by rintro o y ⟨⟩; rfl
theorem Parts.arwait (x : Args) : Parts.Statement (.arwait x) := by rintro o y ⟨⟩; rfl
theorem Parts.ringPutAcq (x : Args) : Parts.Statement (.ringPutAcq x) := by rintro o y ⟨⟩; rfl
theorem Parts.ringPutRel (x : Args) : Parts.Statement (.ringPutRel x) := by rintro o y ⟨⟩; rfl
theorem Parts.ringTakeAcq (x : Args) : Parts.Statement (.ringTakeAcq x) := by rintro o y ⟨⟩; rfl
theorem Parts.ringTakeRel (x : Args) : Parts.Statement (.ringTakeRel x) := by rintro o y ⟨⟩; rfl
theorem Parts.spawn (x : Args) : Parts.Statement (.spawn x) := by rintro o y ⟨⟩; rfl
theorem Parts.endF (x : Args) : Parts.Statement (.endF x) := by rintro o y ⟨⟩; rfl
theorem Parts.monw (x : Args) : Parts.Statement (.monw x) := by rintro o y ⟨⟩; rfl
theorem Parts.mwait (x : Args) : Parts.Statement (.mwait x) := by rintro o y ⟨⟩; rfl
theorem Parts.ld (x : Args) : Parts.Statement (.ld x) := by rintro o y ⟨⟩; rfl
theorem Parts.st (x : Args) : Parts.Statement (.st x) := by rintro o y ⟨⟩; rfl
theorem Parts.atom (x : Args) : Parts.Statement (.atom x) := by rintro o y ⟨⟩; rfl
theorem Parts.red (x : Args) : Parts.Statement (.red x) := by rintro o y ⟨⟩; rfl
theorem Parts.ldAcq (x : Args) : Parts.Statement (.ldAcq x) := by rintro o y ⟨⟩; rfl
theorem Parts.stRel (x : Args) : Parts.Statement (.stRel x) := by rintro o y ⟨⟩; rfl
theorem Parts.fenceAcq (x : Args) : Parts.Statement (.fenceAcq x) := by rintro o y ⟨⟩; rfl
theorem Parts.fenceRel (x : Args) : Parts.Statement (.fenceRel x) := by rintro o y ⟨⟩; rfl
theorem Parts.fenceAr (x : Args) : Parts.Statement (.fenceAr x) := by rintro o y ⟨⟩; rfl
theorem Parts.prefetch (x : Args) : Parts.Statement (.prefetch x) := by rintro o y ⟨⟩; rfl
theorem Parts.cwb (x : Args) : Parts.Statement (.cwb x) := by rintro o y ⟨⟩; rfl
theorem Parts.cinv (x : Args) : Parts.Statement (.cinv x) := by rintro o y ⟨⟩; rfl
theorem Parts.shape (x : Args) : Parts.Statement (.shape x) := by rintro o y ⟨⟩; rfl
theorem Parts.tbinit (x : Args) : Parts.Statement (.tbinit x) := by rintro o y ⟨⟩; rfl
theorem Parts.tbarrive (x : Args) : Parts.Statement (.tbarrive x) := by rintro o y ⟨⟩; rfl
theorem Parts.tbexpect (x : Args) : Parts.Statement (.tbexpect x) := by rintro o y ⟨⟩; rfl
theorem Parts.tbwait (x : Args) : Parts.Statement (.tbwait x) := by rintro o y ⟨⟩; rfl
theorem Parts.tlwait (x : Args) : Parts.Statement (.tlwait x) := by rintro o y ⟨⟩; rfl
theorem Parts.tlread (x : Args) : Parts.Statement (.tlread x) := by rintro o y ⟨⟩; rfl
theorem Parts.annc (x : Args) : Parts.Statement (.annc x) := by rintro o y ⟨⟩; rfl
theorem Parts.wdrw (x : Args) : Parts.Statement (.wdrw x) := by rintro o y ⟨⟩; rfl
theorem Parts.prom (x : Args) : Parts.Statement (.prom x) := by rintro o y ⟨⟩; rfl
theorem Parts.rtq (x : Args) : Parts.Statement (.rtq x) := by rintro o y ⟨⟩; rfl
theorem Parts.rtsync (x : Args) : Parts.Statement (.rtsync x) := by rintro o y ⟨⟩; rfl
theorem Parts.knotInit (x : Args) : Parts.Statement (.knotInit x) := by rintro o y ⟨⟩; rfl
theorem Parts.knotPut (x : Args) : Parts.Statement (.knotPut x) := by rintro o y ⟨⟩; rfl
theorem Parts.knotTake (x : Args) : Parts.Statement (.knotTake x) := by rintro o y ⟨⟩; rfl
theorem Parts.knotQuery (x : Args) : Parts.Statement (.knotQuery x) := by rintro o y ⟨⟩; rfl
theorem Parts.csrr (x : Args) : Parts.Statement (.csrr x) := by rintro o y ⟨⟩; rfl
theorem Parts.csrw (x : Args) : Parts.Statement (.csrw x) := by rintro o y ⟨⟩; rfl
theorem Parts.lblset (x : Args) : Parts.Statement (.lblset x) := by rintro o y ⟨⟩; rfl
theorem Parts.lbldn (x : Args) : Parts.Statement (.lbldn x) := by rintro o y ⟨⟩; rfl
theorem Parts.clauseStart (y g : Nat) : Parts.Statement (.clauseStart y g) := by rintro o y ⟨⟩
theorem Parts.rejoinWaitEnd (y g : Nat) : Parts.Statement (.rejoinWaitEnd y g) := by rintro o y ⟨⟩
theorem Parts.longLatencyComplete (y k : Nat) : Parts.Statement (.longLatencyComplete y k) := by rintro o y ⟨⟩
theorem Parts.requestAccepted (r : Nat) (ans : Answer) : Parts.Statement (.requestAccepted r ans) := by rintro o y ⟨⟩
theorem Parts.holderRequest (r : Request) : Parts.Statement (.holderRequest r) := by rintro o y ⟨⟩
theorem Parts.writeAcknowledged (a : Ack) : Parts.Statement (.writeAcknowledged a) := by rintro o y ⟨⟩
theorem Parts.ownershipRequest (r : Request) : Parts.Statement (.ownershipRequest r) := by rintro o y ⟨⟩
theorem Parts.recall (p : Packet) (line : Fab) : Parts.Statement (.recall p line) := by rintro o y ⟨⟩
theorem Parts.writeBack (p : Packet) (d : LineBytes) (release : Bool) : Parts.Statement (.writeBack p d release) := by rintro o y ⟨⟩
theorem Parts.ownershipGrant (p : Packet) (d : LineBytes) : Parts.Statement (.ownershipGrant p d) := by rintro o y ⟨⟩
theorem Parts.qnotifyWrite (fn q : Nat) (w : Word) : Parts.Statement (.qnotifyWrite fn q w) := by rintro o y ⟨⟩
theorem Parts.qctlWrite (fn q : Nat) (w : Word) : Parts.Statement (.qctlWrite fn q w) := by rintro o y ⟨⟩
theorem Parts.launchPacket (fn q : Nat) : Parts.Statement (.launchPacket fn q) := by rintro o y ⟨⟩
theorem Parts.barrierAndPacket (fn q : Nat) : Parts.Statement (.barrierAndPacket fn q) := by rintro o y ⟨⟩
theorem Parts.barrierAndComplete (fn q : Nat) : Parts.Statement (.barrierAndComplete fn q) := by rintro o y ⟨⟩
theorem Parts.signalPacket (fn q : Nat) : Parts.Statement (.signalPacket fn q) := by rintro o y ⟨⟩
theorem Parts.coilPlace (l : Nat) : Parts.Statement (.coilPlace l) := by rintro o y ⟨⟩
theorem Parts.evictCoil (l coil : Nat) : Parts.Statement (.evictCoil l coil) := by rintro o y ⟨⟩
theorem Parts.restoreCoil (l coil : Nat) : Parts.Statement (.restoreCoil l coil) := by rintro o y ⟨⟩
theorem Parts.strandEnd (x : Nat) : Parts.Statement (.strandEnd x) := by rintro o y ⟨⟩
theorem Parts.launchComplete (l : Nat) : Parts.Statement (.launchComplete l) := by rintro o y ⟨⟩
theorem Parts.watchdog (x pt : Nat) : Parts.Statement (.watchdog x pt) := by rintro o y ⟨⟩
theorem Parts.spawnBinTimer (bin : Nat) : Parts.Statement (.spawnBinTimer bin) := by rintro o y ⟨⟩
theorem Parts.binYarnStart (bin : Nat) : Parts.Statement (.binYarnStart bin) := by rintro o y ⟨⟩
theorem Parts.spawnRecordPlaced (y g : Nat) : Parts.Statement (.spawnRecordPlaced y g) := by rintro o y ⟨⟩
theorem Parts.spillReadback (x : Nat) : Parts.Statement (.spillReadback x) := by rintro o y ⟨⟩
theorem Parts.monitorWake (y lane : Nat) : Parts.Statement (.monitorWake y lane) := by rintro o y ⟨⟩
theorem Parts.mwaitLimit (y lane : Nat) : Parts.Statement (.mwaitLimit y lane) := by rintro o y ⟨⟩
theorem Parts.copySector (x ch : Nat) : Parts.Statement (.copySector x ch) := by rintro o y ⟨⟩
theorem Parts.copyDone (x ch : Nat) : Parts.Statement (.copyDone x ch) := by rintro o y ⟨⟩
theorem Parts.remoteCompletionSignal (inc : BitVec 16) (x offset : Nat) : Parts.Statement (.remoteCompletionSignal inc x offset) := by rintro o y ⟨⟩
theorem Parts.mmaKstep (x : Nat) : Parts.Statement (.mmaKstep x) := by rintro o y ⟨⟩
theorem Parts.mmaEpilogue (x : Nat) : Parts.Statement (.mmaEpilogue x) := by rintro o y ⟨⟩
theorem Parts.epilogueStore (x : Nat) : Parts.Statement (.epilogueStore x) := by rintro o y ⟨⟩
theorem Parts.uncorrectable (l core : Nat) (loc : BitVec 4) (addr : DWord) : Parts.Statement (.uncorrectable l core loc addr) := by rintro o y ⟨⟩
theorem Parts.faultReplyRepaired (fn : Nat) (w : Word) : Parts.Statement (.faultReplyRepaired fn w) := by rintro o y ⟨⟩
theorem Parts.faultReplyKill (fn : Nat) (w : Word) : Parts.Statement (.faultReplyKill fn w) := by rintro o y ⟨⟩
theorem Parts.copyReplyRepaired (fn : Nat) (w : DWord) : Parts.Statement (.copyReplyRepaired fn w) := by rintro o y ⟨⟩
theorem Parts.copyReplyKill (fn : Nat) (w : DWord) : Parts.Statement (.copyReplyKill fn w) := by rintro o y ⟨⟩
theorem Parts.faultRecordWrite (fn : Nat) : Parts.Statement (.faultRecordWrite fn) := by rintro o y ⟨⟩
theorem Parts.xlinv (fn : Nat) (w : DWord) : Parts.Statement (.xlinv fn w) := by rintro o y ⟨⟩
theorem Parts.xlinvComplete (fn : Nat) : Parts.Statement (.xlinvComplete fn) := by rintro o y ⟨⟩
theorem Parts.fenceRegisterWrite (die : Nat) (w : DWord) : Parts.Statement (.fenceRegisterWrite die w) := by rintro o y ⟨⟩
theorem Parts.announce (m : BitVec 256) : Parts.Statement (.announce m) := by rintro o y ⟨⟩
theorem Parts.withdraw (m : BitVec 256) : Parts.Statement (.withdraw m) := by rintro o y ⟨⟩
theorem Parts.ack (m : BitVec 256) : Parts.Statement (.ack m) := by rintro o y ⟨⟩
theorem Parts.portUp (port : Nat) (far : Peer) (trunk : Bool) : Parts.Statement (.portUp port far trunk) := by rintro o y ⟨⟩
theorem Parts.trunkPortDown (port : Nat) : Parts.Statement (.trunkPortDown port) := by rintro o y ⟨⟩
theorem Parts.podPortDown (port : Nat) : Parts.Statement (.podPortDown port) := by rintro o y ⟨⟩
theorem Parts.dataFlit (port : Nat) (f : Flit) : Parts.Statement (.dataFlit port f) := by rintro o y ⟨⟩
theorem Parts.idleFlit (port : Nat) (f : Flit) : Parts.Statement (.idleFlit port f) := by rintro o y ⟨⟩
theorem Parts.retryRequest (port : Nat) (f : Flit) : Parts.Statement (.retryRequest port f) := by rintro o y ⟨⟩
theorem Parts.rekeyFlit (port : Nat) (f : Flit) : Parts.Statement (.rekeyFlit port f) := by rintro o y ⟨⟩
theorem Parts.linkRetrain (port : Nat) : Parts.Statement (.linkRetrain port) := by rintro o y ⟨⟩
theorem Parts.sequenceExhaustion (port : Nat) : Parts.Statement (.sequenceExhaustion port) := by rintro o y ⟨⟩
theorem Parts.linkTraining (port : Nat) (key : BitVec 256) : Parts.Statement (.linkTraining port key) := by rintro o y ⟨⟩
theorem Parts.loadFieldDecay (p : Peer) : Parts.Statement (.loadFieldDecay p) := by rintro o y ⟨⟩
theorem Parts.extentRevoke (p : Peer) (pfx : Fab) (len : Nat) : Parts.Statement (.extentRevoke p pfx len) := by rintro o y ⟨⟩
theorem Parts.revocationComplete (p : Peer) (pfx : Fab) (len : Nat) : Parts.Statement (.revocationComplete p pfx len) := by rintro o y ⟨⟩
theorem Parts.chunkFire (l chunk : Nat) : Parts.Statement (.chunkFire l chunk) := by rintro o y ⟨⟩
theorem Parts.passArrival (p : Pass) : Parts.Statement (.passArrival p) := by rintro o y ⟨⟩
theorem Parts.verdict (home : Fab) (p : Pass) : Parts.Statement (.verdict home p) := by rintro o y ⟨⟩
theorem Parts.verdictAnswer (p : Pass) (close : Bool) (lag : List Byte) : Parts.Statement (.verdictAnswer p close lag) := by rintro o y ⟨⟩
theorem Parts.broadcastHop (p : Pass) : Parts.Statement (.broadcastHop p) := by rintro o y ⟨⟩
theorem Parts.passStart (l : Nat) (w : PassWish) : Parts.Statement (.passStart l w) := by rintro o y ⟨⟩
theorem Parts.knotRequest (r : Request) : Parts.Statement (.knotRequest r) := by rintro o y ⟨⟩
theorem Parts.meterRefill (fn : Nat) : Parts.Statement (.meterRefill fn) := by rintro o y ⟨⟩
theorem Parts.scrubStep (i : Nat) : Parts.Statement (.scrubStep i) := by rintro o y ⟨⟩
theorem Parts.securityModeChange (fn : Nat) (mode : BitVec 2) (ranges : List (Fab × Nat)) : Parts.Statement (.securityModeChange fn mode ranges) := by rintro o y ⟨⟩
theorem Parts.grantInstall (fn slot : Nat) (g : Option Grant) : Parts.Statement (.grantInstall fn slot g) := by rintro o y ⟨⟩
theorem Parts.sealWindowInstall (k : Nat) (win : SealWindow) : Parts.Statement (.sealWindowInstall k win) := by rintro o y ⟨⟩
theorem Parts.sealWindowRemove (k : Nat) : Parts.Statement (.sealWindowRemove k) := by rintro o y ⟨⟩
theorem Parts.logAcknowledge (seq : Nat) : Parts.Statement (.logAcknowledge seq) := by rintro o y ⟨⟩
theorem Parts.logSignRequest  : Parts.Statement (.logSignRequest) := by rintro o y ⟨⟩
theorem Parts.getMeasurements (nonce : List Byte) : Parts.Statement (.getMeasurements nonce) := by rintro o y ⟨⟩
theorem Parts.bounceRecord (fn chan at_ : Nat) (data : List Byte) (tag : BitVec 128) : Parts.Statement (.bounceRecord fn chan at_ data tag) := by rintro o y ⟨⟩
theorem Parts.bounceResync (fn chan : Nat) (key : BitVec 256) (pfx : Fab) (len host : Nat) : Parts.Statement (.bounceResync fn chan key pfx len host) := by rintro o y ⟨⟩
theorem Parts.hostWindowAccess (fn : Nat) (kind : HostAccess) (va : DWord) (data : List Byte) : Parts.Statement (.hostWindowAccess fn kind va data) := by rintro o y ⟨⟩
theorem Parts.vendorDebugEntry (ranges : List (Fab × Nat)) : Parts.Statement (.vendorDebugEntry ranges) := by rintro o y ⟨⟩
theorem Parts.debugAttach (fn core : Nat) (c : Session) : Parts.Statement (.debugAttach fn core c) := by rintro o y ⟨⟩
theorem Parts.powerActive (die core : Nat) : Parts.Statement (.powerActive die core) := by rintro o y ⟨⟩
theorem Parts.corePowerGated (die core : Nat) : Parts.Statement (.corePowerGated die core) := by rintro o y ⟨⟩
theorem Parts.dieRetention (die : Nat) : Parts.Statement (.dieRetention die) := by rintro o y ⟨⟩
theorem Parts.packageStandby  : Parts.Statement (.packageStandby) := by rintro o y ⟨⟩
theorem Parts.coreClockGated (core : Nat) : Parts.Statement (.coreClockGated core) := by rintro o y ⟨⟩
theorem Parts.powerCapStep (up : Bool) : Parts.Statement (.powerCapStep up) := by rintro o y ⟨⟩
theorem Parts.thermalTrip (celsius : Nat) : Parts.Statement (.thermalTrip celsius) := by rintro o y ⟨⟩
theorem Parts.powerOnReset (im : Images) : Parts.Statement (.powerOnReset im) := by rintro o y ⟨⟩
theorem Parts.registerWrite (fn offset width : Nat) (w : DWord) : Parts.Statement (.registerWrite fn offset width w) := by rintro o y ⟨⟩
theorem Parts.debugContinue (fn : Nat) (x : Option Nat) : Parts.Statement (.debugContinue fn x) := by rintro o y ⟨⟩
theorem Parts.debugDetach (fn core : Nat) : Parts.Statement (.debugDetach fn core) := by rintro o y ⟨⟩
theorem Parts.rangeRelease (fn : Nat) (pfx : Fab) (len : Nat) : Parts.Statement (.rangeRelease fn pfx len) := by rintro o y ⟨⟩
theorem Parts.egressMeterWrite (fn reg : Nat) (w : DWord) : Parts.Statement (.egressMeterWrite fn reg w) := by rintro o y ⟨⟩
theorem Parts.wakeThatNamesNoWrite (y lane : Nat) : Parts.Statement (.wakeThatNamesNoWrite y lane) := by rintro o y ⟨⟩
theorem Parts.injectionRegulatorAdmit (r : Nat) : Parts.Statement (.injectionRegulatorAdmit r) := by rintro o y ⟨⟩
theorem Parts.errorFoundByScrubbing (addr : Fab) : Parts.Statement (.errorFoundByScrubbing addr) := by rintro o y ⟨⟩

end Sys2Proof.Laws
end

