-- ==== Sys2Proof/Laws/WellFormed.lean ====
section
/-! SUPPORT. What a well-formed instruction's parts are known to be. -/

namespace Sys2Proof

/-- The checks of a well-formed instruction, one by one. -/
structure Args.Parts (o : Op) (x : Args) : Prop where
  sub : o.subOk x.sub = true
  mods : o.modsOk x.mods = true
  ty : o.tyOk x.sub x.ty = true
  src : o.srcOk x = true
  rnd : o.rndUse = .any ∨ x.rnd = .rne
  sat : o.satUse x.sub = true ∨ x.sat = false
  off : o.offUse x.mods = true ∨ x.off = 0
  swz : o.swzUse x.mods = true ∨ x.swz = 0
  pol : o.polUse x.mods = true ∨ x.pol = .normal
  a : x.a.fits (o.aKind x.mods) (o.aWide x.ty x.src x.mods) = true
  b : x.b.fits (o.bKind x.mods) (o.bWide x.ty) = true
  c : x.c.fits (o.cKind x.sub x.mods) (o.cWide x.ty) = true
  dst : x.dst.fits (o.dests x.sub x.mods) (o.dWide x.ty x.sub x.mods) = true
  lits : x.litsOk = true
  lr : x.lrC = true → x.c.isVec = true

theorem wf_parts {o : Op} {x : Args} (h : x.wf o = true) : x.Parts o := by
  simp only [Args.wf, List.all_cons, List.all_nil, id, Bool.and_true, Bool.and_eq_true] at h
  obtain ⟨h1, h2, h3, h4, h5, h6, h7, h8⟩ := h
  simp only [Args.settingsOk, Bool.and_eq_true, Bool.or_eq_true, decide_eq_true_eq, Bool.not_eq_true'] at h5
  simp only [Args.operandsOk, Bool.and_eq_true] at h6
  obtain ⟨⟨⟨⟨s1, s2⟩, s3⟩, s4⟩, s5⟩ := h5
  obtain ⟨⟨⟨o1, o2⟩, o3⟩, o4⟩ := h6
  refine ⟨h1, h2, h3, h4, s1, s2, s3, s4, s5, o1, o2, o3, o4, h7, fun e => ?_⟩
  rw [e] at h8
  exact h8

/-- A destination that is a vector or a scalar register, or neither, but no predicate. -/
theorem dst_not_pred {o : Op} {x : Args} (h : x.Parts o) (hd : (o.dests x.sub x.mods).2.2 = false) (p : BitVec 3) :
    x.dst ≠ .p p := by
  intro e
  have := h.dst
  rw [e, Dest.fits, hd] at this
  exact absurd this (by decide)

end Sys2Proof
end

