-- ==== Sys2Proof/Tests/Slice0.lean ====
section
/-! SUPPORT. Small tests: ill-formed instructions, words read from the spec's encoding tables, single steps, and a state for
every hypothesis of the obligations. -/

namespace Sys2Proof.Tests

open Sys2Proof Sys2Proof.Machine Host

-- The theorems are checked one after another: many at once need too much memory.
set_option Elab.async false

/-! ### Small states -/

/-- The bytes of a number from an address on, as cells: a zero is not listed. -/
def bytesFrom (a n v : Nat) : Store Byte :=
  ((List.range n).map fun k => (a + k, BitVec.ofNat 8 (v / 256 ^ k))).filter (fun c => decide (c.2 ≠ 0))

/-- Page tables at 0x1000 for function 0. Each GiB of virtual addresses stands for bytes 0 to 2^30 of a peer: 0 plain,
1 STRONG, 2 label 1, 3 peer 1's, 4 label 3, 5 DOMAIN scope, 6 peer 1's and STRONG, 7 OWNED and peer 1's, 8 label 2; 9 is not
resident (R237, R238). -/
def tables : Store Byte :=
  bytesFrom 0x1000 2 0x2001 ++ bytesFrom 0x2000 2 0x3001 ++ bytesFrom 0x3000 8 7 ++ bytesFrom 0x3008 8 15
    ++ bytesFrom 0x3010 8 (7 + 128) ++ bytesFrom 0x3018 8 (7 + 2 ^ 45) ++ bytesFrom 0x3020 8 (7 + 3 * 128)
    ++ bytesFrom 0x3028 8 (7 + 96) ++ bytesFrom 0x3030 8 (15 + 2 ^ 45) ++ bytesFrom 0x3038 8 (7 + 1024 + 2 ^ 45)
    ++ bytesFrom 0x3040 8 (7 + 256)

/-- The first address of a GiB. -/
def gib (k : Nat) : Nat := k * 2 ^ 30

/-- Words placed as the instruction that issues, in the launch of one fibre: page tables in memory, a clause header after the
clause, and one at 0x10000, where the launch's handler stands. -/
def placed (ws : List Word) (mem : Store Byte := []) : State :=
  let s := State.reset.placeWords ws
  { s with mem := { bytes := bytesFrom (oneClause ws).next.toNat 1 8 ++ tables ++ bytesFrom 0x10000 1 8 ++ mem }, funcs := [(0, { ptroot := 0x1001 })]
           launches := Store.modify 0 (fun l => { l with packet := l.packet ||| BitVec.ofNat 512 (0x10000 * 2 ^ 320) }) s.launches
           turn := none, cur := some (0, 0) }

/-- An instruction so placed. -/
def issuing (i : Instr) (mem : Store Byte := []) : State := placed (encode i) mem

/-- With the placed yarn, its one group, a lane, its strand and its launch changed. -/
def yarn (f : Yarn → Yarn) (s : State) : State := { s with yarns := Store.modify 0 f s.yarns }
def group (f : Group → Group) : State → State := yarn fun v => { v with groups := v.groups.map f }
def lane (l : Nat) (f : Lane → Lane) : State → State := yarn fun v => v.setLane l (f (v.lane l))
def bank (f : Bank → Bank) : State → State := yarn fun v => { v with bank := f v.bank }
def strand (f : Strand → Strand) (s : State) : State := { s with strands := Store.modify 0 f s.strands }
def launch (f : Launch → Launch) (s : State) : State := { s with launches := Store.modify 0 f s.launches }

/-- Register n of a lane takes a word; a pair takes two. -/
def reg (n v : Nat) (l : Nat := 0) : State → State := lane l fun r => r.setReg n ⟨BitVec.ofNat 32 v, 0⟩
def pair (n v : Nat) (l : Nat := 0) (s : State) : State := reg (n + 1) (v / 2 ^ 32) l (reg n v l s)
def scal (n v : Nat) : State → State := bank fun b => b.setScalar n ⟨BitVec.ofNat 32 v, 0⟩

/-- A second fibre, in lane 1, in the same group. -/
def twoLanes (s : State) : State :=
  group (fun g => { g with lanes := 3, gmask := 3 })
    (lane 1 (fun v => { v with active := true, linear := some 1, wbase := 256 }) s)

/-- Bits of the launch's packet set. -/
def packet (at_ v : Nat) : State → State := launch fun l => { l with packet := l.packet ||| BitVec.ofNat 512 (v * 2 ^ at_) }

/-- Handler mode. -/
def inHandler : State → State := bank fun b => { b with status := b.status ||| 0x8000, xmask := 1 }

/-- Bytes in the strand's scratchpad. -/
def pad (cells : Store Byte) : State → State := strand fun x => { x with pad := x.pad ++ cells }

/-! ### States for the instructions' statements -/

def wBra := issuing (.bra { off := 0x2000 })
def wBraC := lane 1 (fun v => { v with preds := 1 }) (twoLanes (issuing (.braConditional { a := .pred 0, off := 0x2000 })))
def wBrx := pair 2 0x10000 0 (issuing (.brx { a := .v 2 }))
def wCall := issuing (.call { dst := .v 4, a := .lit 256, mods := 1, off := 0x2000 })
def wRet := pair 2 0x10000 0 (lane 0 (fun v => { v with wbase := 256 }) (issuing (.ret { a := .v 2, b := .lit 256, mods := 1 })))
def wExit := twoLanes (issuing (.exitF { guard := ⟨0, true⟩ }))
def wExit2 := lane 1 (fun v => { v with preds := 1 }) (twoLanes (issuing (.endF { guard := ⟨0, true⟩ })))
def wNop := issuing (.nop {})
def wYield := issuing (.yieldI {})
def wTrap := twoLanes (issuing (.trapI { a := .int 7 }))
def wBrk := issuing (.brk {})
def wBrkFid : State :=
  packet 15 1 { wBrk with debug := .user, funcs := [(0, { ptroot := 0x1001, session := some {} })] }
def wTrapIn := inHandler wTrap
def wTrapNo := launch (fun l => { l with packet := placedPacket }) wTrap
def wTretOut := issuing (.tret {})
def wTret := bank (fun b => { b with xpc := 0x10000, xindex := 8, ssw := 0x1023 }) (inHandler (issuing (.tret {})))
def wTret0 := bank (fun b => { b with xpc := 0x10000, xindex := 0, ssw := 0x1023 }) (inHandler (issuing (.tret {})))
def wTretSsw := bank (fun b => { b with xpc := 0x10000, xindex := 8, ssw := 0x1823 }) (inHandler (issuing (.tret {})))
def wTretOdd := bank (fun b => { b with xpc := 0x10004, xindex := 8, ssw := 0x1023 }) (inHandler (issuing (.tret {})))
def wTretPast := bank (fun b => { b with xpc := 0x10000, xindex := 1, ssw := 0x1023 }) (inHandler (issuing (.tret {})))
def wTretNone := issuing (.tret { guard := ⟨0, false⟩ })
def wLds := pad (bytesFrom 0x21 3 0x818283) (reg 7 0x20 0 (issuing (.lds { dst := .v 8, a := .v 7, ty := .s8, off := 1 })))
def wLdw := strand (fun x => { x with padLab := [(36, 2)] }) (pad (bytesFrom 0x120 8 0x8877665544332211)
  (reg 7 0x20 1 (reg 7 0x20 0 (twoLanes (issuing (.ldw { dst := .v 8, a := .v 7, ty := .b64 }))))))
def wSts := reg 4 0xABCD 1 (reg 4 0x1234 0 (reg 6 0x20 1 (reg 6 0x20 0 (twoLanes
  (issuing (.sts { a := .v 6, b := .v 4, ty := .n16, swz := 1, off := 0x300 }))))))
def wStw := pair 4 0xABCD00001234 0 (reg 6 (4096 - 8) 0 (issuing (.stw { a := .v 6, b := .v 4, ty := .b64 })))
def wAtoms := pad [(0x40, 0xFF)] (reg 6 0x40 1 (reg 6 0x40 0 (twoLanes
  (issuing (.atoms { dst := .v 8, a := .v 6, b := .int 3, ty := .n32 })))))
def wAtomsCas := pad [(0x40, 5)] (reg 6 0x40 1 (reg 6 0x40 0 (twoLanes
  (issuing (.atoms { dst := .v 8, a := .v 6, b := .int 5, c := .int 6, ty := .b32, sub := 7 })))))
def point (pt : Nat) (p : Point) : State → State := strand fun x => { x with points := [(pt, p)] }
def wRinit := point 3 { arr := 5 } (issuing (.rinit { a := .int 3, b := .int 4 }))
def wRinit1 := issuing (.rinit { a := .int 3, b := .lit 16384 })
def wRinitArmed := point 3 { armed := true, exp := 2 } (issuing (.rinit { a := .int 3, b := .int 4 }))
def wRinitZero := issuing (.rinit { a := .int 3, b := .int 0 })
def wRinitHigh := issuing (.rinit { a := .int 3, b := .lit 16385 })
def wArrive := point 3 { armed := true, exp := 2, arr := 1, phase := 7 } (twoLanes (issuing (.arrive { dst := .v 5, mods := 1, a := .int 3 })))
def wArriveHeld := point 3 { arr := 65535 - 1 } (issuing (.arrive { dst := .s 5, mods := 1, a := .int 3 }))
def wArwait := point 3 { armed := true, exp := 2, arr := 1, phase := 7 } (issuing (.arwait { a := .int 3 }))
def wArwaitStay := point 3 { armed := true, exp := 3, arr := 1, phase := 7 } (issuing (.arwait { a := .int 3 }))
def wArwaitDone := group (fun g => { g with wait := some (.rdv 0 3 true) }) wArwait
def wRwait := point 3 { armed := true, exp := 2, arr := 1, phase := 7 } (issuing (.rwait { a := .int 3, b := .int 6 }))
def wRwaitStay := point 3 { armed := true, exp := 2, arr := 1, phase := 7 } (issuing (.rwait { a := .int 3, b := .int 7 }))
def wRwaitDone := group (fun g => { g with wait := some (.rdv 0 3 true) }) wRwaitStay
/-- A ring's header at 0x40: slots of 64 bytes at 0x100. -/
def ringCells (putIx takeIx slots phases fulls : Nat) : Store Byte :=
  bytesFrom 0x40 32 (putIx + takeIx * 2 ^ 16 + slots * 2 ^ 32 + 4 * 2 ^ 64 + 2 ^ 80 + phases * 2 ^ 128 + fulls * 2 ^ 192)
def wPutAcq := pad (ringCells 65535 0 2 2 1) (issuing (.ringPutAcq { dst := .v 5, a := .lit 0x40 }))
def wPutAcqStay := pad (ringCells 0 0 2 0 1) (issuing (.ringPutAcq { dst := .v 5, a := .lit 0x40 }))
def wPutAcqDone := group (fun g => { g with wait := some (.ring 1 false false) }) wPutAcqStay
def wTakeAcq := pad (ringCells 0 3 2 2 2) (issuing (.ringTakeAcq { dst := .s 5, a := .lit 0x40 }))
def wTakeAcqStay := pad (ringCells 0 0 2 0 0) (issuing (.ringTakeAcq { dst := .v 5, a := .lit 0x40 }))
def wTakeAcqDone := group (fun g => { g with wait := some (.ring 0 true true) }) (pad (ringCells 0 0 2 1 1)
  (issuing (.ringTakeAcq { dst := .v 5, a := .lit 0x40 })))
def wPutRel := pad (ringCells 0 0 2 0 1) (scal 2 0x40 (issuing (.ringPutRel { a := .s 2, b := .lit 0x140, mods := 1 })))
def wPutRelBad := pad (ringCells 0 0 2 0 2) (scal 2 0x40 (issuing (.ringPutRel { a := .s 2, b := .lit 0x140, mods := 1 })))
def wPutRelNone := pad (ringCells 0 0 2 0 2) (scal 2 0x40 (issuing (.ringPutRel { a := .s 2, b := .lit 0x180, mods := 1 })))
def wTakeRel := pad (ringCells 0 0 2 0 2) (scal 2 0x40 (issuing (.ringTakeRel { a := .s 2, b := .lit 0x140, mods := 1 })))
def wTakeRelBad := pad (ringCells 0 0 2 0 0) (scal 2 0x40 (issuing (.ringTakeRel { a := .s 2, b := .lit 0x140, mods := 1 })))
def wTakeRelNone := pad (ringCells 0 0 2 0 2) (scal 2 0x40 (issuing (.ringTakeRel { a := .s 2, b := .lit 0, mods := 1 })))
def wLd := pair 6 0x20003 0 (issuing (.ld { dst := .v 8, a := .v 6, ty := .s8 }) (bytesFrom 0x20003 1 0x81))
def wLdU := pair 6 (gib 2 + 0x1FFFD) 0 (issuing (.ld { dst := .v 8, a := .v 6, ty := .b64, mods := 4 }) (bytesFrom 0x1FFFD 8 0x8877665544332211))
def wLdAcq := pair 6 (gib 5 + 0x20008) 0 (issuing (.ldAcq { dst := .s 8, a := .v 6, ty := .b64 }) (bytesFrom 0x20008 8 0x8877665544332211))
def wSt := pair 4 0xABCD 1 (pair 4 0x1234 0 (pair 6 0x20000 1 (pair 6 0x20000 0 (twoLanes
  (issuing (.st { a := .v 6, b := .v 4, ty := .n16 }))))))
def wStU := pair 4 0x8877665544332211 0 (pair 6 (gib 2 + 0x20FFE) 0 (issuing (.st { a := .v 6, b := .v 4, ty := .b64, mods := 4 })))
def wStRel := yarn (fun v => { v with counted := [{ id := 0, ordered := false, here := false, dst := 1 }] })
  (pair 6 0x20000 0 (issuing (.stRel { a := .v 6, b := .int 5, ty := .n32 })))
def wAtom := pair 6 0x20000 1 (pair 6 0x20000 0 (twoLanes
  (issuing (.atom { dst := .v 8, a := .v 6, b := .int 3, ty := .n32 }) (bytesFrom 0x20000 2 0xFFFF))))
def wAtomRel := pair 6 (gib 1 + 0x20000) 0 (issuing
  (.atom { dst := .v 8, a := .v 6, b := .int 5, c := .int 6, ty := .b64, sub := 7, mods := 2 }) (bytesFrom 0x20000 1 5))
def wRed := pair 6 0x20000 1 (pair 6 0x20000 0 (twoLanes (issuing (.red { a := .v 6, b := .int 29, ty := .s32, sub := 1 }))))
def wFenceAcq := scal 7 0 (issuing (.fenceAcq { a := .s 6 }))
def wFenceRel := issuing (.fenceRel { a := .s 6 })
def wFenceRelHeld : State :=
  let s := yarn (fun v => { v with counted := [{ id := 0, ordered := false, here := false, dst := 1 }] }) wFenceRel
  { s with nextReq := 1 }
def wFenceRelDone := group (fun g => { g with drained := some 0 }) wFenceRelHeld
def wFenceAr := issuing (.fenceAr { a := .s 6 })
def wFenceArHeld := group (fun g => { g with drained := some 1 }) (yarn (fun v => { v with counted := [{ id := 0, ordered := true, here := true, dst := 1 }] }) wFenceAr)
def wFencePad := yarn (fun v => { v with pend := [{ flag := some 3, act := .accOut 2 0 0x100 }] }) wFenceAr
def wPrefetch := issuing (.prefetch { a := .s 6 })
/-- Peer 1's own record, by which its /12 is reached. -/
def peer1 : Entry :=
  let h : Holder := { peer := 1, kind := 0, origin := 1, seq := 1, issue := 1, inc := 2, path := [1], ceiling := 0, strong := false,
                      backing := (1 : Peer) ++ (0 : BitVec 45) }
  { pfx := (1 : Peer) ++ (0 : BitVec 45), len := 12, holders := [h] }
/-- Port 0 is up to peer 1, and a line of its memory that was written is owned here. -/
def owned1 (s : State) : State := { s with table := s.table ++ [peer1], links := [(0, { far := 1, up := true })], ownedHere := [((2 ^ 45 + 0x20000) / 64, { bytes := List.replicate 64 7, origin := 1, lab := some 0 })] }
def wCwb := owned1 (pair 6 (gib 7 + 0x20010) 0 (issuing (.cwb { a := .v 6 })))
def wCinv := owned1 (pair 6 (gib 3 + 0x20030) 0 (issuing (.cinv { a := .v 6 })))
def written : Access := { kind := .store, lanes := [{ lane := 0, parts := [({ page := {}, len := 64 }, .got [] 0)] }] }
def wCwbDone := group (fun g => { g with wait := some (.accept written) }) wCwb
def wCinvDone := group (fun g => { g with wait := some (.accept written) }) wCinv
def wMonwPad := pad (bytesFrom 0x40 2 0x1234) (reg 6 0x40 0 (issuing (.monw { dst := .v 8, a := .v 6, ty := .b32, mods := 1 })))
def wMonw := pair 6 0x20000 0 (issuing (.monw { dst := .v 8, a := .v 6, ty := .b64 }) (bytesFrom 0x20000 1 5))
def armed (m : Monitor) : State → State := lane 0 fun v => { v with monitor := some m }
def woken (w : Word) : Monitor :=
  { glob := false, addr := 0x40, width := 4, value := 0, seen := 0, since := some 0, limit := 9, woken := some w }
def wMwaitNone := issuing (.mwait { a := .int 9 })
def wMwaitStay := armed { glob := false, addr := 0x40, width := 4, value := 0, seen := 0 } (issuing (.mwait { dst := .v 3, a := .int 9, mods := 1 }))
def wMwaitEnd := group (fun g => { g with wait := some .mwait }) (armed (woken 2) (issuing (.mwait { dst := .v 3, a := .int 9, mods := 1 })))
def wSpawn := reg 10 77 1 (reg 10 66 0 (twoLanes (issuing (.spawn { a := .lit 0x10000, b := .v 10, c := .int 1, off := 512 }))))
/-- Bytes as cells of a store, zeros not listed. -/
def cellsOf (a : Nat) (bs : List Byte) : Store Byte := (bs.zipIdx.map (fun c => (a + c.2, c.1))).filter (fun c => decide (c.2 ≠ 0))
/-- A parameter block at 0x40: S4 tiles of 2,048 bytes at 0x400, 32 values of K, slot 0, no store. -/
def pbCells (more : Nat := 0) : Store Byte :=
  bytesFrom 0x40 56 (pack [(0, 0x400), (32, 2048), (64, 0x200), (96, 128), (160, 128), (176, 128), (192, 32), (384, 0xFFFF)] + more)
def wMma := pad (pbCells) (reg 4 0xBB 1 (reg 4 0xBB 0 (twoLanes (issuing (.mma { dst := .v 8, a := .lit 0x40, b := .v 4 })))))
/-- A LINEAR... record that stores the 65,536 bytes of a tile of FP32 at 0x40000, in the table at 0x30000. -/
def tileRecord : Nat := pack [(0, 2), (32, 512), (128, 0x40000), (192, 128), (256, 512)]
def wMmaStore := launch (fun l => { l with args := BitVec.ofNat 512 (0x30000 * 2 ^ 384) })
  (pad (bytesFrom 0x40 48 (pack [(0, 0x400), (32, 2048), (64, 0x200), (96, 128), (160, 128), (176, 128), (192, 32)]))
    (reg 4 0xBB 0 (issuing (.mma { dst := .v 8, a := .lit 0x40, b := .v 4 }) (bytesFrom 0x30000 64 tileRecord))))
def wMmaRole := bank (fun b => { b with status := 0x2000 }) wMma
def wMmaDiverge := reg 4 0xBA 1 wMma
def wMmaBad := reg 4 0xB3 1 (reg 4 0xB3 0 wMma)
def slots (k : Slot) (s : State) : State := { s with cores := [(0, { slots := [(2, k)] })] }
def someSlot : Slot := { acc := [(5, 0x3F800000)], lab := 1, ck := [(64, 7)], ckLive := true }
def wAccLd := slots someSlot (reg 5 5 1 (reg 5 16383 0 (twoLanes (issuing (.accLd { dst := .v 3, a := .int 2, b := .v 5, ty := .f32 })))))
def wAccLdPad := packet 256 0x20000 (slots someSlot (issuing (.accLd { a := .int 2, b := .lit 0x100, ty := .f32, mods := 1 })))
def wAccSt := slots someSlot (reg 6 9 1 (reg 6 8 0 (reg 5 5 1 (reg 5 5 0 (twoLanes
  (issuing (.accSt { a := .int 2, b := .v 5, c := .v 6, ty := .f32 })))))))
def wAccStPad := packet 256 0x20000 (pad [(0x104, 7)] (slots someSlot (issuing (.accSt { a := .int 2, b := .lit 0x100, ty := .f32, mods := 1 }))))
def wAccZero := slots someSlot (issuing (.accZero { a := .int 2 }))
def wMmchk := slots someSlot (issuing (.mmchk { dst := .v 3, a := .int 2, b := .int 1, ty := .f32 }))
def wMmchkNone := slots { someSlot with ckLive := false } (issuing (.mmchk { dst := .v 3, a := .int 3, b := .int 0, ty := .f32 }))
def wShape := scal 16 1 (scal 17 32 (pair 6 0x20000 0 (issuing (.shape { a := .v 6, b := .s 16 }))))
/-- A barrier at 0x80. -/
def barCells (phase arrivals reload sectors : Nat) : Store Byte :=
  bytesFrom 0x80 11 (phase + arrivals * 2 ^ 4 + reload * 2 ^ 24 + sectors * 2 ^ 44)
def wTbinit := issuing (.tbinit { a := .lit 0x80, b := .int 1 })
def wTbinitTop := pad (barCells 3 1 2 5) (scal 2 1048575 (issuing (.tbinit { a := .lit 0x80, b := .s 2 })))
def wTbarrive := pad (barCells 15 2 3 0) (twoLanes (issuing (.tbarrive { dst := .s 5, a := .lit 0x80, mods := 1 })))
def wTbarriveFew := pad (barCells 15 2 3 1) (twoLanes (issuing (.tbarrive { a := .lit 0x80 })))
def wTbexpect := pad (barCells 4 0 3 (2 ^ 44 - 5)) (issuing (.tbexpect { a := .lit 0x80, b := .int 5 }))
def wTbexpectRec := launch (fun l => { l with args := BitVec.ofNat 512 (0x30000 * 2 ^ 384) }) (pad (barCells 4 1 3 0)
  (issuing (.tbexpect { a := .lit 0x80, b := .int 0, mods := 1 }) (bytesFrom 0x30000 64 tileRecord)))
def wTbwait := pad (barCells 4 1 3 0) (issuing (.tbwait { a := .lit 0x80, b := .int 3 }))
def wTbwaitStay := pad (barCells 4 1 3 0) (issuing (.tbwait { a := .lit 0x80, b := .int 4 }))
def wTbwaitDone := group (fun g => { g with wait := some (.tb 0 0x80 true) }) wTbwaitStay
def counted8 : State → State := strand fun x => { x with issued := [(8, 2)], dones := [(8, 1)] }
def wTlwait := counted8 (issuing (.tlwait { a := .int 8, b := .int 1 }))
def wTlwaitStay := counted8 (issuing (.tlwait { a := .int 8, b := .int 2 }))
def wTlwaitDone := group (fun g => { g with wait := some (.timeline 8 1) }) wTlwaitStay
def wTlwaitBad := counted8 (issuing (.tlwait { a := .int 8, b := .int 3 }))
def wTlwaitHigh := issuing (.tlwait { a := .int 10, b := .int 0 })
def wTlread := counted8 (issuing (.tlread { dst := .v 4, a := .int 8 }))
def wTlreadDone := counted8 (issuing (.tlread { dst := .v 4, a := .int 8, mods := 1 }))
def wTlreadCtx := issuing (.tlread { dst := .s 5, mods := 2 })
def wTlreadBad := issuing (.tlread { dst := .v 4, a := .int 10 })
/-- Announcement and backing windows over peer 0's memory. -/
def windows (s : State) : State :=
  let w : DWord := BitVec.ofNat 64 (2 ^ 63 + 12 * 2 ^ 57)
  { s with funcs := [(0, { ptroot := 0x1001, annwin := w, backwin := w })] }
/-- The operand that names the 32 KiB prefix at 0x8000, which has length 42. -/
def pfxWord : DWord := BitVec.ofNat 64 (42 * 2 ^ 57 + 0x8000)
def ownRecord (kind : BitVec 2) : Holder :=
  { peer := 0, kind := kind, origin := 0, seq := 1, issue := 1, inc := 1, path := [], ceiling := 0, strong := false, backing := 0x10000 }
def announced (kind : BitVec 2) (s : State) : State :=
  { s with table := s.table ++ [{ pfx := 0x8000, len := 42, holders := [ownRecord kind] }], issues := s.issues ++ [(0x8000, 42, 1)] }
def wAnnc := windows (pair 4 0x10000 0 (issuing (.annc { a := .lit pfxWord, b := .v 4, mods := 1 })))
def wAnncReal := windows (pair 4 0x10000 0 (issuing (.annc { a := .lit pfxWord, b := .v 4 })))
def wAnncAgain := announced 1 (windows (pair 4 0x10000 0 (issuing (.annc { a := .lit pfxWord, b := .v 4, mods := 2 }))))
def wWdrw := announced 1 (windows (issuing (.wdrw { a := .lit pfxWord })))
def wWdrwNone := windows (issuing (.wdrw { a := .lit pfxWord }))
def wProm := announced 1 (windows (issuing (.prom { a := .lit pfxWord })))
def wRtq := pair 6 0x20000 0 (issuing (.rtq { dst := .v 8, a := .v 6 }))
def wRtsync := issuing (.rtsync {})
def wRtsyncStay : State :=
  let s := yarn (fun v => { v with changes := [0] }) wRtsync
  { s with changes := [(0, { pfx := 0x8000, len := 42, issue := 1, kind := 0 })], nextChange := 1 }
/-- A knot of two members with quorum 2, one element, at 0x20000. -/
def knotWord (more : Nat := 0) : DWord := BitVec.ofNat 64 (pack [(0, 2), (8, 2), (24, 0xD), (32, 1), (48, 7)] + more)
/-- A knot of two members with quorum 1 and lag limit 1, whose members' next rounds are given. -/
def closing (next : List (BitVec 16)) : Knot := { knotStart (knotWord (2 ^ 16 - 2 ^ 8)) with next := next }
def knotCells : Store Byte := cellsOf 0x20000 (knotStart (knotWord)).bytes
def wKnotInit := pair 6 0x20000 0 (issuing (.knotInit { a := .v 6, b := .lit (knotWord) }))
def wKnotPut := reg 4 9 0 (pair 6 0x20000 0 (issuing (.knotPut { dst := .v 8, a := .v 6, b := .v 4, c := .lit 0x10007 }) knotCells))
def wKnotTake := pair 6 0x20000 0 (issuing (.knotTake { dst := .v 8, a := .v 6, b := .int 6 }) knotCells)
def wKnotTakeStay := pair 6 0x20000 0 (issuing (.knotTake { dst := .v 8, a := .v 6, b := .int 7 }) knotCells)
def wKnotQuery := pair 6 0x20000 0 (issuing (.knotQuery { dst := .v 8, a := .v 6, b := .int 2 }) knotCells)
def wCsrr := issuing (.csrr { dst := .v 3, a := .int 3 })
def wCsrrX := inHandler (issuing (.csrr { dst := .v 3, a := .lit 0x17 }))
def wCsrw := issuing (.csrw { a := .int 0, b := .int 15 })
def wCsrwX := inHandler (issuing (.csrw { a := .lit 0x13, b := .int 31 }))
def wCsrrBad := issuing (.csrr { dst := .v 3, a := .int 4 })
def wCsrrHigh := issuing (.csrr { dst := .v 3, a := .lit 0x18 })
def wCsrwPriv := issuing (.csrw { a := .int 1, b := .int 15 })
def wLblset := issuing (.lblset { a := .int 3 })
def wLblsetBad := issuing (.lblset { a := .int 4 })
def wLblsetPriv := launch (fun l => { l with packet := l.packet &&& ~~~(BitVec.ofNat 512 (3 * 2 ^ 24)) }) (issuing (.lblset { a := .int 1 }))
def labelled : State → State := lane 0 fun r => r.setReg 3 ⟨7, 3⟩
def grants (budget used : Nat) (s : State) : State :=
  let g : Grant := { base := 0, length := 64, hash := 0, budget := budget, used := used }
  { s with funcs := [(0, { ptroot := 0x1001, grants := [(1, g)] })] }
def wLbldn := grants 8 4 (launch (fun l => { l with granted := some 1 }) (labelled (issuing (.lbldn { dst := .v 4, a := .v 3 }))))
def wLbldnOver := grants 8 5 (launch (fun l => { l with granted := some 1 }) (labelled (issuing (.lbldn { dst := .v 4, a := .v 3 }))))
def wLbldnNone := labelled (issuing (.lbldn { dst := .v 4, a := .v 3 }))
/-- The group stands at the header at 0x100, where these words are. -/
def atHeader (ws : List Word) (p : Phase := .header) : State :=
  let s := placed []
  let cells := cellsOf 0x100 (ws.flatMap (fun w => leBytes 4 w.toNat))
  group (fun g => { g with pc := 0x100, phase := p, clause := {}, gmask := 0 })
    { s with mem := { s.mem with bytes := cells ++ s.mem.bytes } }
/-- A clause of one nop, its first header word given. -/
def nopClause (w0 : Word) : List Word := [w0, 0x00070000] ++ encode (.nop {})
def wStart := atHeader (nopClause 0x08)
def wStartTwo := atHeader ([0x04000008, 0x00070000] ++ encode (.nop {}) ++ encode (.bra { off := 1 }))
def wStartFlags := bank (fun b => { b with flags := 1 }) (atHeader (nopClause 0x18))
def wStartX := atHeader ([0x00120008, 0x00070000] ++ encode (.lds { dst := .v 8, a := .v 7, ty := .b32 }))
def wStartRejoin := atHeader (nopClause 0x20000008)
def someFray (st : FrayState) : Fray :=
  { lanes := 2, pc := 0x100, index := 0, cause := 1, addrs := [0], state := st, use := 1, bank := { status := 0x1001 },
    clause := {}, gmask := 0 }
def inFray (st : FrayState) (s : State) : State := yarn (fun v => { v with frays := [(3, someFray st)] }) s
def wRejoinHeld :=
  yarn (fun v => { v with groups := v.groups ++ [{ id := 1, lanes := 2, pc := 0x200, phase := .header }], nextGroup := 2 })
    (group (fun g => { g with lanes := 1 }) (twoLanes (atHeader (nopClause 0x20000008))))
def wFrayRejoin := group (fun g => { g with lanes := 2, fray := some 3 }) (inFray .running (twoLanes (atHeader (nopClause 0x20000008))))
def wResume := atHeader (nopClause 0x08) (.resume 0)
def wFlagsEnd := group (fun g => { g with clause := { w0 := 0x08, w1 := 0x00070000, code := [encode (.nop {})], next := 0x110 } })
  (atHeader (nopClause 0x08) .flags)
def wRejoinEnd := group (fun g => { g with clause := { w0 := 0x20000008, w1 := 0x00070000, code := [encode (.nop {})], next := 0x110 } })
  (atHeader (nopClause 0x20000008) .rejoin)
def wNoHeader := atHeader [0, 0]
def wBadClause := atHeader (nopClause 0x80000008)
def wBadClause2 := atHeader ([0x08, 0x00070000, 0x1FF])
def wNoPage := group (fun g => { g with pc := BitVec.ofNat 57 (gib 9) }) (atHeader [0, 0])
def wFrayq := inFray .parked (issuing (.frayq { dst := .v 4, a := .int 3 }))
def wFrayqMask := inFray .parked (issuing (.frayq { dst := .v 4, a := .lit 64 }))
def wFrayqWord := inFray .handler (issuing (.frayq { dst := .v 4, a := .int 3, mods := 1 }))

/-! ### States for the statements about events -/

/-- The idle launch of one fibre. -/
def idle : State := issuing (.nop {})
/-- Flag 2 covers one instruction under way. -/
def waitingFor (p : Pend) (s : State := idle) : State :=
  bank (fun b => { b with flags := 4 }) (yarn (fun v => { v with pend := [{ flag := none }, p] }) s)
def wLand := waitingFor { flag := some 2, seq := 1, writes := [(0, 3, ⟨5, 1⟩), (0, 3, ⟨6, 2⟩), (1, 4, ⟨7, 0⟩)], swrites := [(63, ⟨9, 1⟩)] }
def wLandLd := slots someSlot (waitingFor { flag := some 2, seq := 1, act := .accLd 2 3 [(0, 5, 2)] 0 })
def wLandSt := slots someSlot (waitingFor { flag := some 2, seq := 1, act := .accSt 2 [(5, ⟨8, 2⟩), (5, ⟨9, 0⟩), (16383, ⟨1, 0⟩)] })
def wLandZero := slots someSlot (waitingFor { flag := some 2, seq := 1, act := .accZero 2 1 })
def wLandOut := packet 256 0x20000 (slots someSlot (waitingFor { flag := some 2, seq := 1, act := .accOut 2 0 0x100 }))
def wLandIn := packet 256 0x20000 (pad [(0x104, 7)] (slots someSlot (waitingFor { flag := some 2, seq := 1, act := .accIn 2 0 0x100 0 })))
/-- The ceiling of the launch lowered to 0. -/
def capped : State → State := launch fun l => { l with packet := l.packet &&& ~~~(BitVec.ofNat 512 (255 * 2 ^ 24)) }
def wLandCheck := slots someSlot (waitingFor { flag := some 2, seq := 1, act := .mmchk 2 1 3 1 })

/-- Part 0 of lane 0's access waits for request 4 of this package to peer 1. -/
def partOut (p : PartState) (k : AccKind) (cls : BitVec 2 := 0) : State :=
  group (fun g => { g with wait := some (.accept { kind := k, lanes := [{ lane := 0, parts :=
    [({ page := { fab := 0x20000, va := 0xC0020000, cls := cls }, len := 4, dst := 1, req := some 4 }, p)] }] }) }) idle
def asked (who : Who) (r : Request) (s : State) (accepted : Bool := false) : State :=
  { s with reqs := [(4, { req := { r with id := 4, srcInc := 1, addr := 0x20000, pfx := 0, len := 12, width := 4 }, dst := 1,
                          who := who, accepted := accepted })]
           nextReq := 5, incs := [(1, 2)] }
def wAnsLoad := asked (.lane 0 0 0 0) {} (partOut .sent .load)
def wAnsStore := asked (.lane 0 0 0 0) { kind := .store, data := [1, 2, 3, 4] } (partOut .sent .store)
def wAnsStrong := asked (.lane 0 0 0 0) { kind := .store, data := [1, 2, 3, 4], strong := true } (partOut .sent .store 1)
def wAnsAsk := asked (.lane 0 0 0 0) { kind := .store, data := [1, 2, 3, 4], stage := .ask } (partOut .sent .store)
def wAnsGo := asked (.lane 0 0 0 0) { kind := .store, data := [1, 2, 3, 4], stage := .go } (partOut .sent .store)
def wAnsRelay := asked (.relay 2 9) {} idle
def wAnsFetch : State :=
  { asked (.fetch 0 0) {} idle with bufs := [{ who := .fetch 0 0, addr := 0x20000, len := 4, req := 4 }] }
def sectorBuf : Buf := { who := .signal 0, addr := 0x20000, len := 4, req := 4, write := true }
def wAnsEngine : State := { asked (.signal 0) { kind := .store, data := [1, 2, 3, 4] } idle with bufs := [sectorBuf] }
def wAckEngine : State := { asked (.signal 0) { kind := .store, data := [1, 2, 3, 4] } idle true with bufs := [sectorBuf] }
def wAckRelay := asked (.relay 2 9) { kind := .store, data := [1, 2, 3, 4] } idle true
def wAckStrong := asked (.lane 0 0 0 0) { kind := .store, data := [1, 2, 3, 4], strong := true } (partOut (.taken [] 0) .store 1) true
def ofPeer1 (s : State) : State := { s with incs := [(1, 2)] }
def wAckCounted := ofPeer1 <| yarn (fun v => { v with counted := [{ id := 4, ordered := true, here := false }, { id := 5, ordered := false, here := true }] }) idle
def wAckLaunch := ofPeer1 <| launch (fun l => { l with unacked := [{ id := 4, ordered := true, here := false }] }) idle

def monitored (m : Monitor) (s : State := idle) : State := lane 0 (fun r => { r with monitor := some m }) s
def wWakePad := strand (fun x => { x with padStamp := [(2, 1)] })
  (monitored { glob := false, addr := 0x80, width := 4, value := 0, seen := 0, since := some 0 })
def wWakeMem : State :=
  let s := monitored { glob := true, addr := 0x20000, place := 0x20000, width := 8, value := 0, seen := 0, since := some 0 }
  { s with mem := { s.mem with stamps := [(0x800, 1)] } }
def wWakeLimit : State :=
  { monitored { glob := false, addr := 0x80, width := 4, value := 0, seen := 0, since := some 0, limit := 10 } with now := 10 }

def wReread (n : Nat) := pad (bytesFrom 0x80 1 n)
  (monitored { glob := false, addr := 0x80, width := 4, value := 0, seen := 0, since := some 0, reread := true })

/-- A request of peer 1, of incarnation 2, to a place in this package's own /12. -/
def ofPeer (kind : ReqKind) (data : List Byte := []) (w : Nat := 4) : Request :=
  { id := 9, src := 1, srcInc := 2, dstInc := 1, kind := kind, addr := 0x20000, pfx := 0, len := 12, width := w, data := data, ty := .n32,
    label := 1 }
def holder (label : Label := 0) (poison : Bool := false) : State :=
  { idle with incs := [(1, 2)], mem := { idle.mem with
      bytes := idle.mem.bytes ++ [(0x20000, 5), (0x20003, 0x80)]
      labels := if label = 0 then [] else [(0x20, label)], poison := if poison then [(0x800, true)] else [] } }
def wHold := holder 1
def wHoldMeter : State :=
  { holder 2 with funcs := [(0, { ptroot := 0x1001, metbal := 64, metreg := [(0, BitVec.ofNat 64 (2 ^ 63 + 12 * 2 ^ 57))] })] }
def wHoldLabel3 := holder 3
def wHoldPoison := holder 0 true
def wHoldRevoked : State := { wHold with revoked := [{ peer := 1, pfx := 0x20000, len := 40 }] }
def wHoldNot : State := { wHold with table := [] }
def wHoldScrub : State := { wHold with scrubs := [{ base := 0x20000, len := 64 }] }
def wHoldAway : State := { wHold with owners := [(0x800, (2, 0x20000))] }
def rLoad := ofPeer .load
def rLoad8 := ofPeer .load [] 8
def rStore := ofPeer .store [9, 8, 7, 6]
def rWhole : Request := { ofPeer .store (List.replicate 32 7) 32 with whole := true }
def rAtom := ofPeer .atom [1, 0, 0, 0]
def rRed : Request := { ofPeer .red [1, 0, 0, 0] with op := 7, data2 := [3, 0, 0, 0] }
def rOwn : Request := { ofPeer .store [1, 2, 3, 4] with owned := true }
def rAsk : Request := { rStore with stage := .ask }
def rGo : Request := { rStore with stage := .go }
/-- A store of peer 1 was checked here. -/
def wHoldChecked : State := { wHold with checked := [⟨rAsk, 0x20000⟩] }
/-- A line of peer 1's that this package owns. -/
def line64 : List Byte := (List.range 64).map (BitVec.ofNat 8)
def wRecall : State :=
  { idle with incs := [(1, 2)], ownedHere := [(2 ^ 39 + 1, { bytes := line64, origin := 1, lab := some 1 }), (2 ^ 39 + 2, { bytes := line64, origin := 1 })] }
def wRecall2 : State :=
  { wRecall with funcs := [(0, { metbal := 64 })], ownedHere := [(2 ^ 39 + 1, { bytes := line64, origin := 1, lab := some 2, carried := 2 })] }
def wWriteBack : State := { wHold with owners := [(0x800, (1, 0x30000))], recalling := [0x800] }
def wGrant := asked (.lane 0 0 0 0) { kind := .store, data := [1, 2, 3, 4], owned := true } (partOut .sent .store)

/-- A packet at 0x40000, in slot 0 of queue 5 of function 0, whose priority cap is 1. -/
def queued (p : BitVec 512) (mem : Store Byte := []) (read : Word := 4) (ctl : Word := 0x52) : State :=
  let s := issuing (.nop {}) (cellsOf 0x40000 (leBytes 64 p.toNat) ++ mem)
  let q : Queue := { base := 0x40000, ctl := ctl, read := read, write := read + 1 }
  { s with funcs := [(0, { ptroot := 0x1001, queues := [(5, q)] })] }
/-- A launch of 65 fibres in two yarns, on a grid of 3 coils of 1, its arguments at 0x50000, its signal at 0x60008. -/
def launchPacket : BitVec 512 :=
  BitVec.ofNat 512 (pack [(0, 1), (24, 1), (32, 65), (48, 2), (64, 0x10000), (128, 0x50000), (192, 3), (208, 1), (224, 1),
    (256, 16640), (320, 0x10000), (448, 0x60008)])
def wPacket := queued launchPacket
def wPacketNoPage := queued (launchPacket ||| BitVec.ofNat 512 (gib 9 * 2 ^ 64))
def wPacketBad := queued (launchPacket ||| BitVec.ofNat 512 (2 ^ 21 + 2 ^ 255 + 3 * 2 ^ 10))
def wPacketType := queued (BitVec.ofNat 512 (pack [(0, 4), (448, 0x60008)]))
def wPacketUnread : State :=
  { wPacket with funcs := [(0, { ptroot := 0x1001, queues := [(5, { base := BitVec.ofNat 64 (gib 9), ctl := 0x12, write := 1 })] })] }
def wSignal := queued (BitVec.ofNat 512 (pack [(0, 3), (64, 0x123456789), (448, 0x60008)]))
def barrierAnd (a : Nat) : BitVec 512 := BitVec.ofNat 512 (pack [(0, 2), (64, 0x50000), (128, a), (448, 0x60008)])
def wBarrierAnd := queued (barrierAnd 0x50008)
def holding (p : BitVec 512) (mem : Store Byte := []) : State :=
  let s := issuing (.nop {}) mem
  { s with funcs := [(0, { ptroot := 0x1001, queues := [(5, { ctl := 0x12, held := some p, open_ := [(0, none)], read := 1, write := 1 })] })] }
def wBarrierSet := holding (barrierAnd 0x50008) [(0x50007, 0x80), (0x5000F, 0x80)]
def wBarrierFault := holding (barrierAnd (gib 9)) [(0x50007, 0x80)]

/-- A launch that has been taken from its queue, as number 1; the argument block holds 7 in its word 1. -/
def launched (f : Launch → Launch) (mem : Store Byte := [(0x50004, 7)]) : State :=
  let s := issuing (.nop {}) mem
  { s with launches := s.launches ++ [(1, f { fn := 0, queue := 5, at_ := 4, packet := launchPacket })], nextLaunch := 2 }
def wArgs := launched id
def wArgsSpill := launched (fun L => { L with packet := L.packet ||| BitVec.ofNat 512 (gib 9 * 2 ^ 128) })
def wPlace := launched (fun L => { L with argsRead := true, args := 7, argLab := 1, nextCoil := 2 })
def wPlacePair := launched (fun L => { L with argsRead := true, packet := BitVec.ofNat 512 (pack [(0, 1), (12, 1), (24, 1), (32, 32),
  (48, 1), (64, 0x10000), (192, 1), (208, 1), (224, 1), (240, 2), (256, 8192 + 2)]) })
/-- The one coil of launch 0, blocked at its instruction on core 0, which has left the core map. -/
def wEvict : State :=
  { slots someSlot (group (fun g => { g with wait := some .mwait }) idle) with coreMap := [(0, BitVec.ofNat 48 (2 ^ 48 - 2))] }
/-- It has been evicted, with its matrix context. -/
def wRestore : State :=
  let s := launch (fun L => { L with evicted := [0] }) (yarn (fun v => { v with slot := none }) (atHeader (nopClause 0x08)))
  let image : Image := { slots := [(2, someSlot)], slice := [(5, 1)], lab := 1 }
  strand (fun x => { x with place := none, former := some (0, 0), image := some image, pad := [(3, 9)] }) s
def wStrandEnd : State :=
  let s := yarn (fun v => { v with retired := true, groups := [], lanes := [] }) idle
  { s with yarns := s.yarns ++ [(1, { strand := 1 })] }
/-- A collective of 4 chunks of 32 words, 256 bytes apart, and two members, this package the first. -/
def collDesc : BitVec 512 := BitVec.ofNat 512 (pack [(8, 0xD), (16, 2), (32, 32), (64, 256), (96, 4)])
def collBind : BitVec 512 := BitVec.ofNat 512 (pack [(64, 0x20000), (128, 0x28000)])
def someColl : Coll := { fn := 0, ceil := 3, desc := collDesc, bind := collBind, members := [0, 1], me := 0 }
def wStrandChunk : State :=
  { wStrandEnd with colls := [(0, someColl)] }
/-- Its yarn has retired while a copy goes on; and it has ended, and its copies since. -/
def wStrandCopies := strand (fun x => { x with copies := [{ chan := 3, num := 1, record := 0, start := 0, floor := 0, yarn := 0 }] }) wStrandEnd
def wStrandQuiet := strand (fun x => { x with ended := true }) { wStrandEnd with yarns := [(1, { strand := 1 })] }
def ending (e : Option Ending) (s : State) : State :=
  let L : Launch := { fn := 0, queue := 5, at_ := 4, packet := launchPacket, nextCoil := 3, ended := 3, killed := 70000 }
  let L : Launch := { L with discarded := 2, ending := e }
  { s with launches := s.launches ++ [(1, L)], nextLaunch := 2 }
def wDone := ending none wBarrierSet
def wDoneFence : State :=
  let s := ending none wBarrierSet
  { s with launches := Store.modify 1 (fun L => { L with packet := L.packet ||| BitVec.ofNat 512 (2 ^ 9) }) s.launches }
def wDoneFault := ending (some ⟨1, 0x07⟩) wBarrierSet

/-- A spawn record: its entry, predicates, window in 256-byte units, label and first argument. -/
def someRecord (label : Nat := 0) (arg : Nat := 7) : BitVec 512 :=
  BitVec.ofNat 512 (pack [(0, 0x10000), (64, 5), (71, 1), (74, 1), (85, label), (96, arg)])
def binned (recs : List (BitVec 512)) (released : Bool) (s : State) : State :=
  let b : Bin := { id := 6, stage := 1, entry := 0x10000, recs := recs, opened := 0, released := released }
  { strand (fun x => { x with bins := [b] }) s with nextBin := 7 }
def wBinTimer := binned [someRecord] false (packet 256 512 idle)
def wBinIdle := packet 288 1000 (packet 256 512 (binned [someRecord] false wStrandEnd))
def wBinYarn := binned [someRecord, someRecord 2 9] true (packet 256 512 idle)
def wBinPair := packet 12 1 wBinYarn
def wSpawnWait := packet 256 512 (group (fun g => { g with wait := some (.spawn 0 [(0, someRecord), (1, someRecord)] []) }) idle)
/-- A spill queue of 8 records at 0x70000, whose record 7 is next, its header at 0x60000. -/
def spilling (r : BitVec 512) : State :=
  let f := fun (L : Launch) => { L with spillAt := 0x60000, spillBase := 0x70000, spillCap := 8, spillR := 7, spillW := 8 }
  packet 256 512 (launch (fun L => { f L with spilled := [(0, 1, 0x10000), (0, 2, 0x10000)] })
    (issuing (.nop {}) (cellsOf 0x701C0 (leBytes 64 r.toNat))))
def wSpillBack := spilling someRecord
def wSpillBad := spilling (someRecord ||| BitVec.ofNat 512 (2 ^ 87))
def wSpillAbove := capped (spilling (someRecord 2))
/-- Point 3 has held one of two arrivals since cycle 0, a group waiting there. -/
def wWatchdog : State :=
  let p : Point := { armed := true, exp := 2, arr := 1, phase := 5, marks := [(0, 1)] }
  let s := strand (fun x => { x with points := [(3, p)] }) (group (fun g => { g with wait := some (.rdv 0 3 false) }) idle)
  { s with now := 65536 }
/-- fid catches watchdogs of its launch. -/
def wWatchdogFid : State :=
  packet 15 1 { wWatchdog with debug := .user, funcs := [(0, { ptroot := 0x1001, session := some { catchWatchdog := true } })] }

/-- A copy on channel 3, which has moved some bytes. -/
def copying (record : Nat) (off : Nat) (mem : Store Byte := [(0x20020, 9)]) : State :=
  let c : Copy := { chan := 3, num := 2, record := BitVec.ofNat 512 record, start := 0, floor := 1, yarn := 0,
                    run := { state := .running, off := off } }
  packet 256 0x20000 (strand (fun x => { x with copies := [c], issued := [(3, 2)], dones := [(3, 1)] }) (issuing (.nop {}) mem))
/-- LINEAR records of 64 bytes: memory to scratchpad, scratchpad to memory, memory to memory with barrier 0x80. -/
def toPad : Nat := pack [(0, 1), (9, 1), (32, 64), (64, 0x20000), (128, 0x100)]
def toMem : Nat := pack [(0, 1), (8, 1), (32, 64), (64, 0x100), (128, 0x28000)]
def toMemBar : Nat := pack [(0, 1), (16, 8), (31, 1), (32, 64), (64, 0x20000), (128, 0x28000)]
def wCopyPad := copying toPad 32
def wCopyMem := pad [(0x120, 7)] (copying toMem 32)
def wCopyBar := pad (barCells 15 0 1 1) (copying toMemBar 32)
def wCopyQueued := strand (fun x => { x with copies := x.copies.map fun c => { c with run := {} } }) (copying toPad 0)
def wCopyFault := copying (pack [(0, 1), (9, 1), (32, 64), (64, gib 9), (128, 0x100)]) 0
def wCopyEnds : State := { wCopyPad with mem := { wCopyPad.mem with poison := [(0x800, true)] } }
def wCopyDone := copying toPad 64
/-- A GATHER of two rows of 32 bytes, whose indexes stand at 0x50000. -/
def wGather := copying (pack [(0, 3), (9, 1), (32, 32), (64, 0x20000), (128, 0x100), (192, 2), (224, 32), (256, 32), (320, 0x50000)]) 0
  [(0x50000, 1)]
/-- A DECK of S4, 32 values of K and 128 columns, without scales (R276). -/
def wDeck := copying (pack [(0, 4), (32, 128), (64, 0x20000), (128, 0x200), (192, 128), (224, 128), (384, 32), (416, 128), (432, 4)]) 0
def wSignalBar := pad (barCells 15 0 1 1) (packet 256 512 idle)

/-- An operation in the matrix context of the strand: its block, and how far it is. -/
def operating (f : MOp → MOp) (more : Nat := 0) (s : State := idle) : State :=
  let b : Nat := pack [(0, 0x400), (32, 2048), (64, 0x200), (96, 128), (160, 128), (176, 128), (192, 32), (384, 0xFFFF)] + more
  let o : MOp := { num := 1, block := BitVec.ofNat 1024 b, fw := 0xBB, lab := 0, yarn := 0 }
  strand (fun x => { x with ops := [f o], issued := [(8, 1)] }) s
def inSlot0 (k : Slot) (s : State) : State := { s with cores := [(0, { slots := [(0, k)], slice := [(5, 0x21)] })] }
def wKstep := inSlot0 {} (packet 256 0x20000 (pad [(0x400, 0x53)] (operating id)))
def wKstepCheck := inSlot0 {} (packet 256 0x20000 (pad [(0x400, 0x53)] (operating id (2 ^ 233))))
def wKstepZero := inSlot0 { acc := [(0, 0x3F800000)] } (packet 256 0x20000 (pad [(0x400, 0x53)] (operating id (2 ^ 232))))
def wEpiEnd := inSlot0 {} (operating (fun o => { o with progress := 1 }) (2 ^ 233))
/-- Its store of FP32 follows template 0, whose record is the tile's. -/
def stored0 : Nat := 0xFFFF * 2 ^ 384
def wEpiStore :=
  let b : Nat := pack [(0, 0x400), (32, 2048), (64, 0x200), (96, 128), (160, 128), (176, 128), (192, 32), (256, 0x3F800000)]
  inSlot0 { acc := [(0, 0x40000000)] }
    (operating (fun o => { o with progress := 1, block := BitVec.ofNat 1024 b, tmpl := BitVec.ofNat 512 tileRecord }))
def wEpiFail : State :=
  let b : Nat := pack [(0, 0x400), (32, 2048), (64, 0x200), (96, 128), (160, 128), (176, 128), (192, 32), (233, 1), (256, 0x3F800000)]
  let s := operating (fun o => { o with progress := 1, block := BitVec.ofNat 1024 b, tmpl := BitVec.ofNat 512 tileRecord })
  inSlot0 { acc := [(0, 0x40000000)] } { s with funcs := [(0, { ptroot := 0x1001, policy := 4 })] }
def wStoreEngine :=
  inSlot0 {} (operating (fun o => { o with
    progress := 1, stage := .stored, tmpl := BitVec.ofNat 512 tileRecord, out := [(32, 7)], run := { state := .running, off := 32 } }))
def wStoreLast :=
  inSlot0 {} (operating (fun o =>
    { o with progress := 1, stage := .stored, tmpl := BitVec.ofNat 512 tileRecord, run := { state := .running, off := 65504 }
             srun := { state := .done } }))

/-! Host replies and the fault queue -/

/-- The word that names entry 3's fray, use count 1, on core 0, and asks for action a. -/
def replyWord (a : Nat) : Word := BitVec.ofNat 32 (3 + 256 + a * 2 ^ 30)
def wReply := inFray .parked (lane 1 (fun v => { v with parked := true }) (twoLanes idle))
def wReplyPair := packet 12 1 wReply
/-- The word that names channel 3 of strand 0, use count 1. -/
def copyReplyWord (a : Nat) : DWord := BitVec.ofNat 64 (256 + 3 * 2 ^ 19 + a * 2 ^ 30)
def wCopyReply := strand (fun x => { x with copies := x.copies.map (fun c =>
  { c with run := { state := .faulted, off := 32, cause := 0x01, use := 1 } }) }) wCopyPad
/-- Fault queue of 64 units, whose unit n is written next, of a function with a record that waits. -/
def faultQueue (n : Nat) (units : Nat) (watchdog : Option Nat) (s : State) (read : Word := 0) : State :=
  { s with funcs := [(0, { ptroot := 0x1001, fqbase := 0x9000, fqctl := 0x26, fqwrite := BitVec.ofNat 32 n, fqread := read
                           waiting := [{ bytes := List.replicate (64 * units) 5, watchdog := watchdog }] })] }
def wFault := faultQueue 3 1 none idle
def wFaultWrap := faultQueue 63 3 none idle 63
def wFaultDog := faultQueue 3 1 (some 0) (packet 20 1 wWatchdog)
def wFaultOff : State := { wFault with funcs := wFault.funcs.map fun c => (c.1, { c.2 with fqctl := 6 }) }
def wFaultFull := faultQueue 64 1 none idle

/-! Host registers, the host's window, errors -/

def wRegs : State := { idle with funcs := [(0, { ptroot := 0x1001, fstatus := 3, xlpend := [(5, 0)], fqctl := 0x3F })] }
def wWindow := issuing (.nop {}) [(0x20004, 9)]
def windowed (label : Label) (balance : DWord) : State :=
  { wWindow with mem := { wWindow.mem with labels := [(0x20, label)] }, funcs := [(0, { ptroot := 0x1001, metbal := balance })] }
def wWindow2 := windowed 2 64
def wWindow3 := windowed 3 0
def wWindowScrub : State := { wWindow with scrubs := [{ base := 0x20000, len := 64 }] }
/-- fid is attached in debug mode user; the launch allows debug. -/
def attachFid (s : State) : State := { s with debug := .user, funcs := s.funcs.map fun c => (c.1, { c.2 with session := some {} }) }
def fidOn (s : State) : State := packet 15 1 (attachFid s)
def wWindowFidNo := attachFid wWindow
/-- A stopped yarn, with a unit of label 3 in its lane's window and a barrier. -/
def wFidHidden := attachFid (packet 256 512 (pad (barCells 4 1 3 5) (strand (fun x => { x with padLab := [(5, 3)] })
  (yarn (fun v => { v with stopped := true }) idle))))
def wFidShows := packet 15 1 wFidHidden
def wWindowFid := fidOn wWindow
def wWindowFid2 := fidOn wWindow2
def wError := launch (fun L => { L with replayable := true, snap := [(0x20004, 7)], snapPages := [(0x20000, 4096)] }) wWindow
def wErrorAgain : State := { wError with funcs := [(0, { ptroot := 0x1001, policy := 0x120 })] }

def wErrorTwice : State :=
  let s := launch (fun L => { L with replays := 1, errors := [{ loc := 0, at_ := 0x20004 / 64, attempt := 0 }] }) wError
  { s with funcs := [(0, { ptroot := 0x1001, policy := 0x220 })] }

/-! Route messages, ports, the regulator, flits -/

/-- Two ports are up: to peer 1 in the pod, and to peer 2 by a trunk; peer 1 announces its own /12, and peer 2's. -/
def linked : State :=
  let own := fun (h o : Peer) (path : List Peer) => ({ peer := h, kind := 0, origin := o, seq := 1, issue := 1, inc := 2, path := path,
                                                       ceiling := 0, strong := false, backing := o ++ (0 : BitVec 45) } : Holder)
  { idle with links := [(0, { far := 1, up := true }), (1, { far := 2, trunk := true, up := true })], incs := [(1, 2), (2, 2)]
              table := idle.table ++ [{ pfx := (1 : Peer) ++ (0 : BitVec 45), len := 12, holders := [own 1 1 [1]] },
                { pfx := (2 : Peer) ++ (0 : BitVec 45), len := 12, holders := [own 2 2 [2]] }] }
/-- Peer 1 says something of its prefix of length 30. -/
def saying (type : Nat) (kind : BitVec 2) (seq : Word) (inc : BitVec 16) (path : List Peer := [1]) : BitVec 256 :=
  ({ type := type, pfx := 2 ^ 45, len := 30, kind := kind, origin := 1, seq := seq, issue := 1, inc := inc, strong := true } : Note).message path
def mNew := saying 0 0 3 2
def mReplica := saying 0 1 3 2
def mCache := saying 0 2 3 2
def mOwn := saying 0 0 3 2 [1, 0]
def mPast := saying 0 0 3 1
def mWithdraw := saying 1 1 3 2
def mAck := saying 2 0 3 1 [1, 0]
/-- The prefix is recorded with this origin, and perhaps a replica at peer 1. -/
def recorded (o : Peer) (seq : Word) (also : List Holder) : State :=
  { linked with table := linked.table ++ [{ pfx := 2 ^ 45, len := 30, holders := also ++ [{ ownRecord 0 with peer := o, origin := o, seq := seq, path := [o] }] }] }
def replica : Holder := { ownRecord 1 with peer := 1, origin := 1, seq := 3, inc := 2, path := [1] }
def wRival := recorded 3 4 []
def wReplicas := recorded 1 3 []
def wWithdraw := recorded 1 3 [{ replica with peer := 1 }]
def wWithdrawWaits : State := { wWithdraw with reqs := [(4, { req := { addr := 2 ^ 45, pfx := 2 ^ 45, len := 30 }, dst := 1, who := .cp 0 })] }
def wAckLast : State := { linked with changes := [(6, { pfx := 2 ^ 45, len := 30, issue := 1, kind := 0, acked := [2] })] }
def wAckMore : State := { linked with changes := [(6, { pfx := 2 ^ 45, len := 30, issue := 1, kind := 0 })] }
def wDecay : State := { idle with loads := [(1, 5)], loadAt := [(1, 10)], now := 65546 }
def wAdmit : State :=
  { idle with reqs := [(4, { req := { kind := .load, width := 32, addr := 2 ^ 45 }, dst := 1, who := .cp 0, hold := .injection })]
              loads := [(1, 2)], funcs := [(0, { ptroot := 0x1001, injlim := 0xFFFF })] }
def wRevoke : State := { idle with revoked := [{ peer := 1, pfx := 0x20000, len := 40 }] }
/-- A link that expects data sequence 5 in epoch 1, and keeps flits 7 and 8. -/
def someLink : Link :=
  { far := 1, up := true, epoch := 1, key := 3, sendSeq := 9, recvSeq := 5, ctlOut := 2, ctlIn := some 4, retries := 1
    stored := [{ sequence := 7, epoch := 1, body := 1 }, { sequence := 8, epoch := 1, body := 2 }] }
def wLink (f : Link → Link := id) : State := { idle with links := [(2, f someLink)] }
def goodData (n : Word) : Flit :=
  let f : Flit := { sequence := n, acknowledged := 7, epoch := 1, body := 0 }
  flitClose { f with tag := flitDataTag f 3 1 (Config.farPort 2) }
def badTag : Flit := flitClose { goodData 5 with tag := (goodData 5).tag + 1 }
def badCheck : Flit := { goodData 5 with crc := (goodData 5).crc + 1 }
def badCheckAhead : Flit := { goodData 6 with crc := (goodData 6).crc + 1 }
/-- A control flit with counter 5, or a lower one. -/
def control (kind : Byte) (n : Word) (counter : Byte := 5) : Flit :=
  let f : Flit := { sequence := n, acknowledged := 7, kind := kind, epoch := 1, body := counter.setWidth 1792 }
  flitClose { f with tag := flitCtlTag f 3 1 (Config.farPort 2) }
def wRetrain := wLink fun l => { l with retries := 17 }
def wExhaustedControl := wLink fun l => { l with ctlOut := 0x7FFFFFFE }
def wExhausted := wLink fun l => { l with sendSeq := 0x7FFFFFFF, stored := [] }

/-! Collectives -/

def collDesc8 : BitVec 512 := BitVec.ofNat 512 (pack [(8, 5), (16, 2), (32, 32), (64, 256), (96, 4)])
def chunkBytes : List Byte := (List.range 128).map (BitVec.ofNat 8)
def staged (k : Nat) (round : BitVec 16 := 0) (knot : Option Fab := none) (bs : List Byte := chunkBytes) : Staged :=
  { launch := 0, chunk := k, knot := knot, round := round, weight := 1, desc := collDesc, bytes := bs, label := 1 }
/-- This member has fired every chunk; what is staged. -/
def collected (c : Coll) (st : List Staged) : State :=
  { linked with colls := [(0, { c with fired := [0, 1, 2, 3] })], staged := st }
def wPassOwn := collected someColl [staged 0, staged 1]
def somePass (k hop : Nat) : Pass := { desc := collDesc, members := [0, 1], chunk := k, hop := hop }
def pFirst := somePass 0 0
def pLast : Pass := { somePass 1 1 with elems := List.replicate 32 5, present := 2, marks := [⟨1, 0, true, false⟩], label := 2 }
def wPassNarrow := collected { someColl with desc := collDesc8 } [staged 0 0 none (List.replicate 33 7)]
def pScales : Pass := { desc := collDesc8, members := [0, 1], chunk := 0, phase := 0 }
def pSums : Pass := { desc := collDesc8, members := [0, 1], chunk := 0, phase := 1, scales := [9] }
/-- A knot at 0x28000 of round 5; nothing of it is fired here. -/
def knotted (round : Nat) : Coll :=
  { someColl with knot := some 0x28000, bind := collBind ||| BitVec.ofNat 512 (pack [(192, 0x28000), (256, round)]) }
def wPassAbsent : State := { linked with colls := [(0, knotted 5)] }
def pKnot : Pass := { somePass 0 0 with knot := some 0x28000, round := 5 }
def pKnotSums : Pass := { pKnot with elems := List.replicate 32 5 }
/-- Chunks of round 3, all of which were fired, still wait in staging. -/
def wPassLate : State :=
  { linked with staged := [staged 0 3 (some 0x28000), staged 1 3 (some 0x28000)].map fun f => { f with ready := true } }
/-- Chunk 2's strand has ended; chunks 0 and 1 have been fired, or all but it. -/
def firing (f : Coll → Coll) (mem : Store Byte := [(0x20201, 9)]) : State :=
  let s := issuing (.nop {}) mem
  { s with colls := [(0, f { someColl with due := [2] })] }
def wFire := firing fun c => { c with fired := [0, 1] }
def wFireMore : State := { wFire with staged := [staged 1] }
def wFireLast := firing fun c => { c with fired := [0, 1, 3] }
def wFireKnot := firing fun c => { knotted 5 with due := c.due, fired := [0, 1, 3] }
def wFire3 := firing (fun c => { c with bind := BitVec.ofNat 512 (pack [(64, gib 4), (128, 0x28000)]) })
def wFireFault := firing (fun c => { c with bind := BitVec.ofNat 512 (pack [(64, gib 9), (128, 0x28000)]) })
def wPassWaits := firing fun c => { c with fired := [0, 1] }
def wStart2 : State := { wPassOwn with colls := [(0, { someColl with fired := [0, 1, 2, 3], wanted := [(0, 0), (2, 0), (0, 1)] })] }
/-- The partial of chunk 0, sent back, with the chunks of both members. -/
def pCameBack : Pass := { somePass 0 0 with present := 3, back := true, turn := 1 }
def wCameBack : State := { wStart2 with passes := [pCameBack] }
def wStartMessage : State := { linked with colls := [(0, { knotted 5 with fired := [0, 1, 2, 3], running := [0] })] }

/-! Verdicts, results, the firmware -/

/-- The collective knot of round 5, of two members and quorum 2, or one of the members, at 0x28000 of this package. -/
def collKnot (quorum : Nat) : Knot :=
  let k := knotStart (BitVec.ofNat 64 (pack [(0, 2), (8, quorum), (24, 0xD), (39, 1), (48, 5)]))
  k
def wVerdict (quorum : Nat) : State :=
  let s := issuing (.nop {}) (cellsOf 0x28000 (collKnot quorum).bytes)
  { linked with mem := s.mem, colls := [(0, knotted 5)] }
def pMarks : Pass := { pKnot with hop := 2, elems := List.replicate 32 5, units := [], marks := [⟨0, 5, true, false⟩], present := 1 }
def wAnswer : State := { wVerdict 1 with passes := [pMarks, { pMarks with chunk := 1, turn := 1 }] }
/-- Published chunk 1: its 128 bytes, of which 96 are written. -/
def pResult (done : Nat) (sent : Bool) (k : Nat := 1) : Pass := { somePass k 2 with phase := 2, bytes := chunkBytes, label := 0, sent := sent, done := done }
def wResult := collected someColl []
def wResultBad := collected { someColl with bind := BitVec.ofNat 512 (pack [(64, 0x20000), (128, gib 9)]) } []
def wPassOn : State := linked
def rKnot : Request :=
  { ofPeer .knot (leBytes 4 0x10007 ++ leBytes 4 9) 1088 with op := 1, data2 := [0] }
def rKnotTake : Request := { ofPeer .knot (leBytes 4 6) 1088 with op := 2 }
def wKnotHome : State := { wHold with mem := (issuing (.nop {}) knotCells).mem }

def withFunc (f : Func) (s : State := idle) : State := { s with funcs := [(0, f)] }
def wRefill : State :=
  { withFunc { metbal := 10, metfill := BitVec.ofNat 64 (5 + 3 * 2 ^ 32), metcap := 12 } with now := 8192 }
def wModes : State := { withFunc { metreg := [(0, BitVec.ofNat 64 (2 ^ 63 + 12 * 2 ^ 57))] } with ide := true }
def wModes1 := withFunc { secmode := 1, key := some 0 }
/-- The log's ring holds no more entries until some are acknowledged. -/
def logFilled (s : State) : State := { s with logSeq := BitVec.ofNat 64 logRoom }
def wScrub : State :=
  { idle with scrubs := [{ base := 0x20000, len := 131072, ptr := 0, fn := 3 }],
              mem := { idle.mem with bytes := idle.mem.bytes ++ [(0x20004, 9), (0x30000, 9)], labels := [(0x20, 3)], poison := [(0x800, true)] } }
def wScrubEnd : State := { wScrub with scrubs := [{ base := 0x20000, len := 131072, ptr := 65536, fn := 3 }] }
/-- Another package owns the line at 0x20040, within the scrub's next step. -/
def wScrubOwned : State := { wScrub with owners := [(0x801, (2, 0))] }
def someGrant : Grant := { base := 0x50000, length := 64, hash := 7, budget := 100 }
def wGranted := withFunc { grants := [(2, someGrant)] }
def someWindow : SealWindow := { pfx := 0x20000, len := 45, fn := 3, wrapped := [1, 2], hash := 5 }
def wSealer : State := { idle with funcs := [(3, { ptroot := 0x1001, secmode := 2, key := some 5 })] }
def wSealed : State := { idle with windows := [(4, { win := someWindow, key := 9, used := 64 })] }
def wLogged : State := { idle with logSeq := 9, logAcked := 3 }

/-! Bounce channels, debug sessions, power and reset -/

def someBounce (resync : Bool) : Bounce := { pfx := 0x20000, len := 45, host := 0x100, inSeq := 6, outSeq := 2, resync := resync, key := 9 }
def wBounce := withFunc { bounce := [(3, someBounce false)] }
def wBounceLost := withFunc { bounce := [(3, someBounce true)] }
def bounceTag (data : List Byte) : BitVec 128 := Config.gcmTag 9 (BitVec.ofNat 96 (6 + 2 ^ 72 * 3)) [] data
def wFid := withFunc { session := some {} } (yarn (fun v => { v with stopped := true }) (strand (fun x => { x with ops := x.ops.map (fun o =>
  { o with hold := true }) }) (operating id)))
def wVendor := withFunc { secmode := 2, key := some 4 }
def wNoStrand : State := { State.reset with links := [(0, { far := 1, up := true })], mem := { bytes := [(5, 1)] }, cores := [(191, { slice := [(7, 7)], uses := [(1, 1)] })] }
def wRetained : State := { wNoStrand with retained := 8, coreMap := [(0, 1)], fence := [(3, 4)] }
def wStandby : State := { wNoStrand with power := .standby, links := [(0, { far := 1, slept := true })] }
/-- Bring-up under way. -/
def wBooting (b : Boot) : State := { wNoStrand with boot := b, booted := false }

/-! ### What meets the hypotheses: the issuer and the operands of a state -/

/-- The issuer of a state whose group issues, or of its first yarn's first group. -/
def who (s : State) : Issuer :=
  (s.issuerOf 0 0).getD { y := 0, yarn := { strand := 0 }, g := { id := 0, lanes := 0, pc := 0 }, strand := { launch := 0 },
                          launch := { fn := 0, queue := 0, packet := 0 } }

/-- The operands of the instruction its group's clause holds. -/
def ops (s : State) : Args :=
  match decodeWords ((who s).g.clause.code.getD (who s).g.idx []) with
  | .ok (e, _) => (match e.op? with | some x => x.2 | none => {})
  | .error _ => {}

/-- A lane of a yarn that is active is listed. -/
theorem lane_listed {v : Yarn} {l : Nat} (h : (v.lane l).active = true) : ∃ c ∈ v.lanes, c.1 = l := by
  by_contra hn
  have hf : ∀ t : Store Lane, (∀ c ∈ t, c.1 ≠ l) → Store.find l t = none := by
    intro t
    induction t with
    | nil => intro _; rfl
    | cons c t ih =>
      intro hc
      obtain ⟨a, b⟩ := c
      have ha : a ≠ l := hc (a, b) (List.mem_cons_self ..)
      simp [Store.find, ha, ih fun d hd => hc d (List.mem_cons_of_mem _ hd)]
  have h2 := hf v.lanes fun c hc he => hn ⟨c, hc, he⟩
  rw [Yarn.lane, Store.get, h2] at h
  simp at h

/-- A property of the active lanes of a yarn, checked on those listed. -/
theorem active_all {v : Yarn} {p : Nat → Prop} (h : ∀ c ∈ v.lanes, (v.lane c.1).active = true → p c.1) :
    ∀ l, (v.lane l).active = true → p l := by
  intro l hl
  obtain ⟨c, hc, rfl⟩ := lane_listed hl
  exact h c hc hl

/-- An issuer's instruction issues in a state: what a computation can check of it. -/
def issuesNow (s : State) : Bool :=
  decide (s.issuer = some (who s)) && decide ((who s).g.lanes ≠ 0)
    && (who s).yarn.lanes.any (fun c => ((who s).yarn.lane c.1).active)
    && (match (who s).g.fray with
      | some e => (Store.find e (who s).yarn.frays).isSome
      | none => true)

theorem issues_of {s : State} (h : issuesNow s = true) : Issues s (who s) := by
  simp only [issuesNow, Bool.and_eq_true, decide_eq_true_eq, List.any_eq_true] at h
  obtain ⟨⟨⟨h1, h2⟩, c, _, h3⟩, h4⟩ := h
  exact ⟨h1, h2, ⟨c.1, h3⟩, fun e he => by simpa [he] using h4⟩

/-- Nothing waits on a register where every active lane executes. -/
theorem settled_of {src : State → Issuer → Args → Nat → List Nat} {s : State} {i : Issuer} {x : Args}
    (h : ∀ c ∈ i.yarn.lanes, (i.yarn.lane c.1).active = true → c.1 ∈ i.lanes x) : settledSources src s i x :=
  fun _ _ _ _ m _ hm ha => absurd (active_all (p := (· ∈ i.lanes x)) h m ha) hm

theorem label_le (l : Label) : l.toNat ≤ 3 := by have := l.isLt; omega

/-- An access is served here. -/
def servedNow (s : State) (i : Issuer) (write read : Bool) (wlab : Label) (va : DWord) (n : Nat) (p : Page) (q : Fab)
    (origin : Bool := false) : Bool :=
  (match s.judge ⟨i.launch.fn, i.ceil, { i.yarn.elig with trailing := true }, write, origin, wlab⟩ va with
    | .ok (p', .here q' pfx len, _) => decide (p' = p) && decide (q' = q)
      && s.holds (write || origin || decide (p.cls = 1)) { page := p, len := n, pfx := pfx, plen := len } q
    | _ => false)
    && (!read || !s.mem.poisonedIn q.toNat n) && (s.awayIn q.toNat n).isNone && !s.scrubHeld q

theorem served_of {s : State} {i : Issuer} {w r o : Bool} {wl : Label} {va : DWord} {n : Nat} {p : Page} {q : Fab}
    (h : servedNow s i w r wl va n p q o = true) : Served s i w r wl va n p q o := by
  simp only [servedNow, Bool.and_eq_true] at h
  obtain ⟨⟨⟨h1, h2⟩, h3⟩, h4⟩ := h
  split at h1
  · rename_i a b pfx len d e
    simp only [Bool.and_eq_true, decide_eq_true_eq] at h1
    obtain ⟨⟨rfl, rfl⟩, h5⟩ := h1
    exact ⟨⟨pfx, len, d, e, h5⟩, fun hr => by simpa [hr] using h2, by simpa using h3, by simpa using h4⟩
  · simp at h1

/-- The page and the byte of backing of a part of a lane's access, for a load or another access, or one at the origin. -/
def pageNow (s : State) (write origin : Bool) (l o : Nat) : Page × Fab :=
  match s.judge { fn := (who s).launch.fn, ceil := (who s).ceil, el := (who s).yarn.elig, write := write, origin := origin }
      ((who s).gAddr s (ops s) l + BitVec.ofNat 64 o) with
  | .ok (p, .here q _ _, _) => (p, q)
  | _ => ({}, 0)

/-- Every part of every lane's access is served. -/
def allServedNow (s : State) (i : Issuer) (x : Args) (u w r : Bool) (wl : Nat → Label) (at_ : Nat → Nat → Page × Fab) : Bool :=
  (accessLanes i x).all (fun l => let va := i.gAddr s x l
    (u || decide (va.toNat % (tyBits x.ty / 8) = 0))
    && (partsAt va (tyBits x.ty / 8)).all (fun c =>
      servedNow s i w r (wl l) (va + BitVec.ofNat 64 c.1) c.2 (at_ l c.1).1 (at_ l c.1).2))

theorem allServed_of {s : State} {i : Issuer} {x : Args} {u w r : Bool} {wl : Nat → Label} {at_ : Nat → Nat → Page × Fab}
    (h : allServedNow s i x u w r wl at_ = true) : allServed s i x u w r wl at_ := by
  intro l hl
  have := List.all_eq_true.mp h l hl
  simp only [Bool.and_eq_true, Bool.or_eq_true, decide_eq_true_eq] at this
  exact ⟨this.1, fun c hc => served_of (List.all_eq_true.mp this.2 c hc)⟩

/-- No write of a unit is under way at an address. -/
theorem quiet_of {s : State} {va : DWord} (h : s.bufs.all (fun b => !b.write || decide (b.va ≠ va)) = true) :
    ∀ b ∈ s.bufs, b.write = true → b.va ≠ va := fun b hb hw => by
  have := List.all_eq_true.mp h b hb
  simpa [hw] using this

/-- A signal's word stands here. -/
def signalNow (s : State) (fn ceil sig q : Nat) : Bool :=
  decide (sig ≠ 0) && decide (sig % 8 = 0) && (s.awayIn q 8).isNone
    && s.bufs.all (fun b => !b.write || decide (b.va ≠ BitVec.ofNat 64 sig))
    && (match s.judge { fn := fn, ceil := ceil, write := true } (BitVec.ofNat 64 sig) with
      | .ok (_, .here f _ _, _) => decide (f.toNat = q) && !s.scrubHeld f
      | _ => false)

theorem signal_of {s : State} {fn ceil sig q : Nat} (h : signalNow s fn ceil sig q = true) : signalPlace s fn ceil sig q := by
  simp only [signalNow, Bool.and_eq_true, decide_eq_true_eq] at h
  obtain ⟨⟨⟨⟨h1, h2⟩, h3⟩, h5⟩, h4⟩ := h
  refine ⟨h1, h2, by simpa using h3, quiet_of h5, ?_⟩
  split at h4
  · rename_i a b pfx len c e
    simp only [Bool.and_eq_true, decide_eq_true_eq] at h4
    exact ⟨a, b, pfx, len, c, e, h4.1, by simpa using h4.2⟩
  · simp at h4

/-- A device write is served here. -/
def writeNow (s : State) (fn ceil : Nat) (wlab : Label) (va : Nat) (p : Page) (q : Nat) : Bool :=
  !s.ownedAway q && s.bufs.all (fun b => !b.write || decide (b.va ≠ BitVec.ofNat 64 va))
    && (match s.judge { fn := fn, ceil := ceil, write := true, wlab := wlab } (BitVec.ofNat 64 va) with
      | .ok (p', .here f _ _, _) => decide (p' = p) && decide (f.toNat = q) && !s.scrubHeld f
      | _ => false)

theorem write_of {s : State} {fn ceil va q : Nat} {wl : Label} {p : Page} (h : writeNow s fn ceil wl va p q = true) :
    writePlace s fn ceil wl va p q := by
  simp only [writeNow, Bool.and_eq_true] at h
  obtain ⟨⟨h1, h5⟩, h2⟩ := h
  refine ⟨by simpa using h1, quiet_of h5, ?_⟩
  split at h2
  · rename_i a b pfx len c e
    simp only [Bool.and_eq_true, decide_eq_true_eq] at h2
    obtain ⟨⟨rfl, h3⟩, h4⟩ := h2
    exact ⟨b, pfx, len, c, e, h3, by simpa using h4⟩
  · simp at h2

/-- The page a device write of a state stands in. -/
def writePage (s : State) (ceil : Nat) (wlab : Label) (va : Nat) : Page :=
  match s.judge { fn := 0, ceil := ceil, write := true, wlab := wlab } (BitVec.ofNat 64 va) with
  | .ok (p, _, _) => p
  | .error _ => {}

/-- No slot of a strand is busy where its core's yarns have nothing under way. -/
theorem no_slot_busy {s : State} {x n : Nat} (h : (s.yarns.all fun c => c.2.pend.isEmpty) = true) (k : Nat) :
    s.slotBusy x n k = false := by
  simp only [List.all_eq_true, List.isEmpty_iff] at h
  simp only [State.slotBusy, List.any_eq_false, Bool.and_eq_true, not_and]
  intro c hc _
  rw [h c hc]; simp

/-- Every part of one access is served. -/
theorem all_served {s : State} {i : Issuer} {w r : Bool} {wl : Label} {va : DWord} {ps : List (Nat × Nat)} {at_ : Nat → Page × Fab}
    (h : (ps.all fun c => servedNow s i w r wl (va + BitVec.ofNat 64 c.1) c.2 (at_ c.1).1 (at_ c.1).2) = true) :
    ∀ c ∈ ps, Served s i w r wl (va + BitVec.ofNat 64 c.1) c.2 (at_ c.1).1 (at_ c.1).2 :=
  fun c hc => served_of (List.all_eq_true.mp h c hc)

/-- A group's turn has come at its header. -/
def headerNow (s : State) : Bool :=
  let i := who s
  decide (s.issuerOf 0 0 = some i ∧ i.g.lanes ≠ 0 ∧ i.yarn.mayMove i.g = true ∧ i.yarn.nextUp i.g = true
      ∧ i.strand.place.isSome = true ∧ (∀ h ∈ i.yarn.groups, h.id ≠ 0 → h.pc ≠ i.g.pc) ∧ (∀ b ∈ s.bufs, b.who ≠ .fetch 0 0))
    && i.yarn.lanes.any (fun c => (i.yarn.lane c.1).active)
    && (match i.g.fray with
      | some e => (Store.find e i.yarn.frays).isSome
      | none => true)

theorem header_of {s : State} (h : headerNow s = true) : AtHeader s 0 0 (who s) := by
  simp only [headerNow, Bool.and_eq_true, decide_eq_true_eq, List.any_eq_true] at h
  obtain ⟨⟨⟨h1, h2, h3, h4, h5, h6, h7⟩, c, _, h8⟩, h9⟩ := h
  exact ⟨h1, h2, ⟨c.1, h8⟩, h3, h4, h5, h6, h7, fun e he => by simpa [he] using h9⟩

/-- A clause can be read at the header. -/
def readsNow (s : State) (c : Clause) (pad : Word) : Bool :=
  let i := who s
  (c.w0 :: c.w1 :: c.code.flatten).zipIdx.all (fun e => decide (codeAt s i (i.g.pc.toNat + 4 * e.2) = some e.1))
    && decide (headerSigned c.w0 = true ∧ c.code.length = headerCount c.w0
      ∧ (∀ ws ∈ c.code, ws.length = wordCount (ws.headD 0))
      ∧ c.next = BitVec.ofNat 57 ((i.g.pc.toNat + 8 + 4 * c.code.flatten.length + 7) / 8 * 8)
      ∧ if (i.g.pc.toNat + 8 + 4 * c.code.flatten.length) % 8 = 0 then pad = 0
        else codeAt s i (i.g.pc.toNat + 8 + 4 * c.code.flatten.length) = some pad)

theorem reads_of {s : State} {c : Clause} {pad : Word} (h : readsNow s c pad = true) : ReadsClause s (who s) c pad := by
  simp only [readsNow, Bool.and_eq_true, decide_eq_true_eq, List.all_eq_true] at h
  obtain ⟨h1, h2, h3, h4, h5, h6⟩ := h
  exact ⟨fun k w hk => h1 (w, k) (List.mem_zipIdx_iff_getElem?.mpr hk), h2, h3, h4, h5, h6⟩

/-- A yarn, a strand, a launch or a copy of a state by its number. -/
def launchAt (s : State) (l : Nat) : Launch := (Store.find l s.launches).getD (who s).launch
def under (s : State) (k : Nat) : Pend := ((s.yarnAt 0).pend[k]?).getD { flag := none }

/-- What a device read gives. -/
def gotBytes : Got → List Byte × Label
  | .ok bs lab => (bs, lab)
  | _ => ([], 0)
def gotFault : Got → Byte × DWord
  | .fault c a => (c, a)
  | _ => (0, 0)

/-- A request of another package is this package's to answer. -/
def holdsNow (s : State) (r : Request) (q : Nat) : Bool :=
  decide (s.incOf r.src = some r.srcInc ∧ r.dstInc = s.inc ∧ s.isRevoked r = false ∧ s.servedAt r = some q
    ∧ s.inSeal (BitVec.ofNat 57 q) = false)

theorem holds_of {s : State} {r : Request} {q : Nat} (h : holdsNow s r q = true) : Holds s r q := by
  simp only [holdsNow, decide_eq_true_eq] at h
  exact ⟨h.1, h.2.1, h.2.2.1, h.2.2.2.1, h.2.2.2.2⟩

/-- The launch that a packet of queue 5 makes. -/
def packetLaunch (s : State) (p : BitVec 512) : Launch :=
  { fn := 0, queue := 5, at_ := (s.queue 0 5).read.toNat, packet := p, replayable := p.getLsbD 14 }

/-- Words of a barrier-and packet that are set. -/
theorem words_set {s : State} {p : BitVec 512} {m : Nat} (h : (List.range m).all (fun n => recAt p (8 + 8 * n) 8 == 0
      || (match s.devRead (.queue 0 5) 0 3 { trailing := false } (BitVec.ofNat 64 (recAt p (8 + 8 * n) 8)) 8 with
        | .ok bs _ => (bs.getD 7 0).getLsbD 7
        | _ => false)) = true) : ∀ n, n < m → recAt p (8 + 8 * n) 8 = 0 ∨ ∃ bs lab,
      s.devRead (.queue 0 5) 0 3 { trailing := false } (BitVec.ofNat 64 (recAt p (8 + 8 * n) 8)) 8 = .ok bs lab
        ∧ (bs.getD 7 0).getLsbD 7 = true := by
  intro n hn
  have := List.all_eq_true.mp h n (List.mem_range.mpr hn)
  simp only [Bool.or_eq_true, beq_iff_eq] at this
  refine this.imp id fun h => ?_
  split at h
  · exact ⟨_, _, ‹_›, h⟩
  · simp at h

/-- Parts of a state: its strand's bin, copy and matrix operation. -/
def theBin (s : State) : Bin := ((s.strandAt 0).bins.head?).getD { id := 0, stage := 0, entry := 0, recs := [], opened := 0 }
def spillRead (s : State) : Got :=
  let L := s.launchOf (s.strandAt 0)
  s.devRead (.spill 0) L.fn L.ceil { trailing := false } (BitVec.ofNat 64 (L.spillBase.toNat + 64 * (L.spillR % L.spillCap))) 64
def theCopy (s : State) : Copy :=
  ((s.strandAt 0).copies.head?).getD { chan := 0, num := 0, record := 0, start := 0, floor := 0, yarn := 0 }
def theData (s : State) : Data := s.copyData (s.copyJob 0 (s.strandAt 0) (theCopy s)) (theCopy s)
def dataBytes (s : State) : List Byte × List Label :=
  match theData s with
  | .ok bs labs => (bs, labs)
  | _ => ([], [])
def dataFault (s : State) : Byte × DWord :=
  match theData s with
  | .fault c a => (c, a)
  | _ => (0, 0)
def theOp (s : State) : MOp := ((s.strandAt 0).ops.head?).getD { num := 0, block := 0, fw := 0, lab := 0, yarn := 0 }

/-- The page of the host's access, and what it reads. -/
def windowRead (s : State) : Got := s.devRead (.signal 0) 0 3 { trailing := false } 0x20004 2
def windowPage (s : State) : Page :=
  match s.translate 0 0x20004 with
  | .ok p => p
  | .error _ => {}

/-- Flits, collectives and verdicts of a state. -/
theorem flit_closed (f : Flit) : flitSound (flitClose f) = true := by simp [flitSound, flitClose, flitCovered, flitHeader]

theorem add_one_ne {w : Nat} (h : 0 < w) (x : BitVec w) : x + 1#w ≠ x := by
  intro e
  have : (1#w).toNat = (0#w).toNat := congrArg BitVec.toNat (by simpa using e)
  have h1 : 1 < 2 ^ w := Nat.one_lt_two_pow (by omega)
  simp [BitVec.toNat_ofNat, Nat.mod_eq_of_lt h1] at this

theorem bad_check : ¬ flitSound badCheck = true := fun h =>
  add_one_ne (by decide) (goodData 5).crc (of_decide_eq_true h)

theorem bad_check_ahead : ¬ flitSound badCheckAhead = true := fun h =>
  add_one_ne (by decide) (goodData 6).crc (of_decide_eq_true h)

theorem bad_tag : ¬ badTag.tag = flitDataTag badTag someLink.key someLink.far (Config.farPort 2) :=
  add_one_ne (by decide) (goodData 5).tag

def theColl (s : State) : Coll := (Store.find 0 s.colls).getD someColl
def chunkGot (s : State) :=
  let c := theColl s
  let n := dChunk c.desc
  let va := bSource c.bind + 2 * dStride c.desc
  s.readChunk (.chunk 0 2) c.fn c.ceil va (pageCuts va (n / 4096 + 2) 0 n)
def chunkRead (s : State) : List Byte × Label :=
  match chunkGot s with
  | .ok x => x
  | _ => ([], 0)
def chunkFault (s : State) : Byte × DWord :=
  match chunkGot s with
  | .fault c a => (c, a)
  | _ => (0, 0)
def homeOf (s : State) : Entry × Holder :=
  match s.routeStore { fab := 0x28000 } with
  | .ok x => x
  | .error _ => (⟨0, 0, []⟩, ownRecord 0)

/-! ### What meets the hypotheses: a state and operands for each -/

/-! BranchesCallsAndReturnsMove -/

theorem meets_bra : ∃ (s : State) (i : Issuer) (x : Args), Issues s i ∧ x.wf .bra = true ∧ goodTargets s i x (fun _ =>
    offsetFrom i x) :=
  ⟨wBra, who wBra, ops wBra, issues_of (by decide +kernel), by unfold goodTargets; decide +kernel⟩

theorem meets_bra_conditional : ∃ (s : State) (i : Issuer) (x : Args) (p : BitVec 3), Issues s i ∧ x.wf .braConditional =
    true ∧ x.a = .pred p ∧ goodTargets s i x (fun l => if (i.yarn.lane l).pred p != x.mods.getLsbD 0 then offsetFrom i x else
    i.g.clause.next.setWidth 64) :=
  ⟨wBraC, who wBraC, ops wBraC, 0, issues_of (by decide +kernel), by unfold goodTargets; decide +kernel⟩

theorem meets_brx : ∃ (s : State) (i : Issuer) (x : Args), Issues s i ∧ x.wf .brx = true ∧ goodTargets s i x (fun l => (opA
    .brx s i x l).val) :=
  ⟨wBrx, who wBrx, ops wBrx, issues_of (by decide +kernel), by unfold goodTargets; decide +kernel⟩

theorem meets_call : ∃ (s : State) (i : Issuer) (x : Args), Issues s i ∧ x.wf .call = true ∧ goodTargets s i x (fun _ =>
    offsetFrom i x) ∧ x.mods.getLsbD 0 = true ∧ ∀ l ∈ i.lanes x, windowFits i l ((opA .call s i x l).val.setWidth 32).toInt
    :=
  ⟨wCall, who wCall, ops wCall, issues_of (by decide +kernel), by unfold goodTargets windowFits; decide +kernel⟩

theorem meets_ret : ∃ (s : State) (i : Issuer) (x : Args), Issues s i ∧ x.wf .ret = true ∧ goodTargets s i x (fun l => (opA
    .ret s i x l).val) ∧ x.mods.getLsbD 0 = true ∧ ∀ l ∈ i.lanes x, windowFits i l (-((opB .ret s i x l).val.setWidth
    32).toInt) :=
  ⟨wRet, who wRet, ops wRet, issues_of (by decide +kernel), by unfold goodTargets windowFits; decide +kernel⟩

/-! ExitsAndNopsComplete -/

theorem meets_exit : ∃ (s : State) (i : Issuer) (x : Args), Issues s i ∧ ((∃ l, l ∉ i.lanes x ∧ (i.yarn.lane l).active =
    true) ∨ i.yarn.spawned = false) :=
  ⟨wExit, who wExit, ops wExit, issues_of (by decide +kernel), .inr (by decide +kernel)⟩

theorem meets_end_of_some : ∃ (s : State) (i : Issuer) (x : Args), Issues s i ∧ ∃ l, l ∉ i.lanes x ∧ (i.yarn.lane l).active =
    true :=
  ⟨wExit2, who wExit2, ops wExit2, issues_of (by decide +kernel), 1, by decide +kernel⟩

theorem meets_nop : ∃ (s : State) (i : Issuer) (x : Args), Issues s i ∧ i.lanes x = [0] :=
  ⟨wNop, who wNop, ops wNop, issues_of (by decide +kernel), by decide +kernel⟩

/-- One that has yielded stands last, and is chosen where every other has too. -/
theorem meets_yield_first : ∃ (cs : List Contender) (c : Contender), chosen cs = some c ∧ c.passes cs = true :=
  ⟨[{ slot := 0, fray := none, priority := 0, turns := { last := 5, yielded := some 5 }, moves := [] },
    { slot := 1, fray := none, priority := 0, turns := { last := 4, yielded := some 5 }, moves := [] }], _, rfl, by decide +kernel⟩

theorem meets_yield : ∃ (s : State) (i : Issuer) (x : Args), Issues s i ∧ i.lanes x = [0] :=
  ⟨wYield, who wYield, ops wYield, issues_of (by decide +kernel), by decide +kernel⟩

/-! TrapsEnterOrEndLaunches -/

theorem meets_trap : ∃ (s : State) (i : Issuer) (x : Args), Issues s i ∧ i.lanes x ≠ [] ∧ x.wf .trapI = true ∧ handlerReady s
    i :=
  ⟨wTrap, who wTrap, ops wTrap, issues_of (by decide +kernel), by unfold handlerReady; decide +kernel⟩

theorem meets_brk : ∃ (s : State) (i : Issuer) (x : Args), Issues s i ∧ i.lanes x ≠ [] ∧ x.wf .brk = true ∧ handlerReady s i
    ∧ ((s.func i.launch.fn).session = none ∨ s.debug ≠ .user ∨ i.launch.packet.getLsbD 15 = false) :=
  ⟨wBrk, who wBrk, ops wBrk, issues_of (by decide +kernel), by unfold handlerReady; decide +kernel⟩

theorem meets_brk_fid : ∃ (s : State) (i : Issuer) (x : Args), Issues s i ∧ i.lanes x ≠ [] ∧ x.wf .brk = true ∧ (s.func
    i.launch.fn).session ≠ none ∧ s.debug = .user ∧ i.launch.packet.getLsbD 15 = true :=
  ⟨wBrkFid, who wBrkFid, ops wBrkFid, issues_of (by decide +kernel), by decide +kernel⟩

theorem meets_trap_in_handler : ∃ (s : State) (i : Issuer) (x : Args) (L : Launch), Issues s i ∧ i.lanes x ≠ [] ∧ Store.find
    i.strand.launch s.launches = some L ∧ i.bank.status.getLsbD 15 = true :=
  ⟨wTrapIn, who wTrapIn, ops wTrapIn, (who wTrapIn).launch, issues_of (by decide +kernel), by decide +kernel⟩

theorem meets_trap_no_handler : ∃ (s : State) (i : Issuer) (x : Args) (L : Launch), Issues s i ∧ i.lanes x ≠ [] ∧ Store.find
    i.strand.launch s.launches = some L ∧ i.launch.handler = 0 :=
  ⟨wTrapNo, who wTrapNo, ops wTrapNo, (who wTrapNo).launch, issues_of (by decide +kernel), by decide +kernel⟩

/-! TrapReturn -/

theorem meets_tret_outside : ∃ (s : State) (i : Issuer) (x : Args), Issues s i ∧ i.lanes x ≠ [] ∧ i.bank.status.getLsbD 15 =
    false ∧ handlerReady s i :=
  ⟨wTretOut, who wTretOut, ops wTretOut, issues_of (by decide +kernel), by unfold handlerReady; decide +kernel⟩

/-- What tret reads: the header at XPC, and the index it resumes at. -/
abbrev TretPc (i : Issuer) : DWord := i.bank.xpc &&& 0x01FFFFFFFFFFFFFF
abbrev TretIndex (i : Issuer) : Nat := (i.bank.xindex.extractLsb' 0 4).toNat
abbrev TretTarget (s : State) (i : Issuer) : Target := s.target (.fetch i.y i.g.id) i.launch.fn i.ceil i.yarn.elig (TretPc i)
abbrev TretWord (s : State) (i : Issuer) : Fetch Word :=
  s.codeWord (.fetch i.y i.g.id) i.launch.fn i.ceil i.yarn.elig (TretPc i).toNat
abbrev InTret (s : State) (i : Issuer) (x : Args) : Prop :=
  Issues s i ∧ i.lanes x ≠ [] ∧ i.bank.status.getLsbD 15 = true

theorem words_of {f : Fetch Word} {w : Word} {p : Word → Prop} (h : f = .ok w) (hp : p w) : ∀ v, f = .ok v → p v := by
  rintro v rfl
  obtain ⟨rfl⟩ := h
  exact hp

theorem meets_tret_header : ∃ (s : State) (i : Issuer) (x : Args), InTret s i x ∧ i.bank.ssw &&& 0xFFFF0F80 = 0
    ∧ TretTarget s i = .ok ∧ ∀ w, TretWord s i = .ok w → TretIndex i = 8 ∨ TretIndex i < headerCount w :=
  ⟨wTret, who wTret, ops wTret, ⟨issues_of (by decide +kernel), by decide +kernel⟩, by decide +kernel, by decide +kernel,
    words_of (w := 8) (by decide +kernel) (by decide +kernel)⟩

theorem meets_tret_index : ∃ (s : State) (i : Issuer) (x : Args), InTret s i x ∧ i.bank.ssw &&& 0xFFFF0F80 = 0
    ∧ TretTarget s i = .ok ∧ TretIndex i ≠ 8 ∧ ∀ w, TretWord s i = .ok w → TretIndex i = 8 ∨ TretIndex i < headerCount w :=
  ⟨wTret0, who wTret0, ops wTret0, ⟨issues_of (by decide +kernel), by decide +kernel⟩, by decide +kernel, by decide +kernel,
    by decide +kernel, words_of (w := 8) (by decide +kernel) (by decide +kernel)⟩

theorem meets_tret_reserved : ∃ (s : State) (i : Issuer) (x : Args) (L : Launch), InTret s i x
    ∧ i.bank.ssw &&& 0xFFFF0F80 ≠ 0 ∧ Store.find i.strand.launch s.launches = some L :=
  ⟨wTretSsw, who wTretSsw, ops wTretSsw, (who wTretSsw).launch, ⟨issues_of (by decide +kernel), by decide +kernel⟩,
    by decide +kernel⟩

theorem meets_tret_no_header : ∃ (s : State) (i : Issuer) (x : Args) (L : Launch), InTret s i x
    ∧ i.bank.ssw &&& 0xFFFF0F80 = 0 ∧ TretTarget s i = .bad ∧ Store.find i.strand.launch s.launches = some L :=
  ⟨wTretOdd, who wTretOdd, ops wTretOdd, (who wTretOdd).launch, ⟨issues_of (by decide +kernel), by decide +kernel⟩,
    by decide +kernel⟩

theorem meets_tret_past_count : ∃ (s : State) (i : Issuer) (x : Args) (L : Launch), InTret s i x
    ∧ i.bank.ssw &&& 0xFFFF0F80 = 0 ∧ (TretTarget s i = .ok ∧ TretIndex i ≠ 8 ∧ ∃ w, TretWord s i = .ok w
      ∧ headerCount w ≤ TretIndex i) ∧ Store.find i.strand.launch s.launches = some L :=
  ⟨wTretPast, who wTretPast, ops wTretPast, (who wTretPast).launch, ⟨issues_of (by decide +kernel), by decide +kernel⟩,
    by decide +kernel, ⟨by decide +kernel, by decide +kernel, 8, by decide +kernel⟩, by decide +kernel⟩

theorem meets_tret_of_none : ∃ (s : State) (i : Issuer) (x : Args), Issues s i ∧ i.lanes x = [] :=
  ⟨wTretNone, who wTretNone, ops wTretNone, issues_of (by decide +kernel), by decide +kernel⟩

/-! The statements of the form Computes: IntegerArithmeticResults to NarrowFormatResults, FrayQueryAnswers, rtq -/

/-- An instruction and its operands. -/
def op (o : Op) (d : Dest) (a : Operand) (b : Operand := .none) (c : Operand := .none) (ty : Ty := .none) (src : Ty := .none) : Op × Args :=
  (o, { dst := d, a := a, b := b, c := c, ty := ty, src := src })
def d : Dest := .v 8
def v (n : BitVec 7) : Operand := .v n

/-- Operands for each instruction that only computes. -/
def samples : List (Op × Args) :=
  [op .add d (v 2) (v 4) (ty := .s32), op .sub d (v 2) (v 4) (ty := .s32), op .mulLo d (v 2) (v 4) (ty := .s32),
   op .mulHi d (v 2) (v 4) (ty := .s32), op .mad d (v 2) (v 4) (v 6) (ty := .s32),
   op .madWide d (v 2) (v 4) (v 6) (ty := .s32), op .minI d (v 2) (v 4) (ty := .s32),
   op .maxI d (v 2) (v 4) (ty := .s32), op .absI d (v 2) (ty := .s32), op .negI d (v 2) (ty := .s32),
   op .andB d (v 2) (v 4) (ty := .b32), op .orB d (v 2) (v 4) (ty := .b32), op .xorB d (v 2) (v 4) (ty := .b32),
   op .andn d (v 2) (v 4) (ty := .b32), op .notB d (v 2) (ty := .b32), op .shl d (v 2) (v 4) (ty := .b32),
   op .shr d (v 2) (v 4) (ty := .n32), op .sar d (v 2) (v 4) (ty := .s32), op .rot d (v 2) (v 4) (ty := .b32)]
  ++ [op .shf d (v 2) (v 4) (v 6) (ty := .b32), op .popc d (v 2) (ty := .b32), op .clz d (v 2) (ty := .b32),
   op .ctz d (v 2) (ty := .b32), op .brev d (v 2) (ty := .b32), op .bext d (v 2) (v 4) (ty := .s32),
   op .bins d (v 2) (v 4) (v 6) (ty := .b32), op .cmp d (v 2) (v 4) (ty := .s32),
   op .sel d (v 2) (v 4) (.pred 1) (ty := .b32), op .mov d (v 2) (ty := .b32), op .movi d (.int 9) (ty := .b32),
   op .lea d (v 2) (v 4) (ty := .s64), op .dp4 d (v 2) (v 4) (v 6) (ty := .s8),
   op .cvt d (v 2) (ty := .s32) (src := .n4), op .perm d (v 2) (v 4) (v 6) (ty := .b32),
   op .lut16 d (v 2) (.s 4) (ty := .b32), op .lprev d (v 2) (.s 4) (ty := .b32), op .shfl d (v 2) (v 4) (ty := .b32),
   op .vote d (.pred 1)]
  ++ [op .bcast d (v 2) (.s 4) (ty := .b32), op .scan d (v 2) (ty := .s32), op .redux d (v 2) (ty := .s32),
   op .matchL d (v 2) (ty := .b32), op .fadd d (v 2) (v 4) (ty := .f32), op .fsub d (v 2) (v 4) (ty := .f32),
   op .fmul d (v 2) (v 4) (ty := .f32), op .ffma d (v 2) (v 4) (v 6) (ty := .f32),
   op .fmin d (v 2) (v 4) (ty := .f32), op .fmax d (v 2) (v 4) (ty := .f32), op .fcmp d (v 2) (v 4) (ty := .f32),
   op .fsel d (v 2) (v 4) (.pred 1) (ty := .f32), op .frcp d (v 2) (ty := .f32), op .frsq d (v 2) (ty := .f32),
   op .fsqrt d (v 2) (ty := .f32), op .fexp2 d (v 2) (ty := .f32), op .flog2 d (v 2) (ty := .f32),
   op .fsin d (v 2) (ty := .f32), op .fcos d (v 2) (ty := .f32)]
  ++ [op .fscale d (v 2) (v 4) (ty := .f32), op .ffrac d (v 2) (ty := .f32), op .fround d (v 2) (ty := .f32),
   op .fcvt d (v 2) (ty := .s32) (src := .t16e1), op .qnt d (v 2) (ty := .s8), op .dqnt d (v 2) (ty := .s8),
   op .bmax d (v 2) (ty := .s8), op .pack d (v 2) (ty := .s8), op .unpack d (v 2) (ty := .s8),
   op .pand (.p 2) (.pred 1) (.pred 1), op .por (.p 2) (.pred 1) (.pred 1), op .pxor (.p 2) (.pred 1) (.pred 1),
   op .pnot (.p 2) (.pred 1), op .pmov (.p 2) (.pred 1), op .frayq d (.s 2), op .rtq d (v 2)]

/-- A state on operands at the ends of their ranges. -/
def computing : State :=
  lane 0 (fun r => { r with preds := 2 })
    (reg 6 31 0 (reg 5 0xFFFFFFFF 0 (reg 4 0xFFFFFFFF 0 (reg 3 0x80000000 0 (reg 2 0x80000000 0 idle)))))

theorem computes_of {s : State} {i : Issuer} (hr : i.bank.role ≠ 0) (hc : i.ceil = 3) {x : Args}
    (h : ∀ d ∈ i.yarn.lanes, (i.yarn.lane d.1).active = true → d.1 ∈ i.lanes x) :
    floatRole s i x ∧ (∀ src, settledSources src s i x) ∧ segmentReady s i x ∧ ∀ l : Label, l.toNat ≤ i.ceil :=
  ⟨hr, fun _ => settled_of h, ⟨hr, settled_of h⟩, fun l => hc ▸ label_le l⟩

/-- Every active lane executes each of them. -/
theorem samples_in_all_lanes : ∀ c ∈ samples, ∀ d ∈ (who computing).yarn.lanes,
    ((who computing).yarn.lane d.1).active = true → d.1 ∈ (who computing).lanes c.2 := by decide +kernel

theorem computing_role : (who computing).bank.role ≠ 0 := by decide +kernel

theorem computing_ceil : (who computing).ceil = 3 := by decide +kernel

/-- Their hypotheses: well-formed, issuing, of a role that computes, with every active lane executing; no label exceeds the
ceiling. -/
theorem meets_computes : ∃ (s : State) (i : Issuer), Issues s i ∧ ∀ c ∈ samples, c.2.wf c.1 = true ∧ floatRole s i c.2
    ∧ (∀ src, settledSources src s i c.2) ∧ segmentReady s i c.2 ∧ ∀ l : Label, l.toNat ≤ i.ceil :=
  have h : ∀ c ∈ samples, c.2.wf c.1 = true := by decide +kernel
  ⟨computing, who computing, issues_of (by decide +kernel), fun c hc =>
    ⟨h c hc, computes_of (s := computing) (i := who computing) (x := c.2) computing_role computing_ceil (samples_in_all_lanes c hc)⟩⟩

/-! ScratchpadLoadsAndStores, ScratchpadAtomics -/

theorem padReady_of {s : State} {i : Issuer} {x : Args} {win : Bool} {who : Nat → Nat} (hp : i.yarn.pend = [])
    (h : ∀ l ∈ i.lanes x, (padSpot s i x win (who l)).isSome = true ∧ i.spAddr s x win (who l) % (tyBits x.ty / 8) = 0) :
    padReady s i x win who :=
  fun l hl => ⟨(h l hl).1, (h l hl).2, by simp [Yarn.padPending, hp]⟩

theorem meets_lds : ∃ (s : State) (i : Issuer) (x : Args), Issues s i ∧ x.wf .lds = true ∧
    padReady s i x false (i.lead (i.lanes x)) :=
  ⟨wLds, who wLds, ops wLds, issues_of (by decide +kernel), by decide +kernel, padReady_of (by decide +kernel) (by decide +kernel)⟩

theorem meets_ldw : ∃ (s : State) (i : Issuer) (x : Args), Issues s i ∧ x.wf .ldw = true ∧
    padReady s i x true (i.lead (i.lanes x)) :=
  ⟨wLdw, who wLdw, ops wLdw, issues_of (by decide +kernel), by decide +kernel, padReady_of (by decide +kernel) (by decide +kernel)⟩

/-- A scratchpad store of a state can be made. -/
abbrev PadStores (o : Op) (win : Bool) (s : State) (i : Issuer) (x : Args) : Prop :=
  Issues s i ∧ x.wf o = true ∧ padReady s i x win id
    ∧ PairsAgree i x (fun l => (i.spAddr s x win l, (i.operand s x.b x.ty.wide l).val.toNat % 2 ^ (8 * (tyBits x.ty / 8))))
    ∧ ∀ l ∈ i.lanes x, (i.operand s x.b x.ty.wide l).lab.toNat ≤ i.ceil

theorem meets_sts : ∃ (s : State) (i : Issuer) (x : Args), PadStores .sts false s i x :=
  ⟨wSts, who wSts, ops wSts, issues_of (by decide +kernel), by decide +kernel, padReady_of (by decide +kernel) (by decide +kernel),
    by unfold PairsAgree; decide +kernel⟩

theorem meets_stw : ∃ (s : State) (i : Issuer) (x : Args), PadStores .stw true s i x :=
  ⟨wStw, who wStw, ops wStw, issues_of (by decide +kernel), by decide +kernel, padReady_of (by decide +kernel) (by decide +kernel),
    by unfold PairsAgree; decide +kernel⟩

/-- An atomic of the scratchpad can be performed. -/
abbrev PadPerforms (s : State) (i : Issuer) (x : Args) : Prop :=
  Issues s i ∧ x.wf .atoms = true ∧ padReady s i x false id
    ∧ PairsAgree i x (fun l => (i.spAddr s x false l, (i.operand s x.b x.ty.wide l).val, (i.operand s x.c x.ty.wide l).val))
    ∧ ∀ l ∈ i.lanes x, (i.label [i.operand s x.b x.ty.wide l,
      if x.sub = 7 then i.operand s x.c x.ty.wide l else {}]).toNat ≤ i.ceil

theorem meets_atoms : ∃ (s : State) (i : Issuer) (x : Args), PadPerforms s i x :=
  ⟨wAtoms, who wAtoms, ops wAtoms, issues_of (by decide +kernel), by decide +kernel,
    padReady_of (by decide +kernel) (by decide +kernel), by unfold PairsAgree; decide +kernel⟩

theorem meets_atoms_swap : ∃ (s : State) (i : Issuer) (x : Args), PadPerforms s i x ∧ x.sub = 7 :=
  ⟨wAtomsCas, who wAtomsCas, ops wAtomsCas, ⟨issues_of (by decide +kernel), by decide +kernel,
    padReady_of (by decide +kernel) (by decide +kernel), by unfold PairsAgree; decide +kernel⟩, by decide +kernel⟩

/-! RendezvousArmAndMeet -/

theorem meets_rinit : ∃ (s : State) (i : Issuer) (x : Args) (l z pt : Nat), Issues s i ∧ x.wf .rinit = true ∧
    (i.lanes x).head? = some l ∧ s.pointOf i (opA .rinit s i x l).val.toNat = some (z, pt) ∧
    ((s.strandAt z).point pt).armed = false ∧ 1 ≤ (opB .rinit s i x l).val.toNat ∧ (opB .rinit s i x l).val.toNat ≤ 16384 :=
  ⟨wRinit, who wRinit, ops wRinit, 0, 0, 3, issues_of (by decide +kernel), by decide +kernel⟩

theorem meets_rinit_most : ∃ (s : State) (i : Issuer) (x : Args) (l z pt : Nat), Issues s i ∧ x.wf .rinit = true ∧
    (i.lanes x).head? = some l ∧ s.pointOf i (opA .rinit s i x l).val.toNat = some (z, pt) ∧
    ((s.strandAt z).point pt).armed = false ∧ 1 ≤ (opB .rinit s i x l).val.toNat ∧ (opB .rinit s i x l).val.toNat ≤ 16384 :=
  ⟨wRinit1, who wRinit1, ops wRinit1, 0, 0, 3, issues_of (by decide +kernel), by decide +kernel⟩

theorem meets_rinit_armed : ∃ (s : State) (i : Issuer) (x : Args) (l z pt : Nat), Issues s i ∧ x.wf .rinit = true ∧
    (i.lanes x).head? = some l ∧ s.pointOf i (opA .rinit s i x l).val.toNat = some (z, pt) ∧
    ((s.strandAt z).point pt).armed = true ∧ handlerReady s i :=
  ⟨wRinitArmed, who wRinitArmed, ops wRinitArmed, 0, 0, 3, issues_of (by decide +kernel),
    by unfold handlerReady; decide +kernel⟩

theorem meets_rinit_zero : ∃ (s : State) (i : Issuer) (x : Args) (l z pt : Nat), Issues s i ∧ x.wf .rinit = true ∧
    (i.lanes x).head? = some l ∧ s.pointOf i (opA .rinit s i x l).val.toNat = some (z, pt) ∧
    (opB .rinit s i x l).val.toNat = 0 ∧ handlerReady s i :=
  ⟨wRinitZero, who wRinitZero, ops wRinitZero, 0, 0, 3, issues_of (by decide +kernel),
    by unfold handlerReady; decide +kernel⟩

theorem meets_rinit_high : ∃ (s : State) (i : Issuer) (x : Args) (l z pt : Nat), Issues s i ∧ x.wf .rinit = true ∧
    (i.lanes x).head? = some l ∧ s.pointOf i (opA .rinit s i x l).val.toNat = some (z, pt) ∧
    16384 < (opB .rinit s i x l).val.toNat ∧ handlerReady s i :=
  ⟨wRinitHigh, who wRinitHigh, ops wRinitHigh, 0, 0, 3, issues_of (by decide +kernel),
    by unfold handlerReady; decide +kernel⟩

theorem meets_arrive : ∃ (s : State) (i : Issuer) (x : Args) (l z pt : Nat), Issues s i ∧ x.wf .arrive = true ∧
    (i.lanes x).head? = some l ∧ s.pointOf i (i.operand s x.a false l).val.toNat = some (z, pt) ∧ i.g.wait = none ∧
    ((s.strandAt z).point pt).armed = true :=
  ⟨wArrive, who wArrive, ops wArrive, 0, 0, 3, issues_of (by decide +kernel), by decide +kernel⟩

theorem meets_arrive_held : ∃ (s : State) (i : Issuer) (x : Args) (l z pt : Nat), Issues s i ∧ x.wf .arrive = true ∧
    (i.lanes x).head? = some l ∧ s.pointOf i (i.operand s x.a false l).val.toNat = some (z, pt) ∧ i.g.wait = none ∧
    ((s.strandAt z).point pt).arr + (i.acting (i.lanes x)).length ≤ 65535 :=
  ⟨wArriveHeld, who wArriveHeld, ops wArriveHeld, 0, 0, 3, issues_of (by decide +kernel), by decide +kernel⟩

theorem meets_arwait : ∃ (s : State) (i : Issuer) (x : Args) (l z pt : Nat), Issues s i ∧ x.wf .arwait = true ∧
    (i.lanes x).head? = some l ∧ s.pointOf i (i.operand s x.a false l).val.toNat = some (z, pt) ∧ i.g.wait = none ∧
    ((s.strandAt z).point pt).armed = true :=
  ⟨wArwait, who wArwait, ops wArwait, 0, 0, 3, issues_of (by decide +kernel), by decide +kernel⟩

theorem meets_arwait_stays : ∃ (s : State) (i : Issuer) (x : Args) (l z pt : Nat), Issues s i ∧ x.wf .arwait = true ∧
    (i.lanes x).head? = some l ∧ s.pointOf i (i.operand s x.a false l).val.toNat = some (z, pt) ∧ i.g.wait = none ∧
    ((s.strandAt z).point pt).armed = true :=
  ⟨wArwaitStay, who wArwaitStay, ops wArwaitStay, 0, 0, 3, issues_of (by decide +kernel), by decide +kernel⟩

theorem meets_rwait : ∃ (s : State) (i : Issuer) (x : Args) (l z pt : Nat), Issues s i ∧ x.wf .rwait = true ∧
    (i.lanes x).head? = some l ∧ s.pointOf i (i.operand s x.a false l).val.toNat = some (z, pt) ∧ i.g.wait = none ∧
    ∀ m ∈ i.lanes x, (opB .rwait s i x m).val.setWidth 16 ≠ ((s.strandAt z).point pt).phase :=
  ⟨wRwait, who wRwait, ops wRwait, 0, 0, 3, issues_of (by decide +kernel), by decide +kernel⟩

theorem meets_rwait_stays : ∃ (s : State) (i : Issuer) (x : Args) (l z pt : Nat), Issues s i ∧ x.wf .rwait = true ∧
    (i.lanes x).head? = some l ∧ s.pointOf i (i.operand s x.a false l).val.toNat = some (z, pt) ∧ i.g.wait = none ∧
    ¬ ∀ m ∈ i.lanes x, (opB .rwait s i x m).val.setWidth 16 ≠ ((s.strandAt z).point pt).phase :=
  ⟨wRwaitStay, who wRwaitStay, ops wRwaitStay, 0, 0, 3, issues_of (by decide +kernel), by decide +kernel⟩

theorem meets_rwait_woken : ∃ (s : State) (i : Issuer) (x : Args) (l z pt : Nat), Issues s i ∧ x.wf .rwait = true ∧
    (i.lanes x).head? = some l ∧ s.pointOf i (i.operand s x.a false l).val.toNat = some (z, pt) ∧
    i.g.wait = some (.rdv z pt true) :=
  ⟨wRwaitDone, who wRwaitDone, ops wRwaitDone, 0, 0, 3, issues_of (by decide +kernel), by decide +kernel⟩

theorem meets_arwait_woken : ∃ (s : State) (i : Issuer) (x : Args) (l z pt : Nat), Issues s i ∧ x.wf .arwait = true ∧
    (i.lanes x).head? = some l ∧ s.pointOf i (i.operand s x.a false l).val.toNat = some (z, pt) ∧
    i.g.wait = some (.rdv z pt true) :=
  ⟨wArwaitDone, who wArwaitDone, ops wArwaitDone, 0, 0, 3, issues_of (by decide +kernel), by decide +kernel⟩

/-! RingsReserveAndRelease -/

theorem meets_put_acq : ∃ (s : State) (i : Issuer) (x : Args) (l : Nat), Issues s i ∧ (i.lanes x).head? = some l ∧
    x.wf .ringPutAcq = true ∧ (let a := (i.operand s x.a false l).val.toNat; let h := ringHeader s i a; let n := ringPutIx h;
    i.g.wait = none ∧ i.yarn.padPending = false ∧ a % 32 = 0 ∧ a + 32 ≤ i.launch.alloc ∧ ringBad h = false ∧
    ringBase h + n % ringSlots h * ringStride h + ringStride h ≤ i.launch.alloc) :=
  ⟨wPutAcq, who wPutAcq, ops wPutAcq, 0, issues_of (by decide +kernel), by dsimp only; decide +kernel⟩

theorem meets_put_acq_stays : ∃ (s : State) (i : Issuer) (x : Args) (l : Nat), Issues s i ∧ (i.lanes x).head? = some l ∧
    x.wf .ringPutAcq = true ∧ (let a := (i.operand s x.a false l).val.toNat; let h := ringHeader s i a; let n := ringPutIx h;
    i.g.wait = none ∧ i.yarn.padPending = false ∧ a % 32 = 0 ∧ a + 32 ≤ i.launch.alloc ∧ ringBad h = false ∧
    ringBase h + n % ringSlots h * ringStride h + ringStride h ≤ i.launch.alloc) :=
  ⟨wPutAcqStay, who wPutAcqStay, ops wPutAcqStay, 0, issues_of (by decide +kernel), by dsimp only; decide +kernel⟩

theorem meets_take_acq : ∃ (s : State) (i : Issuer) (x : Args) (l : Nat), Issues s i ∧ (i.lanes x).head? = some l ∧
    x.wf .ringTakeAcq = true ∧ (let a := (i.operand s x.a false l).val.toNat; let h := ringHeader s i a;
    let n := ringTakeIx h; i.g.wait = none ∧ i.yarn.padPending = false ∧ a % 32 = 0 ∧ a + 32 ≤ i.launch.alloc ∧ ringBad h = false ∧
    ringBase h + n % ringSlots h * ringStride h + ringStride h ≤ i.launch.alloc) :=
  ⟨wTakeAcq, who wTakeAcq, ops wTakeAcq, 0, issues_of (by decide +kernel), by dsimp only; decide +kernel⟩

theorem meets_take_acq_stays : ∃ (s : State) (i : Issuer) (x : Args) (l : Nat), Issues s i ∧ (i.lanes x).head? = some l ∧
    x.wf .ringTakeAcq = true ∧ (let a := (i.operand s x.a false l).val.toNat; let h := ringHeader s i a;
    let n := ringTakeIx h; i.g.wait = none ∧ i.yarn.padPending = false ∧ a % 32 = 0 ∧ a + 32 ≤ i.launch.alloc ∧ ringBad h = false ∧
    ringBase h + n % ringSlots h * ringStride h + ringStride h ≤ i.launch.alloc) :=
  ⟨wTakeAcqStay, who wTakeAcqStay, ops wTakeAcqStay, 0, issues_of (by decide +kernel), by dsimp only; decide +kernel⟩

theorem meets_put_acq_woken : ∃ (s : State) (i : Issuer) (x : Args) (l k : Nat) (r : Bool), Issues s i ∧
    (i.lanes x).head? = some l ∧ x.wf .ringPutAcq = true ∧ (let h := ringHeader s i (i.operand s x.a false l).val.toNat;
    i.g.wait = some (.ring k r false) ∧ ringFull h k = false ∧ ringPhase h k = r) :=
  ⟨wPutAcqDone, who wPutAcqDone, ops wPutAcqDone, 0, 1, false, issues_of (by decide +kernel), by dsimp only; decide +kernel⟩

theorem meets_take_acq_woken : ∃ (s : State) (i : Issuer) (x : Args) (l k : Nat) (r : Bool), Issues s i ∧
    (i.lanes x).head? = some l ∧ x.wf .ringTakeAcq = true ∧ (let h := ringHeader s i (i.operand s x.a false l).val.toNat;
    i.g.wait = some (.ring k r true) ∧ ringFull h k = true ∧ ringPhase h k = r) :=
  ⟨wTakeAcqDone, who wTakeAcqDone, ops wTakeAcqDone, 0, 0, true, issues_of (by decide +kernel),
    by dsimp only; decide +kernel⟩

theorem meets_put_rel : ∃ (s : State) (i : Issuer) (x : Args) (l k : Nat), Issues s i ∧ (i.lanes x).head? = some l ∧
    x.wf .ringPutRel = true ∧ (let a := (i.operand s x.a false l).val.toNat; let h := ringHeader s i a; i.yarn.padPending = false ∧ a % 32 = 0 ∧
    a + 32 ≤ i.launch.alloc ∧ ringBad h = false ∧ k < ringSlots h ∧
    (i.operand s x.b false l).val.toNat = ringBase h + k * ringStride h ∧ ringFull h k = false) :=
  ⟨wPutRel, who wPutRel, ops wPutRel, 0, 1, issues_of (by decide +kernel), by dsimp only [handlerReady]; decide +kernel⟩

theorem meets_take_rel : ∃ (s : State) (i : Issuer) (x : Args) (l k : Nat), Issues s i ∧ (i.lanes x).head? = some l ∧
    x.wf .ringTakeRel = true ∧ (let a := (i.operand s x.a false l).val.toNat; let h := ringHeader s i a; i.yarn.padPending = false ∧ a % 32 = 0 ∧
    a + 32 ≤ i.launch.alloc ∧ ringBad h = false ∧ k < ringSlots h ∧
    (i.operand s x.b false l).val.toNat = ringBase h + k * ringStride h ∧ ringFull h k = true) :=
  ⟨wTakeRel, who wTakeRel, ops wTakeRel, 0, 1, issues_of (by decide +kernel), by dsimp only [handlerReady]; decide +kernel⟩

theorem meets_put_rel_full : ∃ (s : State) (i : Issuer) (x : Args) (l k : Nat), Issues s i ∧ (i.lanes x).head? = some l ∧
    x.wf .ringPutRel = true ∧ (let a := (i.operand s x.a false l).val.toNat; let h := ringHeader s i a; i.yarn.padPending = false ∧ a % 32 = 0 ∧
    a + 32 ≤ i.launch.alloc ∧ ringBad h = false ∧ k < ringSlots h ∧
    (i.operand s x.b false l).val.toNat = ringBase h + k * ringStride h ∧ ringFull h k = true ∧ handlerReady s i) :=
  ⟨wPutRelBad, who wPutRelBad, ops wPutRelBad, 0, 1, issues_of (by decide +kernel),
    by dsimp only [handlerReady]; decide +kernel⟩

theorem meets_take_rel_empty : ∃ (s : State) (i : Issuer) (x : Args) (l k : Nat), Issues s i ∧ (i.lanes x).head? = some l ∧
    x.wf .ringTakeRel = true ∧ (let a := (i.operand s x.a false l).val.toNat; let h := ringHeader s i a; i.yarn.padPending = false ∧ a % 32 = 0 ∧
    a + 32 ≤ i.launch.alloc ∧ ringBad h = false ∧ k < ringSlots h ∧
    (i.operand s x.b false l).val.toNat = ringBase h + k * ringStride h ∧ ringFull h k = false ∧ handlerReady s i) :=
  ⟨wTakeRelBad, who wTakeRelBad, ops wTakeRelBad, 0, 1, issues_of (by decide +kernel),
    by dsimp only [handlerReady]; decide +kernel⟩

theorem meets_put_rel_none : ∃ (s : State) (i : Issuer) (x : Args) (l : Nat), Issues s i ∧ (i.lanes x).head? = some l ∧
    x.wf .ringPutRel = true ∧ (let a := (i.operand s x.a false l).val.toNat; let h := ringHeader s i a; i.yarn.padPending = false ∧ a % 32 = 0 ∧
    a + 32 ≤ i.launch.alloc ∧ ringBad h = false ∧ (∀ k, k < ringSlots h →
    (i.operand s x.b false l).val.toNat ≠ ringBase h + k * ringStride h) ∧ handlerReady s i) :=
  ⟨wPutRelNone, who wPutRelNone, ops wPutRelNone, 0, issues_of (by decide +kernel),
    by dsimp only [handlerReady]; decide +kernel⟩

theorem meets_take_rel_none : ∃ (s : State) (i : Issuer) (x : Args) (l : Nat), Issues s i ∧ (i.lanes x).head? = some l ∧
    x.wf .ringTakeRel = true ∧ (let a := (i.operand s x.a false l).val.toNat; let h := ringHeader s i a; i.yarn.padPending = false ∧ a % 32 = 0 ∧
    a + 32 ≤ i.launch.alloc ∧ ringBad h = false ∧ (∀ k, k < ringSlots h →
    (i.operand s x.b false l).val.toNat ≠ ringBase h + k * ringStride h) ∧ handlerReady s i) :=
  ⟨wTakeRelNone, who wTakeRelNone, ops wTakeRelNone, 0, issues_of (by decide +kernel),
    by dsimp only [handlerReady]; decide +kernel⟩

/-! GlobalLoads, GlobalStores, GlobalAtomics -/

theorem meets_ld : ∃ (s : State) (i : Issuer) (x : Args) (at_ : Nat → Nat → Page × Fab), Issues s i ∧ x.wf .ld = true ∧
    allServed s i x (x.mods.getLsbD 2) false true (fun _ => 0) at_ ∧ mayStart s i x false at_ :=
  ⟨wLd, who wLd, ops wLd, pageNow wLd false false, issues_of (by decide +kernel),
    by decide +kernel, allServed_of (by decide +kernel), by unfold mayStart; decide +kernel⟩

theorem meets_ld_u : ∃ (s : State) (i : Issuer) (x : Args) (at_ : Nat → Nat → Page × Fab), Issues s i ∧ x.wf .ld = true ∧
    allServed s i x (x.mods.getLsbD 2) false true (fun _ => 0) at_ ∧ mayStart s i x false at_ :=
  ⟨wLdU, who wLdU, ops wLdU, pageNow wLdU false false, issues_of (by decide +kernel),
    by decide +kernel, allServed_of (by decide +kernel), by unfold mayStart; decide +kernel⟩

theorem meets_ld_acq : ∃ (s : State) (i : Issuer) (x : Args) (at_ : Nat → Nat → Page × Fab), Issues s i ∧ x.wf .ldAcq = true ∧
    allServed s i x false false true (fun _ => 0) at_ ∧ mayStart s i x false at_ :=
  ⟨wLdAcq, who wLdAcq, ops wLdAcq, pageNow wLdAcq false false, issues_of (by decide +kernel),
    by decide +kernel, allServed_of (by decide +kernel), by unfold mayStart; decide +kernel⟩

theorem meets_st : ∃ (s : State) (i : Issuer) (x : Args) (at_ : Nat → Nat → Page × Fab), Issues s i ∧ x.wf .st = true ∧
    allServed s i x (x.mods.getLsbD 2) true false (writeLabel s i x) at_ ∧ mayStart s i x false at_ ∧
    PairsAgree i x (fun l => (i.gAddr s x l, (i.operand s x.b x.ty.wide l).val.toNat % 2 ^ (8 * (tyBits x.ty / 8)))) :=
  ⟨wSt, who wSt, ops wSt, pageNow wSt true false, issues_of (by decide +kernel),
    by decide +kernel, allServed_of (by decide +kernel), by unfold mayStart; decide +kernel, by unfold PairsAgree; decide +kernel⟩

theorem meets_st_u : ∃ (s : State) (i : Issuer) (x : Args) (at_ : Nat → Nat → Page × Fab), Issues s i ∧ x.wf .st = true ∧
    allServed s i x (x.mods.getLsbD 2) true false (writeLabel s i x) at_ ∧ mayStart s i x false at_ ∧
    PairsAgree i x (fun l => (i.gAddr s x l, (i.operand s x.b x.ty.wide l).val.toNat % 2 ^ (8 * (tyBits x.ty / 8)))) :=
  ⟨wStU, who wStU, ops wStU, pageNow wStU true false, issues_of (by decide +kernel),
    by decide +kernel, allServed_of (by decide +kernel), by unfold mayStart; decide +kernel, by unfold PairsAgree; decide +kernel⟩

theorem meets_st_rel : ∃ (s : State) (i : Issuer) (x : Args) (at_ : Nat → Nat → Page × Fab), Issues s i ∧ x.wf .stRel = true ∧
    allServed s i x (false) true false (writeLabel s i x) at_ ∧ mayStart s i x true at_ ∧
    PairsAgree i x (fun l => (i.gAddr s x l, (i.operand s x.b x.ty.wide l).val.toNat % 2 ^ (8 * (tyBits x.ty / 8)))) :=
  ⟨wStRel, who wStRel, ops wStRel, pageNow wStRel true false, issues_of (by decide +kernel),
    by decide +kernel, allServed_of (by decide +kernel), by unfold mayStart; decide +kernel, by unfold PairsAgree; decide +kernel⟩

theorem meets_atom : ∃ (s : State) (i : Issuer) (x : Args) (at_ : Nat → Nat → Page × Fab), Issues s i ∧ x.wf .atom = true ∧
    allServed s i x false true true (writeLabel s i x) at_ ∧ mayStart s i x (x.mods.getLsbD 1) at_ ∧
    PairsAgree i x (fun l => (i.gAddr s x l, (i.operand s x.b x.ty.wide l).val.toNat % 2 ^ (8 * (tyBits x.ty / 8)),
    (i.operand s x.c x.ty.wide l).val.toNat % 2 ^ (8 * (tyBits x.ty / 8)))) :=
  ⟨wAtom, who wAtom, ops wAtom, pageNow wAtom true false, issues_of (by decide +kernel),
    by decide +kernel, allServed_of (by decide +kernel), by unfold mayStart; decide +kernel, by unfold PairsAgree; decide +kernel⟩

theorem meets_atom_rel : ∃ (s : State) (i : Issuer) (x : Args) (at_ : Nat → Nat → Page × Fab), Issues s i ∧
    x.wf .atom = true ∧ allServed s i x false true true (writeLabel s i x) at_ ∧ mayStart s i x (x.mods.getLsbD 1) at_ ∧
    PairsAgree i x (fun l => (i.gAddr s x l, (i.operand s x.b x.ty.wide l).val.toNat % 2 ^ (8 * (tyBits x.ty / 8)),
    (i.operand s x.c x.ty.wide l).val.toNat % 2 ^ (8 * (tyBits x.ty / 8)))) :=
  ⟨wAtomRel, who wAtomRel, ops wAtomRel, pageNow wAtomRel true false, issues_of (by decide +kernel),
    by decide +kernel, allServed_of (by decide +kernel), by unfold mayStart; decide +kernel, by unfold PairsAgree; decide +kernel⟩

theorem meets_red : ∃ (s : State) (i : Issuer) (x : Args) (at_ : Nat → Nat → Page × Fab), Issues s i ∧ x.wf .red = true ∧
    allServed s i x false true false (writeLabel s i x) at_ ∧ mayStart s i x (x.mods.getLsbD 1) at_ ∧
    PairsAgree i x (fun l => (i.gAddr s x l, (i.operand s x.b x.ty.wide l).val.toNat % 2 ^ (8 * (tyBits x.ty / 8)),
    (i.operand s x.c x.ty.wide l).val.toNat % 2 ^ (8 * (tyBits x.ty / 8)))) :=
  ⟨wRed, who wRed, ops wRed, pageNow wRed true false, issues_of (by decide +kernel),
    by decide +kernel, allServed_of (by decide +kernel), by unfold mayStart; decide +kernel, by unfold PairsAgree; decide +kernel⟩

/-! FencesAndCacheControl -/

/-- A fence that can go on, or must hold its group, where no scratchpad access is still to come. -/
abbrev Fences (o : Op) (acked : Bool) (s : State) (i : Issuer) (x : Args) : Prop :=
  Issues s i ∧ i.lanes x ≠ [] ∧ x.wf o = true ∧ i.yarn.padPending = false
    ∧ (i.yarn.counted.all (fun k => decide (i.g.drained.getD s.nextReq ≤ k.id))) = acked

theorem meets_fence_acq : ∃ (s : State) (i : Issuer) (x : Args), Fences .fenceAcq true s i x :=
  ⟨wFenceAcq, who wFenceAcq, ops wFenceAcq, issues_of (by decide +kernel), by decide +kernel⟩

theorem meets_fence_rel : ∃ (s : State) (i : Issuer) (x : Args), Fences .fenceRel true s i x ∧ i.g.drained = none :=
  ⟨wFenceRel, who wFenceRel, ops wFenceRel, ⟨issues_of (by decide +kernel), by decide +kernel⟩, by decide +kernel⟩

theorem meets_fence_ar : ∃ (s : State) (i : Issuer) (x : Args), Fences .fenceAr true s i x ∧ i.g.drained = none :=
  ⟨wFenceAr, who wFenceAr, ops wFenceAr, ⟨issues_of (by decide +kernel), by decide +kernel⟩, by decide +kernel⟩

theorem meets_fence_rel_drained : ∃ (s : State) (i : Issuer) (x : Args), Fences .fenceRel true s i x ∧ i.g.drained = some 0 :=
  ⟨wFenceRelDone, who wFenceRelDone, ops wFenceRelDone, ⟨issues_of (by decide +kernel), by decide +kernel⟩, by decide +kernel⟩

theorem meets_fence_rel_held : ∃ (s : State) (i : Issuer) (x : Args), Fences .fenceRel false s i x :=
  ⟨wFenceRelHeld, who wFenceRelHeld, ops wFenceRelHeld, issues_of (by decide +kernel), by decide +kernel⟩

theorem meets_fence_ar_held : ∃ (s : State) (i : Issuer) (x : Args), Fences .fenceAr false s i x :=
  ⟨wFenceArHeld, who wFenceArHeld, ops wFenceArHeld, issues_of (by decide +kernel), by decide +kernel⟩

theorem meets_fence_after_pad : ∃ (s : State) (i : Issuer) (x : Args), Issues s i ∧ i.lanes x ≠ [] ∧ i.yarn.padPending = true :=
  ⟨wFencePad, who wFencePad, ops wFencePad, issues_of (by decide +kernel), by decide +kernel⟩

theorem meets_prefetch : ∃ (s : State) (i : Issuer) (x : Args), Issues s i ∧ x.wf .prefetch = true :=
  ⟨wPrefetch, who wPrefetch, ops wPrefetch, issues_of (by decide +kernel), by decide +kernel⟩

/-- No line named is written with label-2 bytes where none owned here is. -/
theorem line_untolled {s : State} {i : Issuer} {x : Args} {gives : Bool} (h : ∀ c ∈ s.ownedHere, c.2.hot = false) :
    ∀ k o, (namesLine s i x k o ∧ (gives = true ∨ o.lab ≠ none)) → o.hot = false := by
  rintro k o ⟨⟨l, _, p, _, _, _, _, _, h6, _⟩, _⟩
  exact h _ (Laws.mem_of_find _ _ _ h6)

/-- A line of a state that its lane 0 names. -/
def namesNow (s : State) (p : Page) (o : Owned) (k : Nat) : Bool :=
  decide (0 ∈ (who s).lanes (ops s) ∧ s.translate (who s).launch.fn ((who s).gAddr s (ops s) 0) = .ok p
      ∧ p.label.toNat ≤ (who s).ceil ∧ p.cls ≠ 3 ∧ s.inSeal p.fab = false ∧ s.lineOf p.fab = some o ∧ p.fab.toNat / 64 = k)
    && (match s.routeLoad p (who s).yarn.elig with
      | .ok _ => true
      | .error _ => false)

theorem names_of {s : State} {p : Page} {o : Owned} {k : Nat} (h : namesNow s p o k = true) :
    namesLine s (who s) (ops s) k o := by
  simp only [namesNow, Bool.and_eq_true, decide_eq_true_eq] at h
  obtain ⟨⟨h1, h2, h3, h4, h5, h6, h7⟩, h8⟩ := h
  refine ⟨0, h1, p, h2, h3, h4, h5, ?_, h6, h7⟩
  split at h8
  · exact ⟨_, ‹_›⟩
  · simp at h8

/-- The page and the line that a state's lane 0 names. -/
def linePage (s : State) : Page :=
  match s.translate 0 ((who s).gAddr s (ops s) 0) with
  | .ok p => p
  | .error _ => {}
def theLine (s : State) : Owned := ((s.ownedHere.head?).map Prod.snd).getD { bytes := [] }

/-- cwb or cinv has a written line to send, none with bytes of label 2. -/
abbrev SendsLine (o : Op) (gives : Bool) (s : State) (i : Issuer) (x : Args) : Prop :=
  let sends := fun (k : Nat) (w : Owned) => namesLine s i x k w ∧ (gives = true ∨ w.lab ≠ none)
  Issues s i ∧ x.wf o = true ∧ i.g.wait = none ∧ (∃ k w, sends k w) ∧ ∀ k w, sends k w → w.hot = false

theorem meets_cwb : ∃ (s : State) (i : Issuer) (x : Args), SendsLine .cwb false s i x :=
  ⟨wCwb, who wCwb, ops wCwb, issues_of (by decide +kernel), by decide +kernel, by decide +kernel,
    ⟨_, theLine wCwb, names_of (p := linePage wCwb) (k := 2 ^ 39 + 0x800) (by decide +kernel), .inr (by decide +kernel)⟩,
    line_untolled (by decide +kernel)⟩

theorem meets_cinv : ∃ (s : State) (i : Issuer) (x : Args), SendsLine .cinv true s i x :=
  ⟨wCinv, who wCinv, ops wCinv, issues_of (by decide +kernel), by decide +kernel, by decide +kernel,
    ⟨_, theLine wCinv, names_of (p := linePage wCinv) (k := 2 ^ 39 + 0x800) (by decide +kernel), .inl rfl⟩,
    line_untolled (by decide +kernel)⟩

/-- cwb or cinv waits, and the origin has written every line it sent. -/
abbrev LineWritten (o : Op) (s : State) (i : Issuer) (x : Args) (a : Access) : Prop :=
  Issues s i ∧ x.wf o = true ∧ i.lanes x ≠ [] ∧ i.g.wait = some (.accept a) ∧ a.lanes.all s.laneReady = true

theorem meets_cwb_written : ∃ (s : State) (i : Issuer) (x : Args) (a : Access), LineWritten .cwb s i x a :=
  ⟨wCwbDone, who wCwbDone, ops wCwbDone, written, issues_of (by decide +kernel), by decide +kernel⟩

theorem meets_cinv_written : ∃ (s : State) (i : Issuer) (x : Args) (a : Access), LineWritten .cinv s i x a :=
  ⟨wCinvDone, who wCinvDone, ops wCinvDone, written, issues_of (by decide +kernel), by decide +kernel⟩

/-! MonitorsArmWaitAndWake, SpawnPlacesRecords -/

theorem meets_monw_pad : ∃ (s : State) (i : Issuer) (x : Args), Issues s i ∧ x.wf .monw = true ∧ x.mods.getLsbD 0 = true ∧
    padReady s i x false (i.lead (i.lanes x)) :=
  ⟨wMonwPad, who wMonwPad, ops wMonwPad, issues_of (by decide +kernel), by decide +kernel, by decide +kernel,
    padReady_of (by decide +kernel) (by decide +kernel)⟩

theorem meets_monw : ∃ (s : State) (i : Issuer) (x : Args) (at_ : Nat → Nat → Page × Fab), Issues s i ∧ x.wf .monw = true ∧
    x.mods.getLsbD 0 = false ∧ allServed s i x false false true (fun _ => 0) at_ ∧ mayStart s i x false at_ :=
  ⟨wMonw, who wMonw, ops wMonw, pageNow wMonw false false, issues_of (by decide +kernel),
    by decide +kernel, by decide +kernel, allServed_of (by decide +kernel), by unfold mayStart; decide +kernel⟩

/-- Every monitor of the executing lanes has woken. -/
abbrev Ended (i : Issuer) (x : Args) : Prop := ∀ l ∈ i.lanes x, ∀ m, (i.yarn.lane l).monitor = some m → m.woken ≠ none

theorem meets_mwait_none : ∃ (s : State) (i : Issuer) (x : Args), Issues s i ∧ x.wf .mwait = true ∧ i.lanes x ≠ [] ∧ Ended i x
    ∧ ∀ l ∈ i.lanes x, (i.yarn.lane l).monitor = none :=
  ⟨wMwaitNone, who wMwaitNone, ops wMwaitNone, issues_of (by decide +kernel), by decide +kernel⟩

theorem meets_mwait : ∃ (s : State) (i : Issuer) (x : Args), Issues s i ∧ x.wf .mwait = true ∧ i.lanes x ≠ [] ∧ Ended i x
    ∧ i.g.wait = some .mwait :=
  ⟨wMwaitEnd, who wMwaitEnd, ops wMwaitEnd, issues_of (by decide +kernel), by decide +kernel⟩

theorem meets_mwait_stays : ∃ (s : State) (i : Issuer) (x : Args), Issues s i ∧ x.wf .mwait = true ∧ i.lanes x ≠ [] ∧ ¬ Ended i x
    ∧ i.g.wait = none :=
  ⟨wMwaitStay, who wMwaitStay, ops wMwaitStay, issues_of (by decide +kernel), by decide +kernel⟩

/-- A monitor of yarn 0 waits, and needs no reading anew. -/
abbrev Waits (s : State) (v : Yarn) (m : Monitor) : Prop :=
  Store.find 0 s.yarns = some v ∧ v.slot.isSome = true ∧ (v.lane 0).monitor = some m ∧ m.reread = false ∧ m.woken = none
    ∧ m.since = some 0

theorem meets_monitor_wakes_pad : ∃ (s : State) (v : Yarn) (m : Monitor), Waits s v m ∧ m.glob = false
    ∧ Store.get 0 (m.addr.toNat / 64) (s.strandAt m.place).padStamp ≠ m.seen :=
  ⟨wWakePad, wWakePad.yarnAt 0, ((wWakePad.fibre 0 0).monitor).getD (woken 0), by decide +kernel⟩

theorem meets_monitor_wakes_memory : ∃ (s : State) (v : Yarn) (m : Monitor), Waits s v m ∧ m.glob = true
    ∧ Store.get 0 (m.place / 64) s.mem.stamps ≠ m.seen :=
  ⟨wWakeMem, wWakeMem.yarnAt 0, ((wWakeMem.fibre 0 0).monitor).getD (woken 0), by decide +kernel⟩

theorem meets_monitor_wakes_limit : ∃ (s : State) (v : Yarn) (m : Monitor), Waits s v m ∧ m.limit ≠ 0
    ∧ m.limit ≤ elapsed (s.cycles (s.strandAt v.strand).core) 0 :=
  ⟨wWakeLimit, wWakeLimit.yarnAt 0, ((wWakeLimit.fibre 0 0).monitor).getD (woken 0), by decide +kernel⟩

/-- A monitor that was restored reads its scratchpad bytes anew, and finds them equal or not. -/
theorem meets_monitor_rereads : ∃ (s : State) (v : Yarn) (m : Monitor), Store.find 0 s.yarns = some v ∧ v.slot.isSome = true
    ∧ (v.lane 0).monitor = some m ∧ m.reread = true ∧ m.glob = false ∧ (∀ b ∈ s.bufs, b.who ≠ .monitor 0 0)
    ∧ leNat ((s.strandAt m.place).padRead m.addr.toNat m.width) ≠ m.value.toNat % 2 ^ (8 * m.width) :=
  ⟨wReread 3, (wReread 3).yarnAt 0, (((wReread 3).fibre 0 0).monitor).getD (woken 0), by decide +kernel⟩

theorem meets_monitor_rereads_same : ∃ (s : State) (v : Yarn) (m : Monitor), Store.find 0 s.yarns = some v
    ∧ v.slot.isSome = true ∧ (v.lane 0).monitor = some m ∧ m.reread = true ∧ m.glob = false ∧ (∀ b ∈ s.bufs, b.who ≠ .monitor 0 0)
    ∧ leNat ((s.strandAt m.place).padRead m.addr.toNat m.width) = m.value.toNat % 2 ^ (8 * m.width) :=
  ⟨wReread 0, (wReread 0).yarnAt 0, (((wReread 0).fibre 0 0).monitor).getD (woken 0), by decide +kernel⟩

theorem no_spawn_held {s : State} (h : (s.yarns.all fun c => c.2.groups.all fun g => match g.wait with
      | some (.spawn _ (_ :: _) _) => false
      | _ => true) = true) : noSpawnHeld s := by
  intro c hc g hg n r rs bad e
  have := List.all_eq_true.mp (List.all_eq_true.mp h c hc) g hg
  simp [e] at this

theorem meets_spawn : ∃ (s : State) (i : Issuer) (x : Args) (l0 : Nat) (k : BitVec 7) (n : BitVec 5), Issues s i ∧
    noSpawnHeld s ∧ (x.wf .spawn = true ∧ (i.lanes x).head? = some l0 ∧ i.g.wait = none ∧ x.b = .v k ∧ x.c = .int n ∧
    k.toNat + n.toNat ≤ 128 ∧
    s.target (.fetch i.y i.g.id) i.launch.fn i.ceil i.yarn.elig (opA .spawn s i x l0).val = .ok ∧ x.off.toInt % 256 = 0 ∧
    (∀ l ∈ i.lanes x, windowFits i l x.off.toInt) ∧ i.launch.alloc ≤ 2 ^ 19 ∧
    PairsAgree i x (fun l => (List.range n.toNat).map (fun j => ((i.yarn.lane l).reg (k.toNat + j)).val)) ∧
    i.launch.spillAt = 0 ∧ i.launch.spilled = [] ∧ i.strand.place ≠ none ∧ s.binsOn i.strand.core + (i.lanes x).length ≤ 16) :=
  ⟨wSpawn, who wSpawn, ops wSpawn, 0, 10, 1, issues_of (by decide +kernel), no_spawn_held (by decide +kernel),
    by unfold windowFits PairsAgree; decide +kernel⟩

/-! MatrixOperationsIssueOrTrap, AccumulatorInstructions -/

theorem meets_mma : ∃ (s : State) (i : Issuer) (x : Args) (l0 : Nat) (tm sm : BitVec 512), Issues s i ∧ x.wf .mma = true ∧
    (i.lanes x).head? = some l0 ∧ i.bank.role = 1 ∧ i.bank.floor.toNat ≤ i.ceil ∧
    (let fw : Word := (opB .mma s i x l0).val.setWidth 32; let pb := i.spAddr s x false l0; let o := pb % 2 ^ 19;
    let blk := BitVec.ofNat 1024 (leNat (i.strand.padRead o 128)); let store := pbStore blk ≠ 0xFFFF; i.yarn.padPending = false ∧ (∀ l ∈ i.lanes x,
    (opB .mma s i x l).val = (opB .mma s i x l0).val) ∧ fwValid fw = true ∧ pb % 64 = 0 ∧
    (s.locate i true pb 128).isSome = true ∧ pbReserved blk = none ∧ pbRange blk = none ∧
    pbExtent i.launch.alloc fw blk = none ∧
    (if store then s.opTemplate i l0 (pbStore blk) (tileBytes fw) = .ok tm else tm = 0) ∧ (if store ∧
    fwNarrow fw = true then s.opTemplate i l0 (pbSStore blk) 512 = .ok sm else pbSStore blk = 0 ∧ sm = 0) ∧
    i.strand.ops.length < 4) :=
  ⟨wMma, who wMma, ops wMma, 0, 0, 0, issues_of (by decide +kernel), by dsimp only; decide +kernel⟩

theorem meets_mma_store : ∃ (s : State) (i : Issuer) (x : Args) (l0 : Nat) (tm sm : BitVec 512), Issues s i ∧
    x.wf .mma = true ∧ (i.lanes x).head? = some l0 ∧ i.bank.role = 1 ∧ i.bank.floor.toNat ≤ i.ceil ∧
    (let fw : Word := (opB .mma s i x l0).val.setWidth 32; let pb := i.spAddr s x false l0; let o := pb % 2 ^ 19;
    let blk := BitVec.ofNat 1024 (leNat (i.strand.padRead o 128)); let store := pbStore blk ≠ 0xFFFF; i.yarn.padPending = false ∧ (∀ l ∈ i.lanes x,
    (opB .mma s i x l).val = (opB .mma s i x l0).val) ∧ fwValid fw = true ∧ pb % 64 = 0 ∧
    (s.locate i true pb 128).isSome = true ∧ pbReserved blk = none ∧ pbRange blk = none ∧
    pbExtent i.launch.alloc fw blk = none ∧
    (if store then s.opTemplate i l0 (pbStore blk) (tileBytes fw) = .ok tm else tm = 0) ∧ (if store ∧
    fwNarrow fw = true then s.opTemplate i l0 (pbSStore blk) 512 = .ok sm else pbSStore blk = 0 ∧ sm = 0) ∧
    i.strand.ops.length < 4) :=
  ⟨wMmaStore, who wMmaStore, ops wMmaStore, 0, BitVec.ofNat 512 tileRecord, 0, issues_of (by decide +kernel),
    by dsimp only; decide +kernel⟩

theorem meets_mma_role : ∃ (s : State) (i : Issuer) (x : Args) (l0 : Nat), Issues s i ∧ x.wf .mma = true ∧
    (i.lanes x).head? = some l0 ∧ handlerReady s i ∧ i.bank.role ≠ 1 :=
  ⟨wMmaRole, who wMmaRole, ops wMmaRole, 0, issues_of (by decide +kernel), by unfold handlerReady; decide +kernel⟩

theorem meets_mma_diverge : ∃ (s : State) (i : Issuer) (x : Args) (l0 : Nat), Issues s i ∧ x.wf .mma = true ∧
    (i.lanes x).head? = some l0 ∧ handlerReady s i ∧ i.bank.role = 1 ∧ ∃ l ∈ i.lanes x,
    (opB .mma s i x l).val ≠ (opB .mma s i x l0).val :=
  ⟨wMmaDiverge, who wMmaDiverge, ops wMmaDiverge, 0, issues_of (by decide +kernel), by unfold handlerReady; decide +kernel⟩

theorem meets_mma_format : ∃ (s : State) (i : Issuer) (x : Args) (l0 : Nat), Issues s i ∧ x.wf .mma = true ∧
    (i.lanes x).head? = some l0 ∧ handlerReady s i ∧ i.bank.role = 1 ∧ (∀ l ∈ i.lanes x,
    (opB .mma s i x l).val = (opB .mma s i x l0).val) ∧ fwValid ((opB .mma s i x l0).val.setWidth 32) = false :=
  ⟨wMmaBad, who wMmaBad, ops wMmaBad, 0, issues_of (by decide +kernel), by unfold handlerReady; decide +kernel⟩

/-- An accumulator instruction that its yarn may issue names a slot; nothing stands before it. -/
abbrev AccIssues (o : Op) (s : State) (i : Issuer) (x : Args) : Prop :=
  Issues s i ∧ (∀ k, s.slotBusy i.yarn.strand (i.operand s x.a false 0).val.toNat k = false)
    ∧ (i.lanes x).head? = some 0 ∧ x.wf o = true ∧ (i.operand s x.a false 0).val.toNat ≤ 3
    ∧ (i.bank.role = 1 ∨ (i.bank.role = 2 ∧ i.launch.matrix = true)) ∧ i.strand.place ≠ none
    ∧ (∀ p ∈ i.strand.ops, pbSlot p.block ≠ (i.operand s x.a false 0).val.toNat)
    ∧ (∀ l ∈ i.lanes x, (i.yarn.lane l).active = true) ∧ i.yarn.padPending = false ∧ i.yarn.tidy.pend = i.yarn.pend

/-- Its slot, its elements, and the region of 64 KB that it names. -/
abbrev AccSlot (s : State) (i : Issuer) (x : Args) : Slot := slotOf s i.yarn.strand (i.operand s x.a false 0).val.toNat
abbrev AccNames (s : State) (i : Issuer) (x : Args) : Prop := ∀ l ∈ i.lanes x, (i.operand s x.b false l).val.toNat < 16384
abbrev AccRegion (s : State) (i : Issuer) (x : Args) (z o : Nat) : Prop :=
  s.locate i false (((i.operand s x.b false 0).val + x.off.signExtend 64).toNat % 2 ^ 32) 65536 = some (z, o) ∧ o % 256 = 0

theorem meets_acc_ld : ∃ (s : State) (i : Issuer) (x : Args), AccIssues .accLd s i x ∧ x.mods.getLsbD 0 = false ∧ AccNames s i x
    ∧ (∀ l ∈ i.lanes x, (i.label [i.operand s x.b false l]).toNat ≤ i.ceil)
    ∧ ∀ l ∈ i.lanes x, (lmax (lmax (AccSlot s i x).lab (i.operand s x.b false l).lab) i.bank.floor).toNat ≤ i.ceil :=
  ⟨wAccLd, who wAccLd, ops wAccLd, ⟨issues_of (by decide +kernel), no_slot_busy (by decide +kernel), by decide +kernel⟩,
    by decide +kernel⟩

theorem meets_acc_ld_pad : ∃ (s : State) (i : Issuer) (x : Args) (z o : Nat), AccIssues .accLd s i x ∧ x.mods.getLsbD 0 = true
    ∧ AccRegion s i x z o ∧ (AccSlot s i x).lab.toNat ≤ i.ceil :=
  ⟨wAccLdPad, who wAccLdPad, ops wAccLdPad, 0, 0x100,
    ⟨issues_of (by decide +kernel), no_slot_busy (by decide +kernel), by decide +kernel⟩, by decide +kernel⟩

theorem meets_acc_st : ∃ (s : State) (i : Issuer) (x : Args), AccIssues .accSt s i x ∧ x.mods.getLsbD 0 = false ∧ AccNames s i x
    ∧ (∀ l ∈ i.lanes x, (lmax (i.operand s x.b false l).lab (i.operand s x.c false l).lab).toNat ≤ i.ceil)
    ∧ ((i.lanes x).foldl (fun m l => lmax m (lmax (i.operand s x.b false l).lab (i.operand s x.c false l).lab))
      (AccSlot s i x).lab).toNat ≤ i.ceil :=
  ⟨wAccSt, who wAccSt, ops wAccSt, ⟨issues_of (by decide +kernel), no_slot_busy (by decide +kernel), by decide +kernel⟩,
    by decide +kernel⟩

/-- A scratchpad with no label raised adds none to a maximum. -/
theorem units_unlabelled {v : Strand} (h : v.padLab = []) (f : Label) (g : Nat → Nat) (bs : List Nat) :
    bs.foldl (fun m b => lmax m (v.unitLabel (g b))) f = f := by
  simp [Strand.unitLabel, Store.get, h, lmax]

theorem meets_acc_st_pad : ∃ (s : State) (i : Issuer) (x : Args) (z o : Nat), AccIssues .accSt s i x ∧ x.mods.getLsbD 0 = true
    ∧ AccRegion s i x z o
    ∧ ((List.range 8192).foldl (fun m b => lmax m ((s.strandAt z).unitLabel (o + 8 * b))) i.bank.floor).toNat ≤ i.ceil :=
  ⟨wAccStPad, who wAccStPad, ops wAccStPad, 0, 0x100,
    ⟨issues_of (by decide +kernel), no_slot_busy (by decide +kernel), by decide +kernel⟩, by decide +kernel, by decide +kernel,
    units_unlabelled (v := wAccStPad.strandAt 0) (by decide +kernel) _ (fun b => 0x100 + 8 * b) (List.range 8192) ▸
      by decide +kernel⟩

theorem meets_acc_zero : ∃ (s : State) (i : Issuer) (x : Args), AccIssues .accZero s i x ∧ i.bank.role = 1
    ∧ i.bank.floor.toNat ≤ i.ceil :=
  ⟨wAccZero, who wAccZero, ops wAccZero, ⟨issues_of (by decide +kernel), no_slot_busy (by decide +kernel), by decide +kernel⟩,
    by decide +kernel⟩

/-- mmchk names a half; the label of a checksum that stands is within the ceiling. -/
abbrev Checks (s : State) (i : Issuer) (x : Args) (live : Bool) : Prop :=
  AccIssues .mmchk s i x ∧ (i.operand s x.b false 0).val.toNat ≤ 1 ∧ (AccSlot s i x).ckLive = live
    ∧ (live = true → (AccSlot s i x).lab.toNat ≤ i.ceil)

theorem meets_mmchk : ∃ (s : State) (i : Issuer) (x : Args), Checks s i x true :=
  ⟨wMmchk, who wMmchk, ops wMmchk, ⟨issues_of (by decide +kernel), no_slot_busy (by decide +kernel), by decide +kernel⟩,
    by decide +kernel⟩

theorem meets_mmchk_dead : ∃ (s : State) (i : Issuer) (x : Args), Checks s i x false :=
  ⟨wMmchkNone, who wMmchkNone, ops wMmchkNone, ⟨issues_of (by decide +kernel), no_slot_busy (by decide +kernel), by decide +kernel⟩,
    by decide +kernel⟩

/-! ShapeStoresTemplate, BarriersAndTimelines -/

theorem meets_shape : ∃ (s : State) (i : Issuer) (x : Args) (b : BitVec 6) (at_ : Nat → Page × Fab), Issues s i ∧
    (let va := i.gAddr s x 0;
    let lab := i.label (opA .shape s i x 0 :: (List.range 16).map (fun j => ⟨0, (i.bank.scalar (b.toNat + j)).lab⟩));
    (∀ c ∈ partsAt va 64, Served s i true false lab (va + BitVec.ofNat 64 c.1) c.2 (at_ c.1).1 (at_ c.1).2) ∧
    x.wf .shape = true ∧ (i.lanes x).head? = some 0 ∧ x.b = .s b ∧
    tCheck i.launch none (i.bank.record b.toNat).1 = none ∧ va.toNat % 64 = 0 ∧ i.g.wait = none ∧ i.g.drained = none ∧
    i.yarn.counted.length + 8 ≤ 65535 ∧
    ((∃ c ∈ partsAt va 64, (at_ c.1).1.cls = 1) → i.yarn.counted = [] ∧ i.yarn.padPending = false) ∧
    (i.protd = true → twin 0 ∈ i.lanes x ∧ i.gAddr s x 0 = i.gAddr s x (twin 0)) ∧
    ∀ j, j < 8 → (at_ (8 * j)).2.toNat = (at_ 0).2.toNat + 8 * j) :=
  ⟨wShape, who wShape, ops wShape, 16, pageNow wShape true false 0, issues_of (by decide +kernel),
    all_served (by decide +kernel), by decide +kernel⟩

theorem meets_tbinit : ∃ (s : State) (i : Issuer) (x : Args) (l0 z o : Nat), Issues s i ∧ (i.lanes x).head? = some l0 ∧
    s.locate i false (i.spAddr s x false l0) 16 = some (z, o) ∧ o % 16 = 0 ∧ bitsAt ((s.strandAt z).bar o) 88 40 = 0 ∧ i.yarn.padPending = false ∧
    x.wf .tbinit = true ∧ 0 < (i.operand s x.b false l0).val.toNat ∧ (i.operand s x.b false l0).val.toNat ≤ 1048575 :=
  ⟨wTbinit, who wTbinit, ops wTbinit, 0, 0, 0x80, issues_of (by decide +kernel), by decide +kernel⟩

theorem meets_tbinit_most : ∃ (s : State) (i : Issuer) (x : Args) (l0 z o : Nat), Issues s i ∧ (i.lanes x).head? = some l0 ∧
    s.locate i false (i.spAddr s x false l0) 16 = some (z, o) ∧ o % 16 = 0 ∧ bitsAt ((s.strandAt z).bar o) 88 40 = 0 ∧ i.yarn.padPending = false ∧
    x.wf .tbinit = true ∧ 0 < (i.operand s x.b false l0).val.toNat ∧ (i.operand s x.b false l0).val.toNat ≤ 1048575 :=
  ⟨wTbinitTop, who wTbinitTop, ops wTbinitTop, 0, 0, 0x80, issues_of (by decide +kernel), by decide +kernel⟩

theorem meets_tbarrive : ∃ (s : State) (i : Issuer) (x : Args) (l0 z o : Nat), Issues s i ∧ (i.lanes x).head? = some l0 ∧
    s.locate i false (i.spAddr s x false l0) 16 = some (z, o) ∧ o % 16 = 0 ∧ bitsAt ((s.strandAt z).bar o) 88 40 = 0 ∧ i.yarn.padPending = false ∧
    x.wf .tbarrive = true ∧ (i.acting (i.lanes x)).length ≤ barArrivals ((s.strandAt z).bar o) :=
  ⟨wTbarrive, who wTbarrive, ops wTbarrive, 0, 0, 0x80, issues_of (by decide +kernel), by decide +kernel⟩

theorem meets_tbarrive_few : ∃ (s : State) (i : Issuer) (x : Args) (l0 z o : Nat), Issues s i ∧ (i.lanes x).head? = some l0 ∧
    s.locate i false (i.spAddr s x false l0) 16 = some (z, o) ∧ o % 16 = 0 ∧ bitsAt ((s.strandAt z).bar o) 88 40 = 0 ∧ i.yarn.padPending = false ∧
    x.wf .tbarrive = true ∧ (i.acting (i.lanes x)).length ≤ barArrivals ((s.strandAt z).bar o) :=
  ⟨wTbarriveFew, who wTbarriveFew, ops wTbarriveFew, 0, 0, 0x80, issues_of (by decide +kernel), by decide +kernel⟩

theorem meets_tbexpect : ∃ (s : State) (i : Issuer) (x : Args) (l0 z o : Nat), Issues s i ∧ (i.lanes x).head? = some l0 ∧
    s.locate i false (i.spAddr s x false l0) 16 = some (z, o) ∧ o % 16 = 0 ∧ bitsAt ((s.strandAt z).bar o) 88 40 = 0 ∧ i.yarn.padPending = false ∧
    x.wf .tbexpect = true ∧ x.mods.getLsbD 0 = false ∧
    barSectors ((s.strandAt z).bar o) + (i.operand s x.b false l0).val.toNat < 2 ^ 43 :=
  ⟨wTbexpect, who wTbexpect, ops wTbexpect, 0, 0, 0x80, issues_of (by decide +kernel), by decide +kernel⟩

theorem meets_tbexpect_record : ∃ (s : State) (i : Issuer) (x : Args) (l0 z o : Nat), Issues s i ∧
    (i.lanes x).head? = some l0 ∧ s.locate i false (i.spAddr s x false l0) 16 = some (z, o) ∧ o % 16 = 0 ∧
    bitsAt ((s.strandAt z).bar o) 88 40 = 0 ∧ i.yarn.padPending = false ∧ x.wf .tbexpect = true ∧ x.mods.getLsbD 0 = true ∧
    s.record i l0 (i.operand s x.b false l0).val.toNat = .ok (BitVec.ofNat 512 tileRecord) ∧
    tCheck i.launch (some 0) (BitVec.ofNat 512 tileRecord) = none ∧
    barSectors ((s.strandAt z).bar o) + tSize (BitVec.ofNat 512 tileRecord) / 32 < 2 ^ 43 :=
  ⟨wTbexpectRec, who wTbexpectRec, ops wTbexpectRec, 0, 0, 0x80, issues_of (by decide +kernel), by decide +kernel⟩

theorem meets_tbwait : ∃ (s : State) (i : Issuer) (x : Args) (l0 z o : Nat), Issues s i ∧ (i.lanes x).head? = some l0 ∧
    s.locate i false (i.spAddr s x false l0) 16 = some (z, o) ∧ o % 16 = 0 ∧ bitsAt ((s.strandAt z).bar o) 88 40 = 0 ∧ i.yarn.padPending = false ∧
    x.wf .tbwait = true ∧ i.g.wait = none ∧ ∀ l ∈ i.lanes x,
    (i.operand s x.b false l).val.toNat % 16 ≠ barPhase ((s.strandAt z).bar o) :=
  ⟨wTbwait, who wTbwait, ops wTbwait, 0, 0, 0x80, issues_of (by decide +kernel), by decide +kernel⟩

theorem meets_tbwait_stays : ∃ (s : State) (i : Issuer) (x : Args) (l0 z o : Nat), Issues s i ∧ (i.lanes x).head? = some l0 ∧
    s.locate i false (i.spAddr s x false l0) 16 = some (z, o) ∧ o % 16 = 0 ∧ bitsAt ((s.strandAt z).bar o) 88 40 = 0 ∧ i.yarn.padPending = false ∧
    x.wf .tbwait = true ∧ i.g.wait = none ∧ ¬ ∀ l ∈ i.lanes x,
    (i.operand s x.b false l).val.toNat % 16 ≠ barPhase ((s.strandAt z).bar o) :=
  ⟨wTbwaitStay, who wTbwaitStay, ops wTbwaitStay, 0, 0, 0x80, issues_of (by decide +kernel), by decide +kernel⟩

theorem meets_tbwait_woken : ∃ (s : State) (i : Issuer) (x : Args) (l0 z o : Nat), Issues s i ∧ (i.lanes x).head? = some l0 ∧
    s.locate i false (i.spAddr s x false l0) 16 = some (z, o) ∧ o % 16 = 0 ∧ bitsAt ((s.strandAt z).bar o) 88 40 = 0 ∧ i.yarn.padPending = false ∧
    x.wf .tbwait = true ∧ i.g.wait = some (.tb z o true) :=
  ⟨wTbwaitDone, who wTbwaitDone, ops wTbwaitDone, 0, 0, 0x80, issues_of (by decide +kernel), by decide +kernel⟩

theorem meets_tlwait : ∃ (s : State) (i : Issuer) (x : Args) (l0 : Nat), Issues s i ∧ (i.lanes x).head? = some l0 ∧
    x.wf .tlwait = true ∧ i.g.wait = none ∧ (i.operand s x.a false l0).val.toNat ≤ 9 ∧
    (i.operand s x.b true l0).val.toNat ≤ i.strand.issuedOn (i.operand s x.a false l0).val.toNat ∧
    (i.operand s x.b true l0).val.toNat ≤ i.strand.doneOn (i.operand s x.a false l0).val.toNat :=
  ⟨wTlwait, who wTlwait, ops wTlwait, 0, issues_of (by decide +kernel), by decide +kernel⟩

theorem meets_tlwait_stays : ∃ (s : State) (i : Issuer) (x : Args) (l0 : Nat), Issues s i ∧ (i.lanes x).head? = some l0 ∧
    x.wf .tlwait = true ∧ i.g.wait = none ∧ (i.operand s x.a false l0).val.toNat ≤ 9 ∧
    (i.operand s x.b true l0).val.toNat ≤ i.strand.issuedOn (i.operand s x.a false l0).val.toNat ∧
    ¬ (i.operand s x.b true l0).val.toNat ≤ i.strand.doneOn (i.operand s x.a false l0).val.toNat :=
  ⟨wTlwaitStay, who wTlwaitStay, ops wTlwaitStay, 0, issues_of (by decide +kernel), by decide +kernel⟩

theorem meets_tlwait_woken : ∃ (s : State) (i : Issuer) (x : Args) (l0 d : Nat) (m : DWord), Issues s i ∧
    (i.lanes x).head? = some l0 ∧ x.wf .tlwait = true ∧ i.g.wait = some (.timeline d m) ∧ m.toNat ≤ i.strand.doneOn d :=
  ⟨wTlwaitDone, who wTlwaitDone, ops wTlwaitDone, 0, 8, 1, issues_of (by decide +kernel), by decide +kernel⟩

theorem meets_tlwait_not_issued : ∃ (s : State) (i : Issuer) (x : Args) (l0 : Nat), Issues s i ∧ (i.lanes x).head? = some l0 ∧
    x.wf .tlwait = true ∧ i.g.wait = none ∧
    i.strand.issuedOn (i.operand s x.a false l0).val.toNat < (i.operand s x.b true l0).val.toNat ∧ handlerReady s i :=
  ⟨wTlwaitBad, who wTlwaitBad, ops wTlwaitBad, 0, issues_of (by decide +kernel), by unfold handlerReady; decide +kernel⟩

theorem meets_tlwait_no_context : ∃ (s : State) (i : Issuer) (x : Args) (l0 : Nat), Issues s i ∧ (i.lanes x).head? = some l0 ∧
    x.wf .tlwait = true ∧ i.g.wait = none ∧ 9 < (i.operand s x.a false l0).val.toNat ∧ handlerReady s i :=
  ⟨wTlwaitHigh, who wTlwaitHigh, ops wTlwaitHigh, 0, issues_of (by decide +kernel), by unfold handlerReady; decide +kernel⟩

theorem meets_tlread : ∃ (s : State) (i : Issuer) (x : Args) (l0 : Nat), Issues s i ∧ (i.lanes x).head? = some l0 ∧
    x.wf .tlread = true ∧ i.bank.floor.toNat ≤ i.ceil ∧
    (x.mods.getLsbD 1 = true ∨ (i.operand s x.a false l0).val.toNat ≤ 9) :=
  ⟨wTlread, who wTlread, ops wTlread, 0, issues_of (by decide +kernel), by decide +kernel⟩

theorem meets_tlread_done : ∃ (s : State) (i : Issuer) (x : Args) (l0 : Nat), Issues s i ∧ (i.lanes x).head? = some l0 ∧
    x.wf .tlread = true ∧ i.bank.floor.toNat ≤ i.ceil ∧
    (x.mods.getLsbD 1 = true ∨ (i.operand s x.a false l0).val.toNat ≤ 9) :=
  ⟨wTlreadDone, who wTlreadDone, ops wTlreadDone, 0, issues_of (by decide +kernel), by decide +kernel⟩

theorem meets_tlread_context : ∃ (s : State) (i : Issuer) (x : Args) (l0 : Nat), Issues s i ∧ (i.lanes x).head? = some l0 ∧
    x.wf .tlread = true ∧ i.bank.floor.toNat ≤ i.ceil ∧
    (x.mods.getLsbD 1 = true ∨ (i.operand s x.a false l0).val.toNat ≤ 9) :=
  ⟨wTlreadCtx, who wTlreadCtx, ops wTlreadCtx, 0, issues_of (by decide +kernel), by decide +kernel⟩

theorem meets_tlread_no_context : ∃ (s : State) (i : Issuer) (x : Args) (l0 : Nat), Issues s i ∧ (i.lanes x).head? = some l0 ∧
    x.wf .tlread = true ∧ i.g.wait = none ∧ x.mods.getLsbD 1 = false ∧ 9 < (i.operand s x.a false l0).val.toNat ∧
    handlerReady s i :=
  ⟨wTlreadBad, who wTlreadBad, ops wTlreadBad, 0, issues_of (by decide +kernel), by unfold handlerReady; decide +kernel⟩

/-! RoutesChangeAndAnswer -/

theorem meets_annc : ∃ (s : State) (i : Issuer) (x : Args) (l0 : Nat) (p : Fab) (len : Nat), Issues s i ∧
    (i.lanes x).head? = some l0 ∧ prefixOf (i.operand s x.a true l0).val = some (p, len) ∧ x.wf .annc = true ∧
    s.anncBad i (i.operand s x.a true l0).val (i.operand s x.b true l0).val (x.mods.extractLsb' 0 2) = none ∧ (∀ o,
    s.mine p len = some o → o.issue + 1 = (s.nextIssue p len).2) ∧ s.table.length < 16384 ∧ ∀ e, s.entryOf p len = some e →
    (e.holders.filter (fun h => !decide (h.peer = s.peer))).length < 4 :=
  ⟨wAnnc, who wAnnc, ops wAnnc, 0, 0x8000, 42, issues_of (by decide +kernel), by decide +kernel⟩

theorem meets_annc_origin : ∃ (s : State) (i : Issuer) (x : Args) (l0 : Nat) (p : Fab) (len : Nat), Issues s i ∧
    (i.lanes x).head? = some l0 ∧ prefixOf (i.operand s x.a true l0).val = some (p, len) ∧ x.wf .annc = true ∧
    s.anncBad i (i.operand s x.a true l0).val (i.operand s x.b true l0).val (x.mods.extractLsb' 0 2) = none ∧ (∀ o,
    s.mine p len = some o → o.issue + 1 = (s.nextIssue p len).2) ∧ s.table.length < 16384 ∧ ∀ e, s.entryOf p len = some e →
    (e.holders.filter (fun h => !decide (h.peer = s.peer))).length < 4 :=
  ⟨wAnncReal, who wAnncReal, ops wAnncReal, 0, 0x8000, 42, issues_of (by decide +kernel), by decide +kernel⟩

theorem meets_annc_again : ∃ (s : State) (i : Issuer) (x : Args) (l0 : Nat) (p : Fab) (len : Nat), Issues s i ∧
    (i.lanes x).head? = some l0 ∧ prefixOf (i.operand s x.a true l0).val = some (p, len) ∧ x.wf .annc = true ∧
    s.anncBad i (i.operand s x.a true l0).val (i.operand s x.b true l0).val (x.mods.extractLsb' 0 2) = none ∧ (∀ o,
    s.mine p len = some o → o.issue + 1 = (s.nextIssue p len).2) ∧ s.table.length < 16384 ∧ ∀ e, s.entryOf p len = some e →
    (e.holders.filter (fun h => !decide (h.peer = s.peer))).length < 4 :=
  ⟨wAnncAgain, who wAnncAgain, ops wAnncAgain, 0, 0x8000, 42, issues_of (by decide +kernel), by decide +kernel⟩

theorem meets_wdrw : ∃ (s : State) (i : Issuer) (x : Args) (l0 : Nat) (p : Fab) (len : Nat), Issues s i ∧
    (i.lanes x).head? = some l0 ∧ prefixOf (i.operand s x.a true l0).val = some (p, len) ∧ x.wf .wdrw = true ∧ len ≠ 12 ∧
    prefixIn (s.func i.launch.fn).annwin p len = true ∧ ∀ c ∈ s.checked, c.req.pfx = p → c.req.len ≠ len :=
  ⟨wWdrw, who wWdrw, ops wWdrw, 0, 0x8000, 42, issues_of (by decide +kernel), by decide +kernel⟩

theorem meets_wdrw_nothing : ∃ (s : State) (i : Issuer) (x : Args) (l0 : Nat) (p : Fab) (len : Nat), Issues s i ∧
    (i.lanes x).head? = some l0 ∧ prefixOf (i.operand s x.a true l0).val = some (p, len) ∧ x.wf .wdrw = true ∧ len ≠ 12 ∧
    prefixIn (s.func i.launch.fn).annwin p len = true ∧ ∀ c ∈ s.checked, c.req.pfx = p → c.req.len ≠ len :=
  ⟨wWdrwNone, who wWdrwNone, ops wWdrwNone, 0, 0x8000, 42, issues_of (by decide +kernel), by decide +kernel⟩

theorem meets_prom : ∃ (s : State) (i : Issuer) (x : Args) (l0 : Nat) (p : Fab) (len : Nat) (h : Holder), Issues s i ∧
    (i.lanes x).head? = some l0 ∧ prefixOf (i.operand s x.a true l0).val = some (p, len) ∧ x.wf .prom = true ∧
    prefixIn (s.func i.launch.fn).annwin p len = true ∧ s.mine p len = some h ∧ h.kind ≠ 0 ∧
    s.backingIn i.launch.fn (h.backing.setWidth 64) len = true ∧ (∀ e, s.entryOf p len = some e → ∀ o, e.origin = some o →
    o.peer ≠ s.peer → above (s.nextSeq p len) o.seq = true) ∧ (∀ o, s.mine p len = some o →
    o.issue + 1 = (s.nextIssue p len).2) ∧ s.table.length < 16384 ∧ ∀ e, s.entryOf p len = some e →
    (e.holders.filter (fun h => !decide (h.peer = s.peer))).length < 4 :=
  ⟨wProm, who wProm, ops wProm, 0, 0x8000, 42, (wProm.mine 0x8000 42).getD (ownRecord 0), issues_of (by decide +kernel),
    by decide +kernel⟩

theorem meets_rtsync : ∃ (s : State) (i : Issuer) (x : Args), Issues s i ∧ x.wf .rtsync = true ∧ i.lanes x ≠ [] ∧
    i.g.wait = none ∧ ∀ k ∈ i.yarn.changes, Store.find k s.changes = none :=
  ⟨wRtsync, who wRtsync, ops wRtsync, issues_of (by decide +kernel), by decide +kernel⟩

theorem meets_rtsync_stays : ∃ (s : State) (i : Issuer) (x : Args), Issues s i ∧ x.wf .rtsync = true ∧ i.lanes x ≠ [] ∧
    i.g.wait = none ∧ ¬ ∀ k ∈ i.yarn.changes, Store.find k s.changes = none :=
  ⟨wRtsyncStay, who wRtsyncStay, ops wRtsyncStay, issues_of (by decide +kernel), by decide +kernel⟩

/-! KnotsContributeAndAnswer -/

theorem meets_knot_outside : ∃ (k : Knot) (data : List Byte), kColl k.desc = false ∧
    kN k.desc ≤ leNat (data.take 4) / 65536 % 64 :=
  ⟨knotStart knotWord, leBytes 4 0x20007, by decide +kernel⟩

theorem meets_knot_collective : ∃ (k : Knot), kColl k.desc = true :=
  ⟨collKnot 1, by decide +kernel⟩

theorem meets_knot_above : ∃ (k : Knot) (data : List Byte), kColl k.desc = false ∧
    leNat (data.take 4) / 65536 % 64 < kN k.desc ∧ above (BitVec.ofNat 16 (leNat (data.take 4))) (kT k.desc) = true :=
  ⟨knotStart knotWord, leBytes 4 0x10008, by decide +kernel⟩

theorem meets_knot_not_next : ∃ (k : Knot) (data : List Byte), kColl k.desc = false ∧
    leNat (data.take 4) / 65536 % 64 < kN k.desc ∧ above (BitVec.ofNat 16 (leNat (data.take 4))) (kT k.desc) = false ∧
    BitVec.ofNat 16 (leNat (data.take 4)) ≠ k.next.getD (leNat (data.take 4) / 65536 % 64) 0 :=
  ⟨{ knotStart knotWord with next := [8, 8] }, leBytes 4 0x10007, by decide +kernel⟩

theorem meets_knot_on_time : ∃ (k : Knot) (data : List Byte), kColl k.desc = false ∧
    leNat (data.take 4) / 65536 % 64 < kN k.desc ∧ BitVec.ofNat 16 (leNat (data.take 4)) = kT k.desc ∧
    BitVec.ofNat 16 (leNat (data.take 4)) = k.next.getD (leNat (data.take 4) / 65536 % 64) 0 ∧
    kOnTime k.desc + 1 < kK k.desc :=
  ⟨knotStart knotWord, leBytes 4 0x10007 ++ leBytes 4 9, by decide +kernel⟩

theorem meets_knot_late_dropped : ∃ (k : Knot) (data : List Byte), kColl k.desc = false ∧
    leNat (data.take 4) / 65536 % 64 < kN k.desc ∧
    BitVec.ofNat 16 (leNat (data.take 4)) = k.next.getD (leNat (data.take 4) / 65536 % 64) 0 ∧
    above (BitVec.ofNat 16 (leNat (data.take 4))) (kT k.desc) = false ∧ BitVec.ofNat 16 (leNat (data.take 4)) ≠ kT k.desc ∧
    kW k.desc = 2 ∧ kOnTime k.desc < kK k.desc :=
  ⟨{ knotStart (knotWord (2 * 2 ^ 20)) with next := [8, 6] }, leBytes 4 0x10006, by decide +kernel⟩

/-- A contribution to an open round, below its quorum or meeting it: member, round and the rounds that are next. -/
abbrev Contributes (k : Knot) (data : List Byte) (late : Bool) : Prop :=
  let j := leNat (data.take 4) / 65536 % 64
  let r := BitVec.ofNat 16 (leNat (data.take 4))
  kColl k.desc = false ∧ j < kN k.desc ∧ r = k.next.getD j 0 ∧ above r (kT k.desc) = false ∧ decide (r ≠ kT k.desc) = late

theorem meets_knot_late_folded : ∃ (k : Knot) (data : List Byte), Contributes k data true ∧ kW k.desc ≠ 2 ∧
    kOnTime k.desc < kK k.desc :=
  ⟨{ knotStart knotWord with next := [8, 6] }, leBytes 4 0x10006 ++ leBytes 4 9, by decide +kernel⟩

/-- It meets the quorum, and which member would lag by more than the limit. -/
abbrev Meets (k : Knot) (data : List Byte) : Prop :=
  Contributes k data false ∧ kOnTime k.desc < 127 ∧ kK k.desc ≤ kOnTime k.desc + 1
abbrev Lags (k : Knot) (data : List Byte) (n : Nat) : Prop :=
  let j := leNat (data.take 4) / 65536 % 64
  let next := k.next.set j (BitVec.ofNat 16 (leNat (data.take 4)) + 1)
  n < kN k.desc ∧ kL k.desc < (kT k.desc + 1 - next.getD n 0).toNat ∧ above (kT k.desc + 1) (next.getD n 0) = true

theorem meets_knot_closes : ∃ (k : Knot) (data : List Byte), Meets k data ∧ ∀ n, ¬ Lags k data n :=
  ⟨closing [7, 7], leBytes 4 0x10007 ++ leBytes 4 9, by decide +kernel, fun n h =>
    have small : ∀ m, m < 2 → ¬ Lags (closing [7, 7]) (leBytes 4 0x10007 ++ leBytes 4 9) m := by decide +kernel
    small n (Nat.lt_of_lt_of_le h.1 (by decide +kernel)) h⟩

theorem meets_knot_stalls : ∃ (k : Knot) (data : List Byte), Meets k data ∧ Lags k data 0 :=
  ⟨closing [5, 7], leBytes 4 0x10007 ++ leBytes 4 9, by decide +kernel⟩

/-- Lane 0 may issue a knot instruction on a knot of a page, nothing of its yarn being outstanding. -/
abbrev KnotIssues (o : Op) (s : State) (i : Issuer) (x : Args) (p : Page) (q : Fab) : Prop :=
  let va := i.gAddr s x (i.lead (i.lanes x) 0)
  (i.lanes x).head? = some 0 ∧ x.wf o = true ∧ i.g.wait = none ∧ i.g.drained = none ∧ i.yarn.counted = [] ∧ va.toNat % 64 = 0
    ∧ va.toNat % 4096 + 1088 ≤ 4096 ∧ q.toNat % 4096 = va.toNat % 4096
    ∧ (i.operand s x.a true (i.lead (i.lanes x) 0)).lab.toNat ≤ i.ceil ∧ i.bank.floor.toNat ≤ i.ceil
    ∧ (p.cls = 1 → i.yarn.padPending = false)

/-- Its bytes are served at the origin, which is here. -/
abbrev KnotServed (s : State) (i : Issuer) (x : Args) (write read : Bool) (l : Label) (p : Page) (q : Fab) : Prop :=
  let a := i.lead (i.lanes x) 0
  Served s i write read (lmax l (i.label [i.operand s x.a true a])) (i.gAddr s x a) 1088 p q (origin := true)

theorem meets_knot_init : ∃ (s : State) (i : Issuer) (x : Args) (p : Page) (q : Fab), Issues s i
    ∧ KnotServed s i x true false (i.label [i.operand s x.b true 0]) p q ∧ KnotIssues .knotInit s i x p q
    ∧ badConfig (i.operand s x.b true 0).val = false :=
  ⟨wKnotInit, who wKnotInit, ops wKnotInit, (pageNow wKnotInit true true 0 0).1, 0x20000, issues_of (by decide +kernel),
    served_of (by decide +kernel), by decide +kernel⟩

/-- The elements that put gathers from the yarn. -/
abbrev Gathers (s : State) (i : Issuer) (x : Args) : List Val :=
  ((List.range i.launch.perYarn).map (fun k => i.laneFrom 0 k)).map (i.across s x.b false)

theorem meets_knot_put : ∃ (s : State) (i : Issuer) (x : Args) (p : Page) (q : Fab), Issues s i
    ∧ KnotServed s i x true false (i.label (i.operand s x.c false 0 :: Gathers s i x)) p q ∧ KnotIssues .knotPut s i x p q
    ∧ bitsAt (i.operand s x.c false 0).val 22 10 = 0
    ∧ i.mustWait x.b false (i.lanes x) ((List.range i.launch.perYarn).map (fun k => i.laneFrom 0 k)) = false :=
  ⟨wKnotPut, who wKnotPut, ops wKnotPut, (pageNow wKnotPut true true 0 0).1, 0x20000, issues_of (by decide +kernel),
    served_of (by decide +kernel), by decide +kernel⟩

/-- take may answer: nothing reserved is set, and the closed label is within the ceiling. -/
abbrev Takes (s : State) (i : Issuer) (x : Args) (p : Page) (q : Fab) : Prop :=
  Issues s i ∧ KnotServed s i x false true i.bank.floor p q ∧ KnotIssues .knotTake s i x p q
    ∧ bitsAt (i.operand s x.b false 0).val 16 16 = 0 ∧ (kClosedLab (knotAt s q).desc).toNat ≤ i.ceil

theorem meets_knot_take : ∃ (s : State) (i : Issuer) (x : Args) (p : Page) (q : Fab), Takes s i x p q
    ∧ above ((i.operand s x.b false 0).val.setWidth 16) (kClosedTag (knotAt s q).desc) = false :=
  ⟨wKnotTake, who wKnotTake, ops wKnotTake, (pageNow wKnotTake false true 0 0).1, 0x20000, ⟨issues_of (by decide +kernel),
    served_of (by decide +kernel), by decide +kernel⟩, by decide +kernel⟩

theorem meets_knot_take_stays : ∃ (s : State) (i : Issuer) (x : Args) (p : Page) (q : Fab), Takes s i x p q
    ∧ above ((i.operand s x.b false 0).val.setWidth 16) (kClosedTag (knotAt s q).desc) = true :=
  ⟨wKnotTakeStay, who wKnotTakeStay, ops wKnotTakeStay, (pageNow wKnotTakeStay false true 0 0).1, 0x20000,
    ⟨issues_of (by decide +kernel), served_of (by decide +kernel), by decide +kernel⟩, by decide +kernel⟩

theorem meets_knot_query : ∃ (s : State) (i : Issuer) (x : Args) (p : Page) (q : Fab), Issues s i
    ∧ KnotServed s i x false true i.bank.floor p q ∧ KnotIssues .knotQuery s i x p q :=
  ⟨wKnotQuery, who wKnotQuery, ops wKnotQuery, (pageNow wKnotQuery false true 0 0).1, 0x20000, issues_of (by decide +kernel),
    served_of (by decide +kernel), by decide +kernel⟩

/-! ControlRegisters, LabelsRiseAndLower -/

theorem meets_csrr : ∃ (s : State) (i : Issuer) (x : Args) (l0 : Nat), Issues s i ∧ (i.lanes x).head? = some l0 ∧
    x.wf .csrr = true ∧ ((i.operand s x.a false l0).val.toNat ≤ 0x003 ∨ (0x010 ≤ (i.operand s x.a false l0).val.toNat ∧
    (i.operand s x.a false l0).val.toNat ≤ 0x017)) ∧
    (((i.operand s x.a false l0).val.toNat = 0x001 ∨ (0x010 ≤ (i.operand s x.a false l0).val.toNat ∧
    (i.operand s x.a false l0).val.toNat ≤ 0x017)) → i.bank.status.getLsbD 15 = true) ∧ i.bank.floor.toNat ≤ i.ceil :=
  ⟨wCsrr, who wCsrr, ops wCsrr, 0, issues_of (by decide +kernel), by decide +kernel⟩

theorem meets_csrr_handler : ∃ (s : State) (i : Issuer) (x : Args) (l0 : Nat), Issues s i ∧ (i.lanes x).head? = some l0 ∧
    x.wf .csrr = true ∧ ((i.operand s x.a false l0).val.toNat ≤ 0x003 ∨ (0x010 ≤ (i.operand s x.a false l0).val.toNat ∧
    (i.operand s x.a false l0).val.toNat ≤ 0x017)) ∧
    (((i.operand s x.a false l0).val.toNat = 0x001 ∨ (0x010 ≤ (i.operand s x.a false l0).val.toNat ∧
    (i.operand s x.a false l0).val.toNat ≤ 0x017)) → i.bank.status.getLsbD 15 = true) ∧ i.bank.floor.toNat ≤ i.ceil :=
  ⟨wCsrrX, who wCsrrX, ops wCsrrX, 0, issues_of (by decide +kernel), by decide +kernel⟩

theorem meets_csrw : ∃ (s : State) (i : Issuer) (x : Args) (l0 : Nat), Issues s i ∧ (i.lanes x).head? = some l0 ∧
    x.wf .csrw = true ∧ ((i.operand s x.a false l0).val.toNat ≤ 0x003 ∨ (0x010 ≤ (i.operand s x.a false l0).val.toNat ∧
    (i.operand s x.a false l0).val.toNat ≤ 0x017)) ∧
    (((i.operand s x.a false l0).val.toNat = 0x001 ∨ (0x010 ≤ (i.operand s x.a false l0).val.toNat ∧
    (i.operand s x.a false l0).val.toNat ≤ 0x017)) → i.bank.status.getLsbD 15 = true) :=
  ⟨wCsrw, who wCsrw, ops wCsrw, 0, issues_of (by decide +kernel), by decide +kernel⟩

theorem meets_csrw_handler : ∃ (s : State) (i : Issuer) (x : Args) (l0 : Nat), Issues s i ∧ (i.lanes x).head? = some l0 ∧
    x.wf .csrw = true ∧ ((i.operand s x.a false l0).val.toNat ≤ 0x003 ∨ (0x010 ≤ (i.operand s x.a false l0).val.toNat ∧
    (i.operand s x.a false l0).val.toNat ≤ 0x017)) ∧
    (((i.operand s x.a false l0).val.toNat = 0x001 ∨ (0x010 ≤ (i.operand s x.a false l0).val.toNat ∧
    (i.operand s x.a false l0).val.toNat ≤ 0x017)) → i.bank.status.getLsbD 15 = true) :=
  ⟨wCsrwX, who wCsrwX, ops wCsrwX, 0, issues_of (by decide +kernel), by decide +kernel⟩

theorem meets_csrr_none : ∃ (s : State) (i : Issuer) (x : Args) (l0 : Nat), Issues s i ∧ (i.lanes x).head? = some l0 ∧
    x.wf .csrr = true ∧ handlerReady s i ∧
    ¬ ((i.operand s x.a false l0).val.toNat ≤ 0x003 ∨ (0x010 ≤ (i.operand s x.a false l0).val.toNat ∧
    (i.operand s x.a false l0).val.toNat ≤ 0x017)) :=
  ⟨wCsrrBad, who wCsrrBad, ops wCsrrBad, 0, issues_of (by decide +kernel), by unfold handlerReady; decide +kernel⟩

theorem meets_csrr_above : ∃ (s : State) (i : Issuer) (x : Args) (l0 : Nat), Issues s i ∧ (i.lanes x).head? = some l0 ∧
    x.wf .csrr = true ∧ handlerReady s i ∧
    ¬ ((i.operand s x.a false l0).val.toNat ≤ 0x003 ∨ (0x010 ≤ (i.operand s x.a false l0).val.toNat ∧
    (i.operand s x.a false l0).val.toNat ≤ 0x017)) :=
  ⟨wCsrrHigh, who wCsrrHigh, ops wCsrrHigh, 0, issues_of (by decide +kernel), by unfold handlerReady; decide +kernel⟩

theorem meets_csrw_outside : ∃ (s : State) (i : Issuer) (x : Args) (l0 : Nat), Issues s i ∧ (i.lanes x).head? = some l0 ∧
    x.wf .csrw = true ∧ handlerReady s i ∧
    ((i.operand s x.a false l0).val.toNat = 0x001 ∨ (0x010 ≤ (i.operand s x.a false l0).val.toNat ∧
    (i.operand s x.a false l0).val.toNat ≤ 0x017)) :=
  ⟨wCsrwPriv, who wCsrwPriv, ops wCsrwPriv, 0, issues_of (by decide +kernel), by unfold handlerReady; decide +kernel⟩

theorem meets_lblset : ∃ (s : State) (i : Issuer) (x : Args) (l0 : Nat), Issues s i ∧ x.wf .lblset = true ∧
    (i.lanes x).head? = some l0 ∧ (opA .lblset s i x l0).val.toNat ≤ 3 ∧ (opA .lblset s i x l0).val.toNat ≤ i.ceil :=
  ⟨wLblset, who wLblset, ops wLblset, 0, issues_of (by decide +kernel), by decide +kernel⟩

theorem meets_lblset_above_3 : ∃ (s : State) (i : Issuer) (x : Args) (l0 : Nat), Issues s i ∧ x.wf .lblset = true ∧
    (i.lanes x).head? = some l0 ∧ handlerReady s i ∧ 3 < (opA .lblset s i x l0).val.toNat :=
  ⟨wLblsetBad, who wLblsetBad, ops wLblsetBad, 0, issues_of (by decide +kernel), by unfold handlerReady; decide +kernel⟩

theorem meets_lblset_ceiling : ∃ (s : State) (i : Issuer) (x : Args) (l0 : Nat), Issues s i ∧ x.wf .lblset = true ∧
    (i.lanes x).head? = some l0 ∧ handlerReady s i ∧ (opA .lblset s i x l0).val.toNat ≤ 3 ∧
    i.ceil < (opA .lblset s i x l0).val.toNat :=
  ⟨wLblsetPriv, who wLblsetPriv, ops wLblsetPriv, 0, issues_of (by decide +kernel), by unfold handlerReady; decide +kernel⟩

theorem meets_lbldn : ∃ (s : State) (i : Issuer) (x : Args) (k : Nat) (G : Grant) (L : Launch), Issues s i ∧
    x.wf .lbldn = true ∧ i.lanes x ≠ [] ∧ i.launch.granted = some k ∧ Store.find k (s.func i.launch.fn).grants = some G ∧
    G.used + 4 * ((i.lanes x).filter (fun l => (opA .lbldn s i x l).lab == 3)).length ≤ G.budget ∧
    Store.find i.strand.launch s.launches = some L ∧ (∀ l ∈ i.lanes x, (opA .lbldn s i x l).lab ≠ 3 →
    (lmax (opA .lbldn s i x l).lab i.bank.floor).toNat ≤ i.ceil) ∧ 2 ≤ i.ceil :=
  ⟨wLbldn, who wLbldn, ops wLbldn, 1, ⟨0, 64, 0, 8, 4⟩, (who wLbldn).launch, issues_of (by decide +kernel),
    by decide +kernel⟩

theorem meets_lbldn_budget : ∃ (s : State) (i : Issuer) (x : Args) (k : Nat) (G : Grant), Issues s i ∧ x.wf .lbldn = true ∧
    i.lanes x ≠ [] ∧ handlerReady s i ∧ i.launch.granted = some k ∧ Store.find k (s.func i.launch.fn).grants = some G ∧
    G.budget < G.used + 4 * ((i.lanes x).filter (fun l => (opA .lbldn s i x l).lab == 3)).length :=
  ⟨wLbldnOver, who wLbldnOver, ops wLbldnOver, 1, ⟨0, 64, 0, 8, 5⟩, issues_of (by decide +kernel),
    by unfold handlerReady; decide +kernel⟩

theorem meets_lbldn_no_grant : ∃ (s : State) (i : Issuer) (x : Args), Issues s i ∧ x.wf .lbldn = true ∧ i.lanes x ≠ [] ∧
    handlerReady s i ∧ i.launch.granted = none :=
  ⟨wLbldnNone, who wLbldnNone, ops wLbldnNone, issues_of (by decide +kernel), by unfold handlerReady; decide +kernel⟩

/-! ClauseStarts -/

/-- A group at a header whose clause reads well and passes its checks. -/
abbrev StartsClause (s : State) (i : Issuer) (c : Clause) (pad : Word) : Prop :=
  AtHeader s 0 0 i ∧ ReadsClause s i c pad ∧ clauseCheck c.w0 c.w1 c.code pad = none

/-- It is at its header, and a rejoin clause does not end a fray. -/
abbrev StartsAtHeader (s : State) (i : Issuer) (c : Clause) (pad : Word) : Prop :=
  StartsClause s i c pad ∧ i.g.phase = .header ∧ (headerRejoin c.w0 = true → i.g.fray = none ∧ i.yarn.frays = [])

theorem starts_of {s : State} {c : Clause} {pad : Word} (h : headerNow s = true) (hr : readsNow s c pad = true)
    (hc : clauseCheck c.w0 c.w1 c.code pad = none) : StartsClause s (who s) c pad := ⟨header_of h, reads_of hr, hc⟩

theorem meets_clause_start : ∃ (s : State) (i : Issuer) (c : Clause) (pad : Word), StartsAtHeader s i c pad :=
  ⟨wStart, who wStart, ⟨0x08, 0x00070000, [encode (.nop {})], 0x110⟩, 0,
    starts_of (by decide +kernel) (by decide +kernel) (by decide +kernel), by decide +kernel⟩

theorem meets_clause_start_of_two : ∃ (s : State) (i : Issuer) (c : Clause) (pad : Word), StartsAtHeader s i c pad :=
  ⟨wStartTwo, who wStartTwo, ⟨0x04000008, 0x00070000, [encode (.nop {}), encode (.bra { off := 1 })], 0x118⟩, 0,
    starts_of (by decide +kernel) (by decide +kernel) (by decide +kernel), by decide +kernel⟩

theorem meets_clause_start_flags : ∃ (s : State) (i : Issuer) (c : Clause) (pad : Word), StartsAtHeader s i c pad ∧ i.bank.flags &&& c.named ≠ 0 :=
  ⟨wStartFlags, who wStartFlags, ⟨0x18, 0x00070000, [encode (.nop {})], 0x110⟩, 0,
    ⟨starts_of (by decide +kernel) (by decide +kernel) (by decide +kernel), by decide +kernel⟩, by decide +kernel⟩

theorem meets_clause_start_x : ∃ (s : State) (i : Issuer) (c : Clause) (pad : Word), StartsAtHeader s i c pad ∧ headerX c.w0 ≠ none :=
  ⟨wStartX, who wStartX, ⟨0x00120008, 0x00070000, [encode (.lds { dst := .v 8, a := .v 7, ty := .b32 })], 0x110⟩, 0,
    ⟨starts_of (by decide +kernel) (by decide +kernel) (by decide +kernel), by decide +kernel⟩, by decide +kernel⟩

theorem meets_clause_start_rejoin : ∃ (s : State) (i : Issuer) (c : Clause) (pad : Word), StartsAtHeader s i c pad ∧ headerRejoin c.w0 = true ∧ i.yarn.rejoinHeld i.g = false :=
  ⟨wStartRejoin, who wStartRejoin, ⟨0x20000008, 0x00070000, [encode (.nop {})], 0x110⟩, 0,
    ⟨starts_of (by decide +kernel) (by decide +kernel) (by decide +kernel), by decide +kernel⟩, by decide +kernel⟩

theorem meets_clause_start_rejoin_held : ∃ (s : State) (i : Issuer) (c : Clause) (pad : Word), StartsAtHeader s i c pad ∧ headerRejoin c.w0 = true ∧ i.yarn.rejoinHeld i.g = true :=
  ⟨wRejoinHeld, who wRejoinHeld, ⟨0x20000008, 0x00070000, [encode (.nop {})], 0x110⟩, 0,
    ⟨starts_of (by decide +kernel) (by decide +kernel) (by decide +kernel), by decide +kernel⟩, by decide +kernel⟩

theorem meets_fray_rejoins : ∃ (s : State) (i : Issuer) (c : Clause) (pad : Word) (e : Nat) (f : Fray), StartsClause s i c pad ∧
    i.g.phase = .header ∧ i.g.fray = some e ∧ Store.find e i.yarn.frays = some f ∧ headerRejoin c.w0 = true :=
  ⟨wFrayRejoin, who wFrayRejoin, ⟨0x20000008, 0x00070000, [encode (.nop {})], 0x110⟩, 0, 3, someFray .running,
    starts_of (by decide +kernel) (by decide +kernel) (by decide +kernel), by decide +kernel⟩

theorem meets_clause_resumes : ∃ (s : State) (i : Issuer) (c : Clause) (pad : Word) (n : BitVec 4), StartsClause s i c pad ∧
    i.g.phase = .resume n :=
  ⟨wResume, who wResume, ⟨0x08, 0x00070000, [encode (.nop {})], 0x110⟩, 0, 0,
    starts_of (by decide +kernel) (by decide +kernel) (by decide +kernel), by decide +kernel⟩

theorem meets_flags_end : ∃ (s : State) (i : Issuer), AtHeader s 0 0 i ∧ i.g.phase = .flags ∧
    i.bank.flags &&& i.g.clause.named = 0 ∧ clauseCheck i.g.clause.w0 i.g.clause.w1 i.g.clause.code 0 = none :=
  ⟨wFlagsEnd, who wFlagsEnd, header_of (by decide +kernel), by decide +kernel⟩

theorem meets_rejoin_ends : ∃ (s : State) (i : Issuer), AtHeader s 0 0 i ∧ i.g.phase = .rejoin ∧ i.g.fray = none ∧
    i.yarn.rejoinHeld i.g = false :=
  ⟨wRejoinEnd, who wRejoinEnd, header_of (by decide +kernel), by decide +kernel⟩

theorem meets_no_header : ∃ (s : State) (i : Issuer), AtHeader s 0 0 i ∧ i.g.phase = .header ∧ handlerReady s i ∧
    codeAt s i i.g.pc.toNat = some 0 ∧ codeAt s i (i.g.pc.toNat + 4) = some 0 :=
  ⟨wNoHeader, who wNoHeader, header_of (by decide +kernel), by unfold handlerReady; decide +kernel⟩

theorem meets_bad_clause : ∃ (s : State) (i : Issuer) (c : Clause) (pad : Word), AtHeader s 0 0 i ∧ i.g.phase = .header ∧
    handlerReady s i ∧ ReadsClause s i c pad ∧ (clauseCheck c.w0 c.w1 c.code pad).isSome = true :=
  ⟨wBadClause, who wBadClause, ⟨0x80000008, 0x00070000, [encode (.nop {})], 0x110⟩, 0,
    header_of (by decide +kernel), by decide +kernel, by unfold handlerReady; decide +kernel, reads_of (by decide +kernel), by decide +kernel⟩

theorem meets_bad_operation : ∃ (s : State) (i : Issuer) (c : Clause) (pad : Word), AtHeader s 0 0 i ∧ i.g.phase = .header ∧
    handlerReady s i ∧ ReadsClause s i c pad ∧ (clauseCheck c.w0 c.w1 c.code pad).isSome = true :=
  ⟨wBadClause2, who wBadClause2, ⟨0x08, 0x00070000, [[0x1FF, 0, 0, 0, 0]], 0x120⟩, 0,
    header_of (by decide +kernel), by decide +kernel, by unfold handlerReady; decide +kernel, reads_of (by decide +kernel), by decide +kernel⟩

theorem meets_clause_read_fault : ∃ (s : State) (i : Issuer) (c : Byte) (a : DWord), AtHeader s 0 0 i ∧ i.g.phase = .header ∧
    i.bank.handler = false ∧ (s.freeEntries i.strand.core).length ≠ 0 ∧ repairable c = true ∧
    s.codeWord (.fetch 0 0) i.launch.fn i.ceil i.yarn.elig i.g.pc.toNat = .fault c a :=
  ⟨wNoPage, who wNoPage, 1, BitVec.ofNat 64 (gib 9), header_of (by decide +kernel), by decide +kernel⟩

/-! ResultsArrive, AnswersArrive -/

/-- Instruction 1 of yarn 0 under way may complete, and frees flag 2; some fibre is still active. -/
abbrev Completes1 (s : State) (v : Yarn) (p : Pend) : Prop :=
  (∃ l, (v.lane l).active = true) ∧ Store.find 0 s.yarns = some v ∧ v.pend[1]? = some p ∧ s.mayComplete v.strand p = true
    ∧ v.padTurn 1 = true ∧ p.knot = none ∧ v.tidy.pend = v.pend ∧ p.fray = none ∧ p.flag = some 2 ∧ v.bank.flags.getLsbD 2 = true

/-- It writes registers, or acts on a slot; the label it puts down is within the ceiling or above it. -/
abbrev ActsOver (s : State) (v : Yarn) (p : Pend) (above : Bool) : Prop :=
  p.writes = [] ∧ decide ((s.launchOf (s.strandAt v.strand)).ceil < (s.accLabel v.strand p.act).toNat) = above

theorem meets_lands : ∃ (s : State) (v : Yarn) (p : Pend), Completes1 s v p ∧ p.act = .none :=
  ⟨wLand, wLand.yarnAt 0, under wLand 1, ⟨⟨0, by decide +kernel⟩, by decide +kernel⟩, by decide +kernel⟩

theorem meets_lands_ld : ∃ (s : State) (v : Yarn) (p : Pend), Completes1 s v p ∧ ActsOver s v p false :=
  ⟨wLandLd, wLandLd.yarnAt 0, under wLandLd 1, ⟨⟨0, by decide +kernel⟩, by decide +kernel⟩, by decide +kernel⟩

theorem meets_lands_st : ∃ (s : State) (v : Yarn) (p : Pend), Completes1 s v p ∧ ActsOver s v p false :=
  ⟨wLandSt, wLandSt.yarnAt 0, under wLandSt 1, ⟨⟨0, by decide +kernel⟩, by decide +kernel⟩, by decide +kernel⟩

theorem meets_lands_zero : ∃ (s : State) (v : Yarn) (p : Pend), Completes1 s v p ∧ ActsOver s v p false :=
  ⟨wLandZero, wLandZero.yarnAt 0, under wLandZero 1, ⟨⟨0, by decide +kernel⟩, by decide +kernel⟩, by decide +kernel⟩

theorem meets_lands_out : ∃ (s : State) (v : Yarn) (p : Pend), Completes1 s v p ∧ ActsOver s v p false :=
  ⟨wLandOut, wLandOut.yarnAt 0, under wLandOut 1, ⟨⟨0, by decide +kernel⟩, by decide +kernel⟩, by decide +kernel⟩

theorem meets_lands_check : ∃ (s : State) (v : Yarn) (p : Pend), Completes1 s v p ∧ ActsOver s v p false :=
  ⟨wLandCheck, wLandCheck.yarnAt 0, under wLandCheck 1, ⟨⟨0, by decide +kernel⟩, by decide +kernel⟩, by decide +kernel⟩

/-- Scratchpad with no label raised brings none into a slot. -/
theorem in_unlabelled {s : State} {c x n y o : Nat} {a : PendAct} (ha : a = .accIn n y o 0) (h : (s.strandAt y).padLab = []) :
    decide (c < (s.accLabel x a).toNat) = false := by
  subst ha
  rw [show s.accLabel x (.accIn n y o 0) = 0 from units_unlabelled h 0 (fun b => o + 8 * b) _]
  simp

theorem meets_lands_in : ∃ (s : State) (v : Yarn) (p : Pend), Completes1 s v p ∧ ActsOver s v p false :=
  ⟨wLandIn, wLandIn.yarnAt 0, under wLandIn 1, ⟨⟨0, by decide +kernel⟩, by decide +kernel⟩, by decide +kernel,
    in_unlabelled (n := 2) (y := 0) (o := 0x100) (by decide +kernel) (by decide +kernel)⟩

theorem meets_lands_above : ∃ (s : State) (v : Yarn) (p : Pend), Completes1 s v p ∧ ActsOver s v p true :=
  ⟨capped wLandOut, (capped wLandOut).yarnAt 0, under (capped wLandOut) 1, ⟨⟨0, by decide +kernel⟩, by decide +kernel⟩,
    by decide +kernel⟩

/-- Peer 1's answer, of its incarnation 2, and its acknowledgement of request 4. -/
def answer1 (ok : Bool := true) (cause : Byte := 0) : Answer := { src := 1, srcInc := 2, dstInc := 1, ok := ok, cause := cause }
def ack4 : Ack := { id := 4, src := 1, srcInc := 2, dstInc := 1 }

/-- Request 4 of this package waits for its answer, which names current incarnations. -/
abbrev Awaits (s : State) (o : OutReq) (ans : Answer := answer1) : Prop :=
  Store.find 4 s.reqs = some o ∧ o.accepted = false ∧ o.passed = false ∧ o.hold = .none
    ∧ s.incOf ans.src = some ans.srcInc ∧ ans.dstInc = s.inc

theorem meets_answer_stale : ∃ (s : State) (ans : Answer), s.stale ans.src ans.srcInc = true ∧ ans.dstInc = s.inc :=
  ⟨wAnsLoad, { answer1 with srcInc := 1 }, by decide +kernel⟩

theorem meets_answer_for_another : ∃ (s : State) (ans : Answer), s.incOf ans.src = some ans.srcInc ∧ ans.dstInc ≠ s.inc :=
  ⟨wAnsLoad, { answer1 with dstInc := 0 }, by decide +kernel⟩

theorem meets_ack_stale : ∃ (s : State) (a : Ack), s.stale a.src a.srcInc = true :=
  ⟨wAckStrong, { ack4 with srcInc := 1 }, by decide +kernel⟩

/-- It is for part 0 of lane 0's access, and not for words of the record. -/
abbrev AwaitsPart (s : State) (o : OutReq) (part : Part) : Prop :=
  Awaits s o ∧ o.who = .lane 0 0 0 0 ∧ s.partOfReq 4 0 0 0 0 = some part ∧ ∀ b ∈ s.bufs, b.req ≠ 4

/-- The request, and the part, of a state. -/
def theReq (s : State) : OutReq := (Store.find 4 s.reqs).getD { req := {}, dst := 0, who := .cp 0 }
def thePart (s : State) : Part := (s.partOfReq 4 0 0 0 0).getD { page := {}, len := 0 }

theorem meets_answer_load : ∃ (s : State) (o : OutReq) (part : Part), AwaitsPart s o part ∧ o.req.stage ≠ .ask
    ∧ o.req.strong = false ∧ s.inPod o.dst = false :=
  ⟨wAnsLoad, theReq wAnsLoad, thePart wAnsLoad, by decide +kernel⟩

theorem meets_answer_store : ∃ (s : State) (o : OutReq) (part : Part), AwaitsPart s o part ∧ o.req.stage ≠ .ask
    ∧ o.req.strong = false ∧ reqWrites o.req = true :=
  ⟨wAnsStore, theReq wAnsStore, thePart wAnsStore, by decide +kernel⟩

theorem meets_answer_strong : ∃ (s : State) (o : OutReq) (part : Part), AwaitsPart s o part ∧ o.req.stage ≠ .ask
    ∧ o.req.strong = true ∧ reqWrites o.req = true :=
  ⟨wAnsStrong, theReq wAnsStrong, thePart wAnsStrong, by decide +kernel⟩

theorem meets_answer_check : ∃ (s : State) (o : OutReq) (part : Part), AwaitsPart s o part ∧ o.req.stage = .ask :=
  ⟨wAnsAsk, theReq wAnsAsk, thePart wAnsAsk, by decide +kernel⟩

theorem meets_answer_go : ∃ (s : State) (o : OutReq) (part : Part), AwaitsPart s o part ∧ o.req.stage = .go :=
  ⟨wAnsGo, theReq wAnsGo, thePart wAnsGo, by decide +kernel⟩

theorem meets_answer_refused : ∃ (s : State) (o : OutReq) (part : Part), AwaitsPart s o part ∧ (answer1 false 6).ok = false
    ∧ o.req.stage ≠ .go :=
  ⟨wAnsStore, theReq wAnsStore, thePart wAnsStore, by decide +kernel⟩

theorem meets_answer_lost : ∃ (s : State) (o : OutReq) (part : Part), AwaitsPart s o part ∧ (answer1 false 6).ok = false
    ∧ (answer1 false 6).cause = 0x06 ∧ o.req.stage = .go :=
  ⟨wAnsGo, theReq wAnsGo, thePart wAnsGo, by decide +kernel⟩

theorem meets_answer_relay : ∃ (s : State) (o : OutReq), Awaits s o ∧ o.req.stage ≠ .go ∧ o.who = .relay 2 9 :=
  ⟨wAnsRelay, theReq wAnsRelay, by decide +kernel⟩

theorem meets_answer_fetch : ∃ (s : State) (o : OutReq), Awaits s o ∧ o.req.stage ≠ .go ∧ o.who = .fetch 0 0
    ∧ ∃ b ∈ s.bufs, b.req = 4 ∧ b.ans = none :=
  ⟨wAnsFetch, theReq wAnsFetch, by decide +kernel⟩

/-- A write of an engine's sector. -/
theorem meets_answer_engine : ∃ (s : State) (o : OutReq), Awaits s o ∧ o.req.stage ≠ .go ∧ o.who = .signal 0
    ∧ reqWrites o.req = true ∧ ∃ b ∈ s.bufs, b.req = 4 ∧ b.ans = none :=
  ⟨wAnsEngine, theReq wAnsEngine, by decide +kernel⟩

/-- The acknowledgement names current incarnations. -/
abbrev Acks4 (s : State) : Prop := s.incOf ack4.src = some ack4.srcInc ∧ ack4.dstInc = s.inc

theorem meets_ack_counted : ∃ (s : State), Acks4 s ∧ Store.find 4 s.reqs = none ∧ s.counts 4 = true :=
  ⟨wAckCounted, by decide +kernel⟩

theorem meets_ack_launch : ∃ (s : State), Acks4 s ∧ Store.find 4 s.reqs = none ∧ s.counts 4 = true :=
  ⟨wAckLaunch, by decide +kernel⟩

theorem meets_ack_strong : ∃ (s : State) (o : OutReq) (d : List Byte) (lab : Label), Acks4 s ∧ Store.find 4 s.reqs = some o ∧
    o.accepted = true ∧ o.who = .lane 0 0 0 0 ∧ partStands s 0 0 0 0 = some (.taken d lab) :=
  ⟨wAckStrong, theReq wAckStrong, [], 0, by decide +kernel⟩

theorem meets_ack_relay : ∃ (s : State) (o : OutReq), Acks4 s ∧ Store.find 4 s.reqs = some o ∧ o.accepted = true ∧ o.who = .relay 2 9 :=
  ⟨wAckRelay, theReq wAckRelay, by decide +kernel⟩

theorem meets_ack_engine : ∃ (s : State) (o : OutReq), Acks4 s ∧ Store.find 4 s.reqs = some o ∧ o.accepted = true ∧ o.who = .signal 0
    ∧ ∃ b ∈ s.bufs, b.req = 4 ∧ b.write = true :=
  ⟨wAckEngine, theReq wAckEngine, by decide +kernel⟩

/-! HoldersServeAndOwnershipMoves -/

/-- A request of another kind than a knot's, and not for a line's ownership. -/
abbrev Plain (r : Request) : Prop := r.kind ≠ .knot ∧ (r.owned && reqWrites r) = false

/-- It can be read. -/
abbrev Readable (s : State) (r : Request) : Prop :=
  reqReads r = true → s.mem.label 0x20000 ≠ 3 ∧ s.mem.poisoned 0x20000 = false

/-- A whole request is due at 0x20000, and nothing holds it back. -/
abbrev DueWhole (s : State) (r : Request) : Prop :=
  Plain r ∧ r.stage = .whole ∧ Holds s r 0x20000 ∧ Readable s r ∧ freeToServe s 0x20000 (s.unitsAway r 0x20000)

theorem due_of {s : State} {r : Request} (h : DueWhole s r) : dueAt s r 0x20000 := .inl ⟨h.2.1, h.2.2.1, h.2.2.2.1⟩

theorem free_of {s : State} {q n : Nat} (h : s.scrubHeld (BitVec.ofNat 57 q) = false ∧ s.ownedAway q = false ∧ n = 0) :
    freeToServe s q n := ⟨h.1, h.2.1, .inl h.2.2⟩

theorem meets_holder_load : ∃ (s : State) (r : Request), DueWhole s r ∧ r.kind = .load :=
  ⟨wHold, rLoad, ⟨by decide +kernel, by decide +kernel, holds_of (by decide +kernel), by decide +kernel,
    free_of (by decide +kernel)⟩, by decide +kernel⟩

theorem meets_holder_load_metered : ∃ (s : State) (r : Request), DueWhole s r ∧ 0 < s.unitsAway r 0x20000 ∧ r.kind = .load :=
  ⟨wHoldMeter, rLoad8, ⟨by decide +kernel, by decide +kernel, holds_of (by decide +kernel), by decide +kernel,
    ⟨by decide +kernel, by decide +kernel, .inr ⟨0, by decide +kernel⟩⟩⟩, by decide +kernel⟩

theorem meets_holder_store : ∃ (s : State) (r : Request), DueWhole s r ∧ r.kind = .store ∧ r.data ≠ [] ∧ r.whole = false :=
  ⟨wHold, rStore, ⟨by decide +kernel, by decide +kernel, holds_of (by decide +kernel), by decide +kernel,
    free_of (by decide +kernel)⟩, by decide +kernel⟩

theorem meets_holder_store_whole : ∃ (s : State) (r : Request), DueWhole s r ∧ r.kind = .store ∧ r.data ≠ [] ∧ r.whole = true :=
  ⟨wHoldPoison, rWhole, ⟨by decide +kernel, by decide +kernel, holds_of (by decide +kernel), by decide +kernel,
    free_of (by decide +kernel)⟩, by decide +kernel⟩

theorem meets_holder_atom : ∃ (s : State) (r : Request), DueWhole s r ∧ r.kind = .atom ∧ (r.width = 4 ∨ r.width = 8) ∧
    tyBits r.ty = 8 * r.width :=
  ⟨wHold, rAtom, ⟨by decide +kernel, by decide +kernel, holds_of (by decide +kernel), by decide +kernel,
    free_of (by decide +kernel)⟩, by decide +kernel⟩

theorem meets_holder_red : ∃ (s : State) (r : Request), DueWhole s r ∧ r.kind = .red ∧ (r.width = 4 ∨ r.width = 8) ∧
    tyBits r.ty = 8 * r.width :=
  ⟨wHold, rRed, ⟨by decide +kernel, by decide +kernel, holds_of (by decide +kernel), by decide +kernel,
    free_of (by decide +kernel)⟩, by decide +kernel⟩

theorem meets_holder_go : ∃ (s : State) (r : Request), Plain r ∧ dueAt s r 0x20000
    ∧ freeToServe s 0x20000 (s.unitsAway r 0x20000) ∧ r.stage = .go ∧ r.kind = .store ∧ r.data ≠ [] :=
  ⟨wHoldChecked, rGo, by decide +kernel, .inr (by decide +kernel), free_of (by decide +kernel), by decide +kernel⟩

theorem meets_holder_ask : ∃ (s : State) (r : Request), Plain r ∧ Holds s r 0x20000 ∧ r.stage = .ask
    ∧ s.scrubHeld (BitVec.ofNat 57 0x20000) = false ∧ Readable s r :=
  ⟨wHold, rAsk, by decide +kernel, holds_of (by decide +kernel), by decide +kernel⟩

theorem meets_holder_revoked : ∃ (s : State) (r : Request), Plain r ∧ r.stage = .whole ∧
    s.incOf r.src = some r.srcInc ∧ r.dstInc = s.inc ∧ s.isRevoked r = true :=
  ⟨wHoldRevoked, rLoad, by decide +kernel⟩

theorem meets_holder_not : ∃ (s : State) (r : Request), Plain r ∧ r.stage = .ask ∧
    s.incOf r.src = some r.srcInc ∧ r.dstInc = s.inc ∧ s.isRevoked r = false ∧ s.servedAt r = none ∧ s.hasStub r = false :=
  ⟨wHoldNot, rAsk, by decide +kernel⟩

theorem meets_holder_label_3 : ∃ (s : State) (r : Request), Plain r ∧ Holds s r 0x20000 ∧ r.stage = .whole ∧
    s.scrubHeld (BitVec.ofNat 57 0x20000) = false ∧ reqReads r = true ∧ s.mem.label 0x20000 = 3 :=
  ⟨wHoldLabel3, rLoad, by decide +kernel, holds_of (by decide +kernel), by decide +kernel⟩

theorem meets_holder_poison : ∃ (s : State) (r : Request), Plain r ∧ Holds s r 0x20000 ∧ r.stage = .whole ∧
    s.scrubHeld (BitVec.ofNat 57 0x20000) = false ∧ reqReads r = true ∧ s.mem.label 0x20000 ≠ 3 ∧
    s.mem.poisoned 0x20000 = true :=
  ⟨wHoldPoison, rLoad, by decide +kernel, holds_of (by decide +kernel), by decide +kernel⟩

theorem meets_holder_scrub : ∃ (s : State) (r : Request), Plain r ∧ Holds s r 0x20000 ∧ r.stage = .whole ∧ Readable s r ∧
    s.scrubHeld (BitVec.ofNat 57 0x20000) = true :=
  ⟨wHoldScrub, rLoad, by decide +kernel, holds_of (by decide +kernel), by decide +kernel⟩

theorem meets_holder_away : ∃ (s : State) (r : Request), Plain r ∧ Holds s r 0x20000 ∧ r.stage = .whole ∧ Readable s r ∧
    s.scrubHeld (BitVec.ofNat 57 0x20000) = false ∧ Store.find (0x20000 / 64) s.owners = some (2, 0x20000) :=
  ⟨wHoldAway, rLoad, by decide +kernel, holds_of (by decide +kernel), by decide +kernel⟩

theorem meets_ownership : ∃ (s : State) (r : Request), Holds s r 0x20000 ∧
    freeToServe s 0x20000 (if s.mem.label 0x20000 = 2 then 2 else 0) ∧ r.kind ≠ .knot ∧ r.owned = true ∧ reqWrites r = true ∧
    r.stage = .whole ∧ peerOf (BitVec.ofNat 57 0x20000) = s.peer ∧ s.mem.label 0x20000 ≠ 3 ∧ s.mem.poisoned 0x20000 = false :=
  ⟨wHold, rOwn, holds_of (by decide +kernel), free_of (by decide +kernel), by decide +kernel⟩

theorem meets_ownership_of_owned : ∃ (s : State) (r : Request) (o : Peer × Fab), Holds s r 0x20000 ∧ r.kind ≠ .knot ∧ r.owned = true ∧
    reqWrites r = true ∧ r.stage = .whole ∧ peerOf (BitVec.ofNat 57 0x20000) = s.peer ∧ s.mem.label 0x20000 ≠ 3 ∧
    s.mem.poisoned 0x20000 = false ∧ s.scrubHeld (BitVec.ofNat 57 0x20000) = false ∧
    Store.find (0x20000 / 64) s.owners = some o ∧ o.1 ≠ r.src :=
  ⟨wHoldAway, rOwn, (2, 0x20000), holds_of (by decide +kernel), by decide +kernel⟩

/-- A packet of peer 1 that names current incarnations. -/
def now1 : Packet := { src := 1, srcInc := 2, dstInc := 1 }

theorem meets_recall : ∃ (s : State) (p : Packet) (line : Fab) (o : Owned), current s p
    ∧ Store.find (line.toNat / 64) s.ownedHere = some o ∧ o.lab = some 1 ∧ o.hot = false :=
  ⟨wRecall, now1, BitVec.ofNat 57 (2 ^ 45 + 64), { bytes := line64, origin := 1, lab := some 1 }, by unfold current; decide +kernel⟩

theorem meets_recall_clean : ∃ (s : State) (p : Packet) (line : Fab) (o : Owned), current s p
    ∧ Store.find (line.toNat / 64) s.ownedHere = some o ∧ o.lab = none ∧ o.hot = false :=
  ⟨wRecall, now1, BitVec.ofNat 57 (2 ^ 45 + 128), { bytes := line64, origin := 1 }, by unfold current; decide +kernel⟩

theorem meets_recall_metered : ∃ (s : State) (p : Packet) (line : Fab) (o : Owned), current s p
    ∧ Store.find (line.toNat / 64) s.ownedHere = some o ∧ o.hot = true ∧ s.admits o.fn 2 = true :=
  ⟨wRecall2, now1, BitVec.ofNat 57 (2 ^ 45 + 64), { bytes := line64, origin := 1, lab := some 2, carried := 2 }, by unfold current; decide +kernel⟩

theorem meets_recall_before_grant : ∃ (s : State) (p : Packet) (line : Fab), current s p
    ∧ Store.find (line.toNat / 64) s.ownedHere = none ∧ s.grantDue (line.toNat / 64) p.src = true :=
  ⟨wGrant, now1, 0x20000, by unfold current; decide +kernel⟩

theorem meets_recall_given_up : ∃ (s : State) (p : Packet) (line : Fab), current s p
    ∧ Store.find (line.toNat / 64) s.ownedHere = none ∧ s.grantDue (line.toNat / 64) p.src = false :=
  ⟨wRecall, now1, 0x20000, by unfold current; decide +kernel⟩

theorem meets_write_back : ∃ (s : State) (p : Packet) (data : List Byte), current s p ∧ p.ack ≠ none ∧ data.length = 64
    ∧ s.owners.find? (fun c => decide (c.2.2 = 0x30000) && decide (c.2.1 = p.src)) = some (0x800, p.src, 0x30000) :=
  ⟨wWriteBack, { now1 with ack := some 3 }, line64, by unfold current; decide +kernel⟩

theorem meets_grant : ∃ (s : State) (p : Packet) (o : OutReq) (data : List Byte), current s p ∧ data.length = 64 ∧
    s.reqs.filter (fun c => c.2.byOwner (0x20000 / 64)) = [(4, o)] ∧ o.who = .lane 0 0 0 0 ∧
    (s.partOfReq 4 0 0 0 0).isSome = true ∧ partStands s 0 0 0 0 = some .sent ∧
    ∀ b ∈ s.bufs, b.req ≠ 4 :=
  ⟨wGrant, now1, theReq wGrant, line64, by unfold current; decide +kernel⟩

/-! QueuesTakePackets -/

theorem meets_queue_registers : ∃ (s : State), s.booted = true :=
  ⟨wPacket, by decide +kernel⟩

theorem meets_launch_packet : ∃ (s : State) (p : BitVec 512), s.offer 0 5 = some p ∧ s.first 0 5 p = true ∧ packetType p = 1 ∧
    (packetLaunch s p).reasons (bitsAt (s.queue 0 5).ctl 6 2) (s.func 0).secmode = [] ∧
    s.target (.queue 0 5) 0 (packetLaunch s p).ceil {} (BitVec.ofNat 64 (packetLaunch s p).entry) = .ok ∧
    (packetLaunch s p).bindAddr = 0 ∧ (s.func 0).grants = [] :=
  ⟨wPacket, launchPacket, by decide +kernel, by decide +kernel, by decide +kernel⟩

theorem meets_launch_packet_no_entry : ∃ (s : State) (p : BitVec 512) (c : Byte) (a : DWord), s.offer 0 5 = some p ∧
    s.first 0 5 p = true ∧ packetType p = 1 ∧
    (packetLaunch s p).reasons (bitsAt (s.queue 0 5).ctl 6 2) (s.func 0).secmode = [] ∧
    s.target (.queue 0 5) 0 (packetLaunch s p).ceil {} (BitVec.ofNat 64 (packetLaunch s p).entry) = .fault c a :=
  ⟨wPacketNoPage, launchPacket ||| BitVec.ofNat 512 (gib 9 * 2 ^ 64), 1, BitVec.ofNat 64 (gib 9 + 0x10000),
    by decide +kernel, by decide +kernel, by decide +kernel⟩

theorem meets_launch_packet_refused : ∃ (s : State) (p : BitVec 512), s.offer 0 5 = some p ∧ s.first 0 5 p = true ∧
    packetType p = 1 ∧ (packetLaunch s p).reasons (bitsAt (s.queue 0 5).ctl 6 2) (s.func 0).secmode ≠ [] ∧
    signalPlace s 0 3 (recAt p 56 8) 0x60008 :=
  ⟨wPacketBad, launchPacket ||| BitVec.ofNat 512 (2 ^ 21 + 2 ^ 255 + 3 * 2 ^ 10),
    by decide +kernel, by decide +kernel, by decide +kernel, by decide +kernel, signal_of (by decide +kernel)⟩

theorem meets_packet_of_no_type : ∃ (s : State) (p : BitVec 512), s.offer 0 5 = some p ∧ s.first 0 5 p = true ∧
    packetType p ≠ 1 ∧ packetType p ≠ 2 ∧ packetType p ≠ 3 ∧ signalPlace s 0 3 (recAt p 56 8) 0x60008 :=
  ⟨wPacketType, BitVec.ofNat 512 (pack [(0, 4), (448, 0x60008)]),
    by decide +kernel, by decide +kernel, by decide +kernel, by decide +kernel, by decide +kernel, signal_of (by decide +kernel)⟩

theorem meets_packet_not_read : ∃ (s : State), s.packetRead 0 5 = some (.fault 1 (BitVec.ofNat 64 (gib 9))) :=
  ⟨wPacketUnread, by decide +kernel⟩

theorem meets_barrier_and : ∃ (s : State) (p : BitVec 512), s.offer 0 5 = some p ∧ s.first 0 5 p = true ∧
    otherReasons p (bitsAt (s.queue 0 5).ctl 6 2) = [] ∧ packetType p = 2 :=
  ⟨wBarrierAnd, barrierAnd 0x50008, by decide +kernel, by decide +kernel, by decide +kernel⟩

theorem meets_signal_packet : ∃ (s : State) (p : BitVec 512), s.offer 0 5 = some p ∧ s.first 0 5 p = true ∧
    otherReasons p (bitsAt (s.queue 0 5).ctl 6 2) = [] ∧ packetType p = 3 ∧ signalPlace s 0 3 (recAt p 56 8) 0x60008 :=
  ⟨wSignal, BitVec.ofNat 512 (pack [(0, 3), (64, 0x123456789), (448, 0x60008)]),
    by decide +kernel, by decide +kernel, by decide +kernel, by decide +kernel, signal_of (by decide +kernel)⟩

theorem meets_barrier_set : ∃ (s : State) (p : BitVec 512), (s.queue 0 5).held = some p ∧ s.asking (.queue 0 5) = false ∧
    signalPlace s 0 3 (recAt p 56 8) 0x60008 ∧ ∀ n, n < 5 → (recAt p (8 + 8 * n) 8 = 0 ∨ ∃ bs lab,
    (s.devRead (.queue 0 5) 0 3 { trailing := false } (BitVec.ofNat 64 (recAt p (8 + 8 * n) 8)) 8) = .ok bs lab ∧
    (bs.getD 7 0).getLsbD 7 = true) :=
  ⟨wBarrierSet, barrierAnd 0x50008,
    by decide +kernel, by decide +kernel, signal_of (by decide +kernel), words_set (by decide +kernel)⟩

theorem meets_barrier_fault : ∃ (s : State) (p : BitVec 512), (s.queue 0 5).held = some p ∧ s.asking (.queue 0 5) = false ∧
    signalPlace s 0 3 (recAt p 56 8) 0x60008 ∧ (∀ n, n < 1 → (recAt p (8 + 8 * n) 8 = 0 ∨ ∃ bs lab,
    (s.devRead (.queue 0 5) 0 3 { trailing := false } (BitVec.ofNat 64 (recAt p (8 + 8 * n) 8)) 8) = .ok bs lab ∧
    (bs.getD 7 0).getLsbD 7 = true)) ∧ recAt p 16 8 ≠ 0 ∧
    (s.devRead (.queue 0 5) 0 3 { trailing := false } (BitVec.ofNat 64 (recAt p (8 + 8 * 1) 8)) 8) = .fault 1 (BitVec.ofNat
      64 (gib 9)) :=
  ⟨wBarrierFault, barrierAnd (gib 9),
    by decide +kernel, by decide +kernel, signal_of (by decide +kernel), words_set (by decide +kernel), by decide +kernel⟩

/-! CoilsStartAndMove, StrandsAndLaunchesEnd -/

theorem meets_arguments_read : ∃ (s : State) (L : Launch) (bs : List Byte) (lab : Label), Store.find 1 s.launches = some L ∧
    L.ending = none ∧ L.nextCoil < L.coils ∧ L.argsRead = false ∧ s.asking (.cp 1) = false ∧
    s.devRead (.cp 1) L.fn L.ceil {} (BitVec.ofNat 64 L.argAddr) 64 = .ok bs lab ∧
    recAt (BitVec.ofNat 512 (leNat bs)) 56 8 = 0 :=
  ⟨wArgs, launchAt wArgs 1, (gotBytes (wArgs.devRead (.cp 1) 0 (launchAt wArgs 1).ceil {} (BitVec.ofNat 64 (launchAt wArgs 1).argAddr) 64)).1, (gotBytes (wArgs.devRead (.cp 1) 0 (launchAt wArgs 1).ceil {} (BitVec.ofNat 64 (launchAt wArgs 1).argAddr) 64)).2,
    by decide +kernel⟩

theorem meets_arguments_not_read : ∃ (s : State) (L : Launch) (c : Byte) (a : DWord), Store.find 1 s.launches = some L ∧
    L.ending = none ∧ L.nextCoil < L.coils ∧ L.argsRead = false ∧ s.asking (.cp 1) = false ∧
    s.devRead (.cp 1) L.fn L.ceil {} (BitVec.ofNat 64 L.argAddr) 64 = .fault c a :=
  ⟨wArgsSpill, launchAt wArgsSpill 1, (gotFault (wArgsSpill.devRead (.cp 1) 0 (launchAt wArgsSpill 1).ceil {} (BitVec.ofNat 64 (launchAt wArgsSpill 1).argAddr) 64)).1, (gotFault (wArgsSpill.devRead (.cp 1) 0 (launchAt wArgsSpill 1).ceil {} (BitVec.ofNat 64 (launchAt wArgsSpill 1).argAddr) 64)).2,
    by decide +kernel⟩

theorem meets_coil_placed : ∃ (s : State) (L : Launch) (hs : List Share), Store.find 1 s.launches = some L ∧ L.ending = none ∧
    L.nextCoil < L.coils ∧ L.argsRead = true ∧ s.nextPlan L = some hs ∧ s.strands.length + hs.length < 2 ^ 32 ∧
    Store.find s.nextCtx s.strands = none :=
  ⟨wPlace, launchAt wPlace 1, (wPlace.nextPlan (launchAt wPlace 1)).getD [], by decide +kernel⟩

theorem meets_coil_placed_pairs : ∃ (s : State) (L : Launch) (hs : List Share), Store.find 1 s.launches = some L ∧
    L.ending = none ∧ L.nextCoil < L.coils ∧ L.argsRead = true ∧ s.nextPlan L = some hs ∧
    s.strands.length + hs.length < 2 ^ 32 ∧ Store.find s.nextCtx s.strands = none :=
  ⟨wPlacePair, launchAt wPlacePair 1, (wPlacePair.nextPlan (launchAt wPlacePair 1)).getD [], by decide +kernel⟩

theorem meets_coil_evicted : ∃ (s : State) (L : Launch), Store.find 0 s.launches = some L ∧ Store.rising s.strands = true ∧
    s.selected 0 0 = true ∧ L.matrix = true ∧ ∀ c ∈ s.strandsOf 0 0, s.evictable c.1 c.2 = true ∧ ∀ d ∈ s.strandsOf 0 0,
    d.1 ≠ c.1 → d.2.core ≠ c.2.core :=
  ⟨wEvict, launchAt wEvict 0, by decide +kernel⟩

theorem meets_coil_restored : ∃ (s : State) (L : Launch) (xs : List (Nat × Strand)) (hs : List Share),
    Store.find 0 s.launches = some L ∧ Store.rising s.strands = true ∧ s.restorePlan 0 L 0 = some (xs, hs) ∧ xs ≠ [] :=
  ⟨wRestore, launchAt wRestore 0, ((wRestore.restorePlan 0 (launchAt wRestore 0) 0).getD ([], [])).1, ((wRestore.restorePlan 0 (launchAt wRestore 0) 0).getD ([], [])).2,
    by decide +kernel⟩

theorem meets_strand_end : ∃ (s : State) (u : Strand), Store.find 0 s.strands = some u ∧ u.ended = false ∧ s.strandOver 0 u = true
    ∧ u.quiet = true :=
  ⟨wStrandEnd, wStrandEnd.strandAt 0, by decide +kernel⟩

theorem meets_strand_end_with_chunk : ∃ (s : State) (u : Strand) (C : Coll), Store.find 0 s.strands = some u ∧ u.ended = false
    ∧ s.strandOver 0 u = true ∧ u.quiet = true ∧ Store.find u.launch s.colls = some C :=
  ⟨wStrandChunk, wStrandChunk.strandAt 0, someColl, by decide +kernel⟩

theorem meets_strand_end_before_copies : ∃ (s : State) (u : Strand), Store.find 0 s.strands = some u ∧ u.ended = false
    ∧ s.strandOver 0 u = true ∧ u.quiet = false :=
  ⟨wStrandCopies, wStrandCopies.strandAt 0, by decide +kernel⟩

theorem meets_strand_freed : ∃ (s : State) (u : Strand), Store.find 0 s.strands = some u ∧ u.ended = true ∧ u.quiet = true :=
  ⟨wStrandQuiet, wStrandQuiet.strandAt 0, by decide +kernel⟩

/-- Nothing keeps a launch's completion back: its release fence, a grant to ask for, or its signal word. -/
abbrev MayComplete (s : State) (L : Launch) : Prop :=
  signalPlace s L.fn L.ceil L.signal 0x60008 ∧ Store.find 1 s.launches = some L ∧ L.granted = none ∧ s.asking (.cp 1) = false
    ∧ (L.relFence = false ∨ (L.unacked = [] ∧ ∀ r ∈ s.reqs, r.2.launch = some 1 → reqWrites r.2.req = false))

/-- It has ended: every strand of its coils has. -/
abbrev AllEnded (s : State) (L : Launch) : Prop :=
  L.coils ≤ L.nextCoil ∧ L.ended = L.coils * L.coilSize ∧ (∀ c ∈ s.strands, c.2.launch ≠ 1) ∧ Store.find 1 s.colls = none

theorem meets_launch_done : ∃ (s : State) (L : Launch), MayComplete s L ∧ AllEnded s L ∧ L.relFence = false :=
  ⟨wDone, launchAt wDone 1, ⟨signal_of (by decide +kernel), by decide +kernel⟩, by decide +kernel⟩

theorem meets_launch_done_fenced : ∃ (s : State) (L : Launch), MayComplete s L ∧ AllEnded s L ∧ L.relFence = true :=
  ⟨wDoneFence, launchAt wDoneFence 1, ⟨signal_of (by decide +kernel), by decide +kernel⟩, by decide +kernel⟩

theorem meets_launch_ended : ∃ (s : State) (L : Launch), MayComplete s L ∧ L.ending.isSome = true :=
  ⟨wDoneFault, launchAt wDoneFault 1, ⟨signal_of (by decide +kernel), by decide +kernel⟩, by decide +kernel⟩

/-! SpawnedYarnsAndWatchdogs -/

theorem meets_bin_idle : ∃ (s : State) (u : Strand) (b : Bin), s.binOf 6 = some (0, u, b) ∧ u.place.isSome = true ∧
    Store.rising s.strands = true ∧ b.released = false ∧ s.anyReady 0 = false :=
  ⟨wBinIdle, wBinIdle.strandAt 0, theBin wBinIdle, by decide +kernel⟩

theorem meets_bin_timer : ∃ (s : State) (u : Strand) (b : Bin), s.binOf 6 = some (0, u, b) ∧ u.place.isSome = true ∧
    Store.rising s.strands = true ∧ b.released = false ∧ (s.launchOf u).binTimer ≤ elapsed (s.cycles u.core) b.opened :=
  ⟨wBinTimer, wBinTimer.strandAt 0, theBin wBinTimer, by decide +kernel⟩

/-- A released bin of strand 0 may become a yarn: a slot is free, in quadrant 0. -/
abbrev MayStart (s : State) (u : Strand) (b : Bin) : Prop :=
  (∃ q, q < 4 ∧ freeIn (s.usedSlots u.core) q ≠ []) ∧ s.binOf 6 = some (0, u, b) ∧ u.place.isSome = true
    ∧ Store.rising s.strands = true ∧ b.released = true ∧ s.liveYarns 0 < 16 ∧ b.recs.length ≤ (s.launchOf u).perYarn

theorem meets_bin_yarn : ∃ (s : State) (u : Strand) (b : Bin), MayStart s u b :=
  ⟨wBinYarn, wBinYarn.strandAt 0, theBin wBinYarn, ⟨0, by decide +kernel⟩, by decide +kernel⟩

theorem meets_bin_yarn_pairs : ∃ (s : State) (u : Strand) (b : Bin), MayStart s u b ∧ (s.launchOf u).protd = true :=
  ⟨wBinPair, wBinPair.strandAt 0, theBin wBinPair, ⟨⟨0, by decide +kernel⟩, by decide +kernel⟩, by decide +kernel⟩

theorem meets_spawn_waits : ∃ (s : State) (v : Yarn) (G : Group), Store.find 0 s.yarns = some v ∧ v.group 0 = some G ∧
    G.wait = some (.spawn 0 [(0, someRecord), (1, someRecord)] []) ∧ (s.launchOf (s.strandAt v.strand)).spillAt = 0 ∧
    (s.roomFor v.strand v.stage someRecord).isSome = true ∧ s.behind 0 v.strand v.stage someRecord = false ∧ G.here ≠ none ∧
    s.spawnFull (who s) ((who s).spawnFaults ((who s).lanes (ops s)) []) = false :=
  ⟨wSpawnWait, wSpawnWait.yarnAt 0, (who wSpawnWait).g, by decide +kernel⟩

/-- Strand 0's oldest spilled record is read. -/
abbrev Spilled (s : State) (L : Launch) (bs : List Byte) (lab : Label) : Prop :=
  L = s.launchOf (s.strandAt 0) ∧ L.spilled = [(0, 1, 0x10000), (0, 2, 0x10000)] ∧ (s.strandAt 0).place.isSome = true
    ∧ Store.find (s.strandAt 0).launch s.launches = some L
    ∧ (s.devRead (.spill 0) L.fn L.ceil { trailing := false }
      (BitVec.ofNat 64 (L.spillBase.toNat + 64 * (L.spillR % L.spillCap))) 64) = .ok bs lab

theorem meets_spill_back : ∃ (s : State) (L : Launch) (bs : List Byte) (lab : Label),
    signalPlace s L.fn L.ceil (L.spillAt.toNat + 16) 0x60010 ∧ Spilled s L bs lab ∧
    ((BitVec.ofNat 512 (leNat bs)).extractLsb' 85 2).toNat ≤ L.ceil ∧ (s.placeBin 0 1 (BitVec.ofNat 512 (leNat bs))).isSome = true :=
  ⟨wSpillBack, launchAt wSpillBack 0, (gotBytes (spillRead wSpillBack)).1, (gotBytes (spillRead wSpillBack)).2,
    signal_of (by decide +kernel), by decide +kernel⟩

theorem meets_spill_broken : ∃ (s : State) (L : Launch) (bs : List Byte) (lab : Label),
    signalPlace s L.fn L.ceil (L.spillAt.toNat + 16) 0x60010 ∧ Spilled s L bs lab ∧
    recBad L.alloc (BitVec.ofNat 512 (leNat bs)) = true :=
  ⟨wSpillBad, launchAt wSpillBad 0, (gotBytes (spillRead wSpillBad)).1, (gotBytes (spillRead wSpillBad)).2,
    signal_of (by decide +kernel), by decide +kernel⟩

theorem meets_spill_above : ∃ (s : State) (L : Launch) (bs : List Byte) (lab : Label), Spilled s L bs lab ∧
    recBad L.alloc (BitVec.ofNat 512 (leNat bs)) = false ∧ L.ceil < ((BitVec.ofNat 512 (leNat bs)).extractLsb' 85 2).toNat ∧
    L.ending = none :=
  ⟨wSpillAbove, launchAt wSpillAbove 0, (gotBytes (spillRead wSpillAbove)).1, (gotBytes (spillRead wSpillAbove)).2,
    by decide +kernel⟩

theorem meets_watchdog : ∃ (s : State) (u : Strand) (L : Launch), Store.find 0 s.strands = some u ∧
    Store.find u.launch s.launches = some L ∧ u.place.isSome = true ∧ 0 < (u.point 3).arr ∧ (u.point 3).arr < 65536 ∧
    (u.point 3).fired = false ∧ 2 ^ (16 + L.exponent) ≤ elapsed (s.cycles u.core) (u.point 3).first ∧
    ((u.point 3).exp < 65536 ∧ u.launch < 2 ^ 32 ∧ u.index < 64 ∧ u.at_.die < 4 ∧ u.at_.core < 64) ∧ ∃ c ∈ s.yarns,
    ∃ g ∈ c.2.groups, g.wait = some (.rdv 0 3 false) :=
  ⟨wWatchdog, wWatchdog.strandAt 0, launchAt wWatchdog 0, by decide +kernel⟩

theorem meets_watchdog_caught : ∃ (s : State) (u : Strand) (L : Launch), Store.find 0 s.strands = some u ∧
    Store.find u.launch s.launches = some L ∧ u.place.isSome = true ∧ 0 < (u.point 3).arr ∧ (u.point 3).fired = false ∧
    2 ^ (16 + L.exponent) ≤ elapsed (s.cycles u.core) (u.point 3).first ∧ L.debug = true ∧ s.attached L.fn = true ∧
    (s.func L.fn).session = some { catchWatchdog := true } ∧ ∃ c ∈ s.yarns, ∃ g ∈ c.2.groups,
    g.wait = some (.rdv 0 3 false) :=
  ⟨wWatchdogFid, wWatchdogFid.strandAt 0, launchAt wWatchdogFid 0, by decide +kernel⟩

/-! CopiesAndRemoteSignals -/

/-- Channel 3 works on a copy that has a sector left; it need not stay queued. -/
abbrev CopyDue (s : State) (u : Strand) (c : Copy) : Prop :=
  s.moving 0 3 = some (u, c) ∧ c.run.off < tSize c.record ∧ (c.run.state = .queued → s.leavingOf u = false)

/-- Its indexes are read, and no write of its sector is under way. -/
abbrev CopyFresh (s : State) (c : Copy) : Prop :=
  ¬ (tKind c.record = 3 ∧ c.idx.length < tRows c.record) ∧
    ∀ b ∈ s.bufs, b.write = true → b.va ≠ BitVec.ofNat 64 (destOf c.record (tDest c.record c.start) c.run.off)

theorem meets_copy_begins : ∃ (s : State) (u : Strand) (c : Copy), CopyDue s u c ∧ CopyFresh s c ∧ c.run.state = .queued :=
  ⟨wCopyQueued, wCopyQueued.strandAt 0, theCopy wCopyQueued, by decide +kernel⟩


theorem meets_copy_to_pad : ∃ (s : State) (u : Strand) (c : Copy) (bs : List Byte) (labs : List Label),
    CopyDue s u c ∧ CopyFresh s c ∧
    s.copyData (s.copyJob 0 u c) c = .ok bs labs ∧ bs.length = 32 ∧ labs.length = 4 ∧ tBarOn c.record = false ∧
    tKind c.record ≠ 4 ∧ tFlag c.record 1 = true ∧ (destOf c.record (tDest c.record c.start) c.run.off) % 8 = 0 ∧ ∀ l ∈ labs,
    (lmax c.floor l).toNat ≤ (s.launchOf u).ceil :=
  ⟨wCopyPad, wCopyPad.strandAt 0, theCopy wCopyPad, (dataBytes wCopyPad).1, (dataBytes wCopyPad).2, by decide +kernel⟩

theorem meets_copy_to_memory : ∃ (s : State) (u : Strand) (c : Copy) (bs : List Byte) (labs : List Label),
    CopyDue s u c ∧ (CopyFresh s c ∧
    s.copyData (s.copyJob 0 u c) c = .ok bs labs ∧ bs.length = 32 ∧ labs.length = 4 ∧ tBarOn c.record = false ∧
    tKind c.record ≠ 4 ∧ tFlag c.record 1 = false) ∧ ∃ p,
    writePlace s (s.launchOf u).fn (s.launchOf u).ceil (labs.foldl lmax 0) (destOf c.record (tDest c.record c.start)
      c.run.off) p 0x28020 :=
  ⟨wCopyMem, wCopyMem.strandAt 0, theCopy wCopyMem, (dataBytes wCopyMem).1, (dataBytes wCopyMem).2,
    by decide +kernel, by decide +kernel, writePage wCopyMem 3 0 0x28020, write_of (by decide +kernel)⟩

theorem meets_copy_to_slice : ∃ (s : State) (u : Strand) (c : Copy) (bs : List Byte) (labs : List Label),
    CopyDue s u c ∧ CopyFresh s c ∧
    s.copyData (s.copyJob 0 u c) c = .ok bs labs ∧ bs.length = 32 ∧ labs.length = 4 ∧ tBarOn c.record = false ∧
    tKind c.record = 4 ∧ (labs.foldl lmax c.floor).toNat ≤ (s.launchOf u).ceil :=
  ⟨wDeck, wDeck.strandAt 0, theCopy wDeck, (dataBytes wDeck).1, (dataBytes wDeck).2, by decide +kernel⟩

theorem meets_copy_credits_barrier : ∃ (s : State) (u : Strand) (c : Copy) (bs : List Byte) (labs : List Label),
    CopyDue s u c ∧ (CopyFresh s c ∧
    s.copyData (s.copyJob 0 u c) c = .ok bs labs ∧ tBarOn c.record = true ∧ tKind c.record ≠ 4 ∧ tKind c.record ≠ 5 ∧
    tFlag c.record 1 = false ∧ barSectors (u.bar (tBar c.record)) + 2 ^ 43 ≠ 0) ∧ ∃ p,
    writePlace s (s.launchOf u).fn (s.launchOf u).ceil (labs.foldl lmax 0) (destOf c.record (tDest c.record c.start)
      c.run.off) p 0x28020 :=
  ⟨wCopyBar, wCopyBar.strandAt 0, theCopy wCopyBar, (dataBytes wCopyBar).1, (dataBytes wCopyBar).2,
    by decide +kernel, by decide +kernel, writePage wCopyBar 3 0 0x28020, write_of (by decide +kernel)⟩

theorem meets_copy_index : ∃ (s : State) (u : Strand) (c : Copy), CopyDue s u c ∧
    tKind c.record = 3 ∧ c.idx.length < tRows c.record ∧
    s.devRead (.engine 0 3) (s.launchOf u).fn (s.launchOf u).ceil (s.copyJob 0 u c).el (BitVec.ofNat 64 (tAux c.record + 4 *
      c.idx.length)) 4 = .ok [1, 0, 0, 0] 0 :=
  ⟨wGather, wGather.strandAt 0, theCopy wGather, by decide +kernel⟩

theorem meets_copy_faults : ∃ (s : State) (u : Strand) (c : Copy) (k : Byte) (a : DWord), CopyDue s u c ∧ CopyFresh s c ∧
    s.copyData (s.copyJob 0 u c) c = .fault k a ∧ repairable k = true :=
  ⟨wCopyFault, wCopyFault.strandAt 0, theCopy wCopyFault, (dataFault wCopyFault).1, (dataFault wCopyFault).2,
    by decide +kernel⟩

theorem meets_copy_ends_launch : ∃ (s : State) (u : Strand) (c : Copy) (k : Byte) (a : DWord), CopyDue s u c ∧ CopyFresh s c ∧
    s.copyData (s.copyJob 0 u c) c = .fault k a ∧ repairable k = false ∧ (Store.find u.launch s.launches).isSome = true :=
  ⟨wCopyEnds, wCopyEnds.strandAt 0, theCopy wCopyEnds, (dataFault wCopyEnds).1, (dataFault wCopyEnds).2, by decide +kernel⟩

theorem meets_copy_done : ∃ (s : State) (u : Strand) (c : Copy), s.moving 0 3 = some (u, c) ∧ tSize c.record ≤ c.run.off
    ∧ ∀ b ∈ (s.func (s.launchOf u).fn).bounce, b.2.by_ ≠ some u.launch :=
  ⟨wCopyDone, wCopyDone.strandAt 0, theCopy wCopyDone, by decide +kernel⟩

theorem meets_remote_signal : ∃ (s : State) (u : Strand), Store.find 0 s.strands = some u ∧ 0x80 + 16 ≤ (s.launchOf u).alloc ∧
    barSectors (u.bar 0x80) + 2 ^ 43 ≠ 0 :=
  ⟨wSignalBar, wSignalBar.strandAt 0, by decide +kernel⟩

theorem meets_remote_signal_gone : ∃ (s : State), Store.find 9 s.strands = none ∧ s.inc + 1 ≠ s.inc :=
  ⟨wSignalBar, by decide +kernel⟩

/-! MatrixRuns -/

/-- The context runs an operation through its steps. -/
abbrev Steps (s : State) (u : Strand) (o : MOp) : Prop :=
  s.running 0 = some (u, o) ∧ o.stage = .steps ∧ o.run.state ≠ .faulted ∧ o.hold = false

/-- Its next step, which puts no label above the ceiling down. -/
abbrev NextStep (s : State) (u : Strand) (o : MOp) (zeroed : Bool) : Prop :=
  Steps s u o ∧ o.progress < pbSteps o.block ∧ decide (o.progress = 0 ∧ pbZero o.block = true) = zeroed
    ∧ s.slotBusy 0 (pbSlot o.block) o.seq = false ∧ s.leavingOf u = false
    ∧ ((List.range 128).foldl (fun m i => lmax m (u.rowA o.fw o.block (o.progress + 1) i).2)
      (lmax (lmax o.lab (s.coreAt u.core).sliceLab) (if zeroed then 0 else ((s.coreAt u.core).slot (pbSlot o.block)).lab))).toNat
      ≤ (s.launchOf u).ceil

theorem meets_kstep : ∃ (s : State) (u : Strand) (o : MOp), NextStep s u o false :=
  ⟨wKstep, wKstep.strandAt 0, theOp wKstep, by decide +kernel⟩

theorem meets_kstep_checks : ∃ (s : State) (u : Strand) (o : MOp), NextStep s u o false ∧ pbCheck o.block = true :=
  ⟨wKstepCheck, wKstepCheck.strandAt 0, theOp wKstepCheck, by decide +kernel⟩

theorem meets_kstep_zeroes : ∃ (s : State) (u : Strand) (o : MOp), NextStep s u o true :=
  ⟨wKstepZero, wKstepZero.strandAt 0, theOp wKstepZero, by decide +kernel⟩

theorem meets_operation_ends : ∃ (s : State) (u : Strand) (o : MOp), Steps s u o ∧
    pbSteps o.block ≤ o.progress ∧ pbStore o.block = 0xFFFF ∧ pbCheck o.block = true :=
  ⟨wEpiEnd, wEpiEnd.strandAt 0, theOp wEpiEnd, by decide +kernel⟩

theorem meets_epilogue : ∃ (s : State) (u : Strand) (o : MOp), Steps s u o ∧
    pbSteps o.block ≤ o.progress ∧ pbStore o.block ≠ 0xFFFF ∧ pbCheck o.block = false :=
  ⟨wEpiStore, wEpiStore.strandAt 0, theOp wEpiStore, by decide +kernel⟩

theorem meets_check_fails : ∃ (s : State) (u : Strand) (o : MOp), Steps s u o ∧
    pbSteps o.block ≤ o.progress ∧ pbStore o.block ≠ 0xFFFF ∧ pbCheck o.block = true ∧
    (Store.find u.launch s.launches).isSome = true ∧ bitsAt (s.func (s.launchOf u).fn).policy 2 2 = 1 ∧
    ckColumn (pbSteps o.block) ((List.range 128).map (fun i => wordAt ((s.coreAt u.core).slot (pbSlot o.block)).acc (128 * i
      + 0))) (wordAt ((s.coreAt u.core).slot (pbSlot o.block)).ck 0) (wordAt ((s.coreAt u.core).slot (pbSlot o.block)).mg 0)
      = some false :=
  ⟨wEpiFail, wEpiFail.strandAt 0, theOp wEpiFail, by decide +kernel⟩

/-- The store engine writes its next sector to memory here, through no bounce channel. -/
abbrev StoresSector (s : State) (u : Strand) (o : MOp) (p : Page) (q : Nat) : Prop :=
  writePlace s (s.launchOf u).fn (s.launchOf u).ceil ((s.coreAt u.core).slot (pbSlot o.block)).lab
      (destOf o.tmpl (tDest o.tmpl 0) o.run.off) p q
    ∧ s.running 0 = some (u, o) ∧ o.stage = .stored ∧ o.run.state = .running ∧ tKind o.tmpl ≠ 4 ∧ tFlag o.tmpl 1 = false
    ∧ tBarOn o.tmpl = false ∧ ∀ b ∈ (s.func (s.launchOf u).fn).bounce, b.2.by_ ≠ some u.launch

theorem meets_store_engine : ∃ (s : State) (u : Strand) (o : MOp) (p : Page) (q : Nat), StoresSector s u o p q :=
  ⟨wStoreEngine, wStoreEngine.strandAt 0, theOp wStoreEngine, writePage wStoreEngine 3 0 0x40020, 0x40020,
    write_of (by decide +kernel), by decide +kernel⟩

theorem meets_store_engine_last : ∃ (s : State) (u : Strand) (o : MOp) (p : Page) (q : Nat), StoresSector s u o p q
    ∧ tSize o.tmpl ≤ o.run.off + 32 ∧ o.srun.state = .done :=
  ⟨wStoreLast, wStoreLast.strandAt 0, theOp wStoreLast, writePage wStoreLast 3 0 (0x40000 + 65504), 0x40000 + 65504,
    ⟨write_of (by decide +kernel), by decide +kernel⟩, by decide +kernel⟩

/-! HostRepliesAndFaultRecords -/

/-- The host's reply names the parked fray of entry 3 in yarn 0. -/
abbrev Replied (s : State) (w : Word) (v : Yarn) (f : Fray) : Prop :=
  s.repliedFray 0 w = some (0, v, 3, f) ∧ Store.find 0 s.yarns = some v ∧ f.lanes ≠ 0

theorem meets_reply_repaired : ∃ (s : State) (v : Yarn) (f : Fray), (∃ l, (v.lane l).active = true) ∧ Replied s (replyWord 1) v f ∧
    bitsAt (replyWord 1) 30 2 = 1 :=
  ⟨wReply, wReply.yarnAt 0, someFray .parked, ⟨0, by decide +kernel⟩, by decide +kernel⟩

/-- A kill leaves another fibre active. -/
abbrev Kills (s : State) (v : Yarn) (f : Fray) : Prop :=
  (∃ l, l < 64 ∧ f.lanes.getLsbD l = false ∧ (v.lane l).active = true) ∧ Replied s (replyWord 2) v f
    ∧ bitsAt (replyWord 2) 30 2 = 2 ∧ (Store.find (s.strandAt v.strand).launch s.launches).isSome = true

theorem meets_reply_kill : ∃ (s : State) (v : Yarn) (f : Fray), Kills s v f :=
  ⟨wReply, wReply.yarnAt 0, someFray .parked, ⟨0, by decide +kernel⟩, by decide +kernel⟩

theorem meets_reply_kill_pairs : ∃ (s : State) (v : Yarn) (f : Fray), Kills s v f ∧ (s.launchOf (s.strandAt v.strand)).protd = true :=
  ⟨wReplyPair, wReplyPair.yarnAt 0, someFray .parked, ⟨⟨0, by decide +kernel⟩, by decide +kernel⟩, by decide +kernel⟩

theorem meets_copy_reply_repaired : ∃ (s : State) (u : Strand) (c : Copy), s.replied 0 (copyReplyWord 1) = some (0, u,
    .inl c) ∧ bitsAt (copyReplyWord 1) 30 2 = 1 ∧ (Store.find u.launch s.launches).isSome = true :=
  ⟨wCopyReply, wCopyReply.strandAt 0, theCopy wCopyReply, by decide +kernel⟩

theorem meets_reply_ignored_repaired : ∃ (s : State), s.repliedFray 0 (replyWord 1) = none ∧
    s.replied 0 (copyReplyWord 1) = none ∧ bitsAt (replyWord 1) 30 2 = 1 ∧ bitsAt (copyReplyWord 1) 30 2 = 1 :=
  ⟨wNop, by decide +kernel⟩

theorem meets_copy_reply_kill : ∃ (s : State) (u : Strand) (c : Copy), s.replied 0 (copyReplyWord 2) = some (0, u, .inl c) ∧
    bitsAt (copyReplyWord 2) 30 2 = 2 ∧ (Store.find u.launch s.launches).isSome = true :=
  ⟨wCopyReply, wCopyReply.strandAt 0, theCopy wCopyReply, by decide +kernel⟩

theorem meets_reply_ignored_kill : ∃ (s : State), s.repliedFray 0 (replyWord 2) = none ∧
    s.replied 0 (copyReplyWord 2) = none ∧ bitsAt (replyWord 2) 30 2 = 2 ∧ bitsAt (copyReplyWord 2) 30 2 = 2 :=
  ⟨wNop, by decide +kernel⟩

/-- Where the oldest waiting record of function 0 would stand: its units, the ring, the entries skipped and the room. -/
abbrev Units (r : FaultRec) : Nat := r.bytes.length / 64
abbrev Ring (s : State) : Nat := 2 ^ bitsAt (s.func 0).fqctl 0 5
abbrev Skips (s : State) (r : FaultRec) : Nat :=
  let left := Ring s - (s.func 0).fqwrite.toNat % Ring s
  if left < Units r then left else 0
abbrev Room (s : State) : Nat := Ring s - ((s.func 0).fqwrite - (s.func 0).fqread).toNat
abbrev Runs (s : State) : Prop :=
  (s.func 0).fqctl.getLsbD 5 = true ∧ 6 ≤ bitsAt (s.func 0).fqctl 0 5 ∧ bitsAt (s.func 0).fqctl 0 5 ≤ 20

theorem meets_fault_record : ∃ (s : State) (r : FaultRec), (s.func 0).waiting = [r] ∧ Runs s ∧ Skips s r + Units r ≤ Room s ∧
    r.watchdog = none :=
  ⟨wFault, ((wFault.func 0).waiting.head?).getD { bytes := [] }, by decide +kernel⟩

theorem meets_fault_record_wraps : ∃ (s : State) (r : FaultRec), (s.func 0).waiting = [r] ∧ Runs s ∧
    Skips s r + Units r ≤ Room s ∧ Skips s r ≠ 0 :=
  ⟨wFaultWrap, ((wFaultWrap.func 0).waiting.head?).getD { bytes := [] }, by decide +kernel⟩

theorem meets_fault_record_watchdog : ∃ (s : State) (r : FaultRec) (L : Launch), (s.func 0).waiting = [r] ∧ Runs s ∧
    Skips s r + Units r ≤ Room s ∧ r.watchdog = some 0 ∧ Store.find 0 s.launches = some L ∧ L.heldPolicy = false ∧
    L.policyTerminate = true :=
  ⟨wFaultDog, ((wFaultDog.func 0).waiting.head?).getD { bytes := [] }, launchAt wFaultDog 0, by decide +kernel⟩

theorem meets_fault_queue_full : ∃ (s : State) (r : FaultRec), (s.func 0).waiting = [r] ∧ Runs s ∧ Room s < Skips s r + Units r ∧
    (s.func 0).fstatus.getLsbD 1 = false :=
  ⟨wFaultFull, ((wFaultFull.func 0).waiting.head?).getD { bytes := [] }, by decide +kernel⟩

theorem meets_fault_queue_off : ∃ (s : State) (r : FaultRec), (s.func 0).waiting = [r] ∧ ¬ Runs s ∧
    (s.func 0).fstatus.getLsbD 1 = false :=
  ⟨wFaultOff, ((wFaultOff.func 0).waiting.head?).getD { bytes := [] }, by decide +kernel⟩

/-- A reply of code 0 or 3 is a write of the function's reply register. -/
theorem meets_reply_of_no_code : ∃ (s : State), s.recovery = false ∧ bitsAt (copyReplyWord 0) 30 2 = 0 ∧
    bitsAt (copyReplyWord 3) 30 2 = 3 :=
  ⟨wReply, by decide +kernel⟩

/-! HostRegistersAndWindow, ErrorsAct -/

theorem meets_registers : ∃ (s : State), s.recovery = false ∧ s.logFull = false ∧ (s.func 0).xlpend = (5, 0) :: [] ∧
    s.xlBusy 0 5 0 = false :=
  ⟨wRegs, by decide +kernel⟩

/-- The host names bytes of a page of function 0 in this package's memory. -/
abbrev Windowed (s : State) (va : DWord) (data : List Byte) (p : Page) : Prop :=
  s.recovery = false ∧ s.asking (.signal 0) = false ∧ va.toNat % 4096 + data.length ≤ 4096 ∧ s.translate 0 va = .ok p
    ∧ s.bounceOf 0 p.fab = none ∧ peerOf p.fab = s.peer

/-- The label that counts there, and the units of 32 bytes. -/
abbrev WindowLabel (s : State) (p : Page) : Label := lmax p.label (s.mem.label p.fab.toNat)
abbrev WindowUnits (va : DWord) (data : List Byte) : Nat := (va.toNat + data.length + 31) / 32 - va.toNat / 32

/-- fid is attached where a launch of function 0 allows debug, or none runs. -/
abbrev Shows (s : State) : Prop :=
  s.attached 0 = true ∧ ((∀ c ∈ s.launches, c.2.fn ≠ 0) ∨ ∃ c ∈ s.launches, c.2.fn = 0 ∧ c.2.debug = true)

/-- A read of them that is answered at once. -/
abbrev WindowReads (s : State) (va : DWord) (data : List Byte) (p : Page) (limit : Nat) : Prop :=
  Windowed s va data p ∧ s.scrubHeld p.fab = false ∧ (WindowLabel s p).toNat ≤ limit ∧ (∀ c ∈ s.tolls, c.1 ≠ .window 0)
    ∧ (WindowLabel s p = 2 → 32 * WindowUnits va data ≤ (s.func 0).metbal.toNat)

theorem meets_window_write : ∃ (s : State) (va : DWord) (data : List Byte) (p : Page), writePlace s 0 3 0 va.toNat p 0x20004 ∧
    Windowed s va data p ∧ data ≠ [] ∧ s.grantedFrame p.fab = false :=
  ⟨wWindow, 0x20004, [1, 2], windowPage wWindow, write_of (by decide +kernel), by decide +kernel⟩

theorem meets_window_read : ∃ (s : State) (va : DWord) (data : List Byte) (p : Page) (bs : List Byte) (l : Label),
    WindowReads s va data p 2 ∧ s.devRead (.signal 0) 0 3 { trailing := false } va data.length = .ok bs l ∧ WindowLabel s p = 0 :=
  ⟨wWindow, 0x20004, [1, 2], windowPage wWindow, [9, 0], 0, by decide +kernel⟩

theorem meets_window_read_metered : ∃ (s : State) (va : DWord) (data : List Byte) (p : Page) (bs : List Byte) (l : Label),
    WindowReads s va data p 2 ∧ s.devRead (.signal 0) 0 3 { trailing := false } va data.length = .ok bs l ∧ WindowLabel s p = 2 :=
  ⟨wWindow2, 0x20004, [1, 2], windowPage wWindow2, (gotBytes (windowRead wWindow2)).1, (gotBytes (windowRead wWindow2)).2,
    by decide +kernel⟩

theorem meets_window_refused : ∃ (s : State) (va : DWord) (data : List Byte) (p : Page), Windowed s va data p ∧ s.scrubHeld p.fab = false ∧
    WindowLabel s p = 3 :=
  ⟨wWindow3, 0x20004, [1, 2], windowPage wWindow3, by decide +kernel⟩

theorem meets_window_scrubbed : ∃ (s : State) (va : DWord) (data : List Byte) (p : Page), Windowed s va data p ∧
    s.scrubHeld p.fab = true :=
  ⟨wWindowScrub, 0x20004, [1, 2], windowPage wWindowScrub, by decide +kernel⟩

theorem meets_window_fid_forbidden : ∃ (s : State) (va : DWord) (data : List Byte) (p : Page), Windowed s va data p ∧
    s.attached 0 = true ∧ ¬ Shows s :=
  ⟨wWindowFidNo, 0x20004, [1, 2], windowPage wWindowFidNo, by decide +kernel⟩

theorem meets_window_fid_no_launch : ∃ (s : State) (va : DWord) (data : List Byte) (p : Page), Windowed s va data p ∧
    Shows s ∧ s.launches = [] :=
  ⟨{ wWindowFid with launches := [] }, 0x20004, [1, 2], windowPage wWindowFid, by decide +kernel⟩

theorem meets_window_fid_detached : ∃ (s : State) (va : DWord) (data : List Byte) (p : Page), Windowed s va data p ∧
    s.attached 0 = false :=
  ⟨wWindow, 0x20004, [1, 2], windowPage wWindow, by decide +kernel⟩

theorem meets_window_fid : ∃ (s : State) (va : DWord) (data : List Byte) (p : Page) (bs : List Byte) (l : Label),
    WindowReads s va data p 1 ∧ Shows s ∧ s.topMode = 0 ∧
    s.devReadBy (.signal 0) 0 3 s.routeStore va data.length = .ok bs l :=
  ⟨wWindowFid, 0x20004, [1, 2], windowPage wWindowFid, [9, 0], 0, by decide +kernel⟩

theorem meets_window_fid_refused : ∃ (s : State) (va : DWord) (data : List Byte) (p : Page), Windowed s va data p ∧
    s.scrubHeld p.fab = false ∧ Shows s ∧ s.topMode = 0 ∧ 1 < (WindowLabel s p).toNat :=
  ⟨wWindowFid2, 0x20004, [1, 2], windowPage wWindowFid2, by decide +kernel⟩

/-- fid asks about yarn 0, which is stopped, of a strand. -/
abbrev FidAsks (s : State) (v : Yarn) (u : Strand) (va : DWord) (data : List Byte) : Prop :=
  s.recovery = false ∧ s.asking (.signal 0) = false ∧ va.toNat % 4096 + data.length ≤ 4096 ∧ Store.find 0 s.yarns = some v
    ∧ Store.find v.strand s.strands = some u ∧ v.stopped = true

/-- It may, or it may not; and the units there are of labels below 2, or one above 1. -/
abbrev FidMay (s : State) (u : Strand) : Prop :=
  s.attached 0 = true ∧ (s.launchOf u).fn = 0 ∧ (s.launchOf u).debug = true

theorem meets_fid_window : ∃ (s : State) (v : Yarn) (u : Strand) (c : Lane), FidAsks s v u 8 [0, 0] ∧ FidMay s u ∧
    Store.find 0 v.lanes = some c ∧ c.wbase.toNat % 256 = 0 ∧ c.wbase.toNat + 256 ≤ (s.launchOf u).alloc ∧
    ∀ q, c.wbase.toNat + 8 ≤ q → q < c.wbase.toNat + 8 + 2 → (u.unitLabel q).toNat < 2 :=
  ⟨wFidShows, wFidShows.yarnAt 0, wFidShows.strandAt 0, (wFidShows.yarnAt 0).lane 0, by decide +kernel, by decide +kernel,
    by decide +kernel, by decide +kernel, by decide +kernel, fun q h1 h2 => by
      have h3 : 8 ≤ q := h1
      have h4 : q < 10 := h2
      interval_cases q <;> decide +kernel⟩

theorem meets_fid_window_refused : ∃ (s : State) (v : Yarn) (u : Strand) (c : Lane), FidAsks s v u 0x28 [0, 0] ∧ FidMay s u ∧
    s.topMode = 0 ∧ Store.find 0 v.lanes = some c ∧ c.wbase.toNat + 256 ≤ (s.launchOf u).alloc ∧
    1 < (u.unitLabel (c.wbase.toNat + 0x28)).toNat :=
  ⟨wFidShows, wFidShows.yarnAt 0, wFidShows.strandAt 0, (wFidShows.yarnAt 0).lane 0, by decide +kernel⟩

theorem meets_fid_window_forbidden : ∃ (s : State) (v : Yarn) (u : Strand), FidAsks s v u 8 [0, 0] ∧ ¬ FidMay s u :=
  ⟨wFidHidden, wFidHidden.yarnAt 0, wFidHidden.strandAt 0, by decide +kernel⟩

theorem meets_fid_barrier : ∃ (s : State) (v : Yarn) (u : Strand), FidAsks s v u 0x80 [] ∧ FidMay s u ∧
    0x80 + 16 ≤ (s.launchOf u).alloc ∧ ∀ q, 0x80 ≤ q → q < 0x80 + 16 → (u.unitLabel q).toNat < 2 :=
  ⟨wFidShows, wFidShows.yarnAt 0, wFidShows.strandAt 0, by decide +kernel, by decide +kernel, by decide +kernel, fun q h1 h2 => by
      have h4 : q < 0x90 := h2
      interval_cases q <;> decide +kernel⟩

theorem meets_fid_barrier_refused : ∃ (s : State) (v : Yarn) (u : Strand), FidAsks s v u 0x20 [] ∧ FidMay s u ∧ s.topMode = 0 ∧
    0x20 + 16 ≤ (s.launchOf u).alloc ∧ 1 < (u.unitLabel 0x28).toNat :=
  ⟨wFidShows, wFidShows.yarnAt 0, wFidShows.strandAt 0, by decide +kernel⟩

theorem meets_fid_timeline : ∃ (s : State) (v : Yarn) (u : Strand), FidAsks s v u 9 [] ∧ FidMay s u :=
  ⟨wFidShows, wFidShows.yarnAt 0, wFidShows.strandAt 0, by decide +kernel⟩

/-- The launch may start again after an error at a location and an address. -/
abbrev MayReplay (s : State) (L : Launch) (loc : BitVec 4) (addr : DWord) : Prop :=
  let policy := (s.func L.fn).policy
  bitsAt policy 4 2 = 2 ∧ L.replayable = true ∧ L.replays < bitsAt policy 8 2
    ∧ ¬ (loc.toNat ≤ 1 ∧ L.recurs loc.toNat (addr.toNat / 64) = true)

theorem meets_error : ∃ (s : State) (L : Launch) (loc : BitVec 4) (addr : DWord), Store.find 0 s.launches = some L ∧
    L.ending = none ∧ loc.toNat < 8 ∧ ¬ MayReplay s L loc addr :=
  ⟨wError, launchAt wError 0, 5, 0x20004, by decide +kernel⟩

theorem meets_error_replays : ∃ (s : State) (L : Launch) (loc : BitVec 4) (addr : DWord), Store.find 0 s.launches = some L ∧
    L.ending = none ∧ loc.toNat < 8 ∧ MayReplay s L loc addr ∧ Store.wf emptyByte L.snap = true ∧ L.snapPages ≠ [] :=
  ⟨wErrorAgain, launchAt wErrorAgain 0, 0, 0x20004, by decide +kernel⟩

theorem meets_error_recurs : ∃ (s : State) (L : Launch) (loc : BitVec 4) (addr : DWord), Store.find 0 s.launches = some L ∧
    L.ending = none ∧ loc.toNat < 8 ∧ L.recurs loc.toNat (addr.toNat / 64) = true ∧ ¬ MayReplay s L loc addr ∧
    MayReplay s L loc 0 :=
  ⟨wErrorTwice, launchAt wErrorTwice 0, 0, 0x20004, by decide +kernel⟩

/-! RouteMessagesAndPorts, RegulatorAndExtents -/

/-- A message of a sort speaks of a peer's record (`speaks`, unfolded). -/
abbrev Says (m : BitVec 256) (h : Peer) (sort : Nat) : Prop :=
  mKind m ≠ 3 ∧ (mPath m).getLast? = some h ∧ mSort m = sort

/-- The entry of the message's prefix. -/
abbrev EntryFor (s : State) (m : BitVec 256) : Entry :=
  (s.entryOf (mPrefix m) (mLen m)).getD { pfx := mPrefix m, len := mLen m, holders := [] }

/-- An announcement that is recorded: no path, past incarnation, rival or want of room is against it. -/
abbrev Recorded (s : State) (m : BitVec 256) (h : Peer) (kind : BitVec 2) : Prop :=
  Says m h 0 ∧ mKind m = kind ∧ (mPath m).contains s.peer = false ∧ s.incOf h = some (mInc m) ∧ s.table.length < 16384
    ∧ (EntryFor s m).at_ h = none ∧ (EntryFor s m).holders.length < 4 ∧ (mKind m = 0 → (EntryFor s m).origin = none)
    ∧ (mKind m = 1 → s.originSeq (mPrefix m) (mLen m) (mOrigin m) = none)

theorem meets_route_discarded : ∃ (m : BitVec 256), mKind m = 3 ∧ mSort m = 0 := ⟨saying 0 3 3 2, by decide +kernel⟩

theorem meets_route_discarded_withdraw : ∃ (m : BitVec 256), mKind m = 3 ∧ mSort m = 1 := ⟨saying 1 3 3 2, by decide +kernel⟩

theorem meets_route_discarded_ack : ∃ (m : BitVec 256), mKind m = 3 ∧ mSort m = 2 := ⟨saying 2 3 3 2, by decide +kernel⟩

theorem meets_route_discarded_type : ∃ (m : BitVec 256), mKind m ≠ 3 ∧ 2 < mSort m := ⟨saying 3 0 3 2, by decide +kernel⟩

theorem meets_route_recorded : ∃ (s : State) (m : BitVec 256) (h : Peer), Recorded s m h 0 ∧ (mPrefix m, mLen m, h, mIssue m) ∉ s.noted :=
  ⟨linked, mNew, 1, by decide +kernel⟩

theorem meets_route_replica_recorded : ∃ (s : State) (m : BitVec 256) (h : Peer), Recorded s m h 1 :=
  ⟨{ linked with table := idle.table }, mReplica, 1, by decide +kernel⟩

theorem meets_route_cache_recorded : ∃ (s : State) (m : BitVec 256) (h : Peer), Recorded s m h 2 :=
  ⟨linked, mCache, 1, by decide +kernel⟩

theorem meets_route_own_path : ∃ (s : State) (m : BitVec 256) (h : Peer), Says m h 0 ∧ (mPath m).contains s.peer = true :=
  ⟨linked, mOwn, 0, by decide +kernel⟩

theorem meets_route_past : ∃ (s : State) (m : BitVec 256) (h : Peer) (k : BitVec 16), Says m h 0 ∧
    (mPath m).contains s.peer = false ∧ s.incOf h = some k ∧ above k (mInc m) = true :=
  ⟨linked, mPast, 1, 2, by decide +kernel⟩

theorem meets_route_rival : ∃ (s : State) (m : BitVec 256) (h : Peer) (o : Holder), Says m h 0 ∧
    (mPath m).contains s.peer = false ∧ s.incOf h = some (mInc m) ∧ mKind m = 0 ∧ (EntryFor s m).origin = some o ∧ o.peer ≠ h ∧
    above (mSeq m) o.seq = false ∧ ¬ (mSeq m = o.seq ∧ h.toNat < o.peer.toNat) :=
  ⟨wRival, mNew, 1, ((wRival.entryOf (mPrefix mNew) (mLen mNew)).bind (·.origin)).getD (ownRecord 0),
    by decide +kernel⟩

theorem meets_route_higher : ∃ (s : State) (m : BitVec 256) (h : Peer) (k : BitVec 16), Says m h 1 ∧ s.incOf h = some k ∧
    h ≠ s.peer ∧ above (mInc m) k = true :=
  ⟨linked, saying 1 1 3 7, 1, 2, by decide +kernel⟩

/-- A withdrawal of a record that stands, and is no newer. -/
abbrev Withdrawn (s : State) (m : BitVec 256) (h : Peer) (d : Entry) (r : Holder) : Prop :=
  Says m h 1 ∧ h ≠ s.peer ∧ s.incOf h = some (mInc m) ∧ s.entryOf (mPrefix m) (mLen m) = some d ∧ d.at_ h = some r
    ∧ above r.issue (mIssue m) = false

theorem meets_route_withdrawn : ∃ (s : State) (m : BitVec 256) (h : Peer) (d : Entry) (r : Holder), Withdrawn s m h d r ∧
    s.pendingTo h (mPrefix m) (mLen m) = [] :=
  ⟨wWithdraw, mWithdraw, 1, (wWithdraw.entryOf (2 ^ 45) 30).getD ⟨0, 0, []⟩, replica, by decide +kernel⟩

theorem meets_route_withdrawn_later : ∃ (s : State) (m : BitVec 256) (h : Peer) (d : Entry) (r : Holder), Withdrawn s m h d r ∧
    s.pendingTo h (mPrefix m) (mLen m) ≠ [] :=
  ⟨wWithdrawWaits, mWithdraw, 1, (wWithdrawWaits.entryOf (2 ^ 45) 30).getD ⟨0, 0, []⟩, replica,
    by decide +kernel⟩

/-- An acknowledgement of peer 1 for the one change it names. -/
abbrev Acks (s : State) (m : BitVec 256) (c : Change) : Prop :=
  Says m 0 2 ∧ (mPath m).head? = some 1 ∧ mInc m = s.inc ∧ Store.rising s.changes = true
    ∧ s.changes.filter (fun d => decide (d.2.pfx = mPrefix m ∧ d.2.len = mLen m ∧ d.2.issue = mIssue m ∧ d.2.kind = 0)
      && !d.2.acked.contains 1) = [(6, c)]

theorem meets_route_acked : ∃ (s : State) (m : BitVec 256) (c : Change), Acks s m c ∧ ∀ q ∈ s.othersLive, q = 1 ∨ q ∈ c.acked :=
  ⟨wAckLast, mAck, (Store.find 6 wAckLast.changes).getD ⟨0, 0, 0, 0, []⟩, by decide +kernel⟩

theorem meets_route_acked_first : ∃ (s : State) (m : BitVec 256) (c : Change), Acks s m c ∧ 2 ∈ s.othersLive ∧ 2 ∉ c.acked :=
  ⟨wAckMore, mAck, (Store.find 6 wAckMore.changes).getD ⟨0, 0, 0, 0, []⟩, by decide +kernel⟩

theorem meets_route_ack_past : ∃ (s : State) (m : BitVec 256), Says m 0 2 ∧ (mPath m).head? = some 1 ∧ mInc m ≠ s.inc :=
  ⟨linked, saying 2 0 3 9 [1, 0], by decide +kernel⟩

theorem meets_port_up : ∃ (s : State), s.portFits 5 false = true ∧ s.portFits 6 true = true ∧ s.portFits 18 false = false :=
  ⟨linked, by decide +kernel⟩

theorem meets_port_down_0 : ∃ (s : State) (l : Link), Store.find 0 s.links = some l ∧ l.up = true ∧ l.trunk = false :=
  ⟨linked, (Store.find 0 linked.links).getD { far := 0 }, by decide +kernel⟩

theorem meets_port_down_1 : ∃ (s : State) (l : Link), Store.find 1 s.links = some l ∧ l.up = true ∧ l.trunk = true :=
  ⟨linked, (Store.find 1 linked.links).getD { far := 0 }, by decide +kernel⟩

theorem meets_load_decays : ∃ (s : State) (p : Peer), Store.get 0 p.toNat s.loads ≠ 0 ∧
    Store.get 0 p.toNat s.loadAt + 65536 ≤ s.now :=
  ⟨wDecay, 1, by decide +kernel⟩

theorem meets_admits : ∃ (s : State) (o : OutReq), Store.find 4 s.reqs = some o ∧ o.hold = .injection ∧
    (if s.now / 65536 = s.sentPeriod then Store.get 0 o.dst.toNat s.sent else 0) + o.req.width ≤ s.injectionRoom o.fn o.dst :=
  ⟨wAdmit, theReq wAdmit, by decide +kernel⟩

theorem meets_revocation : ∃ (s : State), { peer := 1, pfx := 0x20000, len := 40 } ∈ s.revoked ∧ s.reqs = [] ∧ s.checked = [] :=
  ⟨wRevoke, by decide +kernel⟩

/-! FlitsArrive -/

theorem meets_flit_next : ∃ (s : State) (f : Flit) (l : Link), Store.find 2 s.links = some l ∧ f.kind = 0 ∧
    flitSound f = true ∧ f.sequence = l.recvSeq ∧ f.tag = flitDataTag f l.key l.far (Config.farPort 2) :=
  ⟨wLink, goodData 5, someLink, rfl, rfl, flit_closed _, rfl, rfl⟩

theorem meets_flit_again : ∃ (s : State) (f : Flit) (l : Link), Store.find 2 s.links = some l ∧ f.kind = 0 ∧
    flitSound f = true ∧ above l.recvSeq f.sequence = true ∧ f.tag = flitDataTag f l.key l.far (Config.farPort 2) :=
  ⟨wLink, goodData 4, someLink, rfl, rfl, flit_closed _, by rfl, rfl⟩

theorem meets_flit_ahead : ∃ (s : State) (f : Flit) (l : Link), Store.find 2 s.links = some l ∧ f.kind = 0 ∧
    flitSound f = true ∧ f.sequence ≠ l.recvSeq ∧ above l.recvSeq f.sequence = false ∧
    f.tag = flitDataTag f l.key l.far (Config.farPort 2) :=
  ⟨wLink, goodData 6, someLink, rfl, rfl, flit_closed _, by simp [goodData, flitClose, someLink], rfl, rfl⟩

theorem meets_flit_unsound : ∃ (s : State) (f : Flit) (l : Link), Store.find 2 s.links = some l ∧ f.kind = 0 ∧
    ¬ flitSound f = true :=
  ⟨wLink, badCheck, someLink, rfl, rfl, bad_check⟩

theorem meets_flit_unsound_ahead : ∃ (s : State) (f : Flit) (l : Link), Store.find 2 s.links = some l ∧ f.kind = 0 ∧
    f.sequence ≠ l.recvSeq ∧ ¬ flitSound f = true :=
  ⟨wLink, badCheckAhead, someLink, rfl, rfl, by simp [badCheckAhead, goodData, flitClose, someLink], bad_check_ahead⟩

theorem meets_flit_dishonest : ∃ (s : State) (f : Flit) (l : Link), Store.find 2 s.links = some l ∧ f.kind = 0 ∧
    flitSound f = true ∧ ¬ f.tag = flitDataTag f l.key l.far (Config.farPort 2) :=
  ⟨wLink, badTag, someLink, rfl, rfl, flit_closed _, bad_tag⟩

theorem meets_flit_idle : ∃ (s : State) (f : Flit) (l : Link), Store.find 2 s.links = some l ∧ f.kind = 1 ∧
    flitSound f = true ∧ (∀ c, l.ctlIn = some c → c.toNat < (flitCounter f).toNat) ∧
    f.tag = flitCtlTag f l.key l.far (Config.farPort 2) :=
  ⟨wLink, control 1 7, someLink, rfl, rfl, flit_closed _, fun c h => by cases h; decide, rfl⟩

theorem meets_flit_idle_old : ∃ (s : State) (f : Flit) (l : Link), Store.find 2 s.links = some l ∧ f.kind = 1 ∧
    flitSound f = true ∧ ∃ c, l.ctlIn = some c ∧ (flitCounter f).toNat ≤ c.toNat :=
  ⟨wLink, control 1 7 4, someLink, rfl, rfl, flit_closed _, 4, rfl, by decide⟩

theorem meets_flit_retry : ∃ (s : State) (f : Flit) (l : Link), Store.find 2 s.links = some l ∧ f.kind = 2 ∧
    flitSound f = true ∧ (∀ c, l.ctlIn = some c → c.toNat < (flitCounter f).toNat) ∧
    f.tag = flitCtlTag f l.key l.far (Config.farPort 2) :=
  ⟨wLink, control 2 7, someLink, rfl, rfl, flit_closed _, fun c h => by cases h; decide, rfl⟩

theorem meets_flit_retry_old : ∃ (s : State) (f : Flit) (l : Link), Store.find 2 s.links = some l ∧ f.kind = 2 ∧
    flitSound f = true ∧ ∃ c, l.ctlIn = some c ∧ (flitCounter f).toNat ≤ c.toNat :=
  ⟨wLink, control 2 7 4, someLink, rfl, rfl, flit_closed _, 4, rfl, by decide⟩

theorem meets_flit_rekey : ∃ (s : State) (f : Flit) (l : Link), Store.find 2 s.links = some l ∧ f.kind = 3 ∧
    flitSound f = true ∧ (∀ c, l.ctlIn = some c → c.toNat < (flitCounter f).toNat) ∧
    f.tag = flitCtlTag f l.key l.far (Config.farPort 2) :=
  ⟨wLink, control 3 7, someLink, rfl, rfl, flit_closed _, fun c h => by cases h; decide, rfl⟩

theorem meets_flit_rekey_old : ∃ (s : State) (f : Flit) (l : Link), Store.find 2 s.links = some l ∧ f.kind = 3 ∧
    flitSound f = true ∧ ∃ c, l.ctlIn = some c ∧ (flitCounter f).toNat ≤ c.toNat :=
  ⟨wLink, control 3 7 4, someLink, rfl, rfl, flit_closed _, 4, rfl, by decide⟩

theorem meets_retrain : ∃ (s : State) (l : Link), Store.find 2 s.links = some l ∧ 17 ≤ l.retries :=
  ⟨wRetrain, { someLink with retries := 17 }, by decide +kernel⟩

theorem meets_exhausted : ∃ (s : State) (l : Link), Store.find 2 s.links = some l ∧ l.sendSeq = 0x7FFFFFFF ∧ l.stored = [] :=
  ⟨wExhausted, { someLink with sendSeq := 0x7FFFFFFF, stored := [] }, by decide +kernel⟩

theorem meets_exhausted_control : ∃ (s : State) (l : Link), Store.find 2 s.links = some l ∧ l.sendSeq ≠ 0x7FFFFFFF ∧
    0x7FFFFFFF ≤ l.ctlOut.toNat + 1 :=
  ⟨wExhaustedControl, { someLink with ctlOut := 0x7FFFFFFE }, by decide +kernel⟩

/-! CollectivesFireAndPass -/

/-- A pass comes to a member that its chunk is not of yet, which has nothing more to wait for. -/
abbrev passComes (s : State) (p : Pass) : Prop :=
  let me := p.members.findIdx (fun q => decide (q = s.peer))
  p ∉ s.passes ∧ p.back = false ∧ p.hop < dN p.desc ∧ p.members.contains s.peer = true ∧ passPeer p p.hop = s.peer ∧
    p.present.getLsbD me = false ∧ (∀ m ∈ p.marks, m.member ≠ me) ∧ s.mustAwait p = false

theorem meets_pass_own : ∃ (s : State) (p : Pass), passComes s p ∧ (s.fixedFor p).own = some 0 ∧ (s.fixedFor p).late = [] ∧
    (s.stagedAt 0 p.chunk).isSome = true ∧ p.phase = 1 :=
  ⟨wPassOwn, pFirst, by decide +kernel⟩

theorem meets_pass_own_last : ∃ (s : State) (p : Pass), passComes s p ∧ (s.fixedFor p).own = some 0 ∧ (s.fixedFor p).late = [] ∧
    (s.stagedAt 0 p.chunk).isSome = true ∧ p.phase = 1 ∧ p.hop + 1 = dN p.desc :=
  ⟨wPassOwn, pLast, by decide +kernel⟩

theorem meets_pass_scales : ∃ (s : State) (p : Pass), passComes s p ∧ (s.fixedFor p).own = some 0 ∧ (s.fixedFor p).late = [] ∧
    (s.stagedAt 0 p.chunk).isSome = true ∧ p.phase = 0 ∧ dNarrow p.desc = true :=
  ⟨wPassNarrow, pScales, by decide +kernel⟩

theorem meets_pass_sums : ∃ (s : State) (p : Pass), passComes s p ∧ (s.fixedFor p).own = some 0 ∧ (s.fixedFor p).late = [] ∧
    (s.stagedAt 0 p.chunk).isSome = true ∧ p.phase = 1 ∧ dNarrow p.desc = true :=
  ⟨wPassNarrow, pSums, by decide +kernel⟩

theorem meets_pass_absent : ∃ (s : State) (p : Pass), passComes s p ∧ (s.fixedFor p).own = none ∧ (s.fixedFor p).late = [] ∧
    p.knot ≠ none ∧ p.phase = 1 ∧ p.hop + 1 < dN p.desc :=
  ⟨wPassAbsent, pKnotSums, by decide +kernel⟩

theorem meets_pass_late : ∃ (s : State) (p : Pass) (f : Staged), passComes s p ∧ (s.fixedFor p).own = none ∧
    (s.fixedFor p).late = [0] ∧ s.stagedAt 0 p.chunk = some f ∧ f.weight = 1 ∧ f.round ≠ p.round ∧ p.phase = 1 ∧
    p.hop + 1 < dN p.desc :=
  ⟨wPassLate, pKnotSums, { staged 0 3 (some 0x28000) with ready := true }, by decide +kernel⟩

/-- Chunk 2 is due, nothing holds it back, and its bytes are asked for. -/
abbrev chunkDue (s : State) (L : Launch) (c : Coll) (got : Fetch (List Byte × Label)) : Prop :=
  let n := dChunk c.desc
  let va := bSource c.bind + 2 * dStride c.desc
  Store.find 0 s.launches = some L ∧ Store.find 0 s.colls = some c ∧ c.due.contains 2 = true ∧ L.ending = none ∧
    L.unacked = [] ∧ s.asking (.chunk 0 2) = false ∧ (s.stagedBytes = 0 ∨ s.stagedBytes + n ≤ 8 * 10 ^ 9) ∧
    s.readChunk (.chunk 0 2) c.fn c.ceil va (pageCuts va (n / 4096 + 2) 0 n) = got

theorem meets_fire_one : ∃ (s : State) (L : Launch) (c : Coll) (bs : List Byte) (lab : Label), chunkDue s L c (.ok (bs, lab)) ∧
    lab ≠ 3 ∧ ¬ dC c.desc ≤ c.fired.length + 1 :=
  ⟨wFire, launchAt wFire 0, theColl wFire, (chunkRead wFire).1, (chunkRead wFire).2, by decide +kernel⟩

theorem meets_fire_beside_others : ∃ (s : State) (L : Launch) (c : Coll) (bs : List Byte) (lab : Label),
    chunkDue s L c (.ok (bs, lab)) ∧ lab ≠ 3 ∧ ¬ dC c.desc ≤ c.fired.length + 1 ∧ s.staged ≠ [] :=
  ⟨wFireMore, launchAt wFireMore 0, theColl wFireMore, (chunkRead wFireMore).1, (chunkRead wFireMore).2, by decide +kernel⟩

theorem meets_fire_last : ∃ (s : State) (L : Launch) (c : Coll) (bs : List Byte) (lab : Label), chunkDue s L c (.ok (bs, lab)) ∧
    lab ≠ 3 ∧ dC c.desc ≤ c.fired.length + 1 ∧ c.knot = none :=
  ⟨wFireLast, launchAt wFireLast 0, theColl wFireLast, (chunkRead wFireLast).1, (chunkRead wFireLast).2, by decide +kernel⟩

theorem meets_fire_last_knot : ∃ (s : State) (L : Launch) (c : Coll) (bs : List Byte) (lab : Label),
    chunkDue s L c (.ok (bs, lab)) ∧ lab ≠ 3 ∧ dC c.desc ≤ c.fired.length + 1 ∧ c.knot ≠ none :=
  ⟨wFireKnot, launchAt wFireKnot 0, theColl wFireKnot, (chunkRead wFireKnot).1, (chunkRead wFireKnot).2, by decide +kernel⟩

theorem meets_fire_label_3 : ∃ (s : State) (L : Launch) (c : Coll) (bs : List Byte), chunkDue s L c (.ok (bs, 3)) :=
  ⟨wFire3, launchAt wFire3 0, theColl wFire3, (chunkRead wFire3).1, by decide +kernel⟩

theorem meets_fire_fault : ∃ (s : State) (L : Launch) (c : Coll) (k : Byte) (a : DWord), chunkDue s L c (.fault k a) :=
  ⟨wFireFault, launchAt wFireFault 0, theColl wFireFault, (chunkFault wFireFault).1, (chunkFault wFireFault).2, by decide +kernel⟩

theorem meets_pass_waits : ∃ (s : State) (p : Pass), p ∉ s.passes ∧ p.back = false ∧ p.phase ≠ 2 ∧ p.hop < dN p.desc ∧
    p.members.contains s.peer = true ∧ passPeer p p.hop = s.peer ∧ p.knot = none ∧ s.collOf p = some (0, theColl s) ∧
    (theColl s).fired.length < dC (theColl s).desc :=
  ⟨wPassWaits, pFirst, by decide +kernel⟩

/-- A chunk that starts its path here and is not written yet. -/
abbrev startsHere (s : State) (c : Coll) : Prop :=
  Store.find 0 s.colls = some c ∧ dN c.desc ≠ 0 ∧ 0 % dN c.desc = c.me ∧ 0 < dC c.desc ∧ c.written.contains 0 = false

theorem meets_pass_starts : ∃ (s : State) (c : Coll), startsHere s c ∧ (0, 0) ∈ c.wanted ∧ c.running.contains 0 = false ∧
    s.passes = [] ∧ c.members.contains s.peer = true :=
  ⟨wStart2, theColl wStart2, by decide +kernel⟩

theorem meets_pass_came_back : ∃ (s : State) (c : Coll) (p : Pass), startsHere s c ∧ (0, 0) ∈ c.wanted ∧
    c.running.contains 0 = false ∧ s.passes = [p] ∧ p.back = true ∧ p.chunk = 0 ∧ p.knot = c.knot ∧ p.round = c.round ∧
    ∀ w ∈ c.wanted, w.1 = 0 → p.present.getLsbD w.2 = true :=
  ⟨wCameBack, theColl wCameBack, pCameBack, by decide +kernel⟩

theorem meets_start_message : ∃ (s : State) (c : Coll), startsHere s c ∧ c.knot ≠ none ∧ c.running.contains 0 = true :=
  ⟨wStartMessage, theColl wStartMessage, by decide +kernel⟩

/-- A start message of a round to which no launch here is bound. -/
abbrev unboundHere (s : State) (p : Pass) : Prop :=
  p.knot ≠ none ∧ s.collOf p = none ∧ p.members.contains s.peer = true ∧ dN p.desc ≠ 0 ∧
    p.members.findIdx (fun q => decide (q = s.peer)) = 0

theorem meets_unbound_round : ∃ (s : State) (p : Pass), unboundHere s p ∧ s.closedHere p = false ∧
    (∀ d ∈ s.unbound, d.knot = p.knot → d.round ≠ p.round) ∧ s.passes = [] ∧ 2 % dN p.desc = 0 ∧ 2 < dC p.desc :=
  ⟨linked, pKnot, by decide +kernel⟩

theorem meets_closed_round : ∃ (s : State) (p : Pass), unboundHere s p ∧ s.closedHere p = true :=
  ⟨{ linked with lastRound := [(0x28000, 5)] }, pKnot, by decide +kernel⟩

/-! VerdictsAndResults -/

/-- The knot of address 0x28000 is this package's own, and nothing holds an operation on it back. -/
abbrev knotAtHome (s : State) (c : Entry × Holder) : Prop :=
  let q := backingOf c.1 c.2 0x28000
  s.routeStore { fab := 0x28000 } = .ok c ∧ c.2.peer = s.peer ∧ s.inSeal (BitVec.ofNat 57 q) = false ∧
    s.scrubHeld (BitVec.ofNat 57 q) = false ∧ s.awayIn q 1088 = none

theorem meets_verdict_closed : ∃ (s : State) (c : Entry × Holder), knotAtHome s c := ⟨wVerdict 1, homeOf (wVerdict 1), by decide +kernel⟩

theorem meets_verdict_short : ∃ (s : State) (c : Entry × Holder), knotAtHome s c := ⟨wVerdict 2, homeOf (wVerdict 2), by decide +kernel⟩

theorem meets_verdict_answer : ∃ (s : State) (v : Pass), v.knot = some 0x28000 ∧
    (let waits := fun (p : Pass) => p.phase = 1 ∧ p.hop = dN v.desc ∧ p.back = false ∧ p.knot = v.knot ∧ p.round = v.round ∧
      p.turn = v.turn
    (∃ p ∈ s.passes, waits p) ∧ (∃ p ∈ s.passes, ¬ waits p) ∧
      ∃ k, k < dC v.desc ∧ ∀ p ∈ s.passes, ¬ (waits p ∧ p.chunk = k)) :=
  ⟨wAnswer, pMarks, rfl, by decide +kernel⟩

/-- A published chunk is here for launch 0's result region, with bytes of it still to be written. -/
abbrev resultHere (s : State) (p : Pass) (c : Coll) (L : Launch) : Prop :=
  p.phase = 2 ∧ dN p.desc ≠ 0 ∧ p.members.contains s.peer = true ∧ p ∉ s.passes ∧ s.collOf p = some (0, c) ∧
    Store.find 0 s.colls = some c ∧ Store.find 0 s.launches = some L ∧ L.ending = none ∧ p.sent = true ∧
    p.done < p.bytes.length ∧ c.ceil ≤ 3

theorem meets_result_written : ∃ (s : State) (p : Pass) (c : Coll) (L : Launch),
    (let va := bResult c.bind + p.chunk * dStride c.desc
    ∃ pg q, writePlace s c.fn c.ceil p.label (va + p.done) pg q) ∧
    (let va := bResult c.bind + p.chunk * dStride c.desc
    resultHere s p c L ∧ s.resultBad c va p.bytes.length p.label = none ∧ (va + p.done) % 32 + (p.bytes.length - p.done) ≤ 32) :=
  ⟨wResult, pResult 96 true, theColl wResult, launchAt wResult 0,
    ⟨writePage wResult 3 0 (0x28000 + 256 + 96), 0x28000 + 256 + 96, write_of (by decide +kernel)⟩, by decide +kernel⟩

theorem meets_result_refused : ∃ (s : State) (p : Pass) (c : Coll) (L : Launch) (k : Byte), resultHere s p c L ∧ p.done = 0 ∧
    s.resultBad c (bResult c.bind + p.chunk * dStride c.desc) p.bytes.length p.label = some k :=
  ⟨wResultBad, pResult 0 true, theColl wResultBad, launchAt wResultBad 0, 1, by decide +kernel⟩

theorem meets_published_passes_on : ∃ (s : State) (p : Pass), p.phase = 2 ∧ dN p.desc ≠ 0 ∧ p.members.contains s.peer = true ∧
    p ∉ s.passes ∧ s.collOf p = none ∧ p.sent = false ∧ p.hop + 1 < 2 * dN p.desc ∧ passPeer p (p.hop + 1) ≠ s.peer ∧
    s.reachable (passPeer p (p.hop + 1)) = true ∧ p.label ≠ 2 :=
  ⟨wPassOn, pResult 0 false, by decide +kernel⟩

/-- Another package's knot operation, whole, on a knot of this package's that nothing holds back. -/
abbrev knotAsked (s : State) (r : Request) (q : Nat) : Prop :=
  r.kind = .knot ∧ r.stage = .whole ∧ s.scrubHeld (BitVec.ofNat 57 q) = false ∧ s.awayIn q 1088 = none ∧
    s.mem.label q ≠ 2 ∧ s.mem.label q ≠ 3 ∧ s.mem.poisonedIn q 1088 = false

theorem meets_knot_request_put : ∃ (s : State) (r : Request), Holds s r 0x20000 ∧ knotAsked s r 0x20000 ∧ r.op = 1 :=
  ⟨wKnotHome, rKnot, holds_of (by decide +kernel), by decide +kernel⟩

theorem meets_knot_request_take : ∃ (s : State) (r : Request), Holds s r 0x20000 ∧ knotAsked s r 0x20000 ∧ r.op = 2 :=
  ⟨wKnotHome, rKnotTake, holds_of (by decide +kernel), by decide +kernel⟩

/-! FirmwareActsAndLogs, BounceAndDebugSessions -/

theorem meets_meter_refill : ∃ (s : State), (s.func 0).metAt + 2 ^ (10 + bitsAt (s.func 0).metfill 32 5) ≤ s.now :=
  ⟨wRefill, by decide +kernel⟩

/-- Function 0 may go from OPEN to this mode. -/
abbrev modeMayRise (s : State) (mode : BitVec 2) : Prop :=
  mode ≠ 3 ∧ mode ≠ (s.func 0).secmode ∧ (mode = 2 → ∃ w ∈ (s.func 0).metreg, w.2.getLsbD 63 = true) ∧
    (s.func 0).secmode = 0 ∧ s.ide = true

theorem meets_mode_change : ∃ (s : State), modeMayRise s 1 ∧ s.logShort 1 = false := ⟨wModes, by decide +kernel⟩

theorem meets_mode_change_2 : ∃ (s : State), modeMayRise s 2 ∧ s.logShort 1 = false := ⟨wModes, by decide +kernel⟩

theorem meets_mode_change_held : ∃ (s : State), modeMayRise s 1 ∧ s.logShort 1 = true := ⟨logFilled wModes, by decide +kernel⟩

/-- The range of this package that the witnesses name. -/
abbrev rangeNamed (s : State) (pfx : Fab) (len : Nat) : Prop :=
  12 ≤ len ∧ len ≤ 57 ∧ peerOf pfx = s.peer ∧ pfx.toNat % 2 ^ (57 - len) = 0

theorem meets_release : ∃ (s : State), rangeNamed s 0x20000 45 ∧ s.logShort 1 = false ∧ (s.func 0).secmode ≠ 0 ∧
    s.logShort 2 = false :=
  ⟨wModes1, by decide +kernel⟩

theorem meets_release_held : ∃ (s : State), rangeNamed s 0x20000 45 ∧ s.logShort 1 = true ∧ (s.func 0).secmode ≠ 0 ∧
    s.logShort 2 = true :=
  ⟨logFilled wModes1, by decide +kernel⟩

/-- The scrub whose next step this is, and whether a line lies in that step's bytes. -/
def theScrub (s : State) : Scrub := s.scrubs.headD { base := 0, len := 0, fn := 0 }
abbrev inStep (r : Scrub) (k : Nat) : Prop :=
  r.base + r.ptr < 64 * (k + 1) ∧ 64 * k < r.base + r.ptr + min 65536 (r.len - r.ptr)

theorem meets_scrub : ∃ (s : State) (r : Scrub), s.scrubs[0]? = some r ∧ r.ptr < r.len ∧ (∀ c ∈ s.owners, ¬ inStep r c.1) ∧
    r.ptr + min 65536 (r.len - r.ptr) < r.len :=
  ⟨wScrub, theScrub wScrub, by decide +kernel⟩

theorem meets_scrub_end : ∃ (s : State) (r : Scrub), s.scrubs[0]? = some r ∧ r.ptr < r.len ∧ (∀ c ∈ s.owners, ¬ inStep r c.1) ∧
    r.len ≤ r.ptr + min 65536 (r.len - r.ptr) ∧ s.logFull = false :=
  ⟨wScrubEnd, theScrub wScrubEnd, by decide +kernel⟩

theorem meets_scrub_recalls : ∃ (s : State) (r : Scrub), s.scrubs[0]? = some r ∧ r.ptr < r.len ∧ (∃ c ∈ s.owners, inStep r c.1) ∧
    s.recalling = [] :=
  ⟨wScrubOwned, theScrub wScrubOwned, by decide +kernel⟩

/-- A grant that may be installed, in slot 2 already. -/
abbrev grantThere (s : State) : Prop :=
  someGrant.base.toNat % 64 = 0 ∧ someGrant.length % 64 = 0 ∧ someGrant.length ≤ 2 ^ 20 ∧
    Store.find 2 (s.func 0).grants = some someGrant

theorem meets_grant_install : ∃ (s : State), grantThere s ∧ s.logShort 1 = false := ⟨wGranted, by decide +kernel⟩

theorem meets_grant_held : ∃ (s : State), grantThere s ∧ s.logShort 1 = true := ⟨logFilled wGranted, by decide +kernel⟩

/-- A seal window that may be set in place 4, which is free. -/
abbrev windowFree (s : State) (w : SealWindow) : Prop := Store.find 4 s.windows = none ∧ rangeNamed s w.pfx w.len ∧ w.fn < 8

/-- A line lies in its range. -/
abbrev inWindow (w : SealWindow) (j : Nat) : Prop :=
  w.pfx.toNat < 64 * (j + 1) ∧ 64 * j < w.pfx.toNat + 2 ^ (57 - w.len)

theorem meets_window_recalls : ∃ (s : State) (w : SealWindow), windowFree s w ∧ (∃ c ∈ s.owners, inWindow w c.1) ∧ s.recalling = [] :=
  ⟨wHoldAway, someWindow, by decide +kernel⟩

theorem meets_window_install : ∃ (s : State) (w : SealWindow), windowFree s w ∧ s.logShort 1 = false ∧
    ∀ c ∈ s.owners, ¬ inWindow w c.1 :=
  ⟨idle, someWindow, by decide +kernel⟩

theorem meets_window_install_held : ∃ (s : State) (w : SealWindow), windowFree s w ∧ s.logShort 1 = true ∧
    ∀ c ∈ s.owners, ¬ inWindow w c.1 :=
  ⟨logFilled idle, someWindow, by decide +kernel⟩

/-- The window's hash is its range's, and its function has a key pair; what that pair unwraps is not the model's to say. -/
theorem meets_window_hash_good : ∃ (s : State) (w : SealWindow), Config.sha384 (s.bytesAt w.pfx.toNat (2 ^ (57 - w.len))) = w.hash ∧
    (s.func w.fn).sealer = some (Config.tenant 5) ∧ windowFree s w ∧ s.logShort 1 = false ∧
    ∀ c ∈ s.owners, ¬ inWindow w c.1 :=
  ⟨wSealer, { someWindow with hash := Config.sha384 (wSealer.bytesAt someWindow.pfx.toNat (2 ^ (57 - someWindow.len))) }, rfl, rfl,
    by decide +kernel⟩

theorem meets_window_hash_bad : ∃ (s : State) (w : SealWindow),
    ¬ Config.sha384 (s.bytesAt w.pfx.toNat (2 ^ (57 - w.len))) = w.hash ∧ windowFree s w ∧ s.logShort 1 = false ∧
    ∀ c ∈ s.owners, ¬ inWindow w c.1 :=
  ⟨idle, { someWindow with hash := Config.sha384 (idle.bytesAt someWindow.pfx.toNat (2 ^ (57 - someWindow.len))) + 1 },
    fun e => add_one_ne (by decide) _ e.symm, by decide +kernel⟩

theorem meets_window_remove : ∃ (s : State) (w : Sealed), Store.find 4 s.windows = some w ∧ s.logShort 2 = false :=
  ⟨wSealed, { win := someWindow, key := 9, used := 64 }, by decide +kernel⟩

theorem meets_log_acknowledged : ∃ (s : State), 8 < s.logSeq.toNat ∧ s.logAcked.toNat ≤ 8 ∧ s.stallsHeld = 0 ∧ s.logSeq ≠ 0 :=
  ⟨wLogged, by decide +kernel⟩

/-- Channel 3 of function 0, and a record of it. -/
abbrev recordFits (s : State) (b : Bounce) (at_ : Nat) (data : List Byte) : Prop :=
  Store.find 3 (s.func 0).bounce = some b ∧ data.length ≤ 4096 ∧ at_ + data.length ≤ 2 ^ (57 - b.len)

theorem meets_bounce_resync : ∃ (s : State) (b : Bounce), recordFits s b 64 [1, 2] ∧ b.resync = true :=
  ⟨wBounceLost, someBounce true, by decide +kernel⟩

theorem meets_bounce_good : ∃ (s : State) (b : Bounce) (tag : BitVec 128),
    tag = Config.gcmTag b.key (BitVec.ofNat 96 (b.inSeq % 2 ^ 64 + 2 ^ 72 * 3)) [] [1, 2] ∧ recordFits s b 64 [1, 2] ∧
    b.resync = false :=
  ⟨wBounce, someBounce false, bounceTag [1, 2], rfl, by decide +kernel⟩

theorem meets_bounce_bad : ∃ (s : State) (b : Bounce) (tag : BitVec 128),
    ¬ tag = Config.gcmTag b.key (BitVec.ofNat 96 (b.inSeq % 2 ^ 64 + 2 ^ 72 * 3)) [] [1, 2] ∧ recordFits s b 64 [1, 2] ∧
    b.resync = false :=
  ⟨wBounce, someBounce false, bounceTag [1, 2] + 1, add_one_ne (by decide) (bounceTag [1, 2]), by decide +kernel⟩

theorem meets_attach : ∃ (s : State), s.power ≠ .standby ∧ (s.coreAt 0).gated = false ∧ s.debug = .user ∧ (s.func 0).session = none ∧ s.logShort 1 = false ∧ ∀ c ∈ s.launches,
    c.2.heldPolicy = false :=
  ⟨idle, by decide +kernel⟩

theorem meets_detach : ∃ (s : State), s.power ≠ .standby ∧ (s.coreAt 0).gated = false ∧ s.debug = .user ∧ (s.func 0).session = some {} ∧ s.logShort 1 = false ∧ ∀ c ∈ s.launches,
    c.2.heldPolicy = false :=
  ⟨wFid, by decide +kernel⟩

/-- The functions that vendor debug finds above OPEN. -/
def closedFns (s : State) : List Nat := (List.range 8).filter fun k => decide ((s.func k).secmode ≠ 0)

theorem meets_vendor : ∃ (s : State), s.ownRanges [(0x20000, 45)] = true ∧
    s.logShort (1 + (closedFns s).length + 1) = false ∧ closedFns s ≠ [] :=
  ⟨wVendor, by decide +kernel⟩

theorem meets_vendor_open : ∃ (s : State), s.ownRanges [(0x20000, 45)] = true ∧ s.logShort 1 = false ∧ closedFns s = [] :=
  ⟨idle, by decide +kernel⟩

/-! PowerAndReset -/

theorem meets_core_gated : ∃ (s : State), s.holdsStrand 191 = false ∧ (∀ c, c < 48 → s.holdsStrand (48 * 3 + c) = false) ∧
    s.power = .active ∧ s.retained.getLsbD 3 = false ∧ (Store.get 0 3 s.fence).getLsbD 47 = false :=
  ⟨wNoStrand, by decide +kernel⟩

theorem meets_core_gates_later : ∃ (s : State), s.holdsStrand 0 = true :=
  ⟨idle, by decide +kernel⟩

theorem meets_die_powered : ∃ (s : State), s.power = .active ∧ s.retained.getLsbD 3 = true :=
  ⟨wRetained, by decide +kernel⟩

theorem meets_package_powered : ∃ (s : State), s.power = .standby ∧ ∃ c ∈ s.links, c.2.slept = true :=
  ⟨wStandby, by decide +kernel⟩

/-- Each command of register 0x1040, its bits written, is one that its input takes. -/
theorem meets_power_command : ∀ c ∈ [(0, Instr.powerActive 3 47), (2, .corePowerGated 3 47), (3, .dieRetention 3), (4, .packageStandby)],
    ∃ (s t : State) (w : DWord), s.recovery = false ∧ w.toNat < 2 ^ 11 ∧ bitsAt w 9 2 = 3 ∧ bitsAt w 3 6 = 47 ∧ bitsAt w 0 3 = c.1
      ∧ exec c.2 { s with powerCmd := w.setWidth 32 } = .next t := by
  simp only [List.mem_cons, List.not_mem_nil, or_false, forall_eq_or_imp, forall_eq]
  exact ⟨⟨wNoStrand, _, BitVec.ofNat 64 (47 * 8 + 3 * 512), by decide +kernel, by decide +kernel, by decide +kernel, by decide +kernel, by decide +kernel, rfl⟩,
    ⟨wNoStrand, _, BitVec.ofNat 64 (2 + 47 * 8 + 3 * 512), by decide +kernel, by decide +kernel, by decide +kernel, by decide +kernel, by decide +kernel, rfl⟩,
    ⟨wNoStrand, _, BitVec.ofNat 64 (3 + 47 * 8 + 3 * 512), by decide +kernel, by decide +kernel, by decide +kernel, by decide +kernel, by decide +kernel, rfl⟩,
    ⟨wNoStrand, _, BitVec.ofNat 64 (4 + 47 * 8 + 3 * 512), by decide +kernel, by decide +kernel, by decide +kernel, by decide +kernel, by decide +kernel, rfl⟩⟩

theorem meets_clock_gated : ∃ (s : State), ∃ k, k < 192 ∧ (s.coreAt k).clock ≠ s.readyOn k :=
  ⟨idle, 1, by decide +kernel⟩

theorem meets_standby : ∃ (s : State), s.launches = [] ∧ 1100 ≤ s.clock ∧ (∀ c ∈ s.yarns, c.2.counted = []) ∧
    ∃ c ∈ s.links, c.2.up = true :=
  ⟨wNoStrand, by decide +kernel⟩

theorem meets_standby_later : ∃ (s : State), s.launches ≠ [] :=
  ⟨idle, by decide +kernel⟩

theorem meets_clock_rises : ∃ (s : State), s.clock ≤ 2000 :=
  ⟨{ idle with clock := 1900 }, by decide +kernel⟩

theorem meets_boot_on : ∃ (s : State), s.boot = .links := ⟨wBooting .links, by decide +kernel⟩

theorem meets_boot_converges : ∃ (s : State) (k : Nat), s.boot = .announcing k ∧ Store.find k s.changes = none :=
  ⟨wBooting (.announcing 3), 3, by decide +kernel⟩

theorem meets_boot_waits : ∃ (s : State) (k : Nat), s.boot = .announcing k ∧ Store.find k s.changes ≠ none :=
  ⟨{ wAckMore with boot := .announcing 6, booted := false }, 6, by decide +kernel⟩

/-- One of the two cases of a power-on reset holds, whatever the signature check answers. -/
theorem meets_power_on (im : Images) : ∃ s : State, Config.signaturesVerify im.trusted = false ∨
    (Config.signaturesVerify im.trusted = true ∧ s.logShort 4 = false) :=
  ⟨idle, by cases Config.signaturesVerify im.trusted; exacts [.inl rfl, .inr ⟨rfl, by decide +kernel⟩]⟩

/-! The words, the reset state and the step -/

theorem meets_round_trip : ∃ (i : Instr), i.wf = true ∧ i.op? ≠ none :=
  ⟨.add { dst := .v 8, a := .v 2, b := .v 4, ty := .s32 }, by decide +kernel⟩

theorem meets_decoded : ∃ (ws : List Word) (i : Instr), decodeWords ws = .ok (i, []) :=
  ⟨encode (.nop {}), .nop {}, by decide +kernel⟩

/-- The package after reset, about to count an error that scrubbing found. -/
def stepping : State := { State.reset with turn := some (.event (.errorFoundByScrubbing 0)) }

theorem meets_step : ∃ s t : State, s.canonical = true ∧ s.ordered = true ∧ step s = .next t :=
  ⟨stepping, _, by decide +kernel, by decide +kernel, rfl⟩

theorem meets_step_event : ∃ (s : State) (e : Instr) (u : State), s.turn = some (.event e) ∧
    exec e { s with turn := none, cur := none } = .next u :=
  ⟨stepping, _, _, rfl, rfl⟩

theorem meets_step_input : ∃ (s : State) (k : Nat) (e : Instr) (u : State), s.turn = some (.input k) ∧ s.inputs[k]? = some e ∧
    exec e { s with turn := none, cur := none, inputs := s.inputs.eraseIdx k } = .next u :=
  ⟨{ State.reset with turn := some (.input 0), inputs := [.errorFoundByScrubbing 0] }, 0, _, _, rfl, rfl, rfl⟩

/-- Its group is about to issue a nop. -/
def issueTurn : State := { idle with turn := some (.issue 0 0), cur := none }

theorem meets_step_issue : ∃ (s : State) (v : Yarn) (G : Group) (i : Instr), s.turn = some (.issue 0 0) ∧
    Store.find 0 s.yarns = some v ∧ v.group 0 = some G ∧ s.breaksAt 0 0 = false ∧
    decodeAt G.clause.w1 G.clause.code.length G.idx (G.clause.code.getD G.idx []) = .ok i :=
  ⟨issueTurn, issueTurn.yarnAt 0, (who idle).g, .nop {}, by decide +kernel, by decide +kernel, by decide +kernel, by decide +kernel,
    by decide +kernel⟩

/-! ### Ill-formed instructions: each check of WellFormed refuses one that it alone is about -/

/-- What each check answers, in their order. -/
def checks (o : Op) (x : Args) : List Bool :=
  [o.subOk x.sub, o.modsOk x.mods, o.tyOk x.sub x.ty, o.srcOk x, x.settingsOk o, x.operandsOk o, x.litsOk, !x.lrC || x.c.isVec]
/-- All hold but one. -/
def allBut (n : Nat) : List Bool := (List.range 8).map (fun k => k != n)

theorem test_wf_good : checks .add { dst := .v 8, a := .v 2, b := .v 4, ty := .s32 } = allBut 8 := by decide +kernel
theorem test_wf_sub : checks .add { dst := .v 8, a := .v 2, b := .v 4, ty := .s32, sub := 1 } = allBut 0 := by decide +kernel
theorem test_wf_mods : checks .add { dst := .v 8, a := .v 2, b := .v 4, ty := .s32, mods := 1 } = allBut 1 := by decide +kernel
theorem test_wf_ty : checks .add { dst := .v 8, a := .v 2, b := .v 4, ty := .f32 } = allBut 2 := by decide +kernel
theorem test_wf_src : checks .add { dst := .v 8, a := .v 2, b := .v 4, ty := .s32, src := .s8 } = allBut 3 := by decide +kernel
theorem test_wf_settings : checks .add { dst := .v 8, a := .v 2, b := .v 4, ty := .s32, rnd := .rup } = allBut 4 := by
  decide +kernel
theorem test_wf_operands : checks .add { dst := .v 8, a := .v 2, b := .pred 1, ty := .s32 } = allBut 5 := by decide +kernel
theorem test_wf_literals : checks .mad { dst := .v 8, a := .v 2, b := .lit 100, c := .lit 200, ty := .s32 } = allBut 6 := by
  decide +kernel
theorem test_wf_last_read : checks .mad { dst := .v 8, a := .v 2, b := .v 4, c := .s 6, ty := .s32, lrC := true } = allBut 7 := by
  decide +kernel
theorem test_wf_refused : Args.wf .add { dst := .v 8, a := .v 2, b := .pred 1, ty := .s32 } = false := by decide +kernel

/-! ### Words written out from the spec's encodings (chapters 03, 06, 07, 08, 13, 15, 16, 18, 20, 22, 24): one or more a family -/

/-- These words are one instruction. -/
abbrev Reads (ws : List Word) (i : Instr) : Prop := decodeWords ws = .ok (i, [])

theorem test_read_mad : Reads [0x83EA020D, 0x000007E1, 0]
    (.mad { dst := .v 1, a := .special .coilX, b := .s 3, c := .special .fibreX, ty := .s32 }) := by decide +kernel
theorem test_read_cmp : Reads [0x82020265, 0x10120700, 0] (.cmp { dst := .p 1, a := .v 2, b := .s 2, ty := .n32, sub := 2 }) := by
  decide +kernel
theorem test_read_shf : Reads [0x0708124B, 0x002007FF, 0, 0x18, 0]
    (.shf { dst := .v 9, a := .v 8, b := .v 7, c := .lit 24, ty := .b32 }) := by decide +kernel
theorem test_read_fcvt : Reads [0x000104FD, 0x000D0700, 0] (.fcvt { dst := .v 2, a := .v 1, ty := .f32, src := .s32 }) := by
  decide +kernel
theorem test_read_qnt : Reads [0x00010500] (.qnt { dst := .v 2, a := .v 1, ty := .t8e1 }) := by decide +kernel
theorem test_read_pack : Reads [0x0002070C] (.pack { dst := .v 3, a := .v 2, ty := .t8e1 }) := by decide +kernel
theorem test_read_dqnt : Reads [0x00020904] (.dqnt { dst := .v 4, a := .v 2, ty := .t8e1 }) := by decide +kernel
theorem test_read_pand : Reads [0xC3C2056D, 0x10000700, 0] (.pand { dst := .p 2, a := .pred 2, b := .pred 3 }) := by
  decide +kernel
theorem test_read_bra_conditional : Reads [0x00C10145, 0x20000700, 7] (.braConditional { a := .pred 1, mods := 1, off := 7 }) := by
  decide +kernel
theorem test_read_bra : Reads [0x00000141, 0x700, 5] (.bra { off := 5 }) := by decide +kernel
theorem test_read_sts : Reads [0x04060184] (.sts { a := .v 6, b := .v 4, ty := .b32 }) := by decide +kernel
theorem test_read_lds : Reads [0x00071180] (.lds { dst := .v 8, a := .v 7, ty := .b32 }) := by decide +kernel
theorem test_read_shape : Reads [0xA08C01E1, 0x700, 0x100] (.shape { a := .s 12, b := .s 32, off := 256 }) := by decide +kernel
theorem test_read_tbinit : Reads [0x889001E4] (.tbinit { a := .s 16, b := .s 8 }) := by decide +kernel
theorem test_read_tbarrive : Reads [0x009007E5, 0x20010700, 0] (.tbarrive { dst := .v 3, a := .s 16, mods := 1 }) := by
  decide +kernel
theorem test_read_tlread : Reads [0x00C029E9, 0x08010700, 0] (.tlread { dst := .s 20, a := .int 0 }) := by decide +kernel
theorem test_read_tlwait : Reads [0x94C801E8] (.tlwait { a := .int 8, b := .s 20 }) := by decide +kernel
theorem test_read_annc : Reads [0x949801F1, 0x40000700, 0] (.annc { a := .s 24, b := .s 20, mods := 2 }) := by decide +kernel
theorem test_read_rtq : Reads [0x000A07F1, 0x20030700, 0x40] (.rtq { dst := .v 3, a := .v 10, mods := 1, off := 64 }) := by
  decide +kernel
theorem test_read_csrr : Reads [0x00C007F8] (.csrr { dst := .v 3, a := .int 0 }) := by decide +kernel
theorem test_read_lblset : Reads [0x00C201F9, 0x00020700, 0] (.lblset { a := .int 2 }) := by decide +kernel
theorem test_read_lbldn : Reads [0x00040BF9, 0x00030700, 0] (.lbldn { dst := .v 5, a := .v 4 }) := by decide +kernel
theorem test_read_red : Reads [0x0D8401CD, 0x00110400, 0]
    (.red { guard := ⟨4, false⟩, a := .s 4, b := .v 13, ty := .n32, sub := 1 }) := by decide +kernel
theorem test_read_fence_rel : Reads [0x008001D9, 0x00010700, 0] (.fenceRel { a := .s 0 }) := by decide +kernel
theorem test_read_st : Reads [0xC18801C5, 0x00400300, 0] (.st { guard := ⟨3, false⟩, a := .s 8, b := .int 1, ty := .n64 }) := by
  decide +kernel
theorem test_read_knot_init : Reads [0x868001F4] (.knotInit { a := .s 0, b := .s 6 }) := by decide +kernel
theorem test_read_knot_put : Reads [0x018013F5, 0x00010784, 0] (.knotPut { dst := .v 9, a := .s 0, b := .v 1, c := .s 4 }) := by
  decide +kernel
theorem test_read_knot_take : Reads [0x858015F5, 0x00020700, 0] (.knotTake { dst := .v 10, a := .s 0, b := .s 5 }) := by
  decide +kernel
theorem test_read_knot_query : Reads [0xC28019F5, 0x08030700, 0] (.knotQuery { dst := .s 12, a := .s 0, b := .int 2 }) := by
  decide +kernel

/-- Every sample of the statements about results is encoded in the number of words its base word gives, and read back. -/
theorem test_samples_round : ∀ c ∈ samples, decodeWords (encode (c.1.mk c.2)) = .ok (c.1.mk c.2, []) := by decide +kernel

/-! ### Single steps, on values worked out by hand -/

/-- Register 8 of lane 0 once an instruction has executed with registers 2, 4 and 6 at given words. -/
def gives (i : Instr) (a b : Nat) (c : Nat := 0) : Option Nat :=
  match exec i (reg 6 c 0 (reg 4 b 0 (reg 2 a 0 idle))) with
  | .next t => some ((t.fibre 0 0).reg 8).val.toNat
  | _ => none
def abc (t : Ty) : Args := { dst := .v 8, a := .v 2, b := .v 4, ty := t }

theorem test_add_wraps : gives (.add (abc .s32)) 0xFFFFFFFF 2 = some 1 := by decide +kernel
theorem test_add_saturates : gives (.add { abc .s32 with sat := true }) 0x7FFFFFFF 2 = some 0x7FFFFFFF := by decide +kernel
theorem test_sub_order : gives (.sub (abc .n32)) 5 7 = some 0xFFFFFFFE := by decide +kernel
theorem test_mul_hi_signed : gives (.mulHi (abc .s32)) 0xFFFFFFFF 2 = some 0xFFFFFFFF := by decide +kernel
theorem test_mad : gives (.mad { abc .s32 with c := .v 6 }) 3 4 5 = some 17 := by decide +kernel
theorem test_sar_sign : gives (.sar (abc .s32)) 0x80000000 4 = some 0xF8000000 := by decide +kernel
theorem test_clz : gives (.clz { dst := .v 8, a := .v 2, ty := .b32 }) 0x00010000 0 = some 15 := by decide +kernel
theorem test_andn : gives (.andn (abc .b32)) 0b1100 0b1010 = some 0b0100 := by decide +kernel
theorem test_fadd : gives (.fadd (abc .f32)) 0x3F800000 0x40000000 = some 0x40400000 := by decide +kernel
theorem test_fmul_rounds : gives (.fmul (abc .f32)) 0x3F800001 0x3F800001 = some 0x3F800002 := by decide +kernel
theorem test_destination_is_source : gives (.add { dst := .v 8, a := .v 8, b := .v 4, ty := .s32 }) 9 7 = some 7 := by
  decide +kernel

/-- A load extends its byte's sign. -/
theorem test_lds_extends : (match exec (.lds (ops wLds)) wLds with
    | .next t => ((t.yarnAt 0).pend.flatMap (·.writes)).map (fun w => (w.1, w.2.1, w.2.2.val.toNat))
    | _ => []) = [(0, 8, 0xFFFFFF83)] := by decide +kernel
/-- Two lanes' stores to one address: the higher lane's stands. -/
theorem test_st_last_lane : (match exec (.st (ops wSt)) wSt with
    | .next t => some (t.mem.byte 0x20000, t.mem.byte 0x20001)
    | _ => none) = some (0xCD, 0xAB) := by decide +kernel
/-- A trap saves its cause, its argument and the place of the instruction after it, and enters the handler. -/
theorem test_trap_enters : (match exec (.trapI (ops wTrap)) wTrap with
    | .next t => let b := (t.yarnAt 0).bank
      some (b.xcause.toNat % 256, b.xarg.toNat, b.status.getLsbD 15)
    | _ => none) = some (0x40, 7, true) := by decide +kernel
/-- A point armed twice raises its cause. -/
theorem test_rinit_armed_traps : (match exec (.rinit (ops wRinitArmed)) wRinitArmed with
    | .next t => (t.yarnAt 0).bank.status.getLsbD 15
    | _ => false) = true := by decide +kernel

/-! ### The interface to the host -/

/-- A word placed after reset is what the next step runs. -/
theorem test_fetch_word : (match step (State.reset.withFetchWord 96 (0x83EA020D + 0x000007E1 * 2 ^ 32)) with
    | .next t => (t.yarnAt 0).groups.map (·.pc.toNat)
    | _ => []) = (State.reset.placeWords [0x83EA020D, 0x000007E1, 0]).yarns.flatMap (fun c => c.2.groups.map (·.clause.next.toNat)) := by
  decide +kernel
theorem test_table_word : decodeTableWord 96 (0x82020265 + 0x10120700 * 2 ^ 32)
    = some (.cmp { dst := .p 1, a := .v 2, b := .s 2, ty := .n32, sub := 2 }) := by decide +kernel
theorem test_reset : State.reset.canonical = true ∧ State.reset.ordered = true := by decide +kernel

end Sys2Proof.Tests
end

section
/-! SUPPORT. Numbers in words: how the model's arithmetic on words (`numOf`, `lowBits`, `narrow`, `elemAt`, `perElem`) and the
statements' terms (`number`, `saturated`, `isatOf`, `elemBits`) say the same of the bits a word holds (R41, R65, R66). -/

namespace Sys2Proof.Machine

/-! ### Widths -/

theorem tyBits_pos (t : Ty) : 0 < tyBits t := by cases t <;> decide

theorem tyBits_le_64 (t : Ty) : tyBits t ≤ 64 := by cases t <;> decide

/-- A type's bits lie in the register or pair that holds its values (R39). -/
theorem bits_in_width (t : Ty) : tyBits t ≤ if t.wide then 64 else 32 := by cases t <;> decide

/-- Packed types are of 8 or 16 bits, so their elements fill a word exactly (R65). -/
theorem tyPacked_bits {t : Ty} (h : tyPacked t = true) : t.wide = false ∧ tyBits t * (32 / tyBits t) = 32 := by
  revert h; cases t <;> decide

/-- Every element of a type lies in the register or pair that holds its values. -/
theorem elem_in_width {t : Ty} {e : Nat} (he : e < elemCount t) :
    tyBits t * e + tyBits t ≤ if t.wide then 64 else 32 := by
  unfold elemCount at he
  split at he
  case isTrue hp =>
    obtain ⟨hw, hb⟩ := tyPacked_bits hp
    rw [hw, ← Nat.mul_succ]
    exact (Nat.mul_le_mul_left _ he).trans hb.le
  case isFalse =>
    obtain rfl : e = 0 := by omega
    simpa using bits_in_width t

/-! ### Bits of a value -/

/-- An element as a number: the value's digit in base 2 ^ w. -/
theorem elemBits_toNat (w e : Nat) (v : DWord) : (elemBits w e v).toNat = v.toNat / 2 ^ (w * e) % 2 ^ w := by
  rw [elemBits, BitVec.extractLsb'_toNat, Nat.shiftRight_eq_div_pow]

@[simp] theorem elemBits_first (w : Nat) (v : DWord) : elemBits w 0 v = v.setWidth w := by
  apply BitVec.eq_of_toNat_eq
  simp [elemBits_toNat]

/-- Cutting a value to its position's width keeps each element inside it. -/
theorem elemBits_fitWidth {w e : Nat} {wide : Bool} (h : w * e + w ≤ if wide then 64 else 32) (v : DWord) :
    elemBits w e (fitWidth wide v) = elemBits w e v := by
  cases wide with
  | true => rfl
  | false =>
    ext j hj
    have hw : w * e + w ≤ 32 := h
    have hj' : w * e + j < 32 := by omega
    have hj'' : w * e + j < 64 := by omega
    simp [elemBits, fitWidth, hj', hj'', ← BitVec.getLsbD_eq_getElem, BitVec.getLsbD_setWidth]

theorem setWidth_fitWidth {w : Nat} {wide : Bool} (h : w ≤ if wide then 64 else 32) (v : DWord) :
    (fitWidth wide v).setWidth w = v.setWidth w := by
  simpa using elemBits_fitWidth (e := 0) (by simpa using h) v

/-- A number put into a value of at least its bits reads back. -/
theorem setWidth_widen {w : Nat} (hw : w ≤ 64) (b : BitVec w) : (b.setWidth 64 : DWord).setWidth w = b := by
  simp [BitVec.setWidth_setWidth_of_le b hw]

/-! ### Numbers of a type -/

/-- The number the model reads in the low bits of a value. -/
theorem numOf_eq_number (t : Ty) {w : Nat} (hw : 0 < w) (v : DWord) :
    numOf (tySigned t) w v = number t (v.setWidth w) := by
  obtain ⟨k, rfl⟩ : ∃ k, w = k + 1 := ⟨w - 1, by omega⟩
  have hp : 2 ^ (k + 1) = 2 * 2 ^ k := by rw [Nat.pow_succ, Nat.mul_comm]
  cases h : tySigned t with
  | false => simp [numOf, number, h]
  | true =>
    simp only [numOf, number, h, true_and, if_true, BitVec.toInt_eq_toNat_cond, BitVec.toNat_setWidth, Nat.add_sub_cancel]
    split <;> split
    · omega
    · push_cast; rfl
    · rfl
    · omega

/-- The number a number's bits hold, put into more bits or fewer: extended by its sign, or by zeros. -/
theorem ofInt_number (t : Ty) {w : Nat} (n : Nat) (b : BitVec w) :
    BitVec.ofInt n (number t b) = if tySigned t then b.signExtend n else b.setWidth n := by
  unfold number
  split
  · rfl
  · rw [BitVec.ofInt_natCast, BitVec.ofNat_toNat]

/-- A number's low bits, zeros above. -/
theorem lowBits_eq (w : Nat) (v : Int) : lowBits w v = (BitVec.ofInt w v).setWidth 64 := by
  apply BitVec.eq_of_toNat_eq
  simp [lowBits, BitVec.toNat_ofInt]

theorem lowBits_64 (v : Int) : lowBits 64 v = BitVec.ofInt 64 v := by
  simpa using lowBits_eq 64 v

theorem ofInt_toNat (v : DWord) : BitVec.ofInt 64 (v.toNat : Int) = v := by
  rw [BitVec.ofInt_natCast, BitVec.ofNat_toNat, BitVec.setWidth_eq]

/-! ### Saturation (R66) -/

theorem tyLo_le_tyHi (t : Ty) : tyLo t ≤ tyHi t := by cases t <;> decide

theorem clamp_eq_saturated (t : Ty) (v : Int) : clamp t v = saturated t true v := by
  have := tyLo_le_tyHi t
  simp only [clamp, saturated, if_true]
  split
  · omega
  · split <;> omega

/-- A number put into a type, without ISAT. -/
theorem narrow_val (t : Ty) (sat : Bool) (v : Int) :
    (narrow t sat v).1 = (BitVec.ofInt (tyBits t) (saturated t sat v)).setWidth 64 := by
  cases sat with
  | false => exact lowBits_eq _ v
  | true => rw [← clamp_eq_saturated]; exact lowBits_eq _ _

/-- ISAT, where a number put into a type was replaced. -/
theorem narrow_bits (t : Ty) (sat : Bool) (v : Int) : (narrow t sat v).2 = isatOf t sat [v] := by
  cases sat with
  | false => rfl
  | true => by_cases h : saturated t true v = v <;> simp [narrow, isatOf, clamp_eq_saturated, h, stISAT]

@[simp] theorem isatOf_unsaturated (t : Ty) (vs : List Int) : isatOf t false vs = 0 := rfl

@[simp] theorem isatOf_nil (t : Ty) (sat : Bool) : isatOf t sat [] = 0 := by cases sat <;> rfl

/-- ISAT is set for some numbers where it is for one of them. -/
theorem isatOf_cons (t : Ty) (sat : Bool) (v : Int) (vs : List Int) :
    isatOf t sat (v :: vs) = isatOf t sat [v] ||| isatOf t sat vs := by
  cases sat with
  | false => simp
  | true =>
    simp only [isatOf, Bool.true_and, List.any_cons, List.any_nil, Bool.or_false]
    cases decide (saturated t true v ≠ v) <;> cases vs.any (fun v => decide (saturated t true v ≠ v)) <;> rfl

/-! ### Elements of a word, as its digits -/

/-- A digit of a number written in base p. -/
theorem ofDigits_digit {p : Nat} (hp : 0 < p) (ds : List Nat) (h : ∀ d ∈ ds, d < p) (k : Nat) :
    Nat.ofDigits p ds / p ^ k % p = ds.getD k 0 := by
  rw [Nat.ofDigits_div_pow_eq_ofDigits_drop k hp ds h]
  cases hd : ds.drop k with
  | nil => rw [List.getD_eq_default _ _ (List.drop_eq_nil_iff.1 hd)]; simp
  | cons d t =>
    have hk : ds[k]? = some d := by rw [← List.head?_drop, hd]; rfl
    have hm : d ∈ ds := List.mem_of_getElem? hk
    rw [Nat.ofDigits_cons, Nat.add_mul_mod_self_left, Nat.mod_eq_of_lt (h d hm)]
    simp [hk]

/-- An element of a value is a digit of its number, where the value holds it. -/
theorem elemBits_ofNat {w e : Nat} (h : w * e + w ≤ 64) (n : Nat) :
    elemBits w e (BitVec.ofNat 64 n) = BitVec.ofNat w (n / 2 ^ (w * e)) := by
  ext j hj
  have hj' : j + w * e < 64 := by omega
  simp [elemBits, ← BitVec.getLsbD_eq_getElem, BitVec.getLsbD_ofNat, hj', hj, Nat.testBit_div_two_pow, Nat.add_comm]

/-- An element of a value made of elements. -/
theorem elemBits_ofDigits {w e : Nat} (h : w * e + w ≤ 64) (ds : List Nat) (hd : ∀ d ∈ ds, d < 2 ^ w) :
    elemBits w e (BitVec.ofNat 64 (Nat.ofDigits (2 ^ w) ds)) = BitVec.ofNat w (ds.getD e 0) := by
  apply BitVec.eq_of_toNat_eq
  have hlt : ds.getD e 0 < 2 ^ w := by
    rw [← ofDigits_digit (Nat.two_pow_pos w) ds hd e]
    exact Nat.mod_lt _ (Nat.two_pow_pos w)
  rw [elemBits_ofNat h, BitVec.toNat_ofNat, BitVec.toNat_ofNat, Nat.mod_eq_of_lt hlt, Nat.pow_mul,
    ofDigits_digit (Nat.two_pow_pos w) ds hd]

/-- The element the model takes out of a word, as a value. -/
theorem elemAt_eq (w e : Nat) (v : DWord) : elemAt w e v = (elemBits w e v).setWidth 64 := by
  apply BitVec.eq_of_toNat_eq
  simp [elemAt, elemBits_toNat]

/-- The number the model reads in an element of a word. -/
theorem numOf_elemAt (t : Ty) {w : Nat} (h0 : 0 < w) (hw : w ≤ 64) (e : Nat) (v : DWord) :
    numOf (tySigned t) w (elemAt w e v) = number t (elemBits w e v) := by
  rw [numOf_eq_number t h0, elemAt_eq, setWidth_widen hw]

end Sys2Proof.Machine
end

section
/-! SUPPORT. What a computing instruction with a register destination has to show: a rule for one that reads its own lane, and
a rule for any that gives one result for each executing lane. -/

namespace Sys2Proof.Machine

/-! ### Parts of a well-formed instruction -/

/-- The type of an instruction whose entry lists types is one of them (R41). -/
theorem type_listed {o : Op} {x : Args} (h : x.Parts o) (hne : o.types x.sub ≠ []) : x.ty ∈ o.types x.sub := by
  have ht := h.ty
  rw [Op.tyOk, if_neg hne] at ht
  exact List.contains_iff_mem.1 ht

/-- An instruction whose entry gives no saturate setting is not saturated. -/
theorem unsaturated {o : Op} {x : Args} (h : x.Parts o) (hs : o.satUse x.sub = false) : x.sat = false :=
  h.sat.resolve_left (by simp [hs])

/-- An operand of kind p is a predicate, one of kind s a scalar (R68). -/
theorem fits_pred {wide : Bool} {p : Operand} (h : p.fits .p wide = true) : ∃ n, p = .pred n := by
  cases p with
  | pred n => exact ⟨n, rfl⟩
  | _ => exact absurd h Bool.false_ne_true

theorem fits_scalar {last : Nat} {wide : Bool} {p : Operand} (h : p.fits (.s last) wide = true) : ∃ n, p = .s n := by
  cases p with
  | s n => exact ⟨n, rfl⟩
  | _ => exact absurd h Bool.false_ne_true

/-- A register destination shows its result cut to its width. -/
theorem shown_reg {o : Op} {x : Args} (h : x.Parts o) (hd : ∀ sub mods, (o.dests sub mods).2.2 = false) (v : DWord) :
    shown o x v = fitWidth (o.dWide x.ty x.sub x.mods) v := by
  have hp := dst_not_pred h (hd _ _)
  unfold shown
  cases hx : x.dst with
  | p n => exact absurd hx (hp n)
  | _ => rfl

/-! ### Operands -/

/-- What a vector register or pair reads as has its position's width. -/
theorem fitWidth_lane_read (v : Lane) (n : Nat) (wide : Bool) : fitWidth wide (v.read n wide).val = (v.read n wide).val := by
  cases wide <;> simp [Lane.read, fitWidth]

theorem fitWidth_bank_read (b : Bank) (n : Nat) (wide : Bool) : fitWidth wide (b.read n wide).val = (b.read n wide).val := by
  cases wide <;> simp [Bank.read, fitWidth]

/-- A truth value has the width of any position. -/
theorem fitWidth_bit (wide b : Bool) : fitWidth wide (bit b) = bit b := by cases wide <;> cases b <;> rfl

/-- An operand's value has its position's width (R64). -/
theorem fitWidth_operand (i : Issuer) (s : State) (p : Operand) (wide : Bool) (l : Nat) :
    fitWidth wide (i.operand s p wide l).val = (i.operand s p wide l).val := by
  cases p with
  | none => cases wide <;> rfl
  | v n => exact fitWidth_lane_read _ _ _
  | s n => exact fitWidth_bank_read _ _ _
  | pred n => exact fitWidth_bit _ _
  | int k => exact fitWidth_idem _ _
  | special r => exact fitWidth_idem _ _
  | lit w => exact fitWidth_idem _ _

/-! ### Rules -/

/-- An instruction that reads its own lane and whose destination is a register or a pair: its value, cut to the
destination's width, must be the one the statement gives, for every three values of its operands. -/
theorem own_computes_reg {o : Op} {R : Args → DWord → DWord → DWord → DWord → Prop}
    {B : Args → DWord → DWord → DWord → Word} (f : Args → DWord → DWord → DWord → DWord × Word)
    (hx : ∀ s i x, s.issuer = some i → exec (o.mk x) s = .next (s.laneWise i o x (f x)))
    (hd : ∀ sub mods, (o.dests sub mods).2.2 = false)
    (hval : ∀ x, x.Parts o → ∀ a b c, R x a b c (fitWidth (o.dWide x.ty x.sub x.mods) (f x a b c).1))
    (hbits : ∀ x, x.Parts o → ∀ a b c, (f x a b c).2 = B x a b c) : Computes o (own o R B) :=
  own_computes f hx
    (fun _ _ _ _ hw _ => by rw [shown_reg (wf_parts hw) hd]; exact hval _ (wf_parts hw) _ _ _)
    (fun _ _ _ _ hw => hbits _ (wf_parts hw) _ _ _)

/-- An instruction that gives one result for each executing lane, its destination a register or a pair, with no sticky
bits. -/
theorem each_lane_computes {o : Op} {V : State → Issuer → Args → Nat → DWord → Prop}
    {L : State → Issuer → Args → Nat → Label}
    (f : State → Issuer → Args → Nat → Val)
    (hx : ∀ s i x, x.wf o = true → s.issuer = some i → exec (o.mk x) s = .next (s.compute i o x
      ((i.lanes x).map fun l => { lane := l, val := (f s i x l).val, lab := (f s i x l).lab })))
    (hd : ∀ sub mods, (o.dests sub mods).2.2 = false)
    (hlab : ∀ s i x, x.Parts o → ∀ l, (f s i x l).lab = L s i x l)
    (hval : ∀ s i x, x.Parts o → ∀ l, V s i x l (fitWidth (o.dWide x.ty x.sub x.mods) (f s i x l).val)) :
    Computes o { val := V, lab := L } := by
  refine computes_of _ (fun s i x hw h _ => hx s i x hw h) (fun s i x => ?_) (fun s i x hw _ q hq => ?_)
    (fun s i x hw q hq _ => ?_) (fun s i x _ q hq => ?_)
  · simp [List.map_map, Function.comp_def]
  all_goals obtain ⟨l, -, rfl⟩ := List.mem_map.1 hq
  · exact hlab s i x (wf_parts hw) l
  · change V s i x l (shown o x _)
    rw [shown_reg (wf_parts hw) hd]
    exact hval s i x (wf_parts hw) l
  · rfl

/-- An instruction that copies its operand a, of the destination's width. -/
theorem copy_computes {o : Op}
    (hx : ∀ s i x, s.issuer = some i → exec (o.mk x) s = .next (s.laneWise i o x fun a _ _ => (a, 0)))
    (hd : ∀ sub mods, (o.dests sub mods).2.2 = false)
    (hw : ∀ ty src sub mods, o.aWide ty src mods = o.dWide ty sub mods) : Computes o (own o fun _ a _ _ r => r = a) :=
  own_computes (fun _ a _ _ => (a, 0)) hx
    (fun s i x l hwf _ => by
      rw [shown_reg (wf_parts hwf) hd, ← hw x.ty x.src]
      exact fitWidth_operand i s x.a _ l)
    (fun _ _ _ _ _ => rfl)

end Sys2Proof.Machine
end

section
/-! SUPPORT. The instructions of R70, and the proof of IntegerArithmeticResults: exact arithmetic on each element, an inline
integer standing in every element of a packed word (R65). -/

namespace Sys2Proof.Machine

/-! ### Arithmetic on each element -/

/-- The results of an operation on n elements of w bits from element e on, each reduced to w bits. -/
def elemResults (w : Nat) (f : DWord → DWord → DWord → DWord × Word) (a b c : DWord) (n e : Nat) : List Nat :=
  (List.range n).map fun k => (f (elemAt w (e + k) a) (elemAt w (e + k) b) (elemAt w (e + k) c)).1.toNat % 2 ^ w

theorem elemResults_lt (w : Nat) (f : DWord → DWord → DWord → DWord × Word) (a b c : DWord) (n e : Nat) :
    ∀ d ∈ elemResults w f a b c n e, d < 2 ^ w := by
  intro d hd
  obtain ⟨k, -, rfl⟩ := List.mem_map.1 hd
  exact Nat.mod_lt _ (Nat.two_pow_pos w)

theorem elemResults_succ (w : Nat) (f : DWord → DWord → DWord → DWord × Word) (a b c : DWord) (n e : Nat) :
    elemResults w f a b c (n + 1) e =
      (f (elemAt w e a) (elemAt w e b) (elemAt w e c)).1.toNat % 2 ^ w :: elemResults w f a b c n (e + 1) := by
  simp [elemResults, List.range_succ_eq_map, Nat.add_assoc, Nat.add_comm 1]

/-- `perElem` puts each result in its element's place: they are the digits of its number. -/
theorem perElem_val {w : Nat} (hw : 0 < w) (f : DWord → DWord → DWord → DWord × Word) (a b c : DWord) (n e : Nat)
    (h : w * (e + n) ≤ 64) :
    (perElem w f a b c n e).1.toNat = 2 ^ (w * e) * Nat.ofDigits (2 ^ w) (elemResults w f a b c n e) := by
  induction n generalizing e with
  | zero => simp [perElem, elemResults]
  | succ n ih =>
    have hlt : 2 ^ (w * e) * Nat.ofDigits (2 ^ w) (elemResults w f a b c (n + 1) e) < 2 ^ 64 := calc
      _ < 2 ^ (w * e) * (2 ^ w) ^ (n + 1) := by
        have := Nat.ofDigits_lt_base_pow_length (Nat.one_lt_two_pow hw.ne') (elemResults_lt w f a b c (n + 1) e)
        simpa [elemResults] using this
      _ = 2 ^ (w * (e + (n + 1))) := by rw [← Nat.pow_mul, ← Nat.pow_add, ← Nat.mul_add]
      _ ≤ 2 ^ 64 := Nat.pow_le_pow_right (by decide) h
    rw [elemResults_succ, Nat.ofDigits_cons] at hlt ⊢
    simp only [perElem, BitVec.toNat_ofNat]
    rw [ih (e + 1) (by rwa [Nat.add_right_comm, Nat.add_assoc]), Nat.mul_succ w e, Nat.pow_add, ← Nat.mod_eq_of_lt hlt]
    congr 1
    ring

/-- Each element of `perElem` is the operation's result on that element. -/
theorem perElem_elem {w : Nat} (hw : 0 < w) (f : DWord → DWord → DWord → DWord × Word) (a b c : DWord) {n k : Nat}
    (h : w * n ≤ 64) (hk : k < n) :
    elemBits w k (perElem w f a b c n 0).1 = (f (elemAt w k a) (elemAt w k b) (elemAt w k c)).1.setWidth w := by
  have hv := perElem_val hw f a b c n 0 (by simpa using h)
  rw [Nat.mul_zero, Nat.pow_zero, Nat.one_mul] at hv
  have hin : w * k + w ≤ 64 := (Nat.mul_le_mul_left w hk).trans h
  have he : (perElem w f a b c n 0).1 = BitVec.ofNat 64 (Nat.ofDigits (2 ^ w) (elemResults w f a b c n 0)) := by
    rw [← hv, BitVec.ofNat_toNat, BitVec.setWidth_eq]
  rw [he, elemBits_ofDigits hin _ (elemResults_lt w f a b c n 0)]
  apply BitVec.eq_of_toNat_eq
  simp [elemResults, hk]

/-- The sticky bits of `perElem`: ISAT where some element's number was replaced. -/
theorem perElem_isat {w : Nat} {f : DWord → DWord → DWord → DWord × Word} {a b c : DWord} {t : Ty} {sat : Bool}
    {v : Nat → Int} (h : ∀ k, (f (elemAt w k a) (elemAt w k b) (elemAt w k c)).2 = isatOf t sat [v k]) (n e : Nat) :
    (perElem w f a b c n e).2 = isatOf t sat ((List.range n).map fun k => v (e + k)) := by
  induction n generalizing e with
  | zero => simp [perElem]
  | succ n ih =>
    rw [List.range_succ_eq_map, List.map_cons, isatOf_cons, perElem, h, ih]
    simp [Function.comp_def, Nat.add_assoc, Nat.add_comm 1]

/-- The exact result of an operation on element e of three operands. -/
def exactAt (t : Ty) (f : Int → Int → Int → Int) (a b c : DWord) (e : Nat) : Int :=
  f (number t (elemBits (tyBits t) e a)) (number t (elemBits (tyBits t) e b)) (number t (elemBits (tyBits t) e c))

/-- R70: each element is the exact result, held to the type's range under saturate, reduced to the type's bits. -/
theorem arith_elem (t : Ty) (sat : Bool) (f : Int → Int → Int → Int) (a b c : DWord) {e : Nat} (he : e < elemCount t) :
    elemBits (tyBits t) e (arith t sat f a b c).1 = BitVec.ofInt _ (saturated t sat (exactAt t f a b c e)) := by
  unfold elemCount at he
  unfold arith exactAt
  cases hp : tyPacked t with
  | true =>
    rw [hp] at he
    simp only [if_true] at he ⊢
    rw [perElem_elem (tyBits_pos t) _ _ _ _ ((tyPacked_bits hp).2.le.trans (by decide)) he]
    simp only [numOf_elemAt t (tyBits_pos t) (tyBits_le_64 t), narrow_val, setWidth_widen (tyBits_le_64 t)]
  | false =>
    obtain rfl : e = 0 := by simpa [hp] using he
    simp [numOf_eq_number t (tyBits_pos t), narrow_val, setWidth_widen (tyBits_le_64 t)]

/-- R66, R70: ISAT is set where saturation replaces an element. -/
theorem arith_isat (t : Ty) (sat : Bool) (f : Int → Int → Int → Int) (a b c : DWord) :
    (arith t sat f a b c).2 = isatOf t sat ((List.range (elemCount t)).map (exactAt t f a b c)) := by
  unfold arith elemCount
  cases hp : tyPacked t with
  | true =>
    simp only [if_true]
    rw [perElem_isat (t := t) (sat := sat) (v := exactAt t f a b c)
      fun k => by simp only [narrow_bits, numOf_elemAt t (tyBits_pos t) (tyBits_le_64 t), exactAt]]
    simp
  | false => simp [narrow_bits, exactAt, numOf_eq_number t (tyBits_pos t)]

/-! ### Inline integers in packed words (R65) -/

/-- A packed word with an integer in every element. -/
def inEach (t : Ty) (k : BitVec 5) : DWord :=
  BitVec.ofNat 64 (Nat.ofDigits (2 ^ tyBits t) (List.replicate (32 / tyBits t) (BitVec.ofInt (tyBits t) k.toInt).toNat))

theorem foldl_places (p w e n : Nat) (h : p = 2 ^ w) :
    (List.range n).foldl (fun m i => m + e * 2 ^ (w * i)) 0 = Nat.ofDigits p (List.replicate n e) := by
  induction n with
  | zero => rfl
  | succ n ih =>
    rw [List.range_succ, List.foldl_append, ih, List.replicate_succ', Nat.ofDigits_append, Nat.ofDigits_singleton,
      List.length_replicate, h, ← Nat.pow_mul, Nat.mul_comm _ e]
    rfl

/-- What an operand of R70 contributes, of the value it reads: an inline integer under a packed type stands in every
element. -/
def packedVal (t : Ty) (wide : Bool) (p : Operand) (v : DWord) : DWord :=
  match p with
  | .int k => if tyPacked t then fitWidth wide (inEach t k) else v
  | _ => v

theorem operand_packed (i : Issuer) (s : State) (t : Ty) (wide : Bool) (p : Operand) (l : Nat) :
    i.operand s (packedOperand t p) wide l =
      { val := packedVal t wide p (i.operand s p wide l).val, lab := (i.operand s p wide l).lab } := by
  cases p with
  | int k =>
    have hlow : (lowBits (tyBits t) k.toInt).toNat = (BitVec.ofInt (tyBits t) k.toInt).toNat := by
      rw [lowBits_eq, BitVec.toNat_setWidth_of_le (tyBits_le_64 t)]
    cases hp : tyPacked t with
    | true => simp [packedOperand, packedVal, hp, Issuer.operand, inEach, hlow, foldl_places _ _ _ _ rfl]
    | false => simp [packedOperand, packedVal, hp, Issuer.operand]
  | _ => rfl

/-- Each element of it is the element of the operand. -/
theorem elemBits_packedVal (t : Ty) (wide : Bool) (p : Operand) (v : DWord) {e : Nat} (he : e < elemCount t) :
    elemBits (tyBits t) e (packedVal t wide p v) = elemOf t p v e := by
  cases p with
  | int k =>
    cases hp : tyPacked t with
    | true =>
      have hin := elem_in_width he
      rw [(tyPacked_bits hp).1] at hin
      have hn : e < 32 / tyBits t := by simpa [elemCount, hp] using he
      have hlt : ∀ d ∈ List.replicate (32 / tyBits t) (BitVec.ofInt (tyBits t) k.toInt).toNat, d < 2 ^ tyBits t :=
        fun d hd => List.eq_of_mem_replicate hd ▸ BitVec.isLt _
      simp only [packedVal, elemOf, hp, if_true]
      rw [elemBits_fitWidth (by cases wide <;> simp at hin ⊢ <;> omega), inEach,
        elemBits_ofDigits (by simp at hin; omega) _ hlt, List.getD_eq_getElem _ _ (by simpa using hn),
        List.getElem_replicate, BitVec.ofNat_toNat, BitVec.setWidth_eq]
    | false => simp [packedVal, elemOf, hp]
  | _ => rfl

/-! ### An instruction of R70 -/

theorem killed_packedArgs (i : Issuer) (o : Op) (x : Args) : i.killed o (packedArgs x) = i.killed o x := by
  have key : ∀ (p : Operand) (lr wide : Bool), operandKills (packedOperand x.ty p) lr wide = operandKills p lr wide := by
    intro p lr wide
    cases p with
    | int k => unfold packedOperand; dsimp only; split <;> rfl
    | _ => rfl
  simp only [Issuer.killed, packedArgs, key]

/-- Results go where they would without the packing of inline integers. -/
theorem compute_packedArgs (s : State) (i : Issuer) (o : Op) (x : Args) (rs : List Res) :
    s.compute i o (packedArgs x) rs = s.compute i o x rs := by
  simp only [State.compute, Issuer.computed, killed_packedArgs]
  rfl

/-- The meaning of an instruction of R70 in a lane, from the values its operands read. -/
def integerOf (o : Op) (f : Int → Int → Int → Int) (x : Args) (a b c : DWord) : DWord × Word :=
  arith x.ty x.sat f (packedVal x.ty (o.aWide x.ty x.src x.mods) x.a a) (packedVal x.ty (o.bWide x.ty) x.b b)
    (packedVal x.ty (o.cWide x.ty) x.c c)

theorem integer_eq (s : State) (i : Issuer) (o : Op) (x : Args) (f : Int → Int → Int → Int) :
    s.integer i o x f = s.laneWise i o x (integerOf o f x) := by
  simp only [State.integer, State.laneWise, compute_packedArgs]
  simp only [packedArgs, operand_packed]
  rfl

/-- The exact result of an instruction of R70 on element e of its operands. -/
def exactOf (f : Int → Int → Int → Int) (x : Args) (a b c : DWord) (e : Nat) : Int :=
  f (number x.ty (elemOf x.ty x.a a e)) (number x.ty (elemOf x.ty x.b b e)) (number x.ty (elemOf x.ty x.c c e))

theorem exactAt_packed (o : Op) (f : Int → Int → Int → Int) (x : Args) (a b c : DWord) {e : Nat} (he : e < elemCount x.ty) :
    exactAt x.ty f (packedVal x.ty (o.aWide x.ty x.src x.mods) x.a a) (packedVal x.ty (o.bWide x.ty) x.b b)
      (packedVal x.ty (o.cWide x.ty) x.c c) e = exactOf f x a b c e := by
  simp only [exactAt, exactOf, elemBits_packedVal _ _ _ _ he]

theorem integerOf_elem (o : Op) (f : Int → Int → Int → Int) (x : Args) (a b c : DWord) {e : Nat} (he : e < elemCount x.ty) :
    elemBits (tyBits x.ty) e (fitWidth x.ty.wide (integerOf o f x a b c).1) =
      BitVec.ofInt _ (saturated x.ty x.sat (exactOf f x a b c e)) := by
  rw [elemBits_fitWidth (elem_in_width he), integerOf, arith_elem _ _ _ _ _ _ he, exactAt_packed o f x a b c he]

theorem integerOf_isat (o : Op) (f : Int → Int → Int → Int) (x : Args) (a b c : DWord) :
    (integerOf o f x a b c).2 = isatOf x.ty x.sat ((List.range (elemCount x.ty)).map (exactOf f x a b c)) := by
  rw [integerOf, arith_isat]
  congr 1
  exact List.map_congr_left fun e he => exactAt_packed o f x a b c (List.mem_range.1 he)

theorem elementwise_eq (o : Op) (f : Int → Int → Int → Int) :
    elementwise o f = own o
      (fun x a b c r => ∀ e, e < elemCount x.ty →
        elemBits (tyBits x.ty) e r = BitVec.ofInt _ (saturated x.ty x.sat (exactOf f x a b c e)))
      (fun x a b c => isatOf x.ty x.sat ((List.range (elemCount x.ty)).map (exactOf f x a b c))) := rfl

/-- An instruction that the model gives R70's meaning completes with exact results. -/
theorem integer_computes {o : Op} (f : Int → Int → Int → Int)
    (hx : ∀ s i x, s.issuer = some i → exec (o.mk x) s = .next (s.integer i o x f))
    (hd : ∀ sub mods, (o.dests sub mods).2.2 = false) (hw : ∀ ty sub mods, o.dWide ty sub mods = ty.wide) :
    Computes o (elementwise o f) := by
  rw [elementwise_eq]
  refine own_computes_reg (integerOf o f) (fun s i x h => ?_) hd (fun x _ a b c e he => ?_)
    (fun x _ a b c => integerOf_isat o f x a b c)
  · rw [hx s i x h, integer_eq]
  · rw [hw]
    exact integerOf_elem o f x a b c he

theorem elemCount_pos (t : Ty) : 0 < elemCount t := by cases t <;> decide

theorem elemOf_unpacked {t : Ty} (h : tyPacked t = false) (p : Operand) (v : DWord) (e : Nat) :
    elemOf t p v e = elemBits _ e v := by
  cases p <;> simp [elemOf, h]

/-- mul.hi (R70) takes no packed type and no saturate setting. -/
theorem mulHi_unpacked {x : Args} (h : x.Parts .mulHi) : tyPacked x.ty = false ∧ x.sat = false := by
  have ht : x.ty ∈ [Ty.s32, .n32, .s64, .n64] := type_listed h (List.cons_ne_nil _ _)
  refine ⟨?_, unsaturated h rfl⟩
  revert ht
  cases x.ty <;> decide

/-- The high half of the exact product of two operands (R70). -/
def highHalf (x : Args) (a b _c : Int) : Int := (a * b).fdiv (2 ^ tyBits x.ty)

theorem mulHi_val {x : Args} (h : x.Parts .mulHi) (a b c : DWord) :
    elemBits (tyBits x.ty) 0 (fitWidth x.ty.wide (integerOf .mulHi (highHalf x) x a b c).1) = BitVec.ofInt _
      (number x.ty (elemBits (tyBits x.ty) 0 a) * number x.ty (elemBits (tyBits x.ty) 0 b) / 2 ^ tyBits x.ty) := by
  obtain ⟨hp, hs⟩ := mulHi_unpacked h
  rw [integerOf_elem _ _ _ _ _ _ (elemCount_pos _), hs]
  simp only [saturated, Bool.false_eq_true, if_false, exactOf, highHalf, elemOf_unpacked hp]
  rw [Int.fdiv_eq_ediv_of_nonneg _ (by positivity)]

theorem mulHi_bits {x : Args} (h : x.Parts .mulHi) (a b c : DWord) : (integerOf .mulHi (highHalf x) x a b c).2 = 0 := by
  rw [integerOf_isat, (mulHi_unpacked h).2, isatOf_unsaturated]

end Sys2Proof.Machine

namespace Sys2Proof.Proofs

open Sys2Proof.Machine

/-- Settles O1: the eight element-wise instructions are `integer_computes` on their exact operation; mul.hi, whose types
have one element, is its own case. -/
theorem integerArithmeticResults : Obligations.IntegerArithmeticResults := by
  unfold Obligations.IntegerArithmeticResults
  refine ⟨?add, ?sub, ?mulLo, ?mad, ?minI, ?maxI, ?absI, ?negI, ?mulHi⟩
  case mulHi =>
    exact own_computes_reg (fun x => integerOf .mulHi (highHalf x) x)
      (fun s i x h => (issued_eq h _).trans (by rw [← integer_eq]; rfl)) (fun _ _ => rfl)
      (fun _ h _ _ _ => mulHi_val h _ _ _) (fun _ h _ _ _ => mulHi_bits h _ _ _)
  case absI =>
    refine integer_computes _ (fun s i x h => ?_) (fun _ _ => rfl) (fun _ _ _ => rfl)
    simp only [← Int.natCast_natAbs]
    exact issued_eq h _
  all_goals exact integer_computes _ (fun s i x h => issued_eq h _) (fun _ _ => rfl) (fun _ _ _ => rfl)

end Sys2Proof.Proofs
end

section
/-! SUPPORT. The instructions of R71, R72 and R78 to R82, and the proof of WideConvertLogicAndMoveResults. -/

namespace Sys2Proof.Machine

/-! ### mad.wide and lea (R71, R80) -/

/-- The low 32 bits of a value, read as a signed or unsigned number, put into 64 bits. -/
theorem ofInt_low_word (sg : Bool) (v : DWord) :
    BitVec.ofInt 64 (numOf sg 32 v) = if sg then (v.setWidth 32).signExtend 64 else (v.setWidth 32).setWidth 64 := by
  cases sg with
  | false => exact (congrArg _ (numOf_eq_number .n32 (by decide) v)).trans (ofInt_number .n32 64 _)
  | true => exact (congrArg _ (numOf_eq_number .s32 (by decide) v)).trans (ofInt_number .s32 64 _)

/-- mad.wide: the sum modulo 2 ^ 64 of the extended words' product and c. -/
theorem madWide_val {x : Args} (h : x.Parts .madWide) (a b c : DWord) :
    let ext := fun (v : DWord) => if x.ty = .s32 then (v.setWidth 32).signExtend 64 else (v.setWidth 32).setWidth 64
    lowBits 64 (numOf (tySigned x.ty) 32 a * numOf (tySigned x.ty) 32 b + c.toNat) = ext a * ext b + c := by
  have ht : x.ty ∈ [Ty.s32, .n32] := type_listed h (List.cons_ne_nil _ _)
  have hs : tySigned x.ty = decide (x.ty = .s32) := by
    revert ht
    cases x.ty <;> decide
  simp only [lowBits_64, BitVec.ofInt_add, BitVec.ofInt_mul, ofInt_low_word, ofInt_toNat, hs, decide_eq_true_eq]

theorem ofInt_shift (k : Int) (n : Nat) : BitVec.ofInt 64 (k * 2 ^ n) = BitVec.ofInt 64 k <<< n := by
  have h : BitVec.ofInt 64 ((2 : Int) ^ n) = BitVec.twoPow 64 n := by
    apply BitVec.eq_of_toNat_eq
    rw [← Nat.cast_two, ← Nat.cast_pow, BitVec.ofInt_natCast, BitVec.toNat_ofNat, BitVec.toNat_twoPow]
  rw [BitVec.ofInt_mul, h, BitVec.shiftLeft_eq_mul_twoPow]

/-- lea: the base, the scaled index and the offset, modulo 2 ^ 64. -/
theorem lea_val {x : Args} (h : x.Parts .lea) (a b : DWord) :
    let k : DWord := if x.ty = .n64 then (b.setWidth 32).setWidth 64
      else if x.ty = .s64 then (b.setWidth 32).signExtend 64 else b
    let i : Int := if x.ty = .b64 then b.toNat else numOf (tySigned x.ty) 32 b
    lowBits 64 (a.toNat + i * 2 ^ x.mods.toNat + x.off.toInt) = a + (k <<< x.mods.toNat) + x.off.signExtend 64 := by
  intro k i
  have ht : x.ty ∈ [Ty.n64, .s64, .b64] := type_listed h (List.cons_ne_nil _ _)
  have hi : BitVec.ofInt 64 i = k := by
    simp only [i, k]
    simp only [List.mem_cons, List.not_mem_nil, or_false] at ht
    rcases ht with ht | ht | ht
    · simp [ht, ofInt_low_word, tySigned]
    · simp [ht, ofInt_low_word, tySigned]
    · rw [ht]
      exact ofInt_toNat b
  rw [lowBits_64, BitVec.ofInt_add, BitVec.ofInt_add, ofInt_toNat, ofInt_shift, hi]
  rfl

/-! ### dp4 (R81) -/

/-- The model's sum of products is the sum over the elements from element e on. -/
theorem dotBits_eq (t : Ty) {w : Nat} (h0 : 0 < w) (hw : w ≤ 64) (a b : DWord) (n e : Nat) :
    dotBits (tySigned t) w a b n e =
      ((List.range n).map fun k => number t (elemBits w (e + k) a) * number t (elemBits w (e + k) b)).sum := by
  induction n generalizing e with
  | zero => rfl
  | succ n ih =>
    rw [dotBits, ih, List.range_succ_eq_map, List.map_cons, List.sum_cons, numOf_elemAt t h0 hw, numOf_elemAt t h0 hw]
    simp [Function.comp_def, Nat.add_assoc, Nat.add_comm 1]

/-- The word type of dp4's sum: of the elements' signedness. -/
def dotWord (x : Args) : Ty := if tySigned x.ty then .s32 else .n32

theorem dotWord_signed (x : Args) : tySigned (dotWord x) = tySigned x.ty := by
  unfold dotWord; cases tySigned x.ty <;> rfl

theorem dotWord_bits (x : Args) : tyBits (dotWord x) = 32 := by
  unfold dotWord; cases tySigned x.ty <;> rfl

/-- The exact result of dp4. -/
def exactDot (x : Args) (a b c : DWord) : Int :=
  number (dotWord x) (c.setWidth 32)
    + ((List.range (32 / tyBits x.ty)).map fun k =>
        number x.ty (elemBits (tyBits x.ty) k a) * number x.ty (elemBits (tyBits x.ty) k b)).sum

theorem exactDot_eq (x : Args) (a b c : DWord) :
    numOf (tySigned x.ty) 32 c + dotBits (tySigned x.ty) (tyBits x.ty) a b (32 / tyBits x.ty) 0 = exactDot x a b c := by
  rw [dotBits_eq x.ty (tyBits_pos _) (tyBits_le_64 _), ← dotWord_signed, numOf_eq_number _ (by decide)]
  simp only [Nat.zero_add, exactDot]

/-- A number put into dp4's word type. -/
theorem narrow_dotWord (x : Args) (v : Int) (wide : Bool) :
    (fitWidth wide (narrow (dotWord x) x.sat v).1).setWidth 32 = BitVec.ofInt 32 (saturated (dotWord x) x.sat v) := by
  rw [setWidth_fitWidth (by cases wide <;> decide), narrow_val, dotWord_bits, setWidth_widen (by decide)]

/-! ### cvt (R82) -/

/-- A value that holds no more bits than its position keeps them all. -/
theorem fitWidth_widen {w : Nat} {wide : Bool} (h : w ≤ if wide then 64 else 32) (b : BitVec w) :
    fitWidth wide (b.setWidth 64) = b.setWidth 64 := by
  cases wide with
  | true => rfl
  | false =>
    have hlt : b.toNat < 2 ^ 32 := b.isLt.trans_le (Nat.pow_le_pow_right (by decide) h)
    apply BitVec.eq_of_toNat_eq
    simp only [fitWidth, Bool.false_eq_true, if_false, BitVec.toNat_setWidth]
    omega

/-- A number put into a type, and extended to 32 bits by its sign where the type is signed and narrower. -/
theorem cvtBits_val (t : Ty) (sat : Bool) (n : Int) :
    (cvtBits t sat n).1 = if tySigned t ∧ tyBits t < 32
      then ((BitVec.ofInt (tyBits t) (saturated t sat n)).signExtend 32).setWidth 64
      else (BitVec.ofInt (tyBits t) (saturated t sat n)).setWidth 64 := by
  unfold cvtBits
  dsimp only
  by_cases h : tyBits t < 32
  · rw [if_pos h, lowBits_eq, numOf_eq_number t (tyBits_pos t), narrow_val, setWidth_widen (tyBits_le_64 t), ofInt_number]
    cases hs : tySigned t with
    | true => simp [h]
    | false => simp [h.le]
  · rw [if_neg h, if_neg fun e => h e.2, narrow_val]

/-- ISAT, where the number converted lies outside the type's range. -/
theorem cvtBits_isat (t : Ty) (sat : Bool) (n : Int) : (cvtBits t sat n).2 = isatOf t sat [n] := by
  rw [← narrow_bits]
  unfold cvtBits
  dsimp only
  split <;> rfl

/-- What cvt's destination shows. -/
theorem cvt_shows (t : Ty) (sat : Bool) (n : Int) :
    let v : BitVec (tyBits t) := BitVec.ofInt _ (saturated t sat n)
    let r := fitWidth t.wide (cvtBits t sat n).1
    if tySigned t ∧ tyBits t < 32 then r.setWidth 32 = v.signExtend 32 else r = v.setWidth 64 := by
  intro v r
  have hr : r = fitWidth t.wide (cvtBits t sat n).1 := rfl
  rw [cvtBits_val] at hr
  split at hr
  case isTrue h =>
    rw [if_pos h, hr, setWidth_fitWidth (by split <;> decide), setWidth_widen (by decide)]
  case isFalse h =>
    rw [if_neg h, hr, fitWidth_widen (bits_in_width t)]

/-! ### Bitwise instructions (R72) -/

/-- A bitwise instruction computes its operation on the type's bits. -/
theorem bitwise_computes {o : Op} (f : DWord → DWord → DWord)
    (hx : ∀ s i x, s.issuer = some i → exec (o.mk x) s = .next (s.bitwise i o x f))
    (hd : ∀ sub mods, (o.dests sub mods).2.2 = false) (hw : ∀ ty sub mods, o.dWide ty sub mods = ty.wide) :
    Computes o (own o fun x a b _ r => r.setWidth (tyBits x.ty) = (f a b).setWidth (tyBits x.ty)) := by
  refine own_computes_reg (fun x a b _ => (fitWidth x.ty.wide (f a b), 0)) hx hd (fun x _ a b c => ?_) (fun _ _ _ _ _ => rfl)
  rw [hw, setWidth_fitWidth (bits_in_width _), setWidth_fitWidth (bits_in_width _)]

/-! ### sel (R78) -/

/-- The third operand of sel is a predicate. -/
theorem sel_pred {x : Args} (h : x.Parts .sel) : ∃ p, x.c = .pred p := fits_pred h.c

/-- What sel gives in a lane: the chosen operand's value, with the label of all three. -/
def selVal (s : State) (i : Issuer) (x : Args) (l : Nat) : Val where
  val := if (opC .sel s i x l).val = 1 then (opA .sel s i x l).val else (opB .sel s i x l).val
  lab := i.label [opA .sel s i x l, opB .sel s i x l, opC .sel s i x l]

theorem opC_pred {o : Op} {x : Args} {p : BitVec 3} (h : x.c = .pred p) (s : State) (i : Issuer) (l : Nat) :
    opC o s i x l = { val := bit ((i.yarn.lane l).pred p) } := by
  rw [opC, h]
  rfl

/-- An operand of label 0 at the end of a list does not count in a result's label. -/
theorem label_open (i : Issuer) (u v w : Val) (h : w.lab = 0) : i.label [u, v, w] = i.label [u, v] := by
  simp [Issuer.label, h, lmax]

theorem selVal_lab {x : Args} (h : x.Parts .sel) (s : State) (i : Issuer) (l : Nat) :
    (selVal s i x l).lab = i.label [opA .sel s i x l, opB .sel s i x l] := by
  obtain ⟨p, hp⟩ := sel_pred h
  exact label_open i _ _ _ (congrArg Val.lab (opC_pred hp s i l))

/-- The predicate's truth chooses the operand, whose value has the destination's width. -/
theorem selVal_val {x : Args} {p : BitVec 3} (hp : x.c = .pred p) (s : State) (i : Issuer) (l : Nat) :
    fitWidth x.ty.wide (selVal s i x l).val =
      (if (i.yarn.lane l).pred p then opA .sel s i x l else opB .sel s i x l).val := by
  have hA : fitWidth x.ty.wide (opA .sel s i x l).val = (opA .sel s i x l).val := fitWidth_operand _ _ _ _ _
  have hB : fitWidth x.ty.wide (opB .sel s i x l).val = (opB .sel s i x l).val := fitWidth_operand _ _ _ _ _
  rw [selVal, opC_pred hp]
  cases (i.yarn.lane l).pred p with
  | true => exact hA
  | false => exact hB

end Sys2Proof.Machine

namespace Sys2Proof.Proofs

open Sys2Proof Sys2Proof.Machine

/-- The results of R71, R80, R81 and R82. -/
theorem wideAddressDotConvertResults : WideAddressDotConvertResults := by
  unfold WideAddressDotConvertResults
  refine ⟨?madWide, ?lea, ?dp4, ?cvt⟩
  case madWide =>
    exact own_computes_reg _ (fun s i x h => issued_eq h _) (fun _ _ => rfl) (fun _ h a b c => madWide_val h a b c)
      (fun _ _ _ _ _ => rfl)
  case lea =>
    exact own_computes_reg _ (fun s i x h => issued_eq h _) (fun _ _ => rfl) (fun _ h a b _ => lea_val h a b)
      (fun _ _ _ _ _ => rfl)
  case dp4 =>
    exact own_computes_reg (fun x a b c => narrow (dotWord x) x.sat (exactDot x a b c))
      (fun s i x h => (issued_eq h _).trans (by simp only [← exactDot_eq]; rfl)) (fun _ _ => rfl)
      (fun x _ _ _ _ => narrow_dotWord x _ _) (fun x _ _ _ _ => narrow_bits _ _ _)
  case cvt =>
    refine own_computes_reg (fun x a _ _ => cvtBits x.ty x.sat (number x.src (a.setWidth (tyBits x.src))))
      (fun s i x h => ?_) (fun _ _ => rfl) (fun x _ _ _ _ => cvt_shows _ _ _) (fun x _ _ _ _ => cvtBits_isat _ _ _)
    simp only [← numOf_eq_number _ (tyBits_pos _)]
    exact issued_eq h _

/-- The results of R72, R78 and R79. -/
theorem logicSelectMoveResults : LogicSelectMoveResults := by
  unfold LogicSelectMoveResults
  refine ⟨?andB, ?orB, ?xorB, ?andn, ?notB, ?sel, ?mov, ?movi⟩
  case sel =>
    refine each_lane_computes selVal (fun s i x _ h => issued_eq h _) (fun _ _ => rfl) (fun s i x h l => selVal_lab h s i l)
      (fun s i x h l => ?_)
    obtain ⟨p, hp⟩ := sel_pred h
    simp only [hp]
    exact selVal_val hp s i l
  case mov => exact copy_computes (fun s i x h => issued_eq h _) (fun _ _ => rfl) (fun _ _ _ _ => rfl)
  case movi => exact copy_computes (fun s i x h => issued_eq h _) (fun _ _ => rfl) (fun _ _ _ _ => rfl)
  all_goals exact bitwise_computes _ (fun s i x h => issued_eq h _) (fun _ _ => rfl) (fun _ _ _ => rfl)

/-- Settles O2: every value is the model's, put into the statement's terms by the lemmas of its instruction. -/
theorem wideConvertLogicAndMoveResults : Obligations.WideConvertLogicAndMoveResults :=
  ⟨wideAddressDotConvertResults, logicSelectMoveResults⟩

end Sys2Proof.Proofs
end

section
/-! SUPPORT. perm and lut16, and the proof of BytePickResults (R84, R85): both put four bytes into a word, each picked from
a table by a number in an operand. -/

namespace Sys2Proof.Machine

/-! ### A word of four bytes -/

/-- The word whose byte k is f k. -/
def byteWord (f : Nat → Nat) : DWord := BitVec.ofNat 64 (f 0 + 256 * f 1 + 65536 * f 2 + 16777216 * f 3)

theorem elemBits_byteWord {f : Nat → Nat} (h : ∀ k, f k < 256) (wide : Bool) {k : Nat} (hk : k < 4) :
    elemBits 8 k (fitWidth wide (byteWord f)) = BitVec.ofNat 8 (f k) := by
  have hd : byteWord f = BitVec.ofNat 64 (Nat.ofDigits (2 ^ 8) ((List.range 4).map f)) := by
    have : Nat.ofDigits (2 ^ 8) [f 0, f 1, f 2, f 3] = f 0 + 256 * f 1 + 65536 * f 2 + 16777216 * f 3 := by
      simp only [Nat.ofDigits_cons, Nat.ofDigits_nil]
      omega
    exact congrArg _ this.symm
  have hlt : ∀ d ∈ (List.range 4).map f, d < 2 ^ 8 := by
    intro d hd
    obtain ⟨j, -, rfl⟩ := List.mem_map.1 hd
    exact h j
  rw [elemBits_fitWidth (by split <;> omega), hd, elemBits_ofDigits (by omega) _ hlt]
  simp [hk]

/-! ### perm (R84) -/

/-- The eight bytes perm picks from. -/
theorem pair_toNat (a b : DWord) :
    b.toNat % 2 ^ 32 * 2 ^ 32 + a.toNat % 2 ^ 32 = (b.setWidth 32 ++ a.setWidth 32 : DWord).toNat := by
  rw [BitVec.toNat_append, BitVec.toNat_setWidth, BitVec.toNat_setWidth,
    ← Nat.shiftLeft_add_eq_or_of_lt (Nat.mod_lt _ (Nat.two_pow_pos 32)), Nat.shiftLeft_eq]

theorem permByte_lt (q c k : Nat) : permByte q c k < 256 := by
  unfold permByte
  dsimp only
  split
  · decide
  · exact Nat.mod_lt _ (by decide)

/-- Byte k: zero where its selector's bit 3 is set, else the byte of the table that its low bits name. -/
theorem permByte_val (q c : DWord) (k : Nat) :
    BitVec.ofNat 8 (permByte q.toNat c.toNat k) =
      if 8 ≤ (elemBits 4 k c).toNat then 0 else elemBits 8 (elemBits 4 k c).toNat q := by
  have hs : (elemBits 4 k c).toNat = c.toNat / 16 ^ k % 16 := by
    rw [elemBits_toNat, Nat.pow_mul]
    rfl
  have hb : ∀ n, BitVec.ofNat 8 (q.toNat / 256 ^ n % 256) = elemBits 8 n q := fun n => by
    apply BitVec.eq_of_toNat_eq
    rw [elemBits_toNat, BitVec.toNat_ofNat, Nat.mod_mod, Nat.pow_mul]
    rfl
  rw [permByte, hs]
  split
  · rfl
  · exact hb _

/-! ### lut16 (R85) -/

theorem lutByte_lt (tab a k : Nat) : lutByte tab a k < 256 := Nat.mod_lt _ (by decide)

/-- Byte n of a table of 4-byte words is byte n % 4 of word n / 4. -/
theorem byte_of_words (ws : List Nat) (h : ∀ w ∈ ws, w < 2 ^ 32) (n : Nat) :
    Nat.ofDigits (2 ^ 32) ws / 256 ^ n % 256 = ws.getD (n / 4) 0 / 2 ^ (8 * (n % 4)) % 256 := by
  have hn : 256 ^ n = (2 ^ 32) ^ (n / 4) * 2 ^ (8 * (n % 4)) := by
    rw [← Nat.pow_mul, ← Nat.pow_add, show (256 : Nat) = 2 ^ 8 from rfl, ← Nat.pow_mul]
    congr 1
    omega
  have hm : ∀ m, m / 2 ^ (8 * (n % 4)) % 256 = m % 2 ^ 32 / 2 ^ (8 * (n % 4)) % 256 := by
    intro m
    have hr : 2 ^ 32 = 2 ^ (8 * (n % 4)) * 2 ^ (32 - 8 * (n % 4)) := by
      rw [← Nat.pow_add]
      congr 1
      omega
    have hdvd : 256 ∣ 2 ^ (32 - 8 * (n % 4)) := Nat.pow_dvd_pow 2 (show 8 ≤ 32 - 8 * (n % 4) by omega)
    rw [hr, Nat.mod_mul_right_div_self, Nat.mod_mod_of_dvd _ hdvd]
  rw [hn, ← Nat.div_div_eq_div_mul, hm, ofDigits_digit (by decide) ws h]

/-- The four scalars from a number on, as words read in lut16's table. -/
def lutTable (i : Issuer) (n : Nat) : List Val := [0, 1, 2, 3].map fun j => i.bank.read (n + j) false

/-- lut16's table as the model forms it: the scalars' words, the lowest first. -/
theorem lutTable_number (i : Issuer) (n : Nat) :
    (lutTable i n).foldr (fun v k => v.val.toNat + 2 ^ 32 * k) 0 =
      Nat.ofDigits (2 ^ 32) ((lutTable i n).map fun v => v.val.toNat) := by
  simp [lutTable, Nat.ofDigits]

theorem lutTable_lt (i : Issuer) (n : Nat) : ∀ w ∈ (lutTable i n).map fun v => v.val.toNat, w < 2 ^ 32 := by
  intro w hw
  obtain ⟨v, hv, rfl⟩ := List.mem_map.1 hw
  obtain ⟨j, -, rfl⟩ := List.mem_map.1 hv
  exact (BitVec.toNat_setWidth_of_le (by decide : 32 ≤ 64)).trans_lt (BitVec.isLt _)

/-- A word of the table is the scalar it stands in. -/
theorem lutTable_word (i : Issuer) (n : Nat) {j : Nat} (hj : j < 4) :
    ((lutTable i n).map fun v => v.val.toNat).getD j 0 = ((i.bank.scalar (n + j)).val.setWidth 64 : DWord).toNat := by
  have hr : lutTable i n = (List.range 4).map fun j => i.bank.read (n + j) false := rfl
  simp [hr, hj, Bank.read]

/-- Byte k: the byte of the table that the low four bits of a's byte k name. -/
theorem lutByte_val (i : Issuer) (n : Nat) (a : DWord) (k : Nat) :
    let m := (elemBits 8 k a).toNat % 16
    BitVec.ofNat 8 (lutByte ((lutTable i n).foldr (fun v k => v.val.toNat + 2 ^ 32 * k) 0) a.toNat k) =
      elemBits 8 (m % 4) ((i.bank.scalar (n + m / 4)).val.setWidth 64) := by
  intro m
  have hm : a.toNat / 256 ^ k % 16 = m := by
    change _ = (elemBits 8 k a).toNat % 16
    rw [elemBits_toNat, Nat.pow_mul, Nat.mod_mod_of_dvd _ (by decide)]
  have hj : m / 4 < 4 := by omega
  apply BitVec.eq_of_toNat_eq
  rw [lutByte, hm, lutTable_number, byte_of_words _ (lutTable_lt i n), lutTable_word i n hj,
    elemBits_toNat, BitVec.toNat_ofNat, Nat.mod_mod]
  rfl

/-- The second operand of lut16 is the first of four scalars. -/
theorem lut16_scalar {x : Args} (h : x.Parts .lut16) : ∃ n, x.b = .s n := fits_scalar h.b

/-- lut16's operands and results are words (R85). -/
theorem lut16_narrow {x : Args} (h : x.Parts .lut16) : x.ty.wide = false := by
  have ht : x.ty ∈ [Ty.b32] := type_listed h (List.cons_ne_nil _ _)
  rw [List.mem_singleton.1 ht]
  rfl

/-- The number of the scalar at which lut16's table begins. -/
def lutStart (x : Args) : Nat :=
  match x.b with
  | .s n => n.toNat
  | _ => 0

/-- What lut16 gives in a lane. -/
def lutVal (s : State) (i : Issuer) (x : Args) (l : Nat) : Val where
  val := byteWord (lutByte ((lutTable i (lutStart x)).foldr (fun v k => v.val.toNat + 2 ^ 32 * k) 0)
    (opA .lut16 s i x l).val.toNat)
  lab := i.label (opA .lut16 s i x l :: lutTable i (lutStart x))

/-- A result's label depends on its operands' labels alone. -/
theorem label_congr (i : Issuer) (us vs : List Val) (h : us.map (·.lab) = vs.map (·.lab)) : i.label us = i.label vs := by
  have key : ∀ ws : List Val, i.label ws = (ws.map (·.lab)).foldl lmax i.bank.floor := fun ws => by
    rw [List.foldl_map]
    rfl
  rw [key, key, h]

/-- The label counts the table's four scalars. -/
theorem label_lutTable (i : Issuer) (u : Val) (n : Nat) :
    i.label (u :: lutTable i n) =
      i.label (u :: [0, 1, 2, 3].map fun j => { val := 0, lab := (i.bank.scalar (n + j)).lab }) :=
  label_congr i _ _ rfl

/-- lut16 computes `lutVal` in each executing lane. -/
theorem execLut16_eq {s : State} {i : Issuer} {x : Args} (h : x.Parts .lut16) (hs : s.issuer = some i) :
    execLut16 x s = .next (s.compute i .lut16 x ((i.lanes x).map fun l =>
      { lane := l, val := (lutVal s i x l).val, lab := (lutVal s i x l).lab })) := by
  have ha : ∀ l, i.operand s x.a false l = opA .lut16 s i x l := fun l => by
    rw [← lut16_narrow h]
    rfl
  rw [execLut16, issued_eq hs]
  simp only [ha]
  rfl

end Sys2Proof.Machine

namespace Sys2Proof.Proofs

open Sys2Proof Sys2Proof.Machine

/-- Settles O5: each byte of the word that the model forms is the one the entry picks. -/
theorem bytePickResults : Obligations.BytePickResults := by
  unfold Obligations.BytePickResults
  refine ⟨?perm, ?lut16⟩
  case perm =>
    refine own_computes_reg (fun _ a b c =>
        (byteWord (permByte (b.setWidth 32 ++ a.setWidth 32 : DWord).toNat c.toNat), 0))
      (fun s i x h => ?_) (fun _ _ => rfl) (fun x _ a b c k hk => ?_) (fun _ _ _ _ _ => rfl)
    · simp only [← pair_toNat]
      exact issued_eq h _
    · rw [elemBits_byteWord (permByte_lt _ _) _ hk]
      exact permByte_val _ c k
  case lut16 =>
    refine each_lane_computes lutVal (fun s i x hw hs => execLut16_eq (wf_parts hw) hs) (fun _ _ => rfl)
      (fun s i x h l => ?_) (fun s i x h l => ?_)
    all_goals
      obtain ⟨n, hn⟩ := lut16_scalar h
      have hst : lutStart x = n.toNat := by rw [lutStart, hn]
      simp only [hn]
    · rw [lutVal, hst]
      exact label_lutTable i _ _
    · intro k hk
      rw [lutVal, hst, elemBits_byteWord (lutByte_lt _ _) _ hk]
      exact lutByte_val i _ _ k

end Sys2Proof.Proofs
end
